-- ==== Sys2Proof/Word.lean ====
section
/-! DEFINITION. The machine's smallest data: the byte (R50) and the bit string (R12). -/

namespace Sys2Proof

/-- The unit of every memory space: 8 bits, bit 7 the most significant (R12, R50). -/
abbrev Byte := BitVec 8

/-- A bit string, first bit first (R12). -/
abbrev Bits := List Bool

end Sys2Proof
end

