-- ==== Sys2Proof/Syntax.lean ====
section
/-! DEFINITION. The operations and format elements of the engine: one constructor of `Instr` per row of
spec/opcode_table.json, with the data they carry (R4, R70, R97). -/

namespace Sys2Proof

/-- The four memory spaces (R40). -/
inductive Space
  | inp   -- IN
  | tb    -- TB
  | out   -- OUT
  | win   -- WIN
deriving DecidableEq, Repr

/-- The four error kinds of a call (R15, R240 to R244). -/
inductive ErrKind
  | malformedArchive
  | unexpectedEndOfStream
  | invalidToken
  | capacityExceeded
deriving DecidableEq, Repr

/-- A token of the LZ77 stage (R14, R16): `L(bb)` or `M(o,l)`. -/
inductive Token
  | lit (byte : Byte)
  | mat (offset length : Nat)
deriving DecidableEq, Repr

/-- The shape of a Huffman tree with its leaf values: all that an archive carries of it (R169, R175). -/
inductive Tree
  | leaf (val : Byte)
  | node (left right : Tree)
deriving DecidableEq, Repr

/-- One constructor per row of spec/opcode_table.json, in the table's order. Host commands first (R73), then the format
elements (R70), the internal operations (R97) and the pseudo-operations (R96). -/
inductive Instr
  -- host commands
  | compress
  | decompress
  -- format elements
  | flag (v : Byte)
  | literal (v : Byte)
  | matchTok (o : BitVec 12) (l : BitVec 4)
  | nodeInternal
  | nodeLeaf (v : Byte)
  | codeword (path : Bits)
  | magic
  | tokenLen (n : BitVec 32)
  | treeBitLen (t : BitVec 32)
  | treeBits (bits : Bits)
  | payloadBits (bits : Bits)
  -- bit writer and bit reader
  | bwInit
  | bwPutBit (b : Bool)
  | bwPutBits (v n : Nat)
  | bwAlign
  | brInit (start limit : Nat) (err : ErrKind)
  | brGetBit
  | brGetBits (n : Nat)
  -- window, match finder, replay
  | winInit
  | winPut (b : Byte)
  | winGet (d : Nat)
  | mfSearch
  | mfStep
  | replayMatch (offset length : Nat)
  | replayLiteral (b : Byte)
  -- token codec
  | teInit
  | tePutLiteral (b : Byte)
  | tePutMatch (offset length : Nat)
  | tbAppend (v : Byte)
  | teFlush
  | tdDecode
  | tdFlag
  | tdLiteral
  | tdMatch
  -- Huffman tree
  | hfCount
  | hfBuild
  | hfCodegen
  | hfSerTree
  | hfDeserTree
  -- Huffman codec
  | hfEncode
  | hfDecode
  -- archive
  | arPack
  | arUnpack
  -- pseudo-operations
  | bwPutByte (v : Byte)
  | bwPutU32 (v : BitVec 32)
  | bwPutCode (v : Byte)
  | winEmit (b : Byte)
deriving DecidableEq, Repr

end Sys2Proof
end

