-- ==== Sys2Proof/Config.lean ====
section
/-! DEFINITION. The constants the source fixes (R9), the parameters this hardware fixes (R10), and the values the spec
leaves open, as constants without a body. The open capacities IN_CAP, T_CAP and OUT_CAP are data of `State` (`Caps`). -/

namespace Sys2Proof.Config

/-- `WINDOW_SIZE` (R9). -/
abbrev windowSize : Nat := 4096
/-- `MIN_MATCH` (R9). -/
abbrev minMatch : Nat := 3
/-- `MAX_MATCH` (R9). -/
abbrev maxMatch : Nat := 18
/-- `GROUP_SIZE` (R9). -/
abbrev groupSize : Nat := 8
/-- `SYMBOLS` (R9). -/
abbrev symbols : Nat := 256
/-- `NODE_CAP` (R10, D17). -/
abbrev nodeCap : Nat := 511
/-- `MAGIC`, its two bytes as one number, first byte in the upper half (R10, R86). -/
abbrev magicWord : Nat := 0x435A
/-- First byte of `MAGIC` (R86). -/
abbrev magic0 : Byte := 0x43
/-- Second byte of `MAGIC` (R86). -/
abbrev magic1 : Byte := 0x5A
/-- Length in bytes of the archive header: `MAGIC`, `TOKEN_LEN`, `TREE_BIT_LEN` (R60). -/
abbrev headerBytes : Nat := 10
/-- The largest value `T_CAP` may take (R10). -/
abbrev maxTCap : Nat := 4294967295

/-- What a byte reads as that nothing has written since reset: the spec gives it 'any value' (R43, U3), so it is a free
value, one for each reset, space and address. It is not keyed by the instance, which has no identifier (R259): two instances
after as many resets read the same (DESIGN CHOICE, log entries 6 and 17). -/
opaque unwritten : Nat → Space → Nat → Byte

/-- What the host reads from `OUT` at or past `OUT_LEN`: 'any value' (R247, U4), a free value, one for each reset, accepted
command and index, so that reading is idempotent (R58). Like `unwritten` it is not keyed by the instance (DESIGN CHOICE, log
entries 5 and 17). -/
opaque freeByte : Nat → Nat → Nat → Byte

end Sys2Proof.Config
end

