-- ==== Sys2Proof/Machine/Bits.lean ====
section
/-! DEFINITION. Bit strings and numbers: most significant bit first (R12, R52, R53), and the byte counts of `ceil8`
(R13). -/

namespace Sys2Proof

/-- The `n` low bits of `v`, most significant first: `v[n-1] .. v[0]` (R53, R103). -/
def natBits : Nat → Nat → Bits
  | 0, _ => []
  | n + 1, v => v.testBit n :: natBits n v

/-- The number a bit string spells, first bit most significant, continuing from `acc` (R111). -/
def bitsNatFrom (acc : Nat) : Bits → Nat
  | [] => acc
  | b :: bs => bitsNatFrom (2 * acc + b.toNat) bs

/-- The number a bit string spells, first bit most significant (R111). -/
def bitsNat (bs : Bits) : Nat := bitsNatFrom 0 bs

/-- The 8 bits of a byte, bit 7 first (R52, R53). -/
def byteBits (b : Byte) : Bits := natBits 8 b.toNat

/-- The bits of a byte string, in order. -/
def bytesBits : List Byte → Bits
  | [] => []
  | b :: bs => byteBits b ++ bytesBits bs

/-- `ceil8(n) = (n + 7) div 8` on natural numbers, so without wrap-around (R13, R286). -/
def ceil8 (n : Nat) : Nat := (n + 7) / 8

/-- Number of pad bits that bring `n` bits to a byte boundary: 0 to 7 (R89). -/
def padCount (n : Nat) : Nat := 8 * ceil8 n - n

/-- A bit string with the zero pad bits that bring it to a byte boundary (R89, R90). -/
def padded (bs : Bits) : Bits := bs ++ List.replicate (padCount bs.length) false

/-- The first `n` bits of a bit string and what follows them, if it has that many. -/
def takeBits : Nat → Bits → Option (Bits × Bits)
  | 0, bs => some ([], bs)
  | _ + 1, [] => none
  | n + 1, b :: bs =>
    match takeBits n bs with
    | some (pre, rest) => some (b :: pre, rest)
    | none => none

end Sys2Proof
end

