-- ==== Sys2Proof/Machine/State.lean ====
section
/-! DEFINITION. The state of one engine instance as plain data (10_state.md), its reset value, and the reasons a step
stops. Every counter and index is a natural number, as R45 allows; bytes are `BitVec 8`. -/

namespace Sys2Proof.Machine

/-- A memory space: (address, byte) pairs, addresses strictly rising; an address not listed holds no value yet (R40, R57). -/
abbrev Mem := List Host.Cell

/-- A register array of the datapath, sparse: (index, entry) pairs, indices strictly rising. -/
abbrev Table (α : Type) := List (Nat × α)

/-- The sequencer register `PHASE` (R22). -/
inductive Phase
  | idle
  | cTokens
  | cCount
  | cBuild
  | cPack
  | dUnpack
  | dHuff
  | dTokens
deriving DecidableEq, Repr

/-- Where within a phase the sequencer stands: the line of the pseudocode of R201, R205, R223 and R224 whose operation it
invokes next. The MODEL's own (log entry 3). -/
inductive Line
  /-- the first line of the phase -/
  | start
  /-- C_TOKENS: `TE_INIT` -/
  | teInit
  /-- C_TOKENS: the test `CUR < IN_LEN` -/
  | tokens
  /-- C_TOKENS: hand the token to the token encoder -/
  | put
  /-- C_BUILD: `HF_CODEGEN` -/
  | codegen
  /-- C_PACK: `BW_INIT` -/
  | bwInit
  /-- C_PACK: write `MAGIC` -/
  | magic
  /-- `TOKEN_LEN` -/
  | tokenLen
  /-- `TREE_BIT_LEN` -/
  | treeBitLen
  /-- C_PACK: `TREE_BITS`; D_UNPACK: set up the tree region -/
  | treeBits
  /-- D_UNPACK: the nodes of the tree -/
  | nodes
  /-- C_PACK: `HF_ENCODE`; D_UNPACK: the last checks and the payload region -/
  | payload
  /-- C_PACK: the last `BW_ALIGN` -/
  | align
  /-- C_PACK: the end of the call -/
  | finish
  /-- D_TOKENS: the test `TP < N` before a flag byte -/
  | flag
  /-- D_TOKENS: token `i` of the group (the loop variable `i` of R150) -/
  | token (i : Nat)
deriving DecidableEq, Repr

/-- `PHASE` and the line within it. -/
structure Sequencer where
  phase : Phase
  line : Line
deriving DecidableEq, Repr

/-- The host registers that hold a value (R24): `STATUS`, `ERRCODE`, `IN_LEN`, `OUT_LEN`. `CMD` holds none (R25). -/
structure HostRegs where
  status : Byte
  errcode : Byte
  inLen : Nat
  outLen : Nat
deriving DecidableEq, Repr

/-- The open capacities of R10: `IN_CAP`, `T_CAP`, `OUT_CAP`. Fixed for a machine; no operation writes them. -/
structure Caps where
  inCap : Nat
  tCap : Nat
  outCap : Nat
deriving DecidableEq, Repr

/-- `CUR`, `BESTLEN`, `BESTOFF` (R21). -/
structure MatchFinder where
  cur : Nat
  bestLen : Nat
  bestOff : Nat
deriving DecidableEq, Repr

/-- The sliding window: `WIN`, `WPOS`, `WFILL` (R21, R41). -/
structure Window where
  mem : Mem
  pos : Nat
  fill : Nat
deriving DecidableEq, Repr

/-- The token encoder: `FLG`, `GC`, `GPLEN`, `GP` (R21, R37). -/
structure TokenEncoder where
  flg : Byte
  gc : Nat
  gplen : Nat
  gp : Table Byte
deriving DecidableEq, Repr

/-- The token decoder: `TP`, `DFLG` (R21). -/
structure TokenDecoder where
  tp : Nat
  dflg : Byte
deriving DecidableEq, Repr

/-- The intermediate buffer `TB` and `TLEN` (R21, R40). -/
structure TokenBuffer where
  mem : Mem
  len : Nat
deriving DecidableEq, Repr

/-- The output buffer `OUT` and `OPTR` (R21, R40). -/
structure OutBuffer where
  mem : Mem
  ptr : Nat
deriving DecidableEq, Repr

/-- The priority key of a node, `(freq, minsym)` (R33, R165). -/
structure Key where
  freq : Nat
  minsym : Nat
deriving DecidableEq, Repr

/-- An entry of the node store (R33). On decompression `freq` and `minsym` are not carried: the key is absent. -/
inductive Node
  | leaf (val : Byte) (key : Option Key)
  | internal (left right : Nat) (key : Option Key)
deriving DecidableEq, Repr

/-- The node store with `NCNT`, `ROOT`, `LIVE` and `DSTK` (R21, R33, R34, R36). An entry of `DSTK` is a node index and a
side: `false` while the left subtree is being read, `true` while the right one is. -/
structure TreeStore where
  node : Table Node
  ncnt : Nat
  root : Option Nat
  live : List Nat
  dstk : List (Nat × Bool)
deriving DecidableEq, Repr

/-- The tree walk: `WALK`, `SYMCNT` (R21). -/
structure Walker where
  walk : Nat
  symcnt : Nat
deriving DecidableEq, Repr

/-- The bit writer: `BW_ACC`, `BW_CNT` (R38). -/
structure BitWriter where
  acc : Byte
  cnt : Nat
deriving DecidableEq, Repr

/-- The bit reader: `BR_POS`, `BR_LIMIT`, `BR_ERR` (R39). -/
structure BitReader where
  pos : Nat
  limit : Nat
  err : ErrKind
deriving DecidableEq, Repr

/-- What an operation that returns a value returned (R110, R111, R122, R128, R174). The MODEL's own (log entry 4). -/
inductive OpResult
  | none
  | bit (b : Bool)
  | value (v : Nat)
  | byte (b : Byte)
  | token (t : Token)
  | bits (bs : Bits)
deriving DecidableEq, Repr

/-- One turn of the two agents (R18): the engine's, or an action of the host at its interface (R234), or the external reset
signal (R270). -/
inductive Turn
  /-- the engine takes a step -/
  | engine
  /-- the host writes host register `n` -/
  | writeReg (n v : Nat)
  /-- the host reads host register `n` -/
  | readReg (n : Nat)
  /-- the host writes a byte of `IN` -/
  | writeIn (a : Nat) (b : Byte)
  /-- the host reads a byte of `IN` -/
  | readIn (a : Nat)
  /-- the host writes a byte of `OUT` -/
  | writeOut (a : Nat) (b : Byte)
  /-- the host reads a byte of `OUT` -/
  | readOut (a : Nat)
  /-- hardware reset is asserted -/
  | reset
deriving DecidableEq, Repr

/-- The MODEL's own fields (log entries 2, 4, 5, 6): the turns to come, what the host last read, the latest returned value,
and the counters that select free values. -/
structure Environment where
  turns : List Turn
  hostData : Nat
  result : OpResult
  calls : Nat
  epoch : Nat
deriving DecidableEq, Repr

/-- The state of one engine instance (10_state.md), grouped by sub-block. -/
structure State where
  host : HostRegs
  caps : Caps
  seq : Sequencer
  inp : Mem
  tb : TokenBuffer
  out : OutBuffer
  win : Window
  finder : MatchFinder
  enc : TokenEncoder
  dec : TokenDecoder
  freq : Table Nat
  tree : TreeStore
  code : Table Bits
  tbl : Nat
  walker : Walker
  bw : BitWriter
  br : BitReader
  env : Environment
deriving DecidableEq, Repr

/-- Reasons the machine stops that are no error of a call. -/
inductive Fault
  /-- The host accesses a host register other than 0 to 4, which R24 says does not exist. Raised by a host turn. Safe. -/
  | noSuchRegister (n : Nat)
  /-- The host accesses an index of `IN` or `OUT` at or past the capacity of the space (R40). Raised by a host turn. Safe. -/
  | noSuchAddress (sp : Space) (a : Nat)
deriving DecidableEq, Repr

/-- Actions and operations to which the spec gives no meaning. -/
inductive Refusal
  /-- An instruction with no meaning in the model. Raised by `exec` only; no arm of this model raises it. Safe. -/
  | notModelled (mnemonic : String)
  /-- The host writes a reserved value to `CMD` while not busy (R74, U1). Raised by a host turn. Safe. -/
  | reservedCommand (c : Byte)
  /-- The host reads or writes `IN` or `OUT` while `STATUS.BUSY = 1` (R282, U2). Raised by a host turn. Safe. -/
  | bufferWhileBusy (sp : Space)
  /-- The host writes `OUT`, which only the engine writes (R40). Raised by a host turn. Safe. -/
  | outputWritten
  /-- An operation is invoked although a precondition its rule states does not hold (R109, R122, R128, R131, R151 to R153,
  R193). Raised by that operation. Safe: the sequencer never invokes one so. -/
  | precondition (op : String)
  /-- A format element is executed that is not the element at the reader's position (R70, R93). Raised by CODEWORD,
  TREE_BITS and PAYLOAD_BITS on the reading side. Safe: the sequencer executes only elements it decoded there. -/
  | notAtCursor (op : String)
deriving DecidableEq, Repr

/-- `STATUS` right after reset: idle, no call ended (R26, R43). -/
def resetHost : HostRegs :=
  { status := 0x00, errcode := 0x00, inLen := 0, outLen := 0 }

/-- The machine right after reset (R43, R270). The registers and tables R43 leaves unspecified are zero or empty (DESIGN
CHOICE, log entry 1); no byte of a memory space is listed; the capacities are those of log entry 7. -/
def State.reset : State :=
  { host := resetHost
    caps := { inCap := 4294967296, tCap := Config.maxTCap, outCap := 4294967296 }
    seq := { phase := .idle, line := .start }
    inp := []
    tb := { mem := [], len := 0 }
    out := { mem := [], ptr := 0 }
    win := { mem := [], pos := 0, fill := 0 }
    finder := { cur := 0, bestLen := 0, bestOff := 0 }
    enc := { flg := 0, gc := 0, gplen := 0, gp := [] }
    dec := { tp := 0, dflg := 0 }
    freq := []
    tree := { node := [], ncnt := 0, root := none, live := [], dstk := [] }
    code := []
    tbl := 0
    walker := { walk := 0, symcnt := 0 }
    bw := { acc := 0, cnt := 0 }
    br := { pos := 0, limit := 0, err := .malformedArchive }
    env := { turns := [], hostData := 0, result := .none, calls := 0, epoch := 0 } }

/-- Update of the field `host`. -/
def State.setHost (s : State) (x : HostRegs) : State := { s with host := x }
/-- Update of the field `seq`. -/
def State.setSeq (s : State) (x : Sequencer) : State := { s with seq := x }
/-- Update of the field `inp`. -/
def State.setInp (s : State) (x : Mem) : State := { s with inp := x }
/-- Update of the field `tb`. -/
def State.setTb (s : State) (x : TokenBuffer) : State := { s with tb := x }
/-- Update of the field `out`. -/
def State.setOut (s : State) (x : OutBuffer) : State := { s with out := x }
/-- Update of the field `win`. -/
def State.setWin (s : State) (x : Window) : State := { s with win := x }
/-- Update of the field `finder`. -/
def State.setFinder (s : State) (x : MatchFinder) : State := { s with finder := x }
/-- Update of the field `enc`. -/
def State.setEnc (s : State) (x : TokenEncoder) : State := { s with enc := x }
/-- Update of the field `dec`. -/
def State.setDec (s : State) (x : TokenDecoder) : State := { s with dec := x }
/-- Update of the field `freq`. -/
def State.setFreq (s : State) (x : Table Nat) : State := { s with freq := x }
/-- Update of the field `tree`. -/
def State.setTree (s : State) (x : TreeStore) : State := { s with tree := x }
/-- Update of the field `code`. -/
def State.setCode (s : State) (x : Table Bits) : State := { s with code := x }
/-- Update of the field `tbl`. -/
def State.setTbl (s : State) (x : Nat) : State := { s with tbl := x }
/-- Update of the field `walker`. -/
def State.setWalker (s : State) (x : Walker) : State := { s with walker := x }
/-- Update of the field `bw`. -/
def State.setBw (s : State) (x : BitWriter) : State := { s with bw := x }
/-- Update of the field `br`. -/
def State.setBr (s : State) (x : BitReader) : State := { s with br := x }
/-- Update of the field `env`. -/
def State.setEnv (s : State) (x : Environment) : State := { s with env := x }

end Sys2Proof.Machine
end

