-- ==== Sys2Proof/Machine/Ops.lean ====
section
/-! DEFINITION. The named operations over memory and registers that the meanings share: sparse tables, the byte accesses of
the four spaces (R237), raising an error (R246), the end of a call (R227), and the shape of an operation. -/

namespace Sys2Proof.Machine

-- Sparse tables -------------------------------------------------------------------------------------------------------

/-- The entry of a table at an index, if it is listed. -/
def tableGet {α : Type} : Table α → Nat → Option α
  | [], _ => none
  | (b, w) :: t, a => if a = b then some w else tableGet t a

/-- A table with one entry written; strictly rising indices stay so. -/
def tableSet {α : Type} : Table α → Nat → α → Table α
  | [], a, v => [(a, v)]
  | (b, w) :: t, a, v =>
    if a < b then (a, v) :: (b, w) :: t
    else if a = b then (a, v) :: t
    else (b, w) :: tableSet t a v

/-- The canonical form of a table whose indices are all at least `lo`: strictly rising. -/
def tableWfFrom {α : Type} : Nat → Table α → Bool
  | _, [] => true
  | lo, (a, _) :: t => decide (lo ≤ a) && tableWfFrom (a + 1) t

/-- The canonical form of a table or a memory: indices strictly rising. An unlisted address holds no value, so no entry can
equal what an unlisted address holds. -/
def Memory.wf {α : Type} (t : Table α) : Bool := tableWfFrom 0 t

-- Bytes of the spaces -------------------------------------------------------------------------------------------------

/-- The byte at an index of a space: the byte last written there, or, where nothing has been written since reset, the free
value of U3. -/
def readByte (epoch : Nat) (sp : Space) (m : Mem) (a : Nat) : Byte :=
  match tableGet m a with
  | some b => b
  | none => Config.unwritten epoch sp a

/-- `MemRead(IN[a], 1)` (R13). -/
def State.inByte (s : State) (a : Nat) : Byte := readByte s.env.epoch .inp s.inp a
/-- `MemRead(TB[a], 1)` (R13). -/
def State.tbByte (s : State) (a : Nat) : Byte := readByte s.env.epoch .tb s.tb.mem a
/-- The byte of `OUT` at an index; the engine never reads it (R57), the host does. -/
def State.outByte (s : State) (a : Nat) : Byte := readByte s.env.epoch .out s.out.mem a
/-- `MemRead(WIN[a], 1)` (R13). -/
def State.winByte (s : State) (a : Nat) : Byte := readByte s.env.epoch .win s.win.mem a

/-- `T_CAP`, which never exceeds 2^32 - 1 (R10). -/
def State.tCap (s : State) : Nat := min s.caps.tCap Config.maxTCap

-- Operations ----------------------------------------------------------------------------------------------------------

/-- Why an operation does not go on: it raises an error (R13, R246), or the model gives its invocation no meaning. -/
inductive Stop
  | err (e : ErrKind)
  | refuse (r : Refusal)
deriving DecidableEq, Repr

/-- An operation of the engine: from a state to a result and a state, or a stop and the state at the stop. -/
abbrev Op (α : Type) := EStateM Stop State α

/-- Read something of the state. -/
def look {α : Type} (f : State → α) : Op α := fun s => .ok (f s) s
/-- Change the state. -/
def upd (f : State → State) : Op Unit := fun s => .ok () (f s)
/-- `raise e` (R13): nothing after it executes. -/
def raise {α : Type} (e : ErrKind) : Op α := fun s => .error (.err e) s
/-- The model gives this invocation no meaning. -/
def refuse {α : Type} (r : Refusal) : Op α := fun s => .error (.refuse r) s
/-- Raise `e` unless `c` holds. -/
def check (c : Prop) [Decidable c] (e : ErrKind) : Op Unit := if c then pure () else raise e
/-- A precondition that the rule of operation `op` states. -/
def need (c : Prop) [Decidable c] (op : String) : Op Unit := if c then pure () else refuse (.precondition op)

-- Errors and ends of calls --------------------------------------------------------------------------------------------

/-- `ERRCODE` of an error kind (R27, R241 to R244). -/
def errCode : ErrKind → Byte
  | .malformedArchive => 1
  | .unexpectedEndOfStream => 2
  | .invalidToken => 3
  | .capacityExceeded => 4

/-- Taking an error (R246): `ERRCODE <- code`, `OUT_LEN <- 0`, `STATUS <- 0b110`, `PHASE <- IDLE`. Nothing is saved and
control passes to the host; `IN` and `IN_LEN` are unchanged (R247). The datapath is kept as it stood, where R247 and U5 say any
value (DESIGN CHOICE, log entry 15). -/
def State.takeError (s : State) (e : ErrKind) : State :=
  (s.setHost { s.host with status := 0x06, errcode := errCode e, outLen := 0 }).setSeq { phase := .idle, line := .start }

/-- End of a call with `Ok` (R227). The datapath registers, tables and memories are kept as they stood, where U5 says any value
after a call ends either way (DESIGN CHOICE, log entry 15); the next call initialises what it uses (R44, R285). -/
def State.endOk (s : State) : State :=
  (s.setHost { s.host with status := 0x02, errcode := 0, outLen := s.out.ptr }).setSeq { phase := .idle, line := .start }

/-- An accepted command (R221): `STATUS <- 0b001`, `ERRCODE <- 0`, `OUT_LEN <- 0`. It is also what clears the error of an
earlier call (R248): there is no other return from one. From here on `OUT` may hold anything where it holds no result (U4), so
the counter that selects those free values moves on (log entry 5). -/
def State.accept (s : State) : State :=
  (s.setHost { s.host with status := 0x01, errcode := 0, outLen := 0 }).setEnv { s.env with calls := s.env.calls + 1 }

/-- The per-call initialisation (R44). The contents of `WIN`, `TB`, `OUT`, `NODE` and `GP` are not cleared. -/
def State.initCall (s : State) : State :=
  ((((((((((s.setWin { s.win with pos := 0, fill := 0 }).setFinder { s.finder with cur := 0 }).setOut
    { s.out with ptr := 0 }).setTb { s.tb with len := 0 }).setDec { s.dec with tp := 0 }).setEnc
    { s.enc with flg := 0, gc := 0, gplen := 0 }).setBw { acc := 0, cnt := 0 }).setTree
    { s.tree with ncnt := 0, root := none, live := [], dstk := [] }).setWalker { s.walker with symcnt := 0 }).setFreq
    []).setCode []

/-- Keep what an operation returned. -/
def State.withResult (s : State) (r : OpResult) : State := s.setEnv { s.env with result := r }

/-- The outcome of an operation that returns nothing: an error is taken, so the machine goes on. The spec gives no invocation of
an operation outside the phase that uses it, and R249 no error while the engine is idle: here it does in every phase, `IDLE`
included, what it does in its own, and takes the error it raises (DESIGN CHOICE, log entry 27). -/
def runOp (op : Op Unit) (s : State) : Host.Outcome State Fault Refusal :=
  match op s with
  | .ok _ t => .next t
  | .error (.err e) t => .next (t.takeError e)
  | .error (.refuse r) _ => .refused r

/-- The outcome of an operation that returns a value, in every phase as `runOp` has it (DESIGN CHOICE, log entry 27). -/
def runRes {α : Type} (op : Op α) (f : α → OpResult) (s : State) : Host.Outcome State Fault Refusal :=
  match op s with
  | .ok a t => .next (t.withResult (f a))
  | .error (.err e) t => .next (t.takeError e)
  | .error (.refuse r) _ => .refused r

-- Appends to OUT and TB -----------------------------------------------------------------------------------------------

/-- `if OPTR >= OUT_CAP then raise CapacityExceeded; MemWrite(OUT[OPTR], 1, v); OPTR <- OPTR + 1` (R59, R102, R131). -/
def outAppend (v : Byte) : Op Unit := do
  let s ← look id
  check (s.out.ptr < s.caps.outCap) .capacityExceeded
  upd fun s => s.setOut { mem := tableSet s.out.mem s.out.ptr v, ptr := s.out.ptr + 1 }

/-- `TB_APPEND(v)` (R145). -/
def tbAppend (v : Byte) : Op Unit := do
  let s ← look id
  check (s.tb.len < s.tCap) .capacityExceeded
  upd fun s => s.setTb { mem := tableSet s.tb.mem s.tb.len v, len := s.tb.len + 1 }

-- The window ----------------------------------------------------------------------------------------------------------

/-- `WIN_INIT` (R120): the bytes of `WIN` are not cleared. -/
def winInit : Op Unit := upd fun s => s.setWin { s.win with pos := 0, fill := 0 }

/-- The window after `WIN_PUT(b)` (R121). -/
def windowPut (w : Window) (b : Byte) : Window :=
  { mem := tableSet w.mem w.pos b
    pos := (w.pos + 1) % Config.windowSize
    fill := min (w.fill + 1) Config.windowSize }

/-- `WIN_PUT(b)` (R121). -/
def winPut (b : Byte) : Op Unit := upd fun s => s.setWin (windowPut s.win b)

/-- The byte `d` positions back from the write position: `WIN[(WPOS + 4096 - d) mod 4096]` (R61, R122). -/
def State.winBack (s : State) (d : Nat) : Byte :=
  s.winByte ((s.win.pos + Config.windowSize - d) % Config.windowSize)

/-- `WIN_GET(d)` (R122), permitted only for `1 <= d <= WFILL`. -/
def winGet (d : Nat) : Op Byte := do
  let s ← look id
  need (1 ≤ d ∧ d ≤ s.win.fill) "WIN_GET"
  pure (s.winBack d)

-- The bit writer ------------------------------------------------------------------------------------------------------

/-- `BW_INIT` (R101): `OPTR` is not changed. -/
def bwInit : Op Unit := upd fun s => s.setBw { acc := 0, cnt := 0 }

/-- Write the assembled byte and start a new one: the common tail of R102 and R104. -/
def bwFlushByte : Op Unit := do
  let s ← look id
  outAppend s.bw.acc
  upd fun s => s.setBw { acc := 0, cnt := 0 }

/-- `BW_ACC | (b << (7 - BW_CNT))` (R102). -/
def bitInto (acc : Byte) (cnt : Nat) (b : Bool) : Byte :=
  acc ||| (BitVec.ofBool b).setWidth 8 <<< (7 - cnt)

/-- `BW_PUT_BIT(b)` (R102). -/
def bwPutBit (b : Bool) : Op Unit := do
  upd fun s => s.setBw { s.bw with acc := bitInto s.bw.acc s.bw.cnt b }
  let s ← look id
  if s.bw.cnt = 7 then bwFlushByte
  else upd fun s => s.setBw { s.bw with cnt := s.bw.cnt + 1 }

/-- `BW_PUT_BIT` for each bit, first to last. -/
def bwPutAll : Bits → Op Unit
  | [] => pure ()
  | b :: bs => do
    bwPutBit b
    bwPutAll bs

/-- `BW_PUT_BITS(v, n)` (R103): most significant of the `n` bits first, bits at and above `n` ignored. -/
def bwPutBits (v n : Nat) : Op Unit := bwPutAll (natBits n v)

/-- `BW_ALIGN` (R104). -/
def bwAlign : Op Unit := do
  let s ← look id
  if s.bw.cnt ≠ 0 then bwFlushByte else pure ()

-- The bit reader ------------------------------------------------------------------------------------------------------

/-- Bit index `q` of `IN`: bit `7 - (q mod 8)` of byte `q div 8` (R108). -/
def State.inBit (s : State) (q : Nat) : Bool := (s.inByte (q / 8)).getLsbD (7 - q % 8)

/-- The `n` bits of `IN` from bit index `q` on. -/
def State.inBits (s : State) : Nat → Nat → Bits
  | _, 0 => []
  | q, n + 1 => s.inBit q :: s.inBits (q + 1) n

/-- `BR_INIT(start, limit, err)` (R109), with `start <= limit <= 8 * IN_LEN`. -/
def brInit (start limit : Nat) (err : ErrKind) : Op Unit := do
  let s ← look id
  need (start ≤ limit ∧ limit ≤ 8 * s.host.inLen) "BR_INIT"
  upd fun s => s.setBr { pos := start, limit := limit, err := err }

/-- `BR_GET_BIT` (R110): the check precedes the read, and the error leaves `BR_POS` unchanged. -/
def brGetBit : Op Bool := do
  let s ← look id
  if s.br.pos ≥ s.br.limit then raise s.br.err
  else do
    upd fun s => s.setBr { s.br with pos := s.br.pos + 1 }
    pure (s.inBit s.br.pos)

/-- `v <- (v << 1) | BR_GET_BIT`, `n` times (R111). -/
def brGetBitsFrom : Nat → Nat → Op Nat
  | 0, v => pure v
  | n + 1, v => do
    let b ← brGetBit
    brGetBitsFrom n (2 * v + b.toNat)

/-- `BR_GET_BITS(n)` (R111): the first bit read is the most significant. -/
def brGetBits (n : Nat) : Op Nat := brGetBitsFrom n 0

/-- Read `n` bits whose values are already known: what `n` calls of `BR_GET_BIT` do to the reader (R110). -/
def brSkip : Nat → Op Unit
  | 0 => pure ()
  | n + 1 => do
    let _ ← brGetBit
    brSkip n

-- The node store ------------------------------------------------------------------------------------------------------

/-- `NODE[i]` (R33). An entry nothing has written reads as its reset value, a leaf of value 0 (log entry 1). -/
def TreeStore.at (t : TreeStore) (i : Nat) : Node :=
  match tableGet t.node i with
  | some n => n
  | none => .leaf 0 none

/-- The tree below a node, to a depth of at most `fuel`. A tree of at most 511 nodes is less than 256 deep (R33, R35), so
with `fuel = 511` no tree is cut. -/
def TreeStore.treeAt (t : TreeStore) : Nat → Nat → Tree
  | 0, _ => .leaf 0
  | fuel + 1, i =>
    match t.at i with
    | .leaf v _ => .leaf v
    | .internal l r _ => .node (t.treeAt fuel l) (t.treeAt fuel r)

/-- The tree of the node store: the one below `ROOT`, or none. -/
def TreeStore.shape (t : TreeStore) : Option Tree :=
  match t.root with
  | none => none
  | some r => some (t.treeAt Config.nodeCap r)

end Sys2Proof.Machine
end

