-- ==== Sys2Proof/Machine/Flags.lean ====
section
/-! DEFINITION. The status flags: `STATUS.BUSY`, `STATUS.DONE`, `STATUS.ERR` (R26). The engine has no condition codes and no
operation writes a flag but the start and the end of a call (R31). -/

namespace Sys2Proof.Machine

/-- `STATUS.BUSY`, bit 0 (R26). -/
def State.busy (s : State) : Bool := s.host.status.getLsbD 0
/-- `STATUS.DONE`, bit 1 (R26). -/
def State.done (s : State) : Bool := s.host.status.getLsbD 1
/-- `STATUS.ERR`, bit 2 (R26). -/
def State.err (s : State) : Bool := s.host.status.getLsbD 2

/-- The legal values of `STATUS`: idle since reset, busy, ended with `Ok`, ended with `Err` (R26). -/
def legalStatus (v : Byte) : Bool := v == 0x00 || v == 0x01 || v == 0x02 || v == 0x06

/-- Whether the engine is writing formats (a compression) rather than reading them (R22, R223, R224). -/
def Phase.writes : Phase → Bool
  | .idle => false
  | .cTokens => true
  | .cCount => true
  | .cBuild => true
  | .cPack => true
  | .dUnpack => false
  | .dHuff => false
  | .dTokens => false

end Sys2Proof.Machine
end

