-- ==== Sys2Proof/Machine/BitIo.lean ====
section
/-! DEFINITION. Bit writer and bit reader (40_bit_io.md) and the pseudo-operations over them (R96). -/

namespace Sys2Proof.Machine

/-- `BW_PUT_CODE(v)` (R96): the bits of `CODE[v]`, first to last. A value without a code has none (R35). -/
def bwPutCode (v : Byte) : Op Unit := do
  let s ← look id
  match tableGet s.code v.toNat with
  | some bits => bwPutAll bits
  | none => pure ()

/-- BW_INIT (R101). -/
def execBwInit (s : State) : Host.Outcome State Fault Refusal := runOp bwInit s

/-- BW_PUT_BIT (R102). -/
def execBwPutBit (b : Bool) (s : State) : Host.Outcome State Fault Refusal := runOp (bwPutBit b) s

/-- BW_PUT_BITS (R103). -/
def execBwPutBits (v n : Nat) (s : State) : Host.Outcome State Fault Refusal := runOp (bwPutBits v n) s

/-- BW_ALIGN (R104). -/
def execBwAlign (s : State) : Host.Outcome State Fault Refusal := runOp bwAlign s

/-- BR_INIT (R109). -/
def execBrInit (start limit : Nat) (err : ErrKind) (s : State) : Host.Outcome State Fault Refusal :=
  runOp (brInit start limit err) s

/-- BR_GET_BIT (R110). -/
def execBrGetBit (s : State) : Host.Outcome State Fault Refusal := runRes brGetBit .bit s

/-- BR_GET_BITS (R111). -/
def execBrGetBits (n : Nat) (s : State) : Host.Outcome State Fault Refusal := runRes (brGetBits n) .value s

/-- BW_PUT_BYTE (R96): `BW_PUT_BITS(v, 8)`. -/
def execBwPutByte (v : Byte) (s : State) : Host.Outcome State Fault Refusal := runOp (bwPutBits v.toNat 8) s

/-- BW_PUT_U32 (R96): `BW_PUT_BITS(v, 32)`. -/
def execBwPutU32 (v : BitVec 32) (s : State) : Host.Outcome State Fault Refusal := runOp (bwPutBits v.toNat 32) s

/-- BW_PUT_CODE (R96). -/
def execBwPutCode (v : Byte) (s : State) : Host.Outcome State Fault Refusal := runOp (bwPutCode v) s

end Sys2Proof.Machine
end

