-- ==== Sys2Proof/Machine/HuffmanTree.lean ====
section
/-! DEFINITION. Frequency count, tree construction, code generation, tree serialisation and deserialisation
(43_huffman_tree.md). -/

namespace Sys2Proof.Machine

-- Frequency count -----------------------------------------------------------------------------------------------------

/-- `FREQ[v]`: an entry not listed is 0 (R161). -/
def freqAt (f : Table Nat) (v : Nat) : Nat :=
  match tableGet f v with
  | some n => n
  | none => 0

/-- The frequency table after counting the `n` bytes of `T` from index `i` on (R161). -/
def State.countFrom (s : State) : Nat → Nat → Table Nat → Table Nat
  | _, 0, f => f
  | i, n + 1, f =>
    s.countFrom (i + 1) n (tableSet f (s.tbByte i).toNat (freqAt f (s.tbByte i).toNat + 1))

/-- `HF_COUNT` (R161): no entry is listed for a value that does not occur. -/
def hfCount : Op Unit := upd fun s => s.setFreq (s.countFrom 0 s.tb.len [])

-- Tree construction ---------------------------------------------------------------------------------------------------

/-- The key of a node; a node of a deserialised tree carries none (R33) and `HF_BUILD` never asks for it. -/
def Node.key : Node → Key
  | .leaf _ (some k) => k
  | .leaf _ none => { freq := 0, minsym := 0 }
  | .internal _ _ (some k) => k
  | .internal _ _ none => { freq := 0, minsym := 0 }

/-- Priority order: lexicographic on `(freq, minsym)` (R165). -/
def Key.before (x y : Key) : Bool := x.freq < y.freq || (x.freq == y.freq && x.minsym < y.minsym)

/-- The first in priority order among `best` and the listed nodes (R165, R166). -/
def TreeStore.firstOf (t : TreeStore) : Nat → List Nat → Nat
  | best, [] => best
  | best, i :: is => t.firstOf (if (t.at i).key.before (t.at best).key then i else best) is

/-- Add a live node to the store: `NODE[NCNT] <- n; LIVE <- LIVE + NCNT; NCNT <- NCNT + 1` (R166). -/
def TreeStore.addLive (t : TreeStore) (n : Node) : TreeStore :=
  { t with node := tableSet t.node t.ncnt n, live := t.live ++ [t.ncnt], ncnt := t.ncnt + 1 }

/-- The leaf of value `v`, if it occurs (R162, R166). -/
def TreeStore.addLeaf (f : Table Nat) (t : TreeStore) (v : Nat) : TreeStore :=
  if freqAt f v > 0 then
    t.addLive (.leaf (BitVec.ofNat 8 v) (some { freq := freqAt f v, minsym := v }))
  else t

/-- The merged node of `a`, extracted first, and `b`, extracted second (R166, R167). -/
def TreeStore.merged (t : TreeStore) (a b : Nat) : Node :=
  .internal a b (some { freq := (t.at a).key.freq + (t.at b).key.freq
                        minsym := min (t.at a).key.minsym (t.at b).key.minsym })

/-- One round of the merge loop; with fewer than two live nodes there is none (R166). -/
def TreeStore.mergeOnce (t : TreeStore) : TreeStore :=
  match t.live with
  | [] => t
  | x :: xs =>
    let a := t.firstOf x xs
    match (x :: xs).erase a with
    | [] => t
    | y :: ys =>
      let b := t.firstOf y ys
      TreeStore.addLive { t with live := (y :: ys).erase b } (t.merged a b)

/-- The merge loop: each round leaves one live node fewer. -/
def TreeStore.mergeAll : Nat → TreeStore → TreeStore
  | 0, t => t
  | n + 1, t => TreeStore.mergeAll n t.mergeOnce

/-- The store after `HF_BUILD` from a frequency table (R163, R164, R166). -/
def TreeStore.build (f : Table Nat) (t : TreeStore) : TreeStore :=
  let leaves := (List.range Config.symbols).foldl (TreeStore.addLeaf f) { t with ncnt := 0, live := [], root := none }
  let final := TreeStore.mergeAll leaves.live.length leaves
  { final with root := final.live.head? }

/-- `HF_BUILD` (R166). -/
def hfBuild : Op Unit := upd fun s => s.setTree (s.tree.build s.freq)

-- Code generation -----------------------------------------------------------------------------------------------------

/-- `walk` of R170: each leaf's path, `false` for a left edge and `true` for a right one. -/
def Tree.codesInto : Tree → Bits → Table Bits → Table Bits
  | .leaf v, path, c => tableSet c v.toNat path
  | .node l r, path, c => Tree.codesInto r (path ++ [true]) (Tree.codesInto l (path ++ [false]) c)

/-- The code table of a tree (R170); of a lone leaf the one code is `"0"` (R171), of no tree there is none (R163). -/
def codeTable : Option Tree → Table Bits
  | none => []
  | some (.leaf v) => [(v.toNat, [false])]
  | some (.node l r) => Tree.codesInto (.node l r) [] []

/-- `HF_CODEGEN` (R170). -/
def hfCodegen : Op Unit := upd fun s => s.setCode (codeTable s.tree.shape)

-- Serialisation -------------------------------------------------------------------------------------------------------

/-- `ser` of a tree (R83). -/
def Tree.ser : Tree → Bits
  | .leaf v => true :: byteBits v
  | .node l r => false :: (Tree.ser l ++ Tree.ser r)

/-- `ser(ROOT)`, empty when there is no tree (R83, R174). -/
def serTree : Option Tree → Bits
  | none => []
  | some t => Tree.ser t

/-- `HF_SER_TREE` (R174): returns the bit string and sets `TBL` to its length. -/
def hfSerTree : Op Bits := do
  let s ← look id
  upd fun s => s.setTbl (serTree s.tree.shape).length
  pure (serTree s.tree.shape)

-- Deserialisation -----------------------------------------------------------------------------------------------------

/-- `NODE[i] <- n`. -/
def TreeStore.put (t : TreeStore) (i : Nat) (n : Node) : TreeStore := { t with node := tableSet t.node i n }

/-- Node `i` is complete: it closes every open internal node whose right subtree it ends, or turns the innermost open node
to its right side, or is the root (R176 in the form of R177). The left child of the node at index `j` is always the next one
allocated, `j + 1`. -/
def TreeStore.close (t : TreeStore) (i : Nat) : List (Nat × Bool) → TreeStore
  | [] => { t with root := some i, dstk := [] }
  | (j, false) :: rest => { t with dstk := (j, true) :: rest }
  | (j, true) :: rest => (t.put j (.internal (j + 1) i none)).close j rest

/-- `if NCNT >= 511 then raise MalformedArchive; i <- NCNT; NCNT <- NCNT + 1` (R176, R180). -/
def allocNode : Op Nat := do
  let s ← look id
  check (s.tree.ncnt < Config.nodeCap) .malformedArchive
  upd fun s => s.setTree { s.tree with ncnt := s.tree.ncnt + 1 }
  pure s.tree.ncnt

/-- Node `i` is an internal node: its subtrees follow (R176). R177 lets an implementation raise `MalformedArchive` as soon as a
256th internal node would be open. The model does not: `DSTK` then grows past the 255 entries of R36, to at most 511, until
the 512th node or the end of the bits raises the same error (DESIGN CHOICE, log entry 18). -/
def openNode (i : Nat) : Op Unit := upd fun s => s.setTree { s.tree with dstk := (i, false) :: s.tree.dstk }

/-- Node `i` is the leaf of value `v` (R176). -/
def leafNode (i : Nat) (v : Byte) : Op Unit :=
  upd fun s => s.setTree ((s.tree.put i (.leaf v none)).close i s.tree.dstk)

/-- One node of the serialized tree (R176). -/
def readNode : Op Unit := do
  let i ← allocNode
  let mk ← brGetBit
  if mk then do
    let v ← brGetBits 8
    leafNode i (BitVec.ofNat 8 v)
  else openNode i

/-- Nodes until the traversal closes. Each takes an entry of the store, so the 512th raises (R180). -/
def readNodes : Nat → Op Unit
  | 0 => pure ()
  | fuel + 1 => do
    readNode
    let s ← look id
    if s.tree.root.isSome then pure () else readNodes fuel

/-- `if BR_POS != BR_LIMIT then raise MalformedArchive` (R176, R179). -/
def closeTree : Op Unit := do
  let s ← look id
  check (s.br.pos = s.br.limit) .malformedArchive

/-- `HF_DESER_TREE` (R176). -/
def hfDeserTree : Op Unit := do
  upd fun s => s.setTree { s.tree with ncnt := 0, root := none, dstk := [] }
  let s ← look id
  if s.tbl = 0 then pure ()
  else do
    brInit 80 (80 + s.tbl) .malformedArchive
    readNodes (Config.nodeCap + 1)
    closeTree

/-- HF_COUNT (R161). -/
def execHfCount (s : State) : Host.Outcome State Fault Refusal := runOp hfCount s

/-- HF_BUILD (R166). -/
def execHfBuild (s : State) : Host.Outcome State Fault Refusal := runOp hfBuild s

/-- HF_CODEGEN (R170). -/
def execHfCodegen (s : State) : Host.Outcome State Fault Refusal := runOp hfCodegen s

/-- HF_SER_TREE (R174). -/
def execHfSerTree (s : State) : Host.Outcome State Fault Refusal := runRes hfSerTree .bits s

/-- HF_DESER_TREE (R176). -/
def execHfDeserTree (s : State) : Host.Outcome State Fault Refusal := runOp hfDeserTree s

end Sys2Proof.Machine
end

