-- ==== Sys2Proof/Machine/HuffmanCodec.lean ====
section
/-! DEFINITION. Huffman bit-packer and tree-walking decoder (44_huffman_codec.md). -/

namespace Sys2Proof.Machine

/-- The code words of the `n` bytes of `T` from index `i` on (R191). -/
def encodeFrom : Nat → Nat → Op Unit
  | _, 0 => pure ()
  | i, n + 1 => do
    let s ← look id
    bwPutCode (s.tbByte i)
    encodeFrom (i + 1) n

/-- `HF_ENCODE` (R191): it does not align. -/
def hfEncode : Op Unit := do
  let s ← look id
  encodeFrom 0 s.tb.len

/-- `WALK <- i`. -/
def setWalk (i : Nat) : Op Unit := upd fun s => s.setWalker { s.walker with walk := i }

/-- `MemWrite(TB[SYMCNT], 1, v); SYMCNT <- SYMCNT + 1` (R193). -/
def putSymbol (v : Byte) : Op Unit :=
  upd fun s => (s.setTb { s.tb with mem := tableSet s.tb.mem s.walker.symcnt v }).setWalker
    { s.walker with symcnt := s.walker.symcnt + 1 }

/-- The child a payload bit selects (R193). -/
def childOf (l r : Nat) (b : Bool) : Nat := if b then r else l

/-- `while NODE[WALK].kind = Internal` (R193). Every round reads a bit or raises, so one round more than there are bits left
suffices (R197). -/
def walkDown : Nat → Op Unit
  | 0 => pure ()
  | fuel + 1 => do
    let s ← look id
    match s.tree.at s.walker.walk with
    | .leaf _ _ => pure ()
    | .internal l r _ => do
      let b ← brGetBit
      setWalk (childOf l r b)
      walkDown fuel

/-- The value of a leaf (R33). -/
def Node.value : Node → Byte
  | .leaf v _ => v
  | .internal _ _ _ => 0

/-- One symbol (R193): of a lone leaf one bit is consumed and not looked at (R194). -/
def readSymbol (root : Nat) : Op Unit := do
  let s ← look id
  match s.tree.at root with
  | .leaf v _ => do
    let _ ← brGetBit
    putSymbol v
  | .internal _ _ _ => do
    setWalk root
    walkDown (s.br.limit - s.br.pos + 1)
    let s ← look id
    putSymbol (s.tree.at s.walker.walk).value

/-- `n` symbols (R193, R196). -/
def readSymbols (root : Nat) : Nat → Op Unit
  | 0 => pure ()
  | n + 1 => do
    readSymbol root
    readSymbols root n

/-- `HF_DECODE` (R193). Precondition: `N = 0` or a tree, and `N <= T_CAP`. -/
def hfDecode : Op Unit := do
  let s ← look id
  need (s.tb.len ≤ s.tCap) "HF_DECODE"
  upd fun s => s.setWalker { s.walker with symcnt := 0 }
  match s.tree.root with
  | none => need (s.tb.len = 0) "HF_DECODE"
  | some root => readSymbols root s.tb.len

/-- HF_ENCODE (R191). -/
def execHfEncode (s : State) : Host.Outcome State Fault Refusal := runOp hfEncode s

/-- HF_DECODE (R193). -/
def execHfDecode (s : State) : Host.Outcome State Fault Refusal := runOp hfDecode s

end Sys2Proof.Machine
end

