-- ==== Sys2Proof/Machine/Operands.lean ====
section
/-! DEFINITION. The operand forms of the engine: the fields of a Match token (R78 to R80), the 32-bit header fields (R13,
R51), the candidate bytes of the match finder (R124, R125). -/

namespace Sys2Proof.Machine

/-- Offset field: `o = offset mod 4096` (R79). -/
def offsetField (offset : Nat) : BitVec 12 := BitVec.ofNat 12 offset

/-- Offset a field stands for: `4096 if o = 0, else o` (R79). -/
def fieldOffset (o : BitVec 12) : Nat := if o = 0 then Config.windowSize else o.toNat

/-- Length field: `l = length - 3` (R80). -/
def lengthField (length : Nat) : BitVec 4 := BitVec.ofNat 4 (length - Config.minMatch)

/-- Length a field stands for: `l + 3` (R80). -/
def fieldLength (l : BitVec 4) : Nat := l.toNat + Config.minMatch

/-- First byte of a Match token: `o[11:4]` (R78). -/
def matchByte0 (o : BitVec 12) : Byte := o.extractLsb' 4 8

/-- Second byte of a Match token: `o[3:0]`, then `l` (R78). -/
def matchByte1 (o : BitVec 12) (l : BitVec 4) : Byte := o.extractLsb' 0 4 ++ l

/-- Offset field of two Match bytes: `(b0 << 4) | b1[7:4]` (R153). -/
def bytesOffsetField (b0 b1 : Byte) : BitVec 12 := b0 ++ b1.extractLsb' 4 4

/-- Length field of the second Match byte: `b1[3:0]` (R153). -/
def byteLengthField (b1 : Byte) : BitVec 4 := b1.extractLsb' 0 4

/-- `be32(IN, a)` (R13, R51). -/
def State.be32 (s : State) (a : Nat) : Nat :=
  (s.inByte a).toNat * 2 ^ 24 + (s.inByte (a + 1)).toNat * 2 ^ 16 + (s.inByte (a + 2)).toNat * 2 ^ 8
    + (s.inByte (a + 3)).toNat

/-- `src(d, k)` (R125): candidate byte `k` at distance `d`, read from the window without writing to it. Taking `d` from `k`
as long as `k >= d` leaves `k mod d`. -/
def State.src (s : State) (d k : Nat) : Byte := s.winBack (d - k % d)

/-- `maxlen = min(18, n - c)` (R124). -/
def State.maxLen (s : State) : Nat := min Config.maxMatch (s.host.inLen - s.finder.cur)

/-- How many of the next `n` candidate bytes from `k` on equal the input, up to the first that does not. -/
def State.runFrom (s : State) (d : Nat) : Nat → Nat → Nat
  | _, 0 => 0
  | k, n + 1 => if s.inByte (s.finder.cur + k) = s.src d k then s.runFrom d (k + 1) n + 1 else 0

/-- `L(c, d)` at `c = CUR` (R124), its candidate bytes read from the window as R125 says. -/
def State.candidate (s : State) (d : Nat) : Nat := s.runFrom d 0 s.maxLen

end Sys2Proof.Machine
end

