-- ==== Sys2Proof/Machine/Archive.lean ====
section
/-! DEFINITION. The archive container (45_archive.md). -/

namespace Sys2Proof.Machine

/-- `AR_PACK` (R201). -/
def arPack : Op Unit := do
  let tree ← hfSerTree
  bwInit
  bwPutBits Config.magic0.toNat 8
  bwPutBits Config.magic1.toNat 8
  let s ← look id
  bwPutBits s.tb.len 32
  bwPutBits s.tbl 32
  bwPutAll tree
  bwAlign
  hfEncode
  bwAlign

/-- An archive shorter than its header (R207). -/
def checkHeader : Op Unit := do
  let s ← look id
  check (Config.headerBytes ≤ s.host.inLen) .malformedArchive

/-- Bytes 0 and 1 must be `43 5A` (R208). `AR_UNPACK` has checked the length first (R206, R207); alone it does not (DESIGN
CHOICE, log entry 26). -/
def checkMagic : Op Unit := do
  let s ← look id
  check (s.inByte 0 = Config.magic0 ∧ s.inByte 1 = Config.magic1) .malformedArchive

/-- `TLEN <- n` (R205). -/
def acceptTokenLen (n : Nat) : Op Unit := upd fun s => s.setTb { s.tb with len := n }

/-- `TBL <- t; if ceil8(TBL) > A - 10 then raise MalformedArchive` (R205, R209). `A - 10` is 0 for an `A`
below 10, which `AR_UNPACK` has excluded (R207, R235; DESIGN CHOICE for the element alone, log entry 26). -/
def acceptTreeBitLen (t : Nat) : Op Unit := do
  upd fun s => s.setTbl t
  let s ← look id
  check (ceil8 t ≤ s.host.inLen - Config.headerBytes) .malformedArchive

/-- The last checks of `AR_UNPACK`: symbols without a tree (R211), a stream larger than the buffer (R212). -/
def checkStream : Op Unit := do
  let s ← look id
  check (s.tb.len = 0 ∨ s.tree.root.isSome) .malformedArchive
  check (s.tb.len ≤ s.tCap) .capacityExceeded

/-- First bit index of the payload region (R213). -/
def State.payloadStart (s : State) : Nat := 8 * (Config.headerBytes + ceil8 s.tbl)

/-- `AR_UNPACK` (R205), the checks in exactly this order (R214). -/
def arUnpack : Op Unit := do
  checkHeader
  checkMagic
  let s ← look id
  acceptTokenLen (s.be32 2)
  acceptTreeBitLen (s.be32 6)
  hfDeserTree
  checkStream
  let s ← look id
  brInit s.payloadStart (8 * s.host.inLen) .unexpectedEndOfStream

/-- AR_PACK (R201). -/
def execArPack (s : State) : Host.Outcome State Fault Refusal := runOp arPack s

/-- AR_UNPACK (R205). -/
def execArUnpack (s : State) : Host.Outcome State Fault Refusal := runOp arUnpack s

end Sys2Proof.Machine
end

