-- ==== Sys2Proof/Machine/Window.lean ====
section
/-! DEFINITION. Sliding window, match finder and window replay (41_match_finder.md). -/

namespace Sys2Proof.Machine

/-- The loop of `MF_SEARCH` (R126) over the `n` distances from `d` on: a later candidate replaces an earlier one only if it
is strictly longer, so the nearest of the longest is kept. -/
def State.searchFrom (s : State) : Nat → Nat → Nat × Nat → Nat × Nat
  | _, 0, best => best
  | d, n + 1, best =>
    s.searchFrom (d + 1) n (if s.candidate d > best.1 then (s.candidate d, d) else best)

/-- `(BESTLEN, BESTOFF)` of R126. -/
def State.bestMatch (s : State) : Nat × Nat := s.searchFrom 1 s.win.fill (0, 0)

/-- `MF_SEARCH` (R126). -/
def mfSearch : Op Unit := upd fun s => s.setFinder { s.finder with bestLen := s.bestMatch.1, bestOff := s.bestMatch.2 }

/-- Append the next `n` input bytes, from `CUR + k` on, to the window, one at a time (R128). -/
def appendInput : Nat → Nat → Op Unit
  | _, 0 => pure ()
  | k, n + 1 => do
    let s ← look id
    winPut (s.inByte (s.finder.cur + k))
    appendInput (k + 1) n

/-- `CUR <- CUR + n`. -/
def advanceCur (n : Nat) : Op Unit := upd fun s => s.setFinder { s.finder with cur := s.finder.cur + n }

/-- `MF_STEP` (R128): greedy choice of R127. -/
def mfStep : Op Token := do
  let s ← look id
  need (s.finder.cur < s.host.inLen) "MF_STEP"
  mfSearch
  let s ← look id
  if s.finder.bestLen ≥ Config.minMatch then do
    appendInput 0 s.finder.bestLen
    advanceCur s.finder.bestLen
    pure (.mat s.finder.bestOff s.finder.bestLen)
  else do
    winPut (s.inByte s.finder.cur)
    advanceCur 1
    pure (.lit (s.inByte s.finder.cur))

/-- The copy loop of `REPLAY_MATCH` (R131): read, write `OUT`, then write the window, byte by byte (R275). -/
def replayLoop (offset : Nat) : Nat → Op Unit
  | 0 => pure ()
  | n + 1 => do
    let b ← winGet offset
    outAppend b
    winPut b
    replayLoop offset n

/-- `REPLAY_MATCH(offset, length)` (R131), with `1 <= offset <= WFILL`. -/
def replayMatch (offset length : Nat) : Op Unit := do
  let s ← look id
  need (1 ≤ offset ∧ offset ≤ s.win.fill) "REPLAY_MATCH"
  replayLoop offset length

/-- `REPLAY_LITERAL(b)` (R132). -/
def replayLiteral (b : Byte) : Op Unit := do
  outAppend b
  winPut b

/-- `WIN_EMIT(b)` (R96): `WIN_PUT(b)`, then write `b` to `OUT[OPTR]`; the capacity is checked before the write (R59).
R96 marks it 'decompression only' and does not say what it does in a compression or with no call in progress: it does the same
in every phase (DESIGN CHOICE, log entry 20). -/
def winEmit (b : Byte) : Op Unit := do
  winPut b
  outAppend b

/-- WIN_INIT (R120). -/
def execWinInit (s : State) : Host.Outcome State Fault Refusal := runOp winInit s

/-- WIN_PUT (R121). -/
def execWinPut (b : Byte) (s : State) : Host.Outcome State Fault Refusal := runOp (winPut b) s

/-- WIN_GET (R122). -/
def execWinGet (d : Nat) (s : State) : Host.Outcome State Fault Refusal := runRes (winGet d) .byte s

/-- MF_SEARCH (R126). -/
def execMfSearch (s : State) : Host.Outcome State Fault Refusal := runOp mfSearch s

/-- MF_STEP (R128). -/
def execMfStep (s : State) : Host.Outcome State Fault Refusal := runRes mfStep .token s

/-- REPLAY_MATCH (R131). -/
def execReplayMatch (offset length : Nat) (s : State) : Host.Outcome State Fault Refusal :=
  runOp (replayMatch offset length) s

/-- REPLAY_LITERAL (R132). -/
def execReplayLiteral (b : Byte) (s : State) : Host.Outcome State Fault Refusal := runOp (replayLiteral b) s

/-- WIN_EMIT (R96). -/
def execWinEmit (b : Byte) (s : State) : Host.Outcome State Fault Refusal := runOp (winEmit b) s

end Sys2Proof.Machine
end

