-- ==== Sys2Proof/Machine/TokenCodec.lean ====
section
/-! DEFINITION. Token encoder and token decoder (42_token_codec.md). -/

namespace Sys2Proof.Machine

/-- `TE_INIT` (R141). -/
def teInit : Op Unit :=
  upd fun s => (s.setEnc { s.enc with flg := 0, gc := 0, gplen := 0 }).setTb { s.tb with len := 0 }

/-- Entry `i` of the group staging `GP`; an entry nothing has written reads as its reset value 0 (R37, log entry 1). -/
def TokenEncoder.staged (e : TokenEncoder) (i : Nat) : Byte :=
  match tableGet e.gp i with
  | some b => b
  | none => 0

/-- `GP[GPLEN] <- b; GPLEN <- GPLEN + 1` (R142, R143). -/
def TokenEncoder.stage (e : TokenEncoder) (b : Byte) : TokenEncoder :=
  { e with gp := tableSet e.gp e.gplen b, gplen := e.gplen + 1 }

/-- `TB_APPEND(GP[i])` for the `n` entries from `i` on (R146). -/
def appendStaged : Nat → Nat → Op Unit
  | _, 0 => pure ()
  | i, n + 1 => do
    let s ← look id
    tbAppend (s.enc.staged i)
    appendStaged (i + 1) n

/-- `TE_FLUSH` (R146). -/
def teFlush : Op Unit := do
  let s ← look id
  if s.enc.gc > 0 then do
    tbAppend s.enc.flg
    appendStaged 0 s.enc.gplen
    upd fun s => s.setEnc { s.enc with flg := 0, gc := 0, gplen := 0 }
  else pure ()

/-- `GC <- GC + 1; if GC = 8 then TE_FLUSH` (R142, R143). -/
def teCount : Op Unit := do
  upd fun s => s.setEnc { s.enc with gc := s.enc.gc + 1 }
  let s ← look id
  if s.enc.gc = Config.groupSize then teFlush else pure ()

/-- `TE_PUT_LITERAL(b)` (R142). -/
def tePutLiteral (b : Byte) : Op Unit := do
  upd fun s => s.setEnc (TokenEncoder.stage { s.enc with flg := s.enc.flg ||| 1 <<< s.enc.gc } b)
  teCount

/-- `TE_PUT_MATCH(offset, length)` (R143): the flag bit stays 0. -/
def tePutMatch (offset length : Nat) : Op Unit := do
  upd fun s => s.setEnc ((s.enc.stage (matchByte0 (offsetField offset))).stage
    (matchByte1 (offsetField offset) (lengthField length)))
  teCount

/-- `TP <- TP + n`. -/
def advanceTp (n : Nat) : Op Unit := upd fun s => s.setDec { s.dec with tp := s.dec.tp + n }

/-- What `TD_FLAG` does with the flag byte it has read (R151). -/
def acceptFlag (v : Byte) : Op Unit := do
  upd fun s => s.setDec { tp := s.dec.tp + 1, dflg := v }
  let s ← look id
  check (s.dec.tp ≠ s.tb.len) .invalidToken

/-- `TD_FLAG` (R151). -/
def tdFlag : Op Unit := do
  let s ← look id
  need (s.dec.tp < s.tb.len) "TD_FLAG"
  acceptFlag (s.tbByte s.dec.tp)

/-- What `TD_LITERAL` does with the byte it has read (R152). -/
def acceptLiteral (b : Byte) : Op Unit := do
  advanceTp 1
  replayLiteral b

/-- `TD_LITERAL` (R152). -/
def tdLiteral : Op Unit := do
  let s ← look id
  need (s.dec.tp < s.tb.len) "TD_LITERAL"
  acceptLiteral (s.tbByte s.dec.tp)

/-- What `TD_MATCH` does with the fields it has read (R153): the test of the offset precedes the copy (R277). -/
def acceptMatch (o : BitVec 12) (l : BitVec 4) : Op Unit := do
  advanceTp 2
  let s ← look id
  check (fieldOffset o ≤ s.win.fill) .invalidToken
  replayMatch (fieldOffset o) (fieldLength l)

/-- `TD_MATCH` (R153). -/
def tdMatch : Op Unit := do
  let s ← look id
  need (s.dec.tp < s.tb.len) "TD_MATCH"
  check (2 ≤ s.tb.len - s.dec.tp) .invalidToken
  acceptMatch (bytesOffsetField (s.tbByte s.dec.tp) (s.tbByte (s.dec.tp + 1)))
    (byteLengthField (s.tbByte (s.dec.tp + 1)))

/-- Token `i` of a group (R150): bit `i` of the flag byte says whether it is a Literal (R76). -/
def tdToken (i : Nat) : Op Unit := do
  let s ← look id
  if s.dec.dflg.getLsbD i then tdLiteral else tdMatch

/-- Tokens `8 - n` to 7 of a group (R150): the loop is left when all bytes are consumed. -/
def tdTokens : Nat → Op Unit
  | 0 => pure ()
  | n + 1 => do
    let s ← look id
    if s.dec.tp = s.tb.len then pure ()
    else do
      tdToken (Config.groupSize - (n + 1))
      tdTokens n

/-- `while TP < N` (R150). Every group consumes at least one byte, so `N` rounds suffice. -/
def tdGroups : Nat → Op Unit
  | 0 => pure ()
  | fuel + 1 => do
    let s ← look id
    if s.dec.tp < s.tb.len then do
      tdFlag
      tdTokens Config.groupSize
      tdGroups fuel
    else pure ()

/-- `TD_DECODE` (R150). -/
def tdDecode : Op Unit := do
  winInit
  upd fun s => (s.setDec { s.dec with tp := 0 }).setOut { s.out with ptr := 0 }
  let s ← look id
  tdGroups s.tb.len

/-- TE_INIT (R141). -/
def execTeInit (s : State) : Host.Outcome State Fault Refusal := runOp teInit s

/-- TE_PUT_LITERAL (R142). -/
def execTePutLiteral (b : Byte) (s : State) : Host.Outcome State Fault Refusal := runOp (tePutLiteral b) s

/-- TE_PUT_MATCH (R143). -/
def execTePutMatch (offset length : Nat) (s : State) : Host.Outcome State Fault Refusal :=
  runOp (tePutMatch offset length) s

/-- TB_APPEND (R145). -/
def execTbAppend (v : Byte) (s : State) : Host.Outcome State Fault Refusal := runOp (tbAppend v) s

/-- TE_FLUSH (R146). -/
def execTeFlush (s : State) : Host.Outcome State Fault Refusal := runOp teFlush s

/-- TD_DECODE (R150). -/
def execTdDecode (s : State) : Host.Outcome State Fault Refusal := runOp tdDecode s

/-- TD_FLAG (R151). -/
def execTdFlag (s : State) : Host.Outcome State Fault Refusal := runOp tdFlag s

/-- TD_LITERAL (R152). -/
def execTdLiteral (s : State) : Host.Outcome State Fault Refusal := runOp tdLiteral s

/-- TD_MATCH (R153). -/
def execTdMatch (s : State) : Host.Outcome State Fault Refusal := runOp tdMatch s

end Sys2Proof.Machine
end

