-- ==== Sys2Proof/Machine/Elements.lean ====
section
/-! DEFINITION. The format elements (30_encoding.md). While the engine compresses, an element is written: to `TB` through the
token encoder, to `OUT` through the bit writer. Otherwise it is read: the meaning is what the decoder does that has met this
element at its position (R70; DESIGN CHOICE, log entry 8). -/

namespace Sys2Proof.Machine

/-- One operation while the engine writes formats, another while it reads them. -/
def writeOrRead (write read : Op Unit) : Op Unit := do
  let s ← look id
  if s.seq.phase.writes then write else read

/-- The token decoder has a byte to consume: the precondition `TP < N` of R151 to R153. -/
def needToken (op : String) : Op Unit := do
  let s ← look id
  need (s.dec.tp < s.tb.len) op

/-- A node marker 0 met by `HF_DESER_TREE` (R176). Executed alone after the traversal has closed, where R176 and R179 read no
further node, it allots the next entry and opens it all the same (DESIGN CHOICE, log entry 28). -/
def acceptInternal : Op Unit := do
  let i ← allocNode
  brSkip 1
  openNode i

/-- A node marker 1 and the 8 bits of `v` met by `HF_DESER_TREE` (R176). Executed alone after the traversal has closed it allots
the next entry, which becomes the root (DESIGN CHOICE, log entry 28). -/
def acceptLeaf (v : Byte) : Op Unit := do
  let i ← allocNode
  brSkip 9
  leafNode i v

/-- The node a path leads to (R193). -/
def TreeStore.follow (t : TreeStore) : Nat → Bits → Option Nat
  | i, [] => some i
  | i, b :: bs =>
    match t.at i with
    | .leaf _ _ => none
    | .internal l r _ => t.follow (childOf l r b) bs

/-- The leaf a code word ends at in the tree of the store: of a lone leaf that leaf, after one bit (R91, R194). -/
def TreeStore.codewordLeaf (t : TreeStore) (root : Nat) (path : Bits) : Option Nat :=
  match t.at root with
  | .leaf _ _ => if path.length = 1 then some root else none
  | .internal _ _ _ =>
    match t.follow root path with
    | none => none
    | some i =>
      match t.at i with
      | .leaf _ _ => some i
      | .internal _ _ _ => none

/-- `WALK` after a symbol: the walk moves only in a tree with an internal node (R193). -/
def walkedTo (t : TreeStore) (root leaf : Nat) : Op Unit :=
  match t.at root with
  | .leaf _ _ => pure ()
  | .internal _ _ _ => setWalk leaf

/-- A code word met by `HF_DECODE` (R193), whose loop reads one only while `SYMCNT < N`. Executed alone with `SYMCNT >= N`, without
a tree or with `N > T_CAP` it is refused (DESIGN CHOICE, log entry 12). -/
def acceptCodeword (path : Bits) : Op Unit := do
  let s ← look id
  need (s.walker.symcnt < s.tb.len ∧ s.tb.len ≤ s.tCap) "CODEWORD"
  match s.tree.root with
  | none => need False "CODEWORD"
  | some root =>
    match s.tree.codewordLeaf root path with
    | none => refuse (.notAtCursor "CODEWORD")
    | some leaf => do
      brSkip path.length
      walkedTo s.tree root leaf
      putSymbol (s.tree.at leaf).value

/-- The tree field met by `AR_UNPACK` (R210): its bits are those of the region, and `HF_DESER_TREE` reads them. -/
def acceptTreeBits (bits : Bits) : Op Unit := do
  let s ← look id
  if s.tbl = bits.length ∧ s.inBits 80 s.tbl = bits then hfDeserTree else refuse (.notAtCursor "TREE_BITS")

/-- The payload field met by `HF_DECODE` (R213): its bits are those from the reader's position to its limit. -/
def acceptPayload (bits : Bits) : Op Unit := do
  let s ← look id
  if s.inBits s.br.pos (s.br.limit - s.br.pos) = bits then hfDecode else refuse (.notAtCursor "PAYLOAD_BITS")

/-- Bits, then the zero pad bits to a byte boundary (R89, R90, R104). -/
def putPadded (bits : Bits) : Op Unit := do
  bwPutAll bits
  bwAlign

/-- FLAG (R76): written by `TE_FLUSH` (R146), read by `TD_FLAG` (R151). -/
def execFlag (v : Byte) (s : State) : Host.Outcome State Fault Refusal :=
  runOp (writeOrRead (tbAppend v) (do needToken "FLAG"; acceptFlag v)) s

/-- LITERAL (R77): written by `TE_PUT_LITERAL` (R142), read by `TD_LITERAL` (R152). -/
def execLiteral (v : Byte) (s : State) : Host.Outcome State Fault Refusal :=
  runOp (writeOrRead (tePutLiteral v) (do needToken "LITERAL"; acceptLiteral v)) s

/-- The room a Match needs in what is left of `T` (R153). -/
def checkMatchRoom : Op Unit := do
  let s ← look id
  check (2 ≤ s.tb.len - s.dec.tp) .invalidToken

/-- MATCH (R78): written by `TE_PUT_MATCH` (R143), read by `TD_MATCH` (R153). -/
def execMatchTok (o : BitVec 12) (l : BitVec 4) (s : State) : Host.Outcome State Fault Refusal :=
  runOp (writeOrRead (tePutMatch (fieldOffset o) (fieldLength l))
    (do needToken "MATCH"; checkMatchRoom; acceptMatch o l)) s

/-- NODE_INTERNAL (R83): written by `HF_SER_TREE` and `AR_PACK` (R174, R201), read by `HF_DESER_TREE` (R176). -/
def execNodeInternal (s : State) : Host.Outcome State Fault Refusal :=
  runOp (writeOrRead (bwPutBit false) acceptInternal) s

/-- NODE_LEAF (R83): written by `HF_SER_TREE` and `AR_PACK` (R174, R201), read by `HF_DESER_TREE` (R176). -/
def execNodeLeaf (v : Byte) (s : State) : Host.Outcome State Fault Refusal :=
  runOp (writeOrRead (bwPutAll (true :: byteBits v)) (acceptLeaf v)) s

/-- CODEWORD (R91): written by `HF_ENCODE` (R191), read by `HF_DECODE` (R193). -/
def execCodeword (path : Bits) (s : State) : Host.Outcome State Fault Refusal :=
  runOp (writeOrRead (bwPutAll path) (acceptCodeword path)) s

/-- MAGIC (R86): written by `AR_PACK` (R201), required by `AR_UNPACK` (R208). Executed alone it makes no
length check of its own (DESIGN CHOICE, log entry 26). -/
def execMagic (s : State) : Host.Outcome State Fault Refusal :=
  runOp (writeOrRead (bwPutBits Config.magicWord 16) checkMagic) s

/-- TOKEN_LEN (R87): written by `AR_PACK` (R201), read by `AR_UNPACK` (R205). Executed alone it makes no length check of its own
(DESIGN CHOICE, log entry 26). -/
def execTokenLen (n : BitVec 32) (s : State) : Host.Outcome State Fault Refusal :=
  runOp (writeOrRead (bwPutBits n.toNat 32) (acceptTokenLen n.toNat)) s

/-- TREE_BIT_LEN (R88): written by `AR_PACK` (R201), read and checked by `AR_UNPACK` (R205, R209). Executed alone
with `IN_LEN < 10` it takes `A - 10` as 0 (DESIGN CHOICE, log entry 26). -/
def execTreeBitLen (t : BitVec 32) (s : State) : Host.Outcome State Fault Refusal :=
  runOp (writeOrRead (bwPutBits t.toNat 32) (acceptTreeBitLen t.toNat)) s

/-- TREE_BITS (R89): written with its pad bits by `AR_PACK` (R201), read by `HF_DESER_TREE` (R176, R210). -/
def execTreeBits (bits : Bits) (s : State) : Host.Outcome State Fault Refusal :=
  runOp (writeOrRead (putPadded bits) (acceptTreeBits bits)) s

/-- PAYLOAD_BITS (R90): written with its pad bits by `AR_PACK` (R201), read by `HF_DECODE` (R193). -/
def execPayloadBits (bits : Bits) (s : State) : Host.Outcome State Fault Refusal :=
  runOp (writeOrRead (putPadded bits) (acceptPayload bits)) s

end Sys2Proof.Machine
end

