-- ==== Sys2Proof/Machine/Pipeline.lean ====
section
/-! DEFINITION. The two host commands (46_pipeline.md): the start of a call, its body, its end. -/

namespace Sys2Proof.Machine

/-- `PHASE <- p` (R13, R22). -/
def setPhase (p : Phase) : Op Unit := upd fun s => s.setSeq { phase := p, line := .start }

/-- Start of a call, in the order of R221: the host registers, the per-call initialisation (R44), the test of `IN_LEN`
(R222), the first phase. -/
def startCall (first : Phase) : Op Unit := do
  upd State.accept
  upd State.initCall
  let s ← look id
  check (s.host.inLen ≤ s.caps.inCap) .capacityExceeded
  setPhase first

/-- Hand a token to the token encoder (R129, R223). -/
def tePutToken : Token → Op Unit
  | .lit b => tePutLiteral b
  | .mat o l => tePutMatch o l

/-- `while CUR < IN_LEN` (R129, R223). Every step advances `CUR`, so `IN_LEN` rounds suffice. -/
def tokenLoop : Nat → Op Unit
  | 0 => pure ()
  | fuel + 1 => do
    let s ← look id
    if s.finder.cur < s.host.inLen then do
      let t ← mfStep
      tePutToken t
      tokenLoop fuel
    else pure ()

/-- `CUR <- 0`. -/
def resetCur : Op Unit := upd fun s => s.setFinder { s.finder with cur := 0 }

/-- End of the call with `Ok` (R227). -/
def endCall : Op Unit := upd State.endOk

/-- The body of `COMPRESS` (R223). -/
def compressBody : Op Unit := do
  winInit
  teInit
  resetCur
  let s ← look id
  tokenLoop s.host.inLen
  teFlush
  setPhase .cCount
  hfCount
  setPhase .cBuild
  hfBuild
  hfCodegen
  setPhase .cPack
  arPack
  endCall

/-- The body of `DECOMPRESS` (R224). -/
def decompressBody : Op Unit := do
  arUnpack
  setPhase .dHuff
  hfDecode
  setPhase .dTokens
  tdDecode
  endCall

/-- A command: the start of its call and, if no turn is scheduled that could fall inside the call, its body to the end. If
turns are scheduled the body is left to the engine's next turns, one operation each (R18, R65; log entry 2). -/
def command (first : Phase) (body : Op Unit) : Op Unit := do
  startCall first
  let s ← look id
  if s.env.turns = [] then body else pure ()

/-- COMPRESS (R223). While `STATUS.BUSY = 1` the command is ignored (R25, R221). -/
def execCompress (s : State) : Host.Outcome State Fault Refusal :=
  if s.busy then .next s else runOp (command .cTokens compressBody) s

/-- DECOMPRESS (R224). While `STATUS.BUSY = 1` the command is ignored (R25, R221). -/
def execDecompress (s : State) : Host.Outcome State Fault Refusal :=
  if s.busy then .next s else runOp (command .dUnpack decompressBody) s

end Sys2Proof.Machine
end

