-- ==== Sys2Proof/Machine/Dispatch.lean ====
section
/-! DEFINITION. The meaning of every constructor of `Instr`, one arm each. -/

namespace Sys2Proof.Machine

/-- One operation or format element, executed. -/
def exec (i : Instr) (s : State) : Host.Outcome State Fault Refusal :=
  match i with
  | .compress => Sys2Proof.Machine.execCompress s
  | .decompress => Sys2Proof.Machine.execDecompress s
  | .flag v => Sys2Proof.Machine.execFlag v s
  | .literal v => Sys2Proof.Machine.execLiteral v s
  | .matchTok o l => Sys2Proof.Machine.execMatchTok o l s
  | .nodeInternal => Sys2Proof.Machine.execNodeInternal s
  | .nodeLeaf v => Sys2Proof.Machine.execNodeLeaf v s
  | .codeword path => Sys2Proof.Machine.execCodeword path s
  | .magic => Sys2Proof.Machine.execMagic s
  | .tokenLen n => Sys2Proof.Machine.execTokenLen n s
  | .treeBitLen t => Sys2Proof.Machine.execTreeBitLen t s
  | .treeBits bits => Sys2Proof.Machine.execTreeBits bits s
  | .payloadBits bits => Sys2Proof.Machine.execPayloadBits bits s
  | .bwInit => Sys2Proof.Machine.execBwInit s
  | .bwPutBit b => Sys2Proof.Machine.execBwPutBit b s
  | .bwPutBits v n => Sys2Proof.Machine.execBwPutBits v n s
  | .bwAlign => Sys2Proof.Machine.execBwAlign s
  | .brInit start limit err => Sys2Proof.Machine.execBrInit start limit err s
  | .brGetBit => Sys2Proof.Machine.execBrGetBit s
  | .brGetBits n => Sys2Proof.Machine.execBrGetBits n s
  | .winInit => Sys2Proof.Machine.execWinInit s
  | .winPut b => Sys2Proof.Machine.execWinPut b s
  | .winGet d => Sys2Proof.Machine.execWinGet d s
  | .mfSearch => Sys2Proof.Machine.execMfSearch s
  | .mfStep => Sys2Proof.Machine.execMfStep s
  | .replayMatch offset length => Sys2Proof.Machine.execReplayMatch offset length s
  | .replayLiteral b => Sys2Proof.Machine.execReplayLiteral b s
  | .teInit => Sys2Proof.Machine.execTeInit s
  | .tePutLiteral b => Sys2Proof.Machine.execTePutLiteral b s
  | .tePutMatch offset length => Sys2Proof.Machine.execTePutMatch offset length s
  | .tbAppend v => Sys2Proof.Machine.execTbAppend v s
  | .teFlush => Sys2Proof.Machine.execTeFlush s
  | .tdDecode => Sys2Proof.Machine.execTdDecode s
  | .tdFlag => Sys2Proof.Machine.execTdFlag s
  | .tdLiteral => Sys2Proof.Machine.execTdLiteral s
  | .tdMatch => Sys2Proof.Machine.execTdMatch s
  | .hfCount => Sys2Proof.Machine.execHfCount s
  | .hfBuild => Sys2Proof.Machine.execHfBuild s
  | .hfCodegen => Sys2Proof.Machine.execHfCodegen s
  | .hfSerTree => Sys2Proof.Machine.execHfSerTree s
  | .hfDeserTree => Sys2Proof.Machine.execHfDeserTree s
  | .hfEncode => Sys2Proof.Machine.execHfEncode s
  | .hfDecode => Sys2Proof.Machine.execHfDecode s
  | .arPack => Sys2Proof.Machine.execArPack s
  | .arUnpack => Sys2Proof.Machine.execArUnpack s
  | .bwPutByte v => Sys2Proof.Machine.execBwPutByte v s
  | .bwPutU32 v => Sys2Proof.Machine.execBwPutU32 v s
  | .bwPutCode v => Sys2Proof.Machine.execBwPutCode v s
  | .winEmit b => Sys2Proof.Machine.execWinEmit b s

end Sys2Proof.Machine
end

