-- ==== Sys2Proof/WellFormed.lean ====
section
/-! DEFINITION. Which terms of `Instr` are operations the spec describes: the ranges the operation rules give their
operands. What depends on the machine's state (a distance within the bytes produced so far) is checked by the meaning. -/

namespace Sys2Proof

/-- A Match's operands: `1 <= offset <= 4096`, `3 <= length <= 18` (R130 (a), R131, R143). -/
def matchOperands (offset length : Nat) : Bool :=
  1 ≤ offset && offset ≤ Config.windowSize && Config.minMatch ≤ length && length ≤ Config.maxMatch

/-- The operand ranges of the rules: R91 and R35 (code words of 1 to 255 bits), R90 (the payload field is whole bytes),
R103 and R111 (widths 0 to 32), R109 (regions and error of the bit reader), R122 (distances), R131, R143. -/
def WellFormed : Instr → Bool
  | .compress => true
  | .decompress => true
  | .flag _ => true
  | .literal _ => true
  | .matchTok _ _ => true
  | .nodeInternal => true
  | .nodeLeaf _ => true
  | .codeword path => 1 ≤ path.length && path.length ≤ 255
  | .magic => true
  | .tokenLen _ => true
  | .treeBitLen _ => true
  | .treeBits bits => bits.length < 4294967296
  | .payloadBits bits => bits.length % 8 == 0
  | .bwInit => true
  | .bwPutBit _ => true
  | .bwPutBits _ n => n ≤ 32
  | .bwAlign => true
  | .brInit start limit err =>
      start ≤ limit && (err == .malformedArchive || err == .unexpectedEndOfStream)
  | .brGetBit => true
  | .brGetBits n => n ≤ 32
  | .winInit => true
  | .winPut _ => true
  | .winGet d => 1 ≤ d && d ≤ Config.windowSize
  | .mfSearch => true
  | .mfStep => true
  | .replayMatch offset length => matchOperands offset length
  | .replayLiteral _ => true
  | .teInit => true
  | .tePutLiteral _ => true
  | .tePutMatch offset length => matchOperands offset length
  | .tbAppend _ => true
  | .teFlush => true
  | .tdDecode => true
  | .tdFlag => true
  | .tdLiteral => true
  | .tdMatch => true
  | .hfCount => true
  | .hfBuild => true
  | .hfCodegen => true
  | .hfSerTree => true
  | .hfDeserTree => true
  | .hfEncode => true
  | .hfDecode => true
  | .arPack => true
  | .arUnpack => true
  | .bwPutByte _ => true
  | .bwPutU32 _ => true
  | .bwPutCode _ => true
  | .winEmit _ => true

end Sys2Proof
end

