-- ==== Sys2Proof/Decode.lean ====
section
/-! DEFINITION. The decoder of every format of R70, total on any bits and rejecting by name, and the encoder. No format but
the command code carries an opcode of its own: what comes next is told by its position, which `Slot` names (R70, R93). The
internal operations have no encoding (R97): the decoder never yields one and the encoder gives none. -/

namespace Sys2Proof

/-- What tells a decoder which format comes next (R70, column 'selected by'; R93). -/
inductive Slot
  /-- host register 0 was written -/
  | cmd
  /-- first byte of `T`, or first byte after a complete group -/
  | flag
  /-- a token whose flag bit is this one: `true` a Literal, `false` a Match -/
  | token (isLiteral : Bool)
  /-- the next node of the serialized tree -/
  | node
  /-- the next code word of the payload, of this tree -/
  | codeword (tree : Tree)
  /-- archive bytes 0 to 1 -/
  | magic
  /-- archive bytes 2 to 5 -/
  | tokenLen
  /-- archive bytes 6 to 9 -/
  | treeBitLen
  /-- the tree field of a tree of `tbl` bits -/
  | treeBits (tbl : Nat)
  /-- the rest of the archive -/
  | payload
deriving DecidableEq, Repr

/-- Why bits are not an element of the format their position calls for. -/
inductive Reject
  /-- A `CMD` value other than 0x01 and 0x02 (R74). -/
  | reservedCommand
  /-- `MAGIC` other than `43 5A` (R86). -/
  | badMagic
  /-- Fewer bits than the element needs (R94). -/
  | truncated
  /-- A payload field that is not whole bytes (R90). -/
  | raggedPayload
deriving DecidableEq, Repr

/-- The root-to-leaf path that the first bits spell, and the bits after it: a code word ends when the walk reaches a
leaf (R93). -/
def codePath : Tree → Bits → Option (Bits × Bits)
  | .leaf _, bs => some ([], bs)
  | .node _ _, [] => none
  | .node l r, b :: bs =>
    match codePath (if b then r else l) bs with
    | some (path, rest) => some (b :: path, rest)
    | none => none

/-- The next code word: of a lone leaf one bit, whose value is not looked at (R91, R194); else a root-to-leaf path. -/
def codewordBits : Tree → Bits → Option (Bits × Bits)
  | .leaf _, bs => takeBits 1 bs
  | .node l r, bs => codePath (.node l r) bs

/-- An element of `n` bits whose value is `f` of their number. -/
def fixedWidth (n : Nat) (f : Nat → Except Reject Instr) (bs : Bits) : Except Reject (Instr × Bits) :=
  match takeBits n bs with
  | none => .error .truncated
  | some (pre, rest) =>
    match f (bitsNat pre) with
    | .ok i => .ok (i, rest)
    | .error e => .error e

/-- The command codes (R73); every other value is reserved (R74). -/
def decodeCmd (c : Nat) : Except Reject Instr :=
  if c = 0x01 then .ok .compress else if c = 0x02 then .ok .decompress else .error .reservedCommand

/-- The element at a position, and the bits after it. -/
def decode : Slot → Bits → Except Reject (Instr × Bits)
  | .cmd, bs => fixedWidth 8 decodeCmd bs
  | .flag, bs => fixedWidth 8 (fun v => .ok (.flag (BitVec.ofNat 8 v))) bs
  | .token true, bs => fixedWidth 8 (fun v => .ok (.literal (BitVec.ofNat 8 v))) bs
  | .token false, bs =>
      fixedWidth 16 (fun v => .ok (.matchTok (BitVec.ofNat 12 (v / 16)) (BitVec.ofNat 4 v))) bs
  | .node, [] => .error .truncated
  | .node, false :: bs => .ok (.nodeInternal, bs)
  | .node, true :: bs => fixedWidth 8 (fun v => .ok (.nodeLeaf (BitVec.ofNat 8 v))) bs
  | .codeword t, bs =>
    match codewordBits t bs with
    | some (path, rest) => .ok (.codeword path, rest)
    | none => .error .truncated
  | .magic, bs => fixedWidth 16 (fun v => if v = Config.magicWord then .ok .magic else .error .badMagic) bs
  | .tokenLen, bs => fixedWidth 32 (fun v => .ok (.tokenLen (BitVec.ofNat 32 v))) bs
  | .treeBitLen, bs => fixedWidth 32 (fun v => .ok (.treeBitLen (BitVec.ofNat 32 v))) bs
  | .treeBits tbl, bs =>
    match takeBits tbl bs with
    | none => .error .truncated
    | some (tree, rest) =>
      match takeBits (padCount tbl) rest with
      | none => .error .truncated
      | some (_, rest') => .ok (.treeBits tree, rest')
  | .payload, bs => if bs.length % 8 = 0 then .ok (.payloadBits bs, []) else .error .raggedPayload

/-- The bits of an element, first bit first; `none` for an operation that has no encoding (R97). Written from R73, R76,
R77, R78, R83, R86 to R91; pad bits are written as 0 (R89, R90). -/
def encode : Instr → Option Bits
  | .compress => some (natBits 8 0x01)
  | .decompress => some (natBits 8 0x02)
  | .flag v => some (byteBits v)
  | .literal v => some (byteBits v)
  | .matchTok o l => some (natBits 12 o.toNat ++ natBits 4 l.toNat)
  | .nodeInternal => some [false]
  | .nodeLeaf v => some (true :: byteBits v)
  | .codeword path => some path
  | .magic => some (byteBits Config.magic0 ++ byteBits Config.magic1)
  | .tokenLen n => some (natBits 32 n.toNat)
  | .treeBitLen t => some (natBits 32 t.toNat)
  | .treeBits bits => some (padded bits)
  | .payloadBits bits => some (padded bits)
  | .bwInit => none
  | .bwPutBit _ => none
  | .bwPutBits _ _ => none
  | .bwAlign => none
  | .brInit _ _ _ => none
  | .brGetBit => none
  | .brGetBits _ => none
  | .winInit => none
  | .winPut _ => none
  | .winGet _ => none
  | .mfSearch => none
  | .mfStep => none
  | .replayMatch _ _ => none
  | .replayLiteral _ => none
  | .teInit => none
  | .tePutLiteral _ => none
  | .tePutMatch _ _ => none
  | .tbAppend _ => none
  | .teFlush => none
  | .tdDecode => none
  | .tdFlag => none
  | .tdLiteral => none
  | .tdMatch => none
  | .hfCount => none
  | .hfBuild => none
  | .hfCodegen => none
  | .hfSerTree => none
  | .hfDeserTree => none
  | .hfEncode => none
  | .hfDecode => none
  | .arPack => none
  | .arUnpack => none
  | .bwPutByte _ => none
  | .bwPutU32 _ => none
  | .bwPutCode _ => none
  | .winEmit _ => none

/-- The positions an element's encoding can stand at. A code word stands at the payload of any tree it is a path of, so no
slot is listed for it here: `slotFits` asks for the tree. -/
def slotFits (sl : Slot) (i : Instr) : Bool :=
  match sl, i with
  | .cmd, .compress => true
  | .cmd, .decompress => true
  | .flag, .flag _ => true
  | .token true, .literal _ => true
  | .token false, .matchTok _ _ => true
  | .node, .nodeInternal => true
  | .node, .nodeLeaf _ => true
  | .codeword t, .codeword path => codewordBits t path == some (path, [])
  | .magic, .magic => true
  | .tokenLen, .tokenLen _ => true
  | .treeBitLen, .treeBitLen _ => true
  | .treeBits tbl, .treeBits bits => tbl == bits.length
  | .payload, .payloadBits _ => true
  | _, _ => false

/-- The position at which a whole word of a table row is decoded when nothing but its width is known: a byte is a host
command, 16 bits that read `43 5A` are `MAGIC` and any other 16 bits a Match token, 32 bits are `TOKEN_LEN`, 1 and 9 bits a
tree node (DESIGN CHOICE, log entry 16: no data format carries an opcode, R70). -/
def tableSlot (nbits w : Nat) : Option Slot :=
  if nbits = 8 then some .cmd
  else if nbits = 16 then some (if w = Config.magicWord then .magic else .token false)
  else if nbits = 32 then some .tokenLen
  else if nbits = 1 then some .node
  else if nbits = 9 then some .node
  else none

/-- What the decoder reads from the `nbits` bits of `w`, laid out most significant bit first (R51, R52). -/
def decodeTableWord (nbits w : Nat) : Option Instr :=
  match tableSlot nbits w with
  | none => none
  | some slot =>
    match decode slot (natBits nbits w) with
    | .ok (i, []) => some i
    | .ok (_, _ :: _) => none
    | .error _ => none

end Sys2Proof
end

