-- ==== Sys2Proof/Machine/Sequencer.lean ====
section
/-! DEFINITION. The sequencer (R220): which operation or format element it executes next, read off `PHASE`, the cursors and
the bytes at the readers' positions; and the turns of the host at its interface (R24 to R30). `exec` is a parameter here, so
that this file stands below the dispatch. -/

namespace Sys2Proof.Machine

/-- What the sequencer does in its next step. -/
inductive Fetched
  /-- no call in progress: wait for a command (R270) -/
  | wait
  /-- `PHASE <- p`, or the next line of the phase -/
  | move (p : Phase) (l : Line)
  /-- execute `i`, then go on at this phase and line -/
  | run (i : Instr) (p : Phase) (l : Line)
  /-- the operation that would read the next element raises this error -/
  | raise (e : ErrKind)
  /-- the end of the call with `Ok` -/
  | done
  /-- no operation of the spec can be invoked here -/
  | refuse (r : Refusal)
deriving DecidableEq, Repr

/-- An element decoded at a reader's position, executed, or the error its reader raises where the bits are no element. -/
def element (r : Except Reject (Instr × Bits)) (e : ErrKind) (p : Phase) (l : Line) : Fetched :=
  match r with
  | .ok (i, _) => .run i p l
  | .error _ => .raise e

/-- Phase C_TOKENS (R129, R223). -/
def fetchTokens (s : State) : Line → Fetched
  | .start => .run .winInit .cTokens .teInit
  | .teInit => .run .teInit .cTokens .tokens
  | .put =>
    match s.env.result with
    | .token (.lit b) => .run (.tePutLiteral b) .cTokens .tokens
    | .token (.mat o l) => .run (.tePutMatch o l) .cTokens .tokens
    | .none => .refuse (.precondition "TE_PUT")
    | .bit _ => .refuse (.precondition "TE_PUT")
    | .value _ => .refuse (.precondition "TE_PUT")
    | .byte _ => .refuse (.precondition "TE_PUT")
    | .bits _ => .refuse (.precondition "TE_PUT")
  | _ => if s.finder.cur < s.host.inLen then .run .mfStep .cTokens .put else .run .teFlush .cCount .start

/-- Phase C_BUILD (R223). -/
def fetchBuild : Line → Fetched
  | .codegen => .run .hfCodegen .cPack .start
  | _ => .run .hfBuild .cBuild .codegen

/-- Phase C_PACK: the lines of `AR_PACK` (R201). -/
def fetchPack (s : State) : Line → Fetched
  | .bwInit => .run .bwInit .cPack .magic
  | .magic => .run .magic .cPack .tokenLen
  | .tokenLen => .run (.tokenLen (BitVec.ofNat 32 s.tb.len)) .cPack .treeBitLen
  | .treeBitLen => .run (.treeBitLen (BitVec.ofNat 32 s.tbl)) .cPack .treeBits
  | .treeBits => .run (.treeBits (serTree s.tree.shape)) .cPack .payload
  | .payload => .run .hfEncode .cPack .align
  | .align => .run .bwAlign .cPack .finish
  | .finish => .done
  | _ => .run .hfSerTree .cPack .bwInit

/-- The next node of the serialized tree, or the end of the tree (R176). -/
def fetchNode (s : State) : Fetched :=
  if s.tree.root.isSome then
    if s.br.pos = s.br.limit then .move .dUnpack .payload else .raise .malformedArchive
  else if s.tree.ncnt < Config.nodeCap then
    element (decode .node (s.inBits s.br.pos (min 9 (s.br.limit - s.br.pos)))) s.br.err .dUnpack .nodes
  else .raise .malformedArchive

/-- The last checks of `AR_UNPACK` and its payload region (R211 to R213). -/
def fetchPayload (s : State) : Fetched :=
  if ¬ (s.tb.len = 0 ∨ s.tree.root.isSome) then .raise .malformedArchive
  else if ¬ s.tb.len ≤ s.tCap then .raise .capacityExceeded
  else .run (.brInit s.payloadStart (8 * s.host.inLen) .unexpectedEndOfStream) .dHuff .start

/-- Phase D_UNPACK: the lines of `AR_UNPACK` (R205) and of `HF_DESER_TREE` (R176). -/
def fetchUnpack (s : State) : Line → Fetched
  | .tokenLen => element (decode .tokenLen (s.inBits 16 32)) .malformedArchive .dUnpack .treeBitLen
  | .treeBitLen => element (decode .treeBitLen (s.inBits 48 32)) .malformedArchive .dUnpack .treeBits
  | .treeBits =>
    if s.tbl = 0 then .move .dUnpack .payload
    else .run (.brInit 80 (80 + s.tbl) .malformedArchive) .dUnpack .nodes
  | .nodes => fetchNode s
  | .payload => fetchPayload s
  | _ =>
    if s.host.inLen < Config.headerBytes then .raise .malformedArchive
    else element (decode .magic (s.inBits 0 16)) .malformedArchive .dUnpack .tokenLen

/-- Phase D_HUFF: the next code word, until `N` symbols have been emitted (R193, R196). -/
def fetchSymbol (s : State) : Fetched :=
  if s.walker.symcnt < s.tb.len then
    match s.tree.shape with
    | none => .refuse (.precondition "HF_DECODE")
    | some t => element (decode (.codeword t) (s.inBits s.br.pos (s.br.limit - s.br.pos))) s.br.err .dHuff .start
  else .move .dTokens .start

/-- The bits of the `n` bytes of `TB` from index `a` on. -/
def State.tbBits (s : State) : Nat → Nat → Bits
  | _, 0 => []
  | a, n + 1 => byteBits (s.tbByte a) ++ s.tbBits (a + 1) n

/-- The token at `TP` (R152, R153): the decoder is offered the 1 or 2 bytes its kind takes, as far as `T` has them. -/
def fetchToken (s : State) (i : Nat) : Fetched :=
  if s.dec.tp = s.tb.len then .done
  else if i ≥ Config.groupSize then .move .dTokens .flag
  else
    element (decode (.token (s.dec.dflg.getLsbD i))
      (s.tbBits s.dec.tp (min (if s.dec.dflg.getLsbD i then 1 else 2) (s.tb.len - s.dec.tp))))
      .invalidToken .dTokens (.token (i + 1))

/-- Phase D_TOKENS: the lines of `TD_DECODE` (R150). -/
def fetchDecode (s : State) : Line → Fetched
  | .flag =>
    if s.dec.tp < s.tb.len then
      element (decode .flag (s.tbBits s.dec.tp 1)) .invalidToken .dTokens (.token 0)
    else .done
  | .token i => fetchToken s i
  | _ => .run .winInit .dTokens .flag

/-- What the sequencer does next (R220, R223, R224). -/
def fetch (s : State) : Fetched :=
  match s.seq.phase with
  | .idle => .wait
  | .cTokens => fetchTokens s s.seq.line
  | .cCount => .run .hfCount .cBuild .start
  | .cBuild => fetchBuild s.seq.line
  | .cPack => fetchPack s s.seq.line
  | .dUnpack => fetchUnpack s s.seq.line
  | .dHuff => fetchSymbol s
  | .dTokens => fetchDecode s s.seq.line

/-- Go on at a phase and line. Entering C_TOKENS' second line is `CUR <- 0` (R223); entering the tree of an archive is
`NCNT <- 0; ROOT <- none` (R176); entering D_HUFF is `SYMCNT <- 0` (R193); entering D_TOKENS is `TP <- 0; OPTR <- 0` (R150). -/
def State.goTo (s : State) (p : Phase) (l : Line) : State :=
  let t := s.setSeq { phase := p, line := l }
  match p, l with
  | .cTokens, .teInit => t.setFinder { t.finder with cur := 0 }
  | .dUnpack, .treeBits => t.setTree { t.tree with ncnt := 0, root := none, dstk := [] }
  | .dHuff, .start => if s.seq.phase = .dHuff then t else t.setWalker { t.walker with symcnt := 0 }
  | .dTokens, .start => (t.setDec { t.dec with tp := 0 }).setOut { t.out with ptr := 0 }
  | _, _ => t

/-- After an operation: go on, unless it has ended the call by an error (R246). -/
def afterRun (p : Phase) (l : Line) : Host.Outcome State Fault Refusal → Host.Outcome State Fault Refusal
  | .next t => if t.seq.phase = .idle then .next t else .next (t.goTo p l)
  | .fault r => .fault r
  | .refused r => .refused r

/-- The engine's turn. -/
def engineTurn (exec : Instr → State → Host.Outcome State Fault Refusal) (s : State) :
    Host.Outcome State Fault Refusal :=
  match fetch s with
  | .wait => .next s
  | .move p l => .next (s.goTo p l)
  | .run i p l => afterRun p l (exec i s)
  | .raise e => .next (s.takeError e)
  | .done => .next s.endOk
  | .refuse r => .refused r

-- The host's turns ----------------------------------------------------------------------------------------------------

/-- What the host reads from a register (R24): `CMD` reads 0, the others hold their value (R25 to R30). -/
def State.regValue (s : State) : Nat → Option Nat
  | 0 => some 0
  | 1 => some s.host.status.toNat
  | 2 => some s.host.errcode.toNat
  | 3 => some s.host.inLen
  | 4 => some s.host.outLen
  | _ => none

/-- The value a host read delivers. -/
def State.withHostData (s : State) (v : Nat) : State := s.setEnv { s.env with hostData := v }

/-- A write of `CMD` (R25, R221): ignored while busy; else the command code is decoded and executed; a reserved code is
refused (R74). -/
def writeCmd (exec : Instr → State → Host.Outcome State Fault Refusal) (c : Byte) (s : State) :
    Host.Outcome State Fault Refusal :=
  if s.busy then .next s
  else
    match decode .cmd (byteBits c) with
    | .ok (i, _) => exec i s
    | .error _ => .refused (.reservedCommand c)

/-- A write of a host register (R24): `STATUS`, `ERRCODE` and `OUT_LEN` ignore it, `IN_LEN` while busy does too. -/
def writeReg (exec : Instr → State → Host.Outcome State Fault Refusal) (n v : Nat) (s : State) :
    Host.Outcome State Fault Refusal :=
  match n with
  | 0 => writeCmd exec (BitVec.ofNat 8 v) s
  | 1 => .next s
  | 2 => .next s
  | 3 => if s.busy then .next s else .next (s.setHost { s.host with inLen := v })
  | 4 => .next s
  | n + 5 => .fault (.noSuchRegister (n + 5))

/-- A read of a host register (R24). -/
def readReg (n : Nat) (s : State) : Host.Outcome State Fault Refusal :=
  match s.regValue n with
  | some v => .next (s.withHostData v)
  | none => .fault (.noSuchRegister n)

/-- An access of the host to `IN` or `OUT`: refused while busy (R282, U2), a fault at or past the capacity (R40). -/
def bufferAccess (sp : Space) (a cap : Nat) (s t : State) : Host.Outcome State Fault Refusal :=
  if s.busy then .refused (.bufferWhileBusy sp)
  else if a < cap then .next t
  else .fault (.noSuchAddress sp a)

/-- The host reads `OUT[a]`: the result byte below `OUT_LEN`, a free value at or past it (R40, R247, U4), the same one until
the engine is started again or reset (R58). -/
def State.readOut (s : State) (a : Nat) : State :=
  if a < s.host.outLen then s.withHostData (s.outByte a).toNat
  else s.withHostData (Config.freeByte s.env.epoch s.env.calls a).toNat

/-- Hardware reset (R270, R271): the state of R43, with no byte of any space known any more. The capacities are wiring; the
turns to come and the host's data are not the engine's. -/
def State.hardReset (s : State) : State :=
  { State.reset with
    caps := s.caps
    env := { s.env with result := .none, epoch := s.env.epoch + 1 } }

/-- One turn. -/
def takeTurn (exec : Instr → State → Host.Outcome State Fault Refusal) (t : Turn) (s : State) :
    Host.Outcome State Fault Refusal :=
  match t with
  | .engine => engineTurn exec s
  | .writeReg n v => writeReg exec n v s
  | .readReg n => readReg n s
  | .writeIn a b => bufferAccess .inp a s.caps.inCap s (s.setInp (tableSet s.inp a b))
  | .readIn a => bufferAccess .inp a s.caps.inCap s (s.withHostData (s.inByte a).toNat)
  | .writeOut _ _ => if s.busy then .refused (.bufferWhileBusy .out) else .refused .outputWritten
  | .readOut a => bufferAccess .out a s.caps.outCap s (s.readOut a)
  | .reset => .next s.hardReset

/-- One step: the next turn that is scheduled, or, with none scheduled, the engine's (log entry 2). -/
def turnStep (exec : Instr → State → Host.Outcome State Fault Refusal) (s : State) : Host.Outcome State Fault Refusal :=
  match s.env.turns with
  | [] => engineTurn exec s
  | t :: rest => takeTurn exec t (s.setEnv { s.env with turns := rest })

-- Placing a word where the next step fetches it -------------------------------------------------------------------------

/-- Byte `i` of a big-endian word of `n` bytes (R51). -/
def wordByte (w n i : Nat) : Byte := BitVec.ofNat 8 (w / 2 ^ (8 * (n - 1 - i)))

/-- The bytes of a big-endian word of `n` bytes stored in a memory from index `a` on, the last `k` of them (R51). -/
def storeWord (w n : Nat) : Nat → Nat → Mem → Mem
  | _, 0, m => m
  | a, k + 1, m => storeWord w n (a + 1) k (tableSet m a (wordByte w n (n - (k + 1))))

/-- The engine in the middle of a call, at this phase and line, with no turn scheduled. -/
def State.placedAt (s : State) (p : Phase) (l : Line) : State :=
  ((s.setHost { s.host with status := 0x01, inLen := max s.host.inLen Config.headerBytes }).setSeq
    { phase := p, line := l }).setEnv { s.env with turns := [] }

/-- A command code: the host's next turn writes it to `CMD`, and the engine is not busy (R221). -/
def State.placeCommand (s : State) (w : Nat) : State :=
  if s.busy then
    ((s.setHost { s.host with status := 0x00 }).setSeq { phase := .idle, line := .start }).setEnv
      { s.env with turns := .writeReg 0 w :: s.env.turns }
  else s.setEnv { s.env with turns := .writeReg 0 w :: s.env.turns }

/-- A Match token: the next two bytes of `T`, in a group whose token 0 is a Match (R78, R153). -/
def State.placeMatch (s : State) (w : Nat) : State :=
  ((s.placedAt .dTokens (.token 0)).setTb
    { mem := storeWord w 2 s.dec.tp 2 s.tb.mem, len := s.dec.tp + 2 }).setDec { s.dec with dflg := 0 }

/-- A tree node: the next bits of the tree region of an archive, which is opened at its first byte, byte 10 (R56, R176). -/
def State.placeNode (s : State) (nbits w : Nat) : State :=
  ((((s.placedAt .dUnpack .nodes).setInp (storeWord (w * 2 ^ (16 - nbits)) 2 10 2 s.inp)).setHost
      { s.host with status := 0x01, inLen := max s.host.inLen 12 }).setBr
      { pos := 80, limit := 80 + nbits, err := .malformedArchive }).setTree
    { s.tree with ncnt := 0, root := none, dstk := [] }

/-- The word of a table row stored where the next step fetches it. -/
def State.place (s : State) (nbits w : Nat) : State :=
  match tableSlot nbits w with
  | some .magic => (s.placedAt .dUnpack .start).setInp (storeWord w 2 0 2 s.inp)
  | some .tokenLen => (s.placedAt .dUnpack .tokenLen).setInp (storeWord w 4 2 4 s.inp)
  | some (.token _) => s.placeMatch w
  | some .node => s.placeNode nbits w
  | _ => s.placeCommand w

end Sys2Proof.Machine
end

