-- ==== Sys2Proof/Machine/Platform.lean ====
section
/-! DEFINITION. A platform of several engine instances (R10 `NUM_ENGINES`, R259): each has its own copy of all state. `step`
runs one instance; nothing here is part of `State`. Instances need no identifier (R259), so the free values of unwritten bytes
and of `OUT` past `OUT_LEN` are not keyed by the instance (DESIGN CHOICE, log entry 17). -/

namespace Sys2Proof.Machine

/-- The instances of a platform, `NUM_ENGINES` of them. -/
abbrev Platform := List State

/-- Instance `k` takes a step; a fault or a refusal leaves the platform where it is. -/
def platformStep (p : Platform) (k : Nat) : Platform :=
  match p[k]? with
  | none => p
  | some s =>
    match step s with
    | .next t => p.set k t
    | .fault _ => p
    | .refused _ => p

end Sys2Proof.Machine
end

