-- ==== Sys2Proof/Machine/Reference.lean ====
section
/-! DEFINITION. The two public operations as functions of byte lists, `compress(bytes) -> archive` and
`decompress(bytes) -> bytes or an error` (R3, R5), written a second time from the spec without registers, windows or cursors.
`step` and `exec` do not use this file: statements say with it what a whole call must compute. -/

namespace Sys2Proof.Machine

-- Tokens (R124 to R129) -------------------------------------------------------------------------------------------------

/-- Byte `i` of a list; 0 past its end, which no use here reaches. -/
def byteAt (bs : List Byte) (i : Nat) : Byte := bs.getD i 0

/-- How many of the next `n` bytes from `c + k` on equal those `d` before them (R124). -/
def refRun (inp : List Byte) (c d : Nat) : Nat → Nat → Nat
  | _, 0 => 0
  | k, n + 1 => if byteAt inp (c + k) = byteAt inp (c - d + k) then refRun inp c d (k + 1) n + 1 else 0

/-- `L(c, d)` (R124). -/
def refL (inp : List Byte) (c d : Nat) : Nat := refRun inp c d 0 (min Config.maxMatch (inp.length - c))

/-- The longest of the `n` candidates from distance `d` on, the nearest of equals: (length, distance) (R126). -/
def refSearch (inp : List Byte) (c : Nat) : Nat → Nat → Nat × Nat → Nat × Nat
  | _, 0, best => best
  | d, n + 1, best => refSearch inp c (d + 1) n (if refL inp c d > best.1 then (refL inp c d, d) else best)

/-- The best match at a cursor (R126). -/
def refBest (inp : List Byte) (c : Nat) : Nat × Nat := refSearch inp c 1 (min c Config.windowSize) (0, 0)

/-- The token at a cursor (R127). -/
def refToken (inp : List Byte) (c : Nat) : Token :=
  if (refBest inp c).1 ≥ Config.minMatch then .mat (refBest inp c).2 (refBest inp c).1 else .lit (byteAt inp c)

/-- How many bytes a token stands for (R16). -/
def tokenSpan : Token → Nat
  | .lit _ => 1
  | .mat _ l => l

/-- The tokens of the input from a cursor on (R129); every token spans at least one byte. -/
def refTokens (inp : List Byte) : Nat → Nat → List Token
  | 0, _ => []
  | fuel + 1, c =>
    if c < inp.length then refToken inp c :: refTokens inp fuel (c + tokenSpan (refToken inp c)) else []

/-- `find_tokens` (R123, R129). -/
def findTokens (inp : List Byte) : List Token := refTokens inp inp.length 0

-- The intermediate stream (R75 to R81) ----------------------------------------------------------------------------------

/-- The encoding of a token (R77, R78). -/
def tokenBytes : Token → List Byte
  | .lit b => [b]
  | .mat o l => [matchByte0 (offsetField o), matchByte1 (offsetField o) (lengthField l)]

/-- The flag byte of a group whose tokens stand at bits `i` and up: 1 Literal, 0 Match, unused bits 0 (R76, R81). -/
def flagByte : Nat → List Token → Byte
  | _, [] => 0
  | i, .lit _ :: ts => (1 <<< i) ||| flagByte (i + 1) ts
  | i, .mat _ _ :: ts => flagByte (i + 1) ts

/-- A group: its flag byte, then its tokens (R75). -/
def groupBytes (ts : List Token) : List Byte := flagByte 0 ts :: ts.flatMap tokenBytes

/-- The stream of a token sequence: groups of 8, the last one shorter (R75). -/
def streamFrom : Nat → List Token → List Byte
  | 0, _ => []
  | _ + 1, [] => []
  | fuel + 1, t :: ts =>
    groupBytes ((t :: ts).take Config.groupSize) ++ streamFrom fuel ((t :: ts).drop Config.groupSize)

/-- `encode(tokens)` (R140). -/
def streamOf (ts : List Token) : List Byte := streamFrom ts.length ts

-- The tree (R162 to R167) -----------------------------------------------------------------------------------------------

/-- How often a byte value occurs (R161). -/
def occurrences (T : List Byte) (v : Nat) : Nat := T.countP (fun b => b.toNat = v)

/-- The leaves, in ascending byte value (R162). -/
def refLeaves (T : List Byte) : List (Key × Tree) :=
  ((List.range Config.symbols).filter fun v => occurrences T v > 0).map fun v =>
    ({ freq := occurrences T v, minsym := v }, .leaf (BitVec.ofNat 8 v))

/-- The first of a non-empty forest in priority order, and the others (R165). -/
def extractFirst : Key × Tree → List (Key × Tree) → (Key × Tree) × List (Key × Tree)
  | x, [] => (x, [])
  | x, y :: ys =>
    if y.1.before x.1 then ((extractFirst y ys).1, x :: (extractFirst y ys).2)
    else ((extractFirst x ys).1, y :: (extractFirst x ys).2)

/-- The merge of two nodes, the first extracted to the left (R166, R167). -/
def mergeNodes (a b : Key × Tree) : Key × Tree :=
  ({ freq := a.1.freq + b.1.freq, minsym := min a.1.minsym b.1.minsym }, .node a.2 b.2)

/-- The merge loop (R166). -/
def refMerge : Nat → List (Key × Tree) → Option Tree
  | _, [] => none
  | _, [x] => some x.2
  | 0, _ :: _ :: _ => none
  | n + 1, x :: y :: ys =>
    match extractFirst x (y :: ys) with
    | (a, []) => some a.2
    | (a, z :: zs) => refMerge n ((extractFirst z zs).2 ++ [mergeNodes a (extractFirst z zs).1])

/-- `build` (R160, R166): the tree of a stream. -/
def treeOf (T : List Byte) : Option Tree := refMerge (refLeaves T).length (refLeaves T)

/-- The bits of the code word of a byte value; none if it has no code (R91, R170). -/
def codeBits (c : Table Bits) (v : Byte) : Bits :=
  match tableGet c v.toNat with
  | some bits => bits
  | none => []

-- The archive (R85 to R92) ----------------------------------------------------------------------------------------------

/-- The payload bits of a stream (R90, R191). -/
def payloadOf (c : Table Bits) (T : List Byte) : Bits := T.flatMap (codeBits c)

/-- The bits of the archive of a stream with the tree `t` (R85, R201). -/
def archiveBits (T : List Byte) (t : Option Tree) : Bits :=
  byteBits Config.magic0 ++ byteBits Config.magic1 ++ natBits 32 T.length ++ natBits 32 (serTree t).length
    ++ padded (serTree t) ++ padded (payloadOf (codeTable t) T)

/-- A bit string of whole bytes as bytes (R52). -/
def bitsBytes : Nat → Bits → List Byte
  | 0, _ => []
  | n + 1, bs => BitVec.ofNat 8 (bitsNat (bs.take 8)) :: bitsBytes n (bs.drop 8)

/-- The archive of a stream (R85). -/
def archiveOf (T : List Byte) : List Byte :=
  bitsBytes ((archiveBits T (treeOf T)).length / 8) (archiveBits T (treeOf T))

/-- `compress(bytes) -> archive` (R3, R5). -/
def refCompress (inp : List Byte) : List Byte := archiveOf (streamOf (findTokens inp))

-- Reading an archive (R150 to R153, R176, R193, R205) -------------------------------------------------------------------

/-- The tree a bit string begins with, and the bits after it (R93, R176). -/
def parseTree : Nat → Bits → Option (Tree × Bits)
  | 0, _ => none
  | _ + 1, [] => none
  | _ + 1, true :: bs =>
    match takeBits 8 bs with
    | none => none
    | some (v, rest) => some (.leaf (BitVec.ofNat 8 (bitsNat v)), rest)
  | fuel + 1, false :: bs =>
    match parseTree fuel bs with
    | none => none
    | some (l, mid) =>
      match parseTree fuel mid with
      | none => none
      | some (r, rest) => some (.node l r, rest)

/-- Number of leaves. -/
def treeLeaves : Tree → Nat
  | .leaf _ => 1
  | .node l r => treeLeaves l + treeLeaves r

/-- The tree a tree field stands for: none if it is empty; an error if it is not exactly one tree of at most 511 nodes, that
is of at most 256 leaves (R178 to R180). -/
def refTree (bs : Bits) : Except ErrKind (Option Tree) :=
  if bs = [] then .ok none
  else
    match parseTree (Config.nodeCap + 1) bs with
    | none => .error .malformedArchive
    | some (t, rest) => if rest = [] ∧ treeLeaves t ≤ Config.symbols then .ok (some t) else .error .malformedArchive

/-- The value of the leaf a path leads to. -/
def treeValueAt : Tree → Bits → Byte
  | .leaf v, _ => v
  | .node _ _, [] => 0
  | .node l r, b :: bs => treeValueAt (if b then r else l) bs

/-- `n` symbols of a payload; an error if its bits run out (R193 to R195). -/
def refSymbols (t : Tree) : Nat → Bits → Except ErrKind (List Byte)
  | 0, _ => .ok []
  | n + 1, bs =>
    match codewordBits t bs with
    | none => .error .unexpectedEndOfStream
    | some (path, rest) =>
      match refSymbols t n rest with
      | .error e => .error e
      | .ok vs => .ok (treeValueAt t path :: vs)

/-- One more byte of output, if there is room (R59). -/
def emit (cap : Nat) (out : List Byte) (b : Byte) : Except ErrKind (List Byte) :=
  if out.length < cap then .ok (out ++ [b]) else .error .capacityExceeded

/-- Copy `n` bytes from `d` back, one at a time (R131). -/
def copyBack (cap d : Nat) : Nat → List Byte → Except ErrKind (List Byte)
  | 0, out => .ok out
  | n + 1, out =>
    match emit cap out (byteAt out (out.length - d)) with
    | .error e => .error e
    | .ok out' => copyBack cap d n out'

/-- The last `n` tokens of a group of 8 with flag byte `flg`: what is left of the stream, and the output (R150 to R153). -/
def refGroup (cap : Nat) (flg : Byte) : Nat → List Byte → List Byte → Except ErrKind (List Byte × List Byte)
  | 0, T, out => .ok (T, out)
  | _ + 1, [], out => .ok ([], out)
  | n + 1, b :: T, out =>
    if flg.getLsbD (Config.groupSize - (n + 1)) then
      match emit cap out b with
      | .error e => .error e
      | .ok out' => refGroup cap flg n T out'
    else
      match T with
      | [] => .error .invalidToken
      | b1 :: T' =>
        if fieldOffset (bytesOffsetField b b1) ≤ min out.length Config.windowSize then
          match copyBack cap (fieldOffset (bytesOffsetField b b1)) (fieldLength (byteLengthField b1)) out with
          | .error e => .error e
          | .ok out' => refGroup cap flg n T' out'
        else .error .invalidToken

/-- `decode(bytes)` with its replay (R150, R156): the output of a stream. -/
def refDecode (cap : Nat) : Nat → List Byte → List Byte → Except ErrKind (List Byte)
  | _, [], out => .ok out
  | 0, _ :: _, out => .ok out
  | fuel + 1, flg :: T, out =>
    if T = [] then .error .invalidToken
    else
      match refGroup cap flg Config.groupSize T out with
      | .error e => .error e
      | .ok (T', out') => refDecode cap fuel T' out'

/-- The last `n` tokens of a group of 8 with flag byte `flg`, and what is left of the stream: the fields of each token as R151
to R153 read them, without a replay. -/
def groupTokens (flg : Byte) : Nat → List Byte → Option (List Token × List Byte)
  | 0, T => some ([], T)
  | _ + 1, [] => some ([], [])
  | n + 1, b :: T =>
    if flg.getLsbD (Config.groupSize - (n + 1)) then
      (groupTokens flg n T).map fun r => (.lit b :: r.1, r.2)
    else
      match T with
      | [] => none
      | b1 :: T' =>
        (groupTokens flg n T').map fun r =>
          (.mat (fieldOffset (bytesOffsetField b b1)) (fieldLength (byteLengthField b1)) :: r.1, r.2)

/-- The tokens of a stream read group by group, at most as many groups as bytes. -/
def tokensFrom : Nat → List Byte → Option (List Token)
  | _, [] => some []
  | 0, _ :: _ => none
  | fuel + 1, flg :: T =>
    if T = [] then none
    else
      match groupTokens flg Config.groupSize T with
      | none => none
      | some (ts, T') => (tokensFrom fuel T').map (ts ++ ·)

/-- `decode(bytes) -> sequence<Token>` (R140, R155): the tokens a stream stands for; none if it ends after a flag byte or
inside a Match (R151, R153). -/
def tokensOf (T : List Byte) : Option (List Token) := tokensFrom T.length T

/-- The flag bits beyond the last token are 0 (R81): a group of `k` tokens has a flag byte below `2^k`. -/
def flagsClearFrom : Nat → List Byte → Bool
  | _, [] => true
  | 0, _ :: _ => true
  | fuel + 1, flg :: T =>
    match groupTokens flg Config.groupSize T with
    | none => true
    | some (ts, T') => decide (flg.toNat < 2 ^ ts.length) && flagsClearFrom fuel T'

/-- The unused flag bits of a stream are 0 (R81, R155 (b)). -/
def flagsClear (T : List Byte) : Bool := flagsClearFrom T.length T

/-- Big-endian 32-bit field at index `a` (R51). -/
def field32 (bs : List Byte) (a : Nat) : Nat := bitsNat (bytesBits ((bs.drop a).take 4))

/-- What a stream of `N` symbols with this tree and payload decompresses to (R211, R212, R224). -/
def refStream (tCap outCap : Nat) (t : Option Tree) (N : Nat) (payload : Bits) : Except ErrKind (List Byte) :=
  if N > 0 ∧ t = none then .error .malformedArchive
  else if N > tCap then .error .capacityExceeded
  else
    match (match t with | none => .ok [] | some t => refSymbols t N payload : Except ErrKind (List Byte)) with
    | .error e => .error e
    | .ok T => refDecode outCap T.length T []

/-- `decompress(bytes)`: the output, or the first error reached (R224, R250). -/
def refDecompress (tCap outCap : Nat) (arc : List Byte) : Except ErrKind (List Byte) :=
  if arc.length < Config.headerBytes then .error .malformedArchive
  else if ¬ (byteAt arc 0 = Config.magic0 ∧ byteAt arc 1 = Config.magic1) then .error .malformedArchive
  else if ceil8 (field32 arc 6) > arc.length - Config.headerBytes then .error .malformedArchive
  else
    match refTree ((bytesBits (arc.drop Config.headerBytes)).take (field32 arc 6)) with
    | .error e => .error e
    | .ok t =>
      refStream tCap outCap t (field32 arc 2)
        (bytesBits (arc.drop (Config.headerBytes + ceil8 (field32 arc 6))))

end Sys2Proof.Machine
end

