-- ==== Sys2Proof/Safety.lean ====
section
/-! DEFINITION. The terms in which statements speak of runs: byte and bit sequences of the spaces, what it is to have ended a
call, the window and tree a state holds, the bits an operation writes, and the invariants every step keeps. -/

namespace Sys2Proof.Machine

-- Sequences -------------------------------------------------------------------------------------------------------------

/-- The `n` bytes from index `a` on. -/
def bytesFrom (f : Nat → Byte) : Nat → Nat → List Byte
  | _, 0 => []
  | a, n + 1 => f a :: bytesFrom f (a + 1) n

/-- The input of a call: `IN[0 .. IN_LEN-1]` (R222). -/
def State.input (s : State) : List Byte := bytesFrom s.inByte 0 s.host.inLen
/-- The consumed input `IN[0 .. CUR-1]` (R41). -/
def State.consumed (s : State) : List Byte := bytesFrom s.inByte 0 s.finder.cur
/-- The intermediate stream `T = TB[0 .. TLEN-1]` (R40). -/
def State.stream (s : State) : List Byte := bytesFrom s.tbByte 0 s.tb.len
/-- The bytes written to `OUT` so far: `OUT[0 .. OPTR-1]`. -/
def State.output (s : State) : List Byte := bytesFrom s.outByte 0 s.out.ptr
/-- The result of a call: `OUT[0 .. OUT_LEN-1]` (R40). -/
def State.result (s : State) : List Byte := bytesFrom s.outByte 0 s.host.outLen

/-- Operations one after the other; an error taken by one does not keep the next from being invoked here. -/
def execAll : List Instr → State → Host.Outcome State Fault Refusal
  | [], s => .next s
  | i :: is, s =>
    match exec i s with
    | .next t => execAll is t
    | .fault r => .fault r
    | .refused r => .refused r

/-- `n` calls of BR_GET_BIT: the bits returned, and the state after them; none once an error is raised. -/
def readBits : Nat → State → Option (Bits × State)
  | 0, s => some ([], s)
  | n + 1, s =>
    match exec .brGetBit s with
    | .next t =>
      match t.env.result, readBits n t with
      | .bit b, some (bs, u) => if t.seq = s.seq ∧ t.host = s.host then some (b :: bs, u) else none
      | _, _ => none
    | .fault _ => none
    | .refused _ => none

/-- `n` steps. -/
def stepMany : Nat → State → Host.Outcome State Fault Refusal
  | 0, s => .next s
  | n + 1, s =>
    match step s with
    | .next t => stepMany n t
    | .fault r => .fault r
    | .refused r => .refused r

-- Ends of calls ---------------------------------------------------------------------------------------------------------

/-- `ERRCODE` as R27 numbers the kinds. -/
def errNumber : ErrKind → Nat
  | .malformedArchive => 1
  | .unexpectedEndOfStream => 2
  | .invalidToken => 3
  | .capacityExceeded => 4

/-- The call of a state has ended with this error (R246). -/
def State.failed (t : State) (e : ErrKind) : Prop :=
  t.host.status = 0x06 ∧ t.host.errcode.toNat = errNumber e ∧ t.host.outLen = 0 ∧ t.seq.phase = .idle

/-- The call of a state has ended with `Ok` and this result (R227). -/
def State.succeeded (t : State) (result : List Byte) : Prop :=
  t.host.status = 0x02 ∧ t.host.errcode = 0 ∧ t.seq.phase = .idle ∧ t.result = result

/-- `t` is `s` after an error was taken: the host registers and the phase of R246, everything the host put in kept
(R247). With no call in progress that an error is taken at all is the model's choice (R249, log entry 27). -/
def State.tookError (s t : State) (e : ErrKind) : Prop :=
  t.failed e ∧ t.host.inLen = s.host.inLen ∧ t.inp = s.inp ∧ t.caps = s.caps ∧ t.env = s.env

/-- A new call can start and runs to its end in one step: the engine is not busy and no turn is scheduled. -/
def State.ready (s : State) : Prop := s.busy = false ∧ s.env.turns = []

-- What a state holds ----------------------------------------------------------------------------------------------------

/-- The window of a call that has produced the bytes `p` so far (R41). -/
def State.windowHolds (s : State) (p : List Byte) : Prop :=
  s.win.pos = p.length % 4096 ∧ s.win.fill = min p.length 4096 ∧
    ∀ d, 1 ≤ d → d ≤ s.win.fill → s.winByte ((s.win.pos + 4096 - d) % 4096) = byteAt p (p.length - d)

/-- Node `i` of the store is the root of this tree (R33, R169). -/
def TreeStore.holds (t : TreeStore) : Nat → Tree → Prop
  | i, .leaf v => ∃ k, t.at i = .leaf v k
  | i, .node l r => ∃ a b k, t.at i = .internal a b k ∧ t.holds a l ∧ t.holds b r

/-- `ROOT` and the node store are this tree, or no tree (R33, R163). -/
def TreeStore.isTree (t : TreeStore) : Option Tree → Prop
  | none => t.root = none
  | some tr => ∃ r, t.root = some r ∧ t.holds r tr ∧ treeLeaves tr ≤ 256

/-- The leaf values of a tree, left to right. -/
def treeValues : Tree → List Byte
  | .leaf v => [v]
  | .node l r => treeValues l ++ treeValues r

/-- `path` leads from the root to a leaf of value `v` (R91). -/
def leadsTo : Tree → Bits → Byte → Prop
  | .leaf w, path, v => path = [] ∧ w = v
  | .node _ _, [], _ => False
  | .node l r, b :: bs, v => leadsTo (if b then r else l) bs v

/-- The code words of the value of a leaf as the decoder takes them: its path, or of a lone leaf any one bit (R91, R194). -/
def isCodeword : Tree → Bits → Byte → Prop
  | .leaf w, path, v => path.length = 1 ∧ w = v
  | .node l r, path, v => leadsTo (.node l r) path v

/-- `l = L(c, d)` over an input of `n` bytes (R124): the largest length up to `min(18, n - c)` over which the bytes from `c`
equal those `d` before them. -/
def isCandidateLength (inp : Nat → Byte) (n c d l : Nat) : Prop :=
  l ≤ min 18 (n - c) ∧ (∀ k, k < l → inp (c + k) = inp (c - d + k)) ∧
    (l < min 18 (n - c) → inp (c + l) ≠ inp (c - d + l))

/-- The operands of a Match with `p` bytes before it (R130 (a), (b)). -/
def tokenFits (p : Nat) : Token → Prop
  | .lit _ => True
  | .mat o l => 1 ≤ o ∧ o ≤ min p 4096 ∧ 3 ≤ l ∧ l ≤ 18

/-- Every token of a sequence that starts after `p` bytes fits where it stands. -/
def tokensFit : Nat → List Token → Prop
  | _, [] => True
  | p, t :: ts => tokenFits p t ∧ tokensFit (p + tokenSpan t) ts

/-- `length` bytes copied from `d` back, one at a time, without a bound on the output (R131). -/
def copied (d : Nat) : Nat → List Byte → List Byte
  | 0, out => out
  | n + 1, out => copied d n (out ++ [byteAt out (out.length - d)])

/-- The output of a token sequence (R131, R132). -/
def replayed : List Token → List Byte → List Byte
  | [], out => out
  | .lit b :: ts, out => replayed ts (out ++ [b])
  | .mat o l :: ts, out => replayed ts (copied o l out)

/-- The operation that encodes a token (R129). -/
def putToken : Token → Instr
  | .lit b => .tePutLiteral b
  | .mat o l => .tePutMatch o l

-- The bit writer --------------------------------------------------------------------------------------------------------

/-- `BW_ACC` and `BW_CNT` as R38 says they stand: fewer than 8 bits, and 0 at the positions not yet filled. -/
def State.writerOk (s : State) : Prop := s.bw.cnt < 8 ∧ s.bw.acc.toNat % 2 ^ (8 - s.bw.cnt) = 0

/-- The bits written from byte index `p` of `OUT` on, those in `BW_ACC` among them (R38, R105). -/
def State.bitsFrom (s : State) (p : Nat) : Bits :=
  bytesBits (bytesFrom s.outByte p (s.out.ptr - p)) ++ (byteBits s.bw.acc).take s.bw.cnt

/-- The code word of a byte value: the bits of `CODE[v]`, none for a value without a code (R35). -/
def State.codeOf (s : State) (v : Byte) : Bits := codeBits s.code v

/-- The bits that an operation of the bit writer, a pseudo-operation over it, or a format element during a compression
appends (R83, R86 to R88, R91, R96, R102, R103, R191). A width above 32, which R103 excludes, is log entry 24's. -/
def State.bitsWritten (s : State) : Instr → Option Bits
  | .bwPutBit b => some [b]
  | .bwPutBits v n => some (natBits n v)
  | .bwPutByte v => some (byteBits v)
  | .bwPutU32 v => some (natBits 32 v.toNat)
  | .bwPutCode v => some (s.codeOf v)
  | .hfEncode => some (s.stream.flatMap s.codeOf)
  | .nodeInternal => if s.seq.phase.writes then some [false] else none
  | .nodeLeaf v => if s.seq.phase.writes then some (true :: byteBits v) else none
  | .codeword path => if s.seq.phase.writes then some path else none
  | .magic => if s.seq.phase.writes then some (byteBits 0x43 ++ byteBits 0x5A) else none
  | .tokenLen n => if s.seq.phase.writes then some (natBits 32 n.toNat) else none
  | .treeBitLen t => if s.seq.phase.writes then some (natBits 32 t.toNat) else none
  | _ => none

/-- The bits that an operation which ends at a byte boundary appends before its pad bits (R89, R90, R104). -/
def State.bitsPadded (s : State) : Instr → Option Bits
  | .bwAlign => some []
  | .treeBits bits => if s.seq.phase.writes then some bits else none
  | .payloadBits bits => if s.seq.phase.writes then some bits else none
  | _ => none

-- The sequencer ---------------------------------------------------------------------------------------------------------

/-- The values `PHASE` may take after one step (R22): a phase goes on, is followed by the next one of the table, or its call
ends. -/
def phaseSuccessors : Phase → List Phase
  | .idle => [.idle, .cTokens, .dUnpack]
  | .cTokens => [.cTokens, .cCount, .idle]
  | .cCount => [.cCount, .cBuild, .idle]
  | .cBuild => [.cBuild, .cPack, .idle]
  | .cPack => [.cPack, .idle]
  | .dUnpack => [.dUnpack, .dHuff, .idle]
  | .dHuff => [.dHuff, .dTokens, .idle]
  | .dTokens => [.dTokens, .idle]

/-- The format element whose turn it is while an archive is read (R70, R93): its position, the bits from there on that its
reader may see, and where the sequencer goes on. -/
inductive State.ElementAt (s : State) : Slot → Bits → Phase → Line → Prop
  | magic (h : s.seq = { phase := .dUnpack, line := .start }) (hl : 10 ≤ s.host.inLen) :
      State.ElementAt s .magic (s.inBits 0 16) .dUnpack .tokenLen
  | tokenLen (h : s.seq = { phase := .dUnpack, line := .tokenLen }) :
      State.ElementAt s .tokenLen (s.inBits 16 32) .dUnpack .treeBitLen
  | treeBitLen (h : s.seq = { phase := .dUnpack, line := .treeBitLen }) :
      State.ElementAt s .treeBitLen (s.inBits 48 32) .dUnpack .treeBits
  | node (h : s.seq = { phase := .dUnpack, line := .nodes }) (hr : s.tree.root = none) (hn : s.tree.ncnt < 511) :
      State.ElementAt s .node (s.inBits s.br.pos (min 9 (s.br.limit - s.br.pos))) .dUnpack .nodes
  | codeword (tr : Tree) (h : s.seq.phase = .dHuff) (hn : s.walker.symcnt < s.tb.len) (ht : s.tree.shape = some tr) :
      State.ElementAt s (.codeword tr) (s.inBits s.br.pos (s.br.limit - s.br.pos)) .dHuff .start
  | flag (h : s.seq = { phase := .dTokens, line := .flag }) (hn : s.dec.tp < s.tb.len) :
      State.ElementAt s .flag (byteBits (s.tbByte s.dec.tp)) .dTokens (.token 0)
  | literal (i : Nat) (h : s.seq = { phase := .dTokens, line := .token i }) (hi : i < 8) (hn : s.dec.tp < s.tb.len)
      (hf : s.dec.dflg.getLsbD i = true) :
      State.ElementAt s (.token true) (byteBits (s.tbByte s.dec.tp)) .dTokens (.token (i + 1))
  | matchTok (i : Nat) (h : s.seq = { phase := .dTokens, line := .token i }) (hi : i < 8)
      (hn : s.dec.tp + 2 ≤ s.tb.len) (hf : s.dec.dflg.getLsbD i = false) :
      State.ElementAt s (.token false) (byteBits (s.tbByte s.dec.tp) ++ byteBits (s.tbByte (s.dec.tp + 1))) .dTokens
        (.token (i + 1))

-- Invariants ------------------------------------------------------------------------------------------------------------

/-- Every memory and every table is in canonical form. -/
def State.Canonical (s : State) : Prop :=
  Memory.wf s.inp = true ∧ Memory.wf s.tb.mem = true ∧ Memory.wf s.out.mem = true ∧ Memory.wf s.win.mem = true ∧
    Memory.wf s.enc.gp = true ∧ Memory.wf s.freq = true ∧ Memory.wf s.tree.node = true ∧ Memory.wf s.code = true

/-- The host registers agree with each other and with `PHASE` (R22, R26, R27, R29). -/
structure State.StatusAgrees (s : State) : Prop where
  /-- the legal combinations of `BUSY`, `DONE`, `ERR` (R26) -/
  legal : s.host.status = 0x00 ∨ s.host.status = 0x01 ∨ s.host.status = 0x02 ∨ s.host.status = 0x06
  /-- busy exactly outside `IDLE` -/
  busy : s.host.status = 0x01 ↔ s.seq.phase ≠ .idle
  /-- values 5 to 255 never appear (R27) -/
  code : s.host.errcode.toNat ≤ 4
  /-- an error code exactly after an error -/
  error : s.host.errcode ≠ 0 ↔ s.host.status = 0x06
  /-- a result only after `Ok` (R29) -/
  length : s.host.status ≠ 0x02 → s.host.outLen = 0

/-- All indices of a table are below a bound. -/
def tableBelow {α : Type} (n : Nat) : Table α → Prop
  | [] => True
  | (a, _) :: t => a < n ∧ tableBelow n t

/-- Every register and every table entry is within the range R21, R32 to R35 and R37 to R39 give it, and every cursor within
the buffer it indexes (R23, R59). The one range not among them is the depth of `DSTK`: R36 has at most 255 entries, the model up
to 511 (DESIGN CHOICE, log entry 18); here its entries are bounded, and by `stack` its depth is at most `NCNT`. -/
structure State.InRange (s : State) : Prop where
  window : s.win.pos < 4096 ∧ s.win.fill ≤ 4096
  finder : s.finder.bestLen ≤ 18 ∧ s.finder.bestOff ≤ 4096
  group : s.enc.gc ≤ 8 ∧ s.enc.gplen ≤ 2 * s.enc.gc ∧ s.enc.flg.toNat < 2 ^ s.enc.gc
  openGroup : s.seq.phase ≠ .idle → s.enc.gc < 8
  /-- `TLEN`, `TP`, `SYMCNT`, `TBL`: 32 bits -/
  lengths : s.tb.len < 2 ^ 32 ∧ s.dec.tp < 2 ^ 32 ∧ s.walker.symcnt < 2 ^ 32 ∧ s.tbl < 2 ^ 32
  /-- `NCNT`, `ROOT`, `WALK`, `LIVE`: nodes of the store -/
  nodes : s.tree.ncnt ≤ 511 ∧ (∀ r, s.tree.root = some r → r < 511) ∧ s.walker.walk < 511 ∧ ∀ i ∈ s.tree.live, i < 511
  /-- the fields of `NODE` (R33) -/
  nodeFields : ∀ i, (∀ l r k, s.tree.at i = .internal l r k → l < 511 ∧ r < 511) ∧
    (s.tree.at i).key.freq < 2 ^ 32 ∧ (s.tree.at i).key.minsym < 256
  /-- the entries of `FREQ`, whose sum is below 2^32 (R32) -/
  frequencies : ((List.range 256).map (freqAt s.freq)).sum < 2 ^ 32
  /-- a code is at most 255 bits long (R35) -/
  codes : ∀ v path, tableGet s.code v = some path → path.length ≤ 255
  /-- the entries of `DSTK`: indices of the store; an open node on its right side has a left child -/
  openNodes : ∀ e ∈ s.tree.dstk, e.1 < 511 ∧ (e.2 = true → e.1 + 1 < 511)
  /-- while a tree is read the open nodes are those allotted last, innermost first -/
  stack : s.seq.phase = .dUnpack → (s.tree.ncnt :: s.tree.dstk.map Prod.fst).Pairwise (· > ·)
  /-- a built tree has at most 256 leaves (R168) -/
  built : s.seq.phase = .cPack ∨ s.seq = { phase := .cBuild, line := .codegen } →
    ∀ tr, s.tree.shape = some tr → treeLeaves tr ≤ 256
  writer : s.bw.cnt < 8
  writerOpen : s.seq.phase ≠ .idle → s.writerOk
  reader : s.br.pos ≤ s.br.limit
  treeRegion : s.seq = { phase := .dUnpack, line := .nodes } → s.br.limit ≤ 8 * s.host.inLen ∧ s.br.err = .malformedArchive
  payloadRegion : s.seq.phase = .dHuff → s.br.limit = 8 * s.host.inLen ∧ s.br.err = .unexpectedEndOfStream
  input : s.seq.phase ≠ .idle → s.finder.cur ≤ s.host.inLen
  symbols : s.seq.phase = .dHuff → s.walker.symcnt ≤ s.tb.len
  tokens : s.seq.phase = .dTokens → s.dec.tp ≤ s.tb.len
  streamFits : s.seq.phase ≠ .idle → s.seq.phase ≠ .dUnpack → s.tb.len ≤ s.tCap
  outputFits : s.out.ptr ≤ s.caps.outCap
  inListed : tableBelow s.caps.inCap s.inp
  tbListed : tableBelow s.tCap s.tb.mem
  outListed : tableBelow s.caps.outCap s.out.mem
  winListed : tableBelow 4096 s.win.mem
  gpListed : tableBelow 16 s.enc.gp
  freqListed : tableBelow 256 s.freq
  codeListed : tableBelow 256 s.code
  nodeListed : tableBelow 511 s.tree.node

/-- The invariant of a run: the host registers agree and every register is in range. -/
def State.Sound (s : State) : Prop := s.StatusAgrees ∧ s.InRange

/-- Two states that a call cannot tell apart: the same input bytes and the same capacities, whatever earlier calls left
behind (R20, R226, R229). -/
def State.sameCall (s t : State) : Prop := s.input = t.input ∧ s.caps = t.caps

end Sys2Proof.Machine
end

