-- ==== Sys2Proof/Certificates/Slice0/Obligations.lean ====
section
/-! DEFINITION. The statements about this machine, from the numbered rules of spec/. Where a clause rests on a choice of the
model and not on a rule, the docstring names the log entry. -/

open Sys2Proof Sys2Proof.Machine

-- Encodings -------------------------------------------------------------------------------------------------------------

/-- Decode and encode agree (R70 to R91, R93): at a position an element can stand at, the decoder reads from the element's
encoding that element and leaves what follows it. The payload field runs to the end of the archive, so nothing follows it
(R90). -/
def Obligations.EncodedElementsDecodeBack : Prop :=
  ∀ (i : Instr) (sl : Slot) (e : Bits), WellFormed i = true → slotFits sl i = true → encode i = some e →
    decode sl e = .ok (i, []) ∧ (sl ≠ .payload → ∀ rest, decode sl (e ++ rest) = .ok (i, rest))

/-- The other direction: what the decoder reads is an element of its position, and the bits it consumed are that element's
encoding; of a tree field the pad bits alone may differ, for they are not looked at (R89). -/
def Obligations.DecodedElementsEncodeBack : Prop :=
  ∀ (sl : Slot) (bs rest : Bits) (i : Instr), decode sl bs = .ok (i, rest) →
    slotFits sl i = true ∧ ∃ used e, bs = used ++ rest ∧ encode i = some e ∧ used.length = e.length ∧
      ((∀ n, sl ≠ .treeBits n) → used = e) ∧ (∀ n, sl = .treeBits n → used.take n = e.take n)

/-- Words written out from the encodings of the spec decode to what they stand for: the command codes (R73, R74), a flag byte
(R76), a Literal (R77), the Match tokens of R143, the node markers (R83), and the header fields of R201's example. -/
def Obligations.SpecWordsDecode : Prop :=
  (∀ c : Byte, decode .cmd (byteBits c) =
    if c = 0x01 then .ok (.compress, []) else if c = 0x02 then .ok (.decompress, []) else .error .reservedCommand) ∧
  decode .flag [false, false, false, false, false, false, false, true] = .ok (.flag 0x01, []) ∧
  decode (.token true) [false, true, false, false, false, false, false, true] = .ok (.literal 0x41, []) ∧
  decode (.token false) (byteBits 0x00 ++ byteBits 0x10) = .ok (.matchTok 1 0, []) ∧
  decode (.token false) (byteBits 0xFF ++ byteBits 0xFF) = .ok (.matchTok 4095 15, []) ∧
  decode .node [false] = .ok (.nodeInternal, []) ∧
  decode .node [true, false, false, false, false, false, false, false, true] = .ok (.nodeLeaf 0x01, []) ∧
  decode .magic (byteBits 0x43 ++ byteBits 0x5A) = .ok (.magic, []) ∧
  decode .tokenLen (byteBits 0x00 ++ byteBits 0x00 ++ byteBits 0x00 ++ byteBits 0x02) = .ok (.tokenLen 2, []) ∧
  decode .treeBitLen (byteBits 0x00 ++ byteBits 0x00 ++ byteBits 0x00 ++ byteBits 0x13) = .ok (.treeBitLen 19, [])

/-- A serialized tree tells where it ends (R83, R93), and a tree of `m` leaves takes `10 m - 1` bits (R84). -/
def Obligations.SerializedTreesDelimitThemselves : Prop :=
  ∀ (tr : Tree) (rest : Bits) (fuel : Nat), treeLeaves tr ≤ fuel →
    parseTree fuel (Tree.ser tr ++ rest) = some (tr, rest) ∧ (Tree.ser tr).length = 10 * treeLeaves tr - 1

/-- The fields of a Match token (R79, R80), and its two bytes (R78): offsets 1 to 4096 and lengths 3 to 18 each have one
field value, and the decoder's assembly of the two bytes gives the fields back. -/
def Obligations.MatchFieldsRoundTrip : Prop :=
  (∀ offset, 1 ≤ offset → offset ≤ 4096 →
    (offsetField offset).toNat = offset % 4096 ∧ fieldOffset (offsetField offset) = offset) ∧
  (∀ o : BitVec 12, fieldOffset o = (if o = 0 then 4096 else o.toNat) ∧ offsetField (fieldOffset o) = o) ∧
  (∀ length, 3 ≤ length → length ≤ 18 →
    (lengthField length).toNat = length - 3 ∧ fieldLength (lengthField length) = length) ∧
  (∀ l : BitVec 4, fieldLength l = l.toNat + 3 ∧ lengthField (fieldLength l) = l) ∧
  (∀ (o : BitVec 12) (l : BitVec 4),
    bytesOffsetField (matchByte0 o) (matchByte1 o l) = o ∧ byteLengthField (matchByte1 o l) = l)

-- The step --------------------------------------------------------------------------------------------------------------

/-- A write of `CMD` decodes the code and runs the command (R25, R221); while busy it is ignored; a reserved code is refused
(R74, U1). -/
def Obligations.StepRunsTheWrittenCommand : Prop :=
  ∀ (s u : State) (v : Nat) (rest : List Turn), s.env.turns = .writeReg 0 v :: rest →
    u = s.setEnv { s.env with turns := rest } →
    (s.busy = true → step s = .next u) ∧
    (s.busy = false → ∀ i, decode .cmd (byteBits (BitVec.ofNat 8 v)) = .ok (i, []) → step s = exec i u) ∧
    (s.busy = false → ∀ e, decode .cmd (byteBits (BitVec.ofNat 8 v)) = .error e →
      step s = .refused (.reservedCommand (BitVec.ofNat 8 v)))

/-- A step of the engine runs the element it decodes at its reader's position, or the operation the sequencer invokes next,
and goes on where the sequencer says, unless an error has ended the call (R18, R70, R93, R220). The turns are the model's
(log entry 2). -/
def Obligations.StepRunsTheDecodedElement : Prop :=
  ∀ (s : State) (i : Instr) (p : Phase) (l : Line),
    (∀ sl bits rest, s.ElementAt sl bits p l → decode sl bits = .ok (i, rest) → fetch s = .run i p l) ∧
    (s.env.turns = [] → fetch s = .run i p l →
      (∀ t, exec i s = .next t → step s = .next (if t.seq.phase = .idle then t else t.goTo p l)) ∧
      (∀ r, exec i s = .refused r → step s = .refused r) ∧ ∀ r, exec i s ≠ .fault r)

/-- The phases follow the order of R22, and an error returns to `IDLE` from any of them. -/
def Obligations.PhasesFollowTheirOrder : Prop :=
  ∀ s t : State, s.StatusAgrees → step s = .next t → t.seq.phase ∈ phaseSuccessors s.seq.phase

/-- After reset the engine is idle with cleared host registers, no command is pending, and it waits (R43, R270); and the
invariants below hold. What R43 leaves unspecified is the model's choice (log entry 1). -/
def Obligations.ResetIsIdleAndSound : Prop :=
  State.reset.seq.phase = .idle ∧ State.reset.host = { status := 0x00, errcode := 0x00, inLen := 0, outLen := 0 } ∧
    State.reset.regValue 0 = some 0 ∧ State.reset.env.turns = [] ∧ step State.reset = .next State.reset ∧
    State.reset.Canonical ∧ State.reset.Sound

/-- Every step keeps every memory and table in canonical form. -/
def Obligations.StepKeepsCanonicalForm : Prop :=
  ∀ s t : State, s.Canonical → step s = .next t → t.Canonical

/-- Every step keeps the legal combinations of `STATUS` and their agreement with `ERRCODE`, `OUT_LEN` and `PHASE` (R22, R26,
R27, R29). -/
def Obligations.StepKeepsStatusAgreement : Prop :=
  ∀ s t : State, s.StatusAgrees → step s = .next t → t.StatusAgrees

/-- Every step keeps every register and table entry in its range (R21, R32 to R35, R37 to R39) and every cursor within the
buffer it indexes (R23); no write passes the capacity of a space (R59). Not among them is the depth of `DSTK`, which in this
model goes past the 255 entries of R36 (log entry 18): while a tree is read it is at most `NCNT`. -/
def Obligations.StepKeepsRangesAndCapacities : Prop :=
  ∀ s t : State, s.Sound → step s = .next t → t.Sound

-- The host's side -------------------------------------------------------------------------------------------------------

/-- Hardware reset, in the middle of a call too, leaves `IDLE` and the cleared host registers of R43 (R270, R271). R43 leaves
the contents of the spaces unspecified: that reset forgets every listed byte, moves `epoch` on and keeps capacities and turns is
the model's choice (log entry 6; 2 and 7 for the turns and capacities). -/
def Obligations.HardwareResetDiscardsTheCall : Prop :=
  ∀ (s : State) (rest : List Turn), s.env.turns = .reset :: rest → ∃ t, step s = .next t ∧
    t.host = { status := 0x00, errcode := 0x00, inLen := 0, outLen := 0 } ∧ t.seq.phase = .idle ∧ t.inp = [] ∧
    t.tb.mem = [] ∧ t.out.mem = [] ∧ t.win.mem = [] ∧ t.env.epoch = s.env.epoch + 1 ∧ t.caps = s.caps ∧
    t.env.turns = rest

/-- The host registers (R24): reads deliver their value, `CMD` reads 0; writes of `STATUS`, `ERRCODE` and `OUT_LEN` are
ignored, and so is a write of `IN_LEN` while busy; there is no other register (the fault is the model's, log entry 11). -/
def Obligations.HostRegistersReadAndWrite : Prop :=
  ∀ (s u : State) (n v : Nat) (rest : List Turn), u = s.setEnv { s.env with turns := rest } →
    (s.env.turns = .readReg n :: rest →
      (n = 0 → step s = .next (u.withHostData 0)) ∧
      (n = 1 → step s = .next (u.withHostData s.host.status.toNat)) ∧
      (n = 2 → step s = .next (u.withHostData s.host.errcode.toNat)) ∧
      (n = 3 → step s = .next (u.withHostData s.host.inLen)) ∧
      (n = 4 → step s = .next (u.withHostData s.host.outLen)) ∧
      (5 ≤ n → step s = .fault (.noSuchRegister n))) ∧
    (s.env.turns = .writeReg n v :: rest →
      (n = 1 ∨ n = 2 ∨ n = 4 → step s = .next u) ∧
      (n = 3 → s.busy = true → step s = .next u) ∧
      (n = 3 → s.busy = false → step s = .next (u.setHost { s.host with inLen := v })) ∧
      (5 ≤ n → step s = .fault (.noSuchRegister n)))

/-- The buffers (R40, R62): while the engine is not busy the host writes and reads bytes of `IN` and reads those of `OUT` below
`OUT_LEN`, and nothing else changes; at or past `OUT_LEN` a read delivers some byte (U4), and reading the index again delivers
the same (R58). While it is busy such an access has no meaning (R282, U2), and an index at or past the capacity does not exist.
The stops and the free value are the model's (log entries 5, 10 and 11). -/
def Obligations.HostReachesItsBuffers : Prop :=
  ∀ (s u : State) (a : Nat) (b : Byte) (rest : List Turn), u = s.setEnv { s.env with turns := rest } →
    (s.env.turns = .writeIn a b :: rest →
      (s.busy = true → step s = .refused (.bufferWhileBusy .inp)) ∧
      (s.busy = false → a < s.caps.inCap → ∃ t, step s = .next t ∧ t = u.setInp t.inp ∧ t.inByte a = b ∧
        ∀ a', a' ≠ a → t.inByte a' = s.inByte a') ∧
      (s.busy = false → s.caps.inCap ≤ a → step s = .fault (.noSuchAddress .inp a))) ∧
    (s.env.turns = .readIn a :: rest →
      (s.busy = true → step s = .refused (.bufferWhileBusy .inp)) ∧
      (s.busy = false → a < s.caps.inCap → step s = .next (u.withHostData (s.inByte a).toNat)) ∧
      (s.busy = false → s.caps.inCap ≤ a → step s = .fault (.noSuchAddress .inp a))) ∧
    (s.env.turns = .readOut a :: rest →
      (s.busy = true → step s = .refused (.bufferWhileBusy .out)) ∧
      (s.busy = false → s.caps.outCap ≤ a → step s = .fault (.noSuchAddress .out a)) ∧
      (s.busy = false → a < s.caps.outCap → a < s.host.outLen → step s = .next (u.withHostData (s.outByte a).toNat)) ∧
      (s.busy = false → a < s.caps.outCap → s.host.outLen ≤ a → ∃ v, v < 256 ∧ step s = .next (u.withHostData v) ∧
        ∀ rest', rest = .readOut a :: rest' →
          step (u.withHostData v) = .next ((u.setEnv { u.env with turns := rest' }).withHostData v))) ∧
    (s.env.turns = .writeOut a b :: rest → ∃ r, step s = .refused r)

/-- The start of a call (R221): the host registers, the per-call values of R44, the test of `IN_LEN` (R222), the first phase;
the contents of the memories are not cleared. It also clears the error of an earlier call (R248). Turns after the write keep
the body of the call for later steps (log entry 2). -/
def Obligations.AcceptedCommandStartsACall : Prop :=
  ∀ (s : State) (v : Nat) (rest : List Turn), s.busy = false → s.env.turns = .writeReg 0 v :: rest → v = 1 ∨ v = 2 →
    (s.host.inLen ≤ s.caps.inCap → rest ≠ [] → ∃ t, step s = .next t ∧
      t.host = { status := 0x01, errcode := 0, inLen := s.host.inLen, outLen := 0 } ∧
      t.seq.phase = (if v = 1 then .cTokens else .dUnpack) ∧ t.win.pos = 0 ∧ t.win.fill = 0 ∧ t.finder.cur = 0 ∧
      t.out.ptr = 0 ∧ t.tb.len = 0 ∧ t.dec.tp = 0 ∧ t.enc.flg = 0 ∧ t.enc.gc = 0 ∧ t.enc.gplen = 0 ∧ t.bw.acc = 0 ∧
      t.bw.cnt = 0 ∧ t.tree.ncnt = 0 ∧ t.tree.root = none ∧ t.tree.live = [] ∧ t.tree.dstk = [] ∧
      t.walker.symcnt = 0 ∧ (∀ x, freqAt t.freq x = 0) ∧ (∀ x, tableGet t.code x = none) ∧
      t.inp = s.inp ∧ t.win.mem = s.win.mem ∧ t.tb.mem = s.tb.mem ∧ t.out.mem = s.out.mem ∧ t.caps = s.caps ∧
      t.env.turns = rest) ∧
    (s.caps.inCap < s.host.inLen → ∃ t, step s = .next t ∧ t.failed .capacityExceeded ∧ t.inp = s.inp ∧
      t.host.inLen = s.host.inLen)

/-- No operation but the two commands writes a host register or leaves its phase, unless it raises an error: then it does what
R246 says (R31, R245, R246). That an operation executed with no call in progress does so too is the model's choice: R249 has no
error while idle (log entry 27). -/
def Obligations.OnlyStartsAndEndsWriteStatus : Prop :=
  ∀ (i : Instr) (s t : State), i ≠ .compress → i ≠ .decompress → exec i s = .next t →
    (t.host = s.host ∧ t.seq = s.seq) ∨ ∃ e, s.tookError t e

/-- Whatever an operation or a command does, `IN`, `IN_LEN` and the capacities are as before (R28, R40, R247), and so is what
is the host's and the model's own of the environment (log entries 2, 5 and 6), but for the count of accepted commands. -/
def Obligations.NoOperationWritesTheInput : Prop :=
  ∀ (i : Instr) (s t : State), exec i s = .next t →
    t.inp = s.inp ∧ t.host.inLen = s.host.inLen ∧ t.caps = s.caps ∧ t.env.turns = s.env.turns ∧
      t.env.hostData = s.env.hostData ∧ t.env.epoch = s.env.epoch ∧
      t.env.calls = (if (i = .compress ∨ i = .decompress) ∧ s.busy = false then s.env.calls + 1 else s.env.calls)

/-- Each error kind comes from its phase (R241 to R244): `MalformedArchive` from `D_UNPACK`, `UnexpectedEndOfStream` from
`D_HUFF`, `InvalidToken` from `D_TOKENS`; a compression raises `CapacityExceeded` alone (R251). -/
def Obligations.ErrorsComeFromTheirPhases : Prop :=
  ∀ s t : State, s.Sound → s.env.turns = [] → s.seq.phase ≠ .idle → step s = .next t → t.host.status = 0x06 →
    ∃ e, t.failed e ∧ (e = .malformedArchive → s.seq.phase = .dUnpack) ∧
      (e = .unexpectedEndOfStream → s.seq.phase = .dHuff) ∧ (e = .invalidToken → s.seq.phase = .dTokens)

-- Bit writer and bit reader ---------------------------------------------------------------------------------------------

/-- The three initialisations and all they do: `BW_INIT` (R101), `WIN_INIT` (R120), `TE_INIT` (R141). -/
def Obligations.InitialisationsSetTheirRegisters : Prop :=
  ∀ s : State, exec .bwInit s = .next (s.setBw { acc := 0, cnt := 0 }) ∧
    exec .winInit s = .next (s.setWin { mem := s.win.mem, pos := 0, fill := 0 }) ∧
    exec .teInit s = .next ((s.setEnc { flg := 0, gc := 0, gplen := 0, gp := s.enc.gp }).setTb
      { mem := s.tb.mem, len := 0 })

/-- `BW_PUT_BIT` (R102), in every state: the bit goes to position `7 - BW_CNT`; the eighth bit sends the byte to `OUT` if it
fits and raises `CapacityExceeded` if not. A `BW_CNT` past 7, which no run reaches, is log entry 27's. That `OPTR` and `OUT` are
then as before is the model's choice: R247 and U5 leave them open (log entry 15). -/
def Obligations.PutBitFillsAByteFromBitSeven : Prop :=
  ∀ (s : State) (b : Bool) (acc : Byte), acc = s.bw.acc ||| ((if b then 1 else 0 : Byte) <<< (7 - s.bw.cnt)) →
    (s.bw.cnt ≠ 7 → exec (.bwPutBit b) s = .next (s.setBw { acc := acc, cnt := s.bw.cnt + 1 })) ∧
    (s.bw.cnt = 7 → s.out.ptr < s.caps.outCap → ∃ t, exec (.bwPutBit b) s = .next t ∧
      t = (s.setOut t.out).setBw { acc := 0, cnt := 0 } ∧ t.out.ptr = s.out.ptr + 1 ∧ t.outByte s.out.ptr = acc ∧
      ∀ a, a ≠ s.out.ptr → t.outByte a = s.outByte a) ∧
    (s.bw.cnt = 7 → s.caps.outCap ≤ s.out.ptr → ∃ t, exec (.bwPutBit b) s = .next t ∧
      s.tookError t .capacityExceeded ∧ t.out = s.out)

/-- Every operation that writes bits appends exactly its bits (R53, R96, R102, R103, R105, R191; the format elements R83, R86 to
R88, R91), first bit first, and touches nothing but the writer and the bytes it completes. The instructions and their bits are
those of `State.bitsWritten`: BW_PUT_BIT, BW_PUT_BITS, BW_PUT_BYTE, BW_PUT_U32, BW_PUT_CODE, HF_ENCODE and, during a
compression, NODE_INTERNAL, NODE_LEAF, CODEWORD, MAGIC, TOKEN_LEN, TREE_BIT_LEN (log entry 8). That BW_PUT_BITS does so with a
width above 32 too, and CODEWORD with a path of no or more than 255 bits, is the model's choice (R103, R35, log entry 24). -/
def Obligations.BitWritersAppendTheirBits : Prop :=
  ∀ (i : Instr) (s : State) (bits : Bits), s.writerOk → s.bitsWritten i = some bits →
    ((s.bw.cnt + bits.length) / 8 ≠ 0 → s.out.ptr + (s.bw.cnt + bits.length) / 8 ≤ s.caps.outCap) →
    ∃ t, exec i s = .next t ∧ t = (s.setOut t.out).setBw t.bw ∧ t.writerOk ∧
      t.out.ptr = s.out.ptr + (s.bw.cnt + bits.length) / 8 ∧ t.bw.cnt = (s.bw.cnt + bits.length) % 8 ∧
      (∀ p, p ≤ s.out.ptr → t.bitsFrom p = s.bitsFrom p ++ bits) ∧
      ∀ a, a < s.out.ptr ∨ t.out.ptr ≤ a → t.outByte a = s.outByte a

/-- The operations that end at a byte boundary append their bits and then 0 to 7 zero bits (R104; the fields R89, R90 during
a compression): BW_ALIGN, TREE_BITS, PAYLOAD_BITS (log entry 8). Fields of a length R89 and R90 exclude are log entry 24's. -/
def Obligations.PaddedFieldsEndOnAByteBoundary : Prop :=
  ∀ (i : Instr) (s : State) (bits : Bits) (n : Nat), s.writerOk → s.bitsPadded i = some bits →
    n = s.bw.cnt + bits.length → (n ≠ 0 → s.out.ptr + ceil8 n ≤ s.caps.outCap) →
    ∃ t, exec i s = .next t ∧ t = (s.setOut t.out).setBw { acc := 0, cnt := 0 } ∧ t.out.ptr = s.out.ptr + ceil8 n ∧
      (∀ p, p ≤ s.out.ptr → t.bitsFrom p = s.bitsFrom p ++ bits ++ List.replicate (8 * ceil8 n - n) false) ∧
      ∀ a, a < s.out.ptr ∨ t.out.ptr ≤ a → t.outByte a = s.outByte a

/-- Where the bits do not fit in `OUT`, the writer raises `CapacityExceeded` and writes no byte at or past `OUT_CAP` (R59,
R244). That the bytes written before are kept and that `OPTR` then stands at the capacity is the model's choice: R247, U4 and U5
leave them open (log entry 15). Widths and lengths outside the ranges of the rules (R103, R35, R89, R90) are among the forms by
the model's choice (log entry 24). -/
def Obligations.BitWritersStopAtTheCapacity : Prop :=
  ∀ (i : Instr) (s : State) (bits : Bits), s.writerOk →
    (s.bitsWritten i = some bits ∧ (s.bw.cnt + bits.length) / 8 ≠ 0 ∧
        s.caps.outCap < s.out.ptr + (s.bw.cnt + bits.length) / 8) ∨
      (s.bitsPadded i = some bits ∧ s.bw.cnt + bits.length ≠ 0 ∧
        s.caps.outCap < s.out.ptr + ceil8 (s.bw.cnt + bits.length)) →
    ∃ t, exec i s = .next t ∧ s.tookError t .capacityExceeded ∧ t.out.ptr = max s.out.ptr s.caps.outCap ∧
      ∀ a, a < s.out.ptr ∨ s.caps.outCap ≤ a → t.outByte a = s.outByte a

/-- `BR_INIT` (R109) and `BR_GET_BIT` (R108, R110), in every state. Outside `start <= limit <= 8 * IN_LEN` `BR_INIT` has no
meaning (log entry 12); that it goes on with an error kind other than the two of R109 is the model's choice (log entry 24). -/
def Obligations.ReaderDeliversTheNextBit : Prop :=
  ∀ (s : State) (start limit : Nat) (err : ErrKind),
    (start ≤ limit → limit ≤ 8 * s.host.inLen →
      exec (.brInit start limit err) s = .next (s.setBr { pos := start, limit := limit, err := err })) ∧
    (¬ (start ≤ limit ∧ limit ≤ 8 * s.host.inLen) →
      exec (.brInit start limit err) s = .refused (.precondition "BR_INIT")) ∧
    (s.br.pos < s.br.limit → exec .brGetBit s = .next ((s.setBr { s.br with pos := s.br.pos + 1 }).withResult
      (.bit ((s.inByte (s.br.pos / 8)).getLsbD (7 - s.br.pos % 8))))) ∧
    (s.br.limit ≤ s.br.pos → ∃ t, exec .brGetBit s = .next t ∧ s.tookError t s.br.err ∧ t.br = s.br)

/-- `BR_GET_BITS(n)` (R111): an `n`-bit value whose most significant bit is the first one read; `BR_ERR` if the region has
fewer bits. That it does so with a width above 32, which R111 excludes, is the model's choice (log entry 24). -/
def Obligations.ReaderDeliversValuesFirstBitHighest : Prop :=
  ∀ (s : State) (n : Nat),
    (n = 0 ∨ s.br.pos + n ≤ s.br.limit → ∃ v, v < 2 ^ n ∧
      (∀ k, k < n → v.testBit (n - 1 - k) = s.inBit (s.br.pos + k)) ∧
      exec (.brGetBits n) s = .next ((s.setBr { s.br with pos := s.br.pos + n }).withResult (.value v))) ∧
    (n ≠ 0 → s.br.limit < s.br.pos + n → ∃ t, exec (.brGetBits n) s = .next t ∧ s.tookError t s.br.err)

/-- The inverse law of the bit writer and the bit reader (R113). That it holds for an error kind other than the two of R109 is
the model's choice (log entry 24). -/
def Obligations.WrittenBitsReadBack : Prop :=
  ∀ (bits : Bits) (e : ErrKind) (s : State) (p : Nat), p = s.out.ptr → p + ceil8 bits.length ≤ s.caps.outCap →
    ∃ t, execAll (.bwInit :: bits.map Instr.bwPutBit ++ [.bwAlign]) s = .next t ∧ t.host = s.host ∧
      ∀ u : State, (∀ a, p ≤ a → a < t.out.ptr → u.inByte a = t.outByte a) → t.out.ptr ≤ u.host.inLen →
        ∃ v w x, exec (.brInit (8 * p) (8 * p + bits.length) e) u = .next v ∧ readBits bits.length v = some (bits, w) ∧
          exec .brGetBit w = .next x ∧ w.tookError x e

-- Window, match finder, replay ------------------------------------------------------------------------------------------

/-- The window (R41, R61, R121, R122): a put writes the cell at `WPOS` alone and makes the byte the latest of those produced;
a get returns the byte `d` back and changes nothing, and is permitted for `1 <= d <= WFILL` only (log entry 12). -/
def Obligations.WindowHoldsTheLatestBytes : Prop :=
  ∀ s : State,
    (∀ b, ∃ t, exec (.winPut b) s = .next t ∧ t = s.setWin t.win ∧ t.win.pos = (s.win.pos + 1) % 4096 ∧
      t.win.fill = min (s.win.fill + 1) 4096 ∧ t.winByte s.win.pos = b ∧
      (∀ a, a ≠ s.win.pos → t.winByte a = s.winByte a) ∧
      ∀ p, s.windowHolds p → t.windowHolds (p ++ [b])) ∧
    (∀ t, exec .winInit s = .next t → t.windowHolds []) ∧
    (∀ d, 1 ≤ d → d ≤ s.win.fill →
      exec (.winGet d) s = .next (s.withResult (.byte (s.winByte ((s.win.pos + 4096 - d) % 4096))))) ∧
    (∀ p d, s.windowHolds p → 1 ≤ d → d ≤ min p.length 4096 →
      exec (.winGet d) s = .next (s.withResult (.byte (byteAt p (p.length - d))))) ∧
    (∀ d, d = 0 ∨ s.win.fill < d → exec (.winGet d) s = .refused (.precondition "WIN_GET"))

/-- `MF_SEARCH` (R124 to R126): `BESTLEN` is the largest candidate length over all distances up to `min(CUR, 4096)`, and
`BESTOFF` the smallest distance that attains it; both are 0 if no candidate has a byte. It writes nothing else. -/
def Obligations.SearchFindsTheNearestLongestMatch : Prop :=
  ∀ s : State, ∃ t, exec .mfSearch s = .next t ∧ t = s.setFinder t.finder ∧ t.finder.cur = s.finder.cur ∧
    (s.windowHolds s.consumed → s.finder.cur ≤ s.host.inLen →
      (∀ d l, 1 ≤ d → d ≤ min s.finder.cur 4096 → isCandidateLength s.inByte s.host.inLen s.finder.cur d l →
        l ≤ t.finder.bestLen ∧ (l = t.finder.bestLen → 0 < l → t.finder.bestOff ≤ d)) ∧
      (0 < t.finder.bestLen → 1 ≤ t.finder.bestOff ∧ t.finder.bestOff ≤ min s.finder.cur 4096 ∧
        isCandidateLength s.inByte s.host.inLen s.finder.cur t.finder.bestOff t.finder.bestLen) ∧
      (t.finder.bestLen = 0 → t.finder.bestOff = 0))

/-- `MF_STEP` (R127, R128): the longest match if it has 3 bytes or more, else a Literal; the cursor advances over the token
and the window takes in its bytes. At the end of the input it has no meaning (log entry 12). -/
def Obligations.FinderStepsOverOneToken : Prop :=
  ∀ s : State,
    (s.windowHolds s.consumed → s.finder.cur < s.host.inLen → ∃ t u n, exec .mfSearch s = .next u ∧
      exec .mfStep s = .next t ∧ n = (if 3 ≤ u.finder.bestLen then u.finder.bestLen else 1) ∧
      t.env.result = .token (if 3 ≤ u.finder.bestLen then .mat u.finder.bestOff u.finder.bestLen
        else .lit (s.inByte s.finder.cur)) ∧
      t.env.result = .token (refToken s.input s.finder.cur) ∧ t.finder = { u.finder with cur := s.finder.cur + n } ∧
      t.finder.cur ≤ s.host.inLen ∧ t.windowHolds t.consumed ∧
      t = ((s.setFinder t.finder).setWin t.win).withResult t.env.result) ∧
    (s.host.inLen ≤ s.finder.cur → exec .mfStep s = .refused (.precondition "MF_STEP"))

/-- The tokens of an input (R129, R130): every Match has its operands in range and refers to bytes before it, and replaying the
tokens gives the input again. -/
def Obligations.TokensReproduceTheInput : Prop :=
  ∀ inp : List Byte, tokensFit 0 (findTokens inp) ∧ replayed (findTokens inp) [] = inp

/-- `REPLAY_LITERAL` (R132) and `WIN_EMIT` (R96): one byte to `OUT` and to the window, or `CapacityExceeded` and no write to
`OUT`. The check of R59 in WIN_EMIT, and that it does the same in every phase, are log entry 20's; that `OPTR` and `OUT` are as
before after the error is log entry 15's (R247 and U5 leave them open). -/
def Obligations.ReplayedLiteralGoesToOutputAndWindow : Prop :=
  ∀ (s : State) (b : Byte) (i : Instr), i = .replayLiteral b ∨ i = .winEmit b →
    (s.out.ptr < s.caps.outCap → ∃ t u, exec i s = .next t ∧ exec (.winPut b) s = .next u ∧
      t = (s.setOut t.out).setWin u.win ∧ t.out.ptr = s.out.ptr + 1 ∧ t.outByte s.out.ptr = b ∧
      ∀ a, a ≠ s.out.ptr → t.outByte a = s.outByte a) ∧
    (s.caps.outCap ≤ s.out.ptr → ∃ t, exec i s = .next t ∧ s.tookError t .capacityExceeded ∧ t.out = s.out)

/-- `REPLAY_MATCH` (R131, R275): `length` bytes, each the one `offset` back in the output so far, read before it is written;
`CapacityExceeded` where they do not fit. Outside `1 <= offset <= WFILL` it has no meaning (log entry 12). That the earlier
bytes of `OUT` are kept after the error (log entry 15), and that lengths outside 3 to 18, which R131 excludes, are copied too
(log entry 24), is the model's choice. -/
def Obligations.ReplayedMatchCopiesByteByByte : Prop :=
  ∀ (s : State) (p : List Byte) (offset length : Nat), s.windowHolds p →
    (1 ≤ offset → offset ≤ s.win.fill → s.out.ptr + length ≤ s.caps.outCap →
      ∃ t, exec (.replayMatch offset length) s = .next t ∧ t = (s.setOut t.out).setWin t.win ∧
        t.windowHolds (copied offset length p) ∧ t.out.ptr = s.out.ptr + length ∧
        (∀ k, k < length → t.outByte (s.out.ptr + k) = byteAt (copied offset length p) (p.length + k)) ∧
        ∀ a, a < s.out.ptr ∨ t.out.ptr ≤ a → t.outByte a = s.outByte a) ∧
    (1 ≤ offset → offset ≤ s.win.fill → 0 < length → s.caps.outCap < s.out.ptr + length →
      ∃ t, exec (.replayMatch offset length) s = .next t ∧ s.tookError t .capacityExceeded ∧
        ∀ a, a < s.out.ptr ∨ s.caps.outCap ≤ a → t.outByte a = s.outByte a) ∧
    (offset = 0 ∨ s.win.fill < offset →
      exec (.replayMatch offset length) s = .refused (.precondition "REPLAY_MATCH"))

-- Token codec -----------------------------------------------------------------------------------------------------------

/-- `TE_PUT_LITERAL` (R142), and LITERAL during a compression (R77): the byte is staged, flag bit `GC` set, the token counted;
the eighth token is followed by a flush. `u` is the state with the token staged. -/
def Obligations.PutLiteralStagesItsByte : Prop :=
  ∀ (s : State) (b : Byte) (i : Instr), s.enc.gc < 8 →
    i = .tePutLiteral b ∨ (s.seq.phase.writes = true ∧ i = .literal b) →
    ∃ u : State, u = s.setEnc u.enc ∧ u.enc.gc = s.enc.gc + 1 ∧ u.enc.gplen = s.enc.gplen + 1 ∧
      (∀ k, k < 8 → u.enc.flg.getLsbD k = (s.enc.flg.getLsbD k || k == s.enc.gc)) ∧ u.enc.staged s.enc.gplen = b ∧
      (∀ j, j ≠ s.enc.gplen → u.enc.staged j = s.enc.staged j) ∧
      (s.enc.gc ≠ 7 → exec i s = .next u) ∧ (s.enc.gc = 7 → exec i s = exec .teFlush u) ∧
      (s.enc.gc = 7 → s.tb.len + s.enc.gplen + 2 ≤ s.tCap → ∃ t, exec i s = .next t ∧
        t.tb.len = s.tb.len + s.enc.gplen + 2 ∧ t.host = s.host)

/-- `TE_PUT_MATCH` (R143), and MATCH during a compression (R78): the two bytes of the token are staged, the flag bit stays as
it is, the token is counted; the eighth is followed by a flush. -/
def Obligations.PutMatchStagesItsTwoBytes : Prop :=
  ∀ (s : State) (offset length : Nat) (i : Instr), s.enc.gc < 8 → 1 ≤ offset → offset ≤ 4096 → 3 ≤ length → length ≤ 18 →
    i = .tePutMatch offset length ∨
      (s.seq.phase.writes = true ∧ i = .matchTok (BitVec.ofNat 12 offset) (BitVec.ofNat 4 (length - 3))) →
    ∃ u : State, u = s.setEnc u.enc ∧ u.enc.gc = s.enc.gc + 1 ∧ u.enc.gplen = s.enc.gplen + 2 ∧
      u.enc.flg = s.enc.flg ∧ (u.enc.staged s.enc.gplen).toNat = offset % 4096 / 16 ∧
      (u.enc.staged (s.enc.gplen + 1)).toNat = offset % 16 * 16 + (length - 3) ∧
      (∀ j, j ≠ s.enc.gplen → j ≠ s.enc.gplen + 1 → u.enc.staged j = s.enc.staged j) ∧
      (s.enc.gc ≠ 7 → exec i s = .next u) ∧ (s.enc.gc = 7 → exec i s = exec .teFlush u) ∧
      (s.enc.gc = 7 → s.tb.len + s.enc.gplen + 3 ≤ s.tCap → ∃ t, exec i s = .next t ∧
        t.tb.len = s.tb.len + s.enc.gplen + 3 ∧ t.host = s.host)

/-- `TE_FLUSH` (R146): the flag byte and the staged bytes go to `TB` and the group is empty; with no token it does nothing;
where they do not fit it raises `CapacityExceeded`, and no byte at or past `T_CAP` is changed (R59). That the earlier bytes of
`TB` are kept after the error is the model's choice (log entry 15). -/
def Obligations.FlushWritesTheGroup : Prop :=
  ∀ s : State,
    (s.enc.gc = 0 → exec .teFlush s = .next s) ∧
    (0 < s.enc.gc → s.tb.len + 1 + s.enc.gplen ≤ s.tCap → ∃ t, exec .teFlush s = .next t ∧
      t = (s.setTb t.tb).setEnc { flg := 0, gc := 0, gplen := 0, gp := s.enc.gp } ∧
      t.tb.len = s.tb.len + 1 + s.enc.gplen ∧ t.tbByte s.tb.len = s.enc.flg ∧
      (∀ j, j < s.enc.gplen → t.tbByte (s.tb.len + 1 + j) = s.enc.staged j) ∧
      ∀ a, a < s.tb.len ∨ t.tb.len ≤ a → t.tbByte a = s.tbByte a) ∧
    (0 < s.enc.gc → s.tCap < s.tb.len + 1 + s.enc.gplen → ∃ t, exec .teFlush s = .next t ∧
      s.tookError t .capacityExceeded ∧ ∀ a, a < s.tb.len ∨ s.tCap ≤ a → t.tbByte a = s.tbByte a)

/-- `TB_APPEND` (R145), and FLAG during a compression (R76, R146): one byte at `TLEN`, or `CapacityExceeded`; `T_CAP` is at
most 2^32 - 1 (R10). That `TB` and `TLEN` are as before after the error is the model's choice: R247 and U5 leave them open (log
entry 15). -/
def Obligations.TokenBytesAreAppendedBelowTheCapacity : Prop :=
  ∀ (s : State) (v : Byte) (i : Instr), s.tCap < 2 ^ 32 ∧
    (i = .tbAppend v ∨ (s.seq.phase.writes = true ∧ i = .flag v) →
      (s.tb.len < s.tCap → ∃ t, exec i s = .next t ∧ t = s.setTb t.tb ∧ t.tb.len = s.tb.len + 1 ∧
        t.tbByte s.tb.len = v ∧ ∀ a, a ≠ s.tb.len → t.tbByte a = s.tbByte a) ∧
      (s.tCap ≤ s.tb.len → ∃ t, exec i s = .next t ∧ s.tookError t .capacityExceeded ∧ t.tb = s.tb))

/-- The token encoder as a whole (R75, R76, R81, R140 to R147): over a token sequence it writes the stream of that sequence,
of `ceil(q/8) + q + x` bytes for `q` tokens of which `x` are Matches. -/
def Obligations.EncoderWritesTheTokenStream : Prop :=
  ∀ (s : State) (ts : List Token), (∀ o l, Token.mat o l ∈ ts → matchOperands o l = true) →
    (streamOf ts).length = (ts.length + 7) / 8 + ts.length + ts.countP (fun t => (tokenBytes t).length == 2) ∧
    ((streamOf ts).length ≤ s.tCap →
      ∃ t, execAll (.teInit :: ts.map putToken ++ [.teFlush]) s = .next t ∧ t = (s.setTb t.tb).setEnc t.enc ∧
        t.stream = streamOf ts ∧ t.tb.len = (streamOf ts).length)

/-- `TD_FLAG`, `TD_LITERAL`, `TD_MATCH` (R151 to R153, R277), and FLAG, LITERAL, MATCH while a stream is read: the cursor
advances over the element, then it takes effect; the errors of a stream that ends too soon and of an offset beyond the bytes
produced. With no byte left in the stream the operation has no meaning (log entry 12). That `OUT` and the window are as before
after the error of an offset is the model's choice: R247 and U5 leave them open (log entry 15). -/
def Obligations.TokenElementsAreReadFromTheStream : Prop :=
  ∀ (s : State) (i : Instr),
    (∀ v, (i = .tdFlag ∧ v = s.tbByte s.dec.tp) ∨ (s.seq.phase.writes = false ∧ i = .flag v) →
      (s.dec.tp + 1 < s.tb.len → exec i s = .next (s.setDec { tp := s.dec.tp + 1, dflg := v })) ∧
      (s.dec.tp + 1 = s.tb.len → ∃ t, exec i s = .next t ∧ s.tookError t .invalidToken) ∧
      (s.tb.len ≤ s.dec.tp → ∃ op, exec i s = .refused (.precondition op))) ∧
    (∀ v, (i = .tdLiteral ∧ v = s.tbByte s.dec.tp) ∨ (s.seq.phase.writes = false ∧ i = .literal v) →
      (s.dec.tp < s.tb.len →
        exec i s = exec (.replayLiteral v) (s.setDec { tp := s.dec.tp + 1, dflg := s.dec.dflg })) ∧
      (s.dec.tp < s.tb.len → s.out.ptr < s.caps.outCap → ∃ t, exec i s = .next t ∧
        t = ((s.setDec { tp := s.dec.tp + 1, dflg := s.dec.dflg }).setOut t.out).setWin t.win ∧
        t.out.ptr = s.out.ptr + 1 ∧ t.outByte s.out.ptr = v ∧ ∀ a, a ≠ s.out.ptr → t.outByte a = s.outByte a) ∧
      (s.tb.len ≤ s.dec.tp → ∃ op, exec i s = .refused (.precondition op))) ∧
    (∀ o l, (i = .tdMatch ∧ o = bytesOffsetField (s.tbByte s.dec.tp) (s.tbByte (s.dec.tp + 1)) ∧
          l = byteLengthField (s.tbByte (s.dec.tp + 1))) ∨ (s.seq.phase.writes = false ∧ i = .matchTok o l) →
      (s.dec.tp + 2 ≤ s.tb.len → fieldOffset o ≤ s.win.fill → exec i s =
        exec (.replayMatch (fieldOffset o) (fieldLength l)) (s.setDec { tp := s.dec.tp + 2, dflg := s.dec.dflg })) ∧
      (s.dec.tp + 2 ≤ s.tb.len → fieldOffset o ≤ s.win.fill → s.out.ptr + fieldLength l ≤ s.caps.outCap →
        ∃ t, exec i s = .next t ∧
          t = ((s.setDec { tp := s.dec.tp + 2, dflg := s.dec.dflg }).setOut t.out).setWin t.win ∧
          t.out.ptr = s.out.ptr + fieldLength l ∧
          ∀ a, a < s.out.ptr ∨ t.out.ptr ≤ a → t.outByte a = s.outByte a) ∧
      (s.dec.tp + 2 ≤ s.tb.len → s.win.fill < fieldOffset o → ∃ t, exec i s = .next t ∧
        s.tookError t .invalidToken ∧ t.out = s.out ∧ t.win = s.win) ∧
      (s.dec.tp + 1 = s.tb.len → ∃ t, exec i s = .next t ∧ s.tookError t .invalidToken) ∧
      (s.tb.len ≤ s.dec.tp → ∃ op, exec i s = .refused (.precondition op)))

/-- `TD_DECODE` (R150, R154, R156): in every state it decodes `TB[0 .. TLEN-1]` to the output that stream stands for, all
bytes consumed, or raises the first error in stream order. -/
def Obligations.DecoderReplaysTheTokenStream : Prop :=
  ∀ s : State, ∃ t, exec .tdDecode s = .next t ∧
    match refDecode s.caps.outCap s.tb.len s.stream [] with
    | .ok out => t = ((s.setDec t.dec).setOut t.out).setWin t.win ∧ t.dec.tp = s.tb.len ∧ t.out.ptr = out.length ∧
        t.output = out ∧ t.windowHolds out ∧ ∀ a, t.out.ptr ≤ a → t.outByte a = s.outByte a
    | .error e => s.tookError t e

/-- Token encoder and token decoder are inverse, both ways (R140, R155). (a) The stream the encoder makes from a token sequence
whose Matches fit where they stand reads as that sequence, token for token, and decodes to its replay without an error. (b) A
stream that decodes without an error reads as a token sequence whose Matches fit and whose replay is the output; if its unused
flag bits are 0, encoding that sequence makes the stream again. -/
def Obligations.EncodedTokensReplay : Prop :=
  (∀ (s : State) (ts : List Token), tokensFit 0 ts → (streamOf ts).length ≤ s.tCap →
    (replayed ts []).length ≤ s.caps.outCap →
    ∃ t u, execAll (.teInit :: ts.map putToken ++ [.teFlush]) s = .next t ∧ tokensOf t.stream = some ts ∧
      exec .tdDecode t = .next u ∧ u.host = s.host ∧ u.dec.tp = u.tb.len ∧ u.output = replayed ts []) ∧
  ∀ s t : State, s.busy = true → exec .tdDecode s = .next t → t.busy = true →
    ∃ ts, tokensOf s.stream = some ts ∧ tokensFit 0 ts ∧ t.output = replayed ts [] ∧
      (flagsClear s.stream = true → streamOf ts = s.stream ∧
        (s.tb.len ≤ s.tCap → ∃ u, execAll (.teInit :: ts.map putToken ++ [.teFlush]) s = .next u ∧
          u.stream = s.stream))

-- Huffman tree ----------------------------------------------------------------------------------------------------------

/-- `HF_COUNT` (R161): `FREQ[v]` is the number of times `v` occurs in `T`; the entries sum to `N`, so none exceeds it, and none
exceeds 32 bits where `N` is at most `T_CAP`. -/
def Obligations.CountIsTheFrequencyOfEachByte : Prop :=
  ∀ s : State, ∃ t, exec .hfCount s = .next t ∧ t = s.setFreq t.freq ∧
    (∀ v : Byte, freqAt t.freq v.toNat = s.stream.count v ∧ freqAt t.freq v.toNat ≤ s.tb.len ∧
      (s.tb.len ≤ s.tCap → freqAt t.freq v.toNat ≤ 2 ^ 32 - 1)) ∧
    ((List.range 256).map (freqAt t.freq)).sum = s.tb.len

/-- `HF_BUILD` (R162 to R168): from the frequencies of a stream it builds the tree of that stream, of `2 m - 1` nodes for `m`
present values, each the value of one leaf, the root's frequency the length of the stream; of an empty stream no tree. The
tree depends on `FREQ` alone. -/
def Obligations.BuildMakesTheTreeOfTheFrequencies : Prop :=
  ∀ (s : State) (T : List Byte), (∀ v : Byte, freqAt s.freq v.toNat = T.count v) →
    ∃ t, exec .hfBuild s = .next t ∧ t = s.setTree t.tree ∧ t.tree.isTree (treeOf T) ∧ (treeOf T = none ↔ T = []) ∧
      ∀ tr, treeOf T = some tr → t.tree.ncnt = 2 * treeLeaves tr - 1 ∧
        (∀ v : Byte, (treeValues tr).count v = if v ∈ T then 1 else 0) ∧
        ∀ r, t.tree.root = some r → (t.tree.at r).key.freq = T.length

/-- `HF_CODEGEN` (R170 to R173): of a tree with distinct leaf values, a value's code is its path and nothing else; of a lone
leaf the one code is `0`; of no tree there is none. -/
def Obligations.CodesAreThePathsOfTheTree : Prop :=
  ∀ s : State, ∃ t, exec .hfCodegen s = .next t ∧ t = s.setCode t.code ∧
    (s.tree.isTree none → ∀ v, tableGet t.code v = none) ∧
    (∀ w, s.tree.isTree (some (.leaf w)) → ∀ (v : Byte) path,
      tableGet t.code v.toNat = some path ↔ v = w ∧ path = [false]) ∧
    (∀ l r, s.tree.isTree (some (.node l r)) → (treeValues (.node l r)).Nodup → ∀ (v : Byte) path,
      tableGet t.code v.toNat = some path ↔ leadsTo (.node l r) path v)

/-- `HF_SER_TREE` (R83, R174): returns the pre-order string of the tree and sets `TBL` to its length, `10 m - 1` for `m`
leaves, 0 for no tree. -/
def Obligations.SerialisationIsThePreOrderString : Prop :=
  ∀ (s : State) (o : Option Tree), s.tree.isTree o → ∃ t, exec .hfSerTree s = .next t ∧
    t = (s.setTbl (serTree o).length).withResult (.bits (serTree o)) ∧
    (o = none → serTree o = []) ∧ (∀ v, o = some (.leaf v) → serTree o = true :: byteBits v) ∧
    (∀ l r, o = some (.node l r) → serTree o = false :: (serTree (some l) ++ serTree (some r))) ∧
    ∀ tr, o = some tr → (serTree o).length = 10 * treeLeaves tr - 1

/-- `HF_DESER_TREE` (R176 to R181, R210), and TREE_BITS while an archive is read: for a tree region inside the input it
rebuilds the tree the region stands for, all bits consumed, or raises `MalformedArchive`; every region of more than 2559 bits
is malformed (R180). -/
def Obligations.DeserialisationReadsExactlyOneTree : Prop :=
  ∀ (s : State) (i : Instr), 80 + s.tbl ≤ 8 * s.host.inLen →
    i = .hfDeserTree ∨ (s.seq.phase.writes = false ∧ i = .treeBits (s.inBits 80 s.tbl)) →
    ∃ t, exec i s = .next t ∧ (2559 < s.tbl → t.failed .malformedArchive) ∧
      match refTree (s.inBits 80 s.tbl) with
      | .ok o => t = (s.setTree t.tree).setBr t.br ∧ t.tree.isTree o ∧
          t.br = (if s.tbl = 0 then s.br else { pos := 80 + s.tbl, limit := 80 + s.tbl, err := .malformedArchive })
      | .error e => e = .malformedArchive ∧ s.tookError t .malformedArchive

/-- The inverse law of the tree serialisation (R182): for every tree of at most 511 nodes, that is of at most 256 leaves. -/
def Obligations.SerializedTreesRebuild : Prop :=
  ∀ (s : State) (tr : Tree), treeLeaves tr ≤ 256 → s.tbl = (Tree.ser tr).length →
    8 * (10 + ceil8 s.tbl) ≤ 8 * s.host.inLen → s.inBits 80 (8 * ceil8 s.tbl) = padded (Tree.ser tr) →
    ∃ t, exec .hfDeserTree s = .next t ∧ t.tree.isTree (some tr) ∧ t.host = s.host ∧ t.seq = s.seq

/-- NODE_INTERNAL and NODE_LEAF while an archive is read (R176 to R178, R180): each takes the next entry of the store and its 1
or 9 bits. A leaf that ends the right subtrees of the open nodes `js`, innermost first, writes them: each is the internal node
of the child after it and of the one that ended before; then the next open node turns to its right side, or, with none left, the
outermost node ended is the root; no other entry changes. The errors of a 512th node and of bits running out. That a 256th open
node does not raise (R177, log entry 18), and that a node is read even where the traversal has closed (R176, R179, log entry
28), is the model's choice. -/
def Obligations.NodesAreReadOneByOne : Prop :=
  ∀ (s : State) (v : Byte), s.seq.phase.writes = false →
    (s.tree.ncnt < 511 → s.br.pos < s.br.limit → ∃ t, exec .nodeInternal s = .next t ∧
      t = (s.setTree { s.tree with ncnt := s.tree.ncnt + 1, dstk := (s.tree.ncnt, false) :: s.tree.dstk }).setBr
        { s.br with pos := s.br.pos + 1 }) ∧
    (s.tree.ncnt < 511 → s.br.pos + 9 ≤ s.br.limit → ∃ t, exec (.nodeLeaf v) s = .next t ∧
      t = (s.setTree t.tree).setBr { s.br with pos := s.br.pos + 9 } ∧ t.tree.ncnt = s.tree.ncnt + 1 ∧
      t.tree.live = s.tree.live ∧
      (s.tree.dstk = [] → t.tree.root = some s.tree.ncnt ∧ t.tree.holds s.tree.ncnt (.leaf v) ∧ t.tree.dstk = []) ∧
      (∀ j rest, s.tree.dstk = (j, false) :: rest → t.tree.root = s.tree.root ∧
        t.tree.holds s.tree.ncnt (.leaf v) ∧ t.tree.dstk = (j, true) :: rest) ∧
      ∀ (js : List Nat) (rest : List (Nat × Bool)), (s.tree.ncnt :: js).Nodup →
        s.tree.dstk = js.map (fun j => (j, true)) ++ rest → (∀ e, rest.head? = some e → e.2 = false) →
        t.tree.holds s.tree.ncnt (.leaf v) ∧
        (∀ k j c : Nat, js[k]? = some j → (s.tree.ncnt :: js)[k]? = some c → t.tree.at j = .internal (j + 1) c none) ∧
        (∀ a, a ≠ s.tree.ncnt → a ∉ js → t.tree.at a = s.tree.at a) ∧
        (rest = [] → t.tree.root = some (js.getLastD s.tree.ncnt) ∧ t.tree.dstk = []) ∧
        ∀ j outer, rest = (j, false) :: outer → t.tree.root = s.tree.root ∧ t.tree.dstk = (j, true) :: outer) ∧
    (511 ≤ s.tree.ncnt → ∀ i, i = .nodeInternal ∨ i = .nodeLeaf v →
      ∃ t, exec i s = .next t ∧ s.tookError t .malformedArchive) ∧
    (s.tree.ncnt < 511 → s.br.limit ≤ s.br.pos → ∃ t, exec .nodeInternal s = .next t ∧ s.tookError t s.br.err) ∧
    (s.tree.ncnt < 511 → s.br.limit < s.br.pos + 9 → ∃ t, exec (.nodeLeaf v) s = .next t ∧ s.tookError t s.br.err)

-- Huffman codec ---------------------------------------------------------------------------------------------------------

/-- `HF_DECODE` (R193 to R196), and PAYLOAD_BITS while an archive is read: `N` symbols, each the leaf the next code word leads
to, into `TB`; the reader has then moved over exactly those `N` code words, and no bit beyond them was taken; `BR_ERR` where the
bits run out; nothing for `N = 0`. Without a tree, or with more symbols than `T_CAP`, it has no meaning (R193, log entry 12). -/
def Obligations.DecoderWalksTheTreeForEachSymbol : Prop :=
  ∀ (s : State) (i : Instr), i = .hfDecode ∨
      (s.seq.phase.writes = false ∧ i = .payloadBits (s.inBits s.br.pos (s.br.limit - s.br.pos))) →
    (s.tb.len = 0 → exec i s = .next (s.setWalker { walk := s.walker.walk, symcnt := 0 })) ∧
    (s.tCap < s.tb.len ∨ (0 < s.tb.len ∧ s.tree.root = none) → ∃ op, exec i s = .refused (.precondition op)) ∧
    (∀ tr, s.tb.len ≤ s.tCap → s.tree.isTree (some tr) → s.br.pos ≤ s.br.limit → ∃ t, exec i s = .next t ∧
      match refSymbols tr s.tb.len (s.inBits s.br.pos (s.br.limit - s.br.pos)) with
      | .ok T => t = ((s.setTb t.tb).setWalker t.walker).setBr { s.br with pos := t.br.pos } ∧ t.tb.len = s.tb.len ∧
          t.stream = T ∧ t.walker.symcnt = s.tb.len ∧ t.br.pos ≤ s.br.limit ∧
          (∃ words : List Bits, words.length = s.tb.len ∧ List.Forall₂ (isCodeword tr) words T ∧
            s.inBits s.br.pos words.flatten.length = words.flatten ∧ t.br.pos = s.br.pos + words.flatten.length) ∧
          ∀ a, s.tb.len ≤ a → t.tbByte a = s.tbByte a
      | .error _ => s.tookError t s.br.err)

/-- CODEWORD while an archive is read (R91, R193 to R195): the bits of one code word are consumed and the value of the leaf
they lead to is the next byte of `TB`; of a lone leaf any one bit will do (R194); `BR_ERR` where the bits run out. -/
def Obligations.CodewordsEmitTheirLeaf : Prop :=
  ∀ (s : State) (tr : Tree) (path : Bits) (v : Byte), s.seq.phase.writes = false → s.tree.isTree (some tr) →
    s.walker.symcnt < s.tb.len → s.tb.len ≤ s.tCap →
    tr = .leaf v ∧ path.length = 1 ∨ (path ≠ [] ∧ leadsTo tr path v) →
    (s.br.pos + path.length ≤ s.br.limit → ∃ t, exec (.codeword path) s = .next t ∧
      t = ((s.setTb t.tb).setWalker t.walker).setBr { s.br with pos := s.br.pos + path.length } ∧
      t.tb.len = s.tb.len ∧ t.walker.symcnt = s.walker.symcnt + 1 ∧ t.tbByte s.walker.symcnt = v ∧
      ∀ a, a ≠ s.walker.symcnt → t.tbByte a = s.tbByte a) ∧
    (s.br.limit < s.br.pos + path.length → ∃ t, exec (.codeword path) s = .next t ∧ s.tookError t s.br.err)

-- Archive ---------------------------------------------------------------------------------------------------------------

/-- `AR_PACK` (R85 to R90, R201 to R204): `MAGIC`, `N`, `TBL`, the padded tree, the padded payload, or `CapacityExceeded`.
That the earlier bytes of `OUT` are kept after the error is the model's choice (log entry 15). -/
def Obligations.PackWritesTheArchiveFields : Prop :=
  ∀ (s : State) (o : Option Tree) (bits : Bits) (n : Nat), s.tree.isTree o →
    bits = byteBits 0x43 ++ byteBits 0x5A ++ natBits 32 s.tb.len ++ natBits 32 (serTree o).length ++
      padded (serTree o) ++ padded (s.stream.flatMap s.codeOf) →
    n = 10 + ceil8 (serTree o).length + ceil8 (s.stream.flatMap s.codeOf).length →
    (s.out.ptr + n ≤ s.caps.outCap → ∃ t, exec .arPack s = .next t ∧
      t = ((s.setOut t.out).setBw { acc := 0, cnt := 0 }).setTbl (serTree o).length ∧ t.out.ptr = s.out.ptr + n ∧
      bytesBits (bytesFrom t.outByte s.out.ptr n) = bits ∧
      ∀ a, a < s.out.ptr ∨ t.out.ptr ≤ a → t.outByte a = s.outByte a) ∧
    (s.caps.outCap < s.out.ptr + n → ∃ t, exec .arPack s = .next t ∧ s.tookError t .capacityExceeded ∧
      ∀ a, a < s.out.ptr ∨ s.caps.outCap ≤ a → t.outByte a = s.outByte a)

/-- `AR_UNPACK` (R205 to R214), in every state, the checks in their order. -/
def Obligations.UnpackChecksInOrder : Prop :=
  ∀ s : State, ∃ t, exec .arUnpack s = .next t ∧
    if s.host.inLen < 10 ∨ s.inByte 0 ≠ 0x43 ∨ s.inByte 1 ≠ 0x5A ∨ s.host.inLen - 10 < ceil8 (s.be32 6) then
      s.tookError t .malformedArchive
    else
      match refTree (s.inBits 80 (s.be32 6)) with
      | .error _ => s.tookError t .malformedArchive
      | .ok o =>
        if 0 < s.be32 2 ∧ o = none then s.tookError t .malformedArchive
        else if s.tCap < s.be32 2 then s.tookError t .capacityExceeded
        else
          t = (((s.setTb { s.tb with len := s.be32 2 }).setTbl (s.be32 6)).setTree t.tree).setBr
            { pos := 8 * (10 + ceil8 (s.be32 6)), limit := 8 * s.host.inLen, err := .unexpectedEndOfStream } ∧
          t.tree.isTree o

/-- MAGIC, TOKEN_LEN and TREE_BIT_LEN while an archive is read (R86 to R88, R205, R208, R209). For an archive of fewer than 10
bytes, which `AR_UNPACK` has excluded before it reads them (R206, R207), what they do alone is the model's choice (log
entry 26). -/
def Obligations.HeaderFieldsAreReadAndChecked : Prop :=
  ∀ (s : State) (n : BitVec 32), s.seq.phase.writes = false →
    (s.inByte 0 = 0x43 → s.inByte 1 = 0x5A → exec .magic s = .next s) ∧
    (s.inByte 0 ≠ 0x43 ∨ s.inByte 1 ≠ 0x5A → ∃ t, exec .magic s = .next t ∧ s.tookError t .malformedArchive) ∧
    exec (.tokenLen n) s = .next (s.setTb { s.tb with len := n.toNat }) ∧
    (ceil8 n.toNat ≤ s.host.inLen - 10 → exec (.treeBitLen n) s = .next (s.setTbl n.toNat)) ∧
    (s.host.inLen - 10 < ceil8 n.toNat → ∃ t, exec (.treeBitLen n) s = .next t ∧ s.tookError t .malformedArchive)

-- The two commands ------------------------------------------------------------------------------------------------------

/-- Every call ends with `Ok` or `Err` (R233), a compression with no error but `CapacityExceeded` (R251); a command while busy
is ignored (R25). The call runs in one step where no turn is scheduled inside it (log entry 2). -/
def Obligations.EveryCallEnds : Prop :=
  ∀ (s : State) (c : Instr), c = .compress ∨ c = .decompress →
    (s.busy = true → exec c s = .next s) ∧
    (s.ready → ∃ t, exec c s = .next t ∧ t.busy = false ∧ t.done = true ∧ t.env.turns = [] ∧
      ((∃ r, t.succeeded r) ∨ ∃ e, t.failed e ∧ (c = .compress → e = .capacityExceeded)))

/-- `COMPRESS` (R222, R223, R228): the archive of the input, or `CapacityExceeded` where the input, the stream or the archive
does not fit. -/
def Obligations.CompressWritesTheArchiveOfItsInput : Prop :=
  ∀ s : State, s.ready → ∃ t, exec .compress s = .next t ∧
    if s.host.inLen ≤ s.caps.inCap ∧ (streamOf (findTokens s.input)).length ≤ s.tCap ∧
        (refCompress s.input).length ≤ s.caps.outCap then
      t.succeeded (refCompress s.input)
    else t.failed .capacityExceeded

/-- `DECOMPRESS` (R222, R224, R250): the bytes the archive stands for, or the first error reached. -/
def Obligations.DecompressReadsTheArchiveOrNamesTheFirstError : Prop :=
  ∀ s : State, s.ready → ∃ t, exec .decompress s = .next t ∧
    if s.caps.inCap < s.host.inLen then t.failed .capacityExceeded
    else
      match refDecompress s.tCap s.caps.outCap s.input with
      | .ok out => t.succeeded out
      | .error e => t.failed e

/-- Round trip (R225). R225 asks for 'the same or larger capacities'; an output longer than `OUT_CAP` does not fit even so
(R59), so the capacities the second call needs are named. -/
def Obligations.DecompressInvertsCompress : Prop :=
  ∀ s t u : State, s.ready → exec .compress s = .next t → t.host.status = 0x02 → u.ready → u.input = t.result →
    u.host.inLen ≤ u.caps.inCap → s.tCap ≤ u.tCap → s.host.inLen ≤ u.caps.outCap →
    ∃ w, exec .decompress u = .next w ∧ w.succeeded s.input

/-- A call depends on its input and the capacities alone, not on earlier calls, on the contents of any memory or on the
instance (R20, R226, R229): two states that agree on those report the same result and the same error. -/
def Obligations.CallsDependOnTheirInputAlone : Prop :=
  ∀ (s s' : State) (c : Instr), c = .compress ∨ c = .decompress → s.ready → s'.ready → s.sameCall s' →
    ∃ t t', exec c s = .next t ∧ exec c s' = .next t' ∧ t.host.status = t'.host.status ∧
      t.host.errcode = t'.host.errcode ∧ t.host.outLen = t'.host.outLen ∧ t.result = t'.result

/-- One call in one step and one operation or element a step agree on all the host can see (R18, R65): after the command's
write and enough turns of the engine the host registers and the result are those of the whole call. -/
def Obligations.StepwiseCallsAgreeWithWholeCalls : Prop :=
  ∀ (s t : State) (v : Nat) (c : Instr), (v = 1 ∧ c = .compress) ∨ (v = 2 ∧ c = .decompress) → s.ready →
    s.seq.phase = .idle → exec c s = .next t →
    ∃ n u, stepMany n (s.setEnv { s.env with turns := [.writeReg 0 v, .engine] }) = .next u ∧ u.env.turns = [] ∧
      u.seq.phase = .idle ∧ u.host = t.host ∧ u.result = t.result

/-- The instances of a platform share nothing (R69, R259): a step of one leaves every other as it is, and is the step it would
take alone. That a platform is a list of states, of which one step moves one instance and an instance that stops stays as it is,
is the model's choice (log entry 17). -/
def Obligations.EnginesShareNothing : Prop :=
  ∀ (p : Platform) (k : Nat), (platformStep p k).length = p.length ∧
    (∀ j, j ≠ k → (platformStep p k)[j]? = p[j]?) ∧
    ∀ s t, p[k]? = some s → step s = .next t → (platformStep p k)[k]? = some t
end

