-- ==== Sys2Proof/Laws/Table.lean ====
section
/-! SUPPORT. Laws of the sparse tables: a read after a write, the canonical form, and the bytes of the spaces. -/

namespace Sys2Proof.Machine

theorem tableGet_tableSet {α : Type} (t : Table α) (a b : Nat) (v : α) :
    tableGet (tableSet t a v) b = if b = a then some v else tableGet t b := by
  induction t with
  | nil => rfl
  | cons e t ih =>
    obtain ⟨c, w⟩ := e
    simp only [tableSet]
    split
    · simp [tableGet]
    · split
      · next h => subst h; simp only [tableGet]; split <;> rfl
      · simp only [tableGet, ih]; split <;> split <;> first | rfl | omega

@[simp] theorem tableGet_tableSet_self {α : Type} (t : Table α) (a : Nat) (v : α) :
    tableGet (tableSet t a v) a = some v := by simp [tableGet_tableSet]

theorem tableGet_tableSet_of_ne {α : Type} (t : Table α) {a b : Nat} (v : α) (h : b ≠ a) :
    tableGet (tableSet t a v) b = tableGet t b := by simp [tableGet_tableSet, h]

theorem tableWfFrom_mono {α : Type} {t : Table α} {lo lo' : Nat} (h : tableWfFrom lo t = true) (hl : lo' ≤ lo) :
    tableWfFrom lo' t = true := by
  cases t with
  | nil => rfl
  | cons e t =>
    obtain ⟨a, w⟩ := e
    simp only [tableWfFrom, Bool.and_eq_true, decide_eq_true_eq] at h ⊢
    exact ⟨by omega, h.2⟩

theorem tableWfFrom_tableSet {α : Type} {t : Table α} {lo : Nat} (a : Nat) (v : α) (h : tableWfFrom lo t = true)
    (hl : lo ≤ a) : tableWfFrom lo (tableSet t a v) = true := by
  induction t generalizing lo with
  | nil => simpa [tableSet, tableWfFrom] using hl
  | cons e t ih =>
    obtain ⟨b, w⟩ := e
    simp only [tableWfFrom, Bool.and_eq_true, decide_eq_true_eq] at h
    simp only [tableSet]
    split
    · next hab =>
      simp only [tableWfFrom, Bool.and_eq_true, decide_eq_true_eq]
      exact ⟨hl, hab, h.2⟩
    · split
      · next hab => subst hab; simpa [tableWfFrom] using h
      · simp only [tableWfFrom, Bool.and_eq_true, decide_eq_true_eq]
        exact ⟨h.1, ih h.2 (by omega)⟩

/-- Every write keeps the canonical form. -/
theorem Memory.wf_tableSet {α : Type} {t : Table α} (a : Nat) (v : α) (h : Memory.wf t = true) :
    Memory.wf (tableSet t a v) = true := tableWfFrom_tableSet a v h (Nat.zero_le a)

@[simp] theorem Memory.wf_nil {α : Type} : Memory.wf ([] : Table α) = true := rfl

@[simp] theorem readByte_tableSet_self (epoch : Nat) (sp : Space) (m : Mem) (a : Nat) (v : Byte) :
    readByte epoch sp (tableSet m a v) a = v := by simp [readByte]

theorem readByte_tableSet_of_ne (epoch : Nat) (sp : Space) (m : Mem) {a b : Nat} (v : Byte) (h : b ≠ a) :
    readByte epoch sp (tableSet m a v) b = readByte epoch sp m b := by
  simp [readByte, tableGet_tableSet_of_ne m v h]

end Sys2Proof.Machine
end

