-- ==== Sys2Proof/Laws/Build.lean ====
section
/-! SUPPORT. What `HF_BUILD` makes of any frequency table (R162 to R168): a forest in the store while it runs, and at the end one
tree of at most 256 leaves in at most 511 entries, whose frequencies do not exceed the sum of the table. -/

namespace Sys2Proof.Machine

-- Reads after writes of the store ---------------------------------------------------------------------------------------

theorem at_of_node_eq {t : TreeStore} {a i : Nat} {n : Node} {m : Table Node} (h : t.node = tableSet m a n) :
    t.at i = if i = a then n else TreeStore.at { t with node := m } i := by
  unfold TreeStore.at
  rw [h, tableGet_tableSet]
  by_cases hi : i = a <;> simp [hi]

@[simp] theorem addLive_live (t : TreeStore) (n : Node) : (t.addLive n).live = t.live ++ [t.ncnt] := rfl
@[simp] theorem addLive_ncnt (t : TreeStore) (n : Node) : (t.addLive n).ncnt = t.ncnt + 1 := rfl
@[simp] theorem addLive_root (t : TreeStore) (n : Node) : (t.addLive n).root = t.root := rfl
@[simp] theorem addLive_dstk (t : TreeStore) (n : Node) : (t.addLive n).dstk = t.dstk := rfl
@[simp] theorem addLive_node (t : TreeStore) (n : Node) : (t.addLive n).node = tableSet t.node t.ncnt n := rfl

theorem addLive_at (t : TreeStore) (n : Node) (i : Nat) : (t.addLive n).at i = if i = t.ncnt then n else t.at i :=
  at_of_node_eq rfl

/-- The live set does not matter to what the entries are. -/
@[simp] theorem at_withLive (t : TreeStore) (l : List Nat) (i : Nat) : TreeStore.at { t with live := l } i = t.at i := rfl

theorem tableBelow_tableSet {α : Type} {n a : Nat} {t : Table α} (v : α) (h : tableBelow n t) (ha : a < n) :
    tableBelow n (tableSet t a v) := by
  induction t with
  | nil => exact ⟨ha, trivial⟩
  | cons e t ih =>
    obtain ⟨b, w⟩ := e
    simp only [tableSet]
    split
    · exact ⟨ha, h⟩
    · split
      · exact ⟨ha, h.2⟩
      · exact ⟨h.1, ih h.2⟩

-- Trees in the store ----------------------------------------------------------------------------------------------------

/-- Node `i` is the root of this tree, all of it below index `n`. -/
def TreeStore.within (t : TreeStore) (n : Nat) : Nat → Tree → Prop
  | i, .leaf v => i < n ∧ ∃ k, t.at i = .leaf v k
  | i, .node l r => i < n ∧ ∃ a b k, t.at i = .internal a b k ∧ t.within n a l ∧ t.within n b r

theorem within_lt {t : TreeStore} {n i : Nat} {tr : Tree} (h : t.within n i tr) : i < n := by
  cases tr <;> exact h.1

theorem within_mono {t u : TreeStore} {n m : Nat} (hu : ∀ i, i < n → u.at i = t.at i) (hm : n ≤ m) {i : Nat} {tr : Tree}
    (h : t.within n i tr) : u.within m i tr := by
  induction tr generalizing i with
  | leaf v => exact ⟨by have := h.1; omega, by rw [hu i h.1]; exact h.2⟩
  | node l r hl hr =>
    obtain ⟨hi, a, b, k, he, ha, hb⟩ := h
    exact ⟨by omega, a, b, k, by rw [hu i hi]; exact he, hl ha, hr hb⟩

theorem holds_of_within {t : TreeStore} {n i : Nat} {tr : Tree} (h : t.within n i tr) : t.holds i tr := by
  induction tr generalizing i with
  | leaf v => exact h.2
  | node l r hl hr => obtain ⟨_, a, b, k, he, ha, hb⟩ := h; exact ⟨a, b, k, he, hl ha, hr hb⟩

theorem treeLeaves_pos (tr : Tree) : 0 < treeLeaves tr := by
  induction tr with
  | leaf v => exact Nat.one_pos
  | node l r hl hr => simp only [treeLeaves]; omega

/-- Enough fuel reads the whole tree. -/
theorem treeAt_of_holds {t : TreeStore} {tr : Tree} {fuel i : Nat} (h : t.holds i tr) (hf : treeLeaves tr ≤ fuel) :
    t.treeAt fuel i = tr := by
  induction tr generalizing fuel i with
  | leaf v =>
    obtain ⟨k, he⟩ := h
    cases fuel with
    | zero => exact absurd hf (by simp [treeLeaves])
    | succ f => simp [TreeStore.treeAt, he]
  | node l r hl hr =>
    obtain ⟨a, b, k, he, ha, hb⟩ := h
    have hpl := treeLeaves_pos l
    have hpr := treeLeaves_pos r
    simp only [treeLeaves] at hf
    cases fuel with
    | zero => omega
    | succ f => simp only [TreeStore.treeAt, he, hl ha (show treeLeaves l ≤ f by omega), hr hb (show treeLeaves r ≤ f by omega)]

theorem shape_of_isTree {t : TreeStore} {o : Option Tree} (h : t.isTree o) : t.shape = o := by
  cases o with
  | none => simp only [TreeStore.shape, show t.root = none from h]
  | some tr =>
    obtain ⟨r, hr, hh, hl⟩ := h
    simp only [TreeStore.shape, hr, treeAt_of_holds hh (show treeLeaves tr ≤ 511 by omega)]

-- The forest while the tree is built ------------------------------------------------------------------------------------

/-- The key of a merged node (R166). -/
theorem merged_key (t : TreeStore) (a b : Nat) : (t.merged a b).key =
    { freq := (t.at a).key.freq + (t.at b).key.freq, minsym := min (t.at a).key.minsym (t.at b).key.minsym } := rfl

/-- The live nodes are the roots of trees with `L` leaves in all, of two entries per leaf less one per root, whose frequencies
sum to `S`. -/
structure Building (t : TreeStore) (L S : Nat) : Prop where
  trees : ∃ g : Nat → Tree, (∀ i ∈ t.live, t.within t.ncnt i (g i)) ∧ (t.live.map fun i => treeLeaves (g i)).sum = L
  entries : t.ncnt + t.live.length = 2 * L
  rooted : 0 < L → t.live ≠ []
  freqs : (t.live.map fun i => (t.at i).key.freq).sum = S
  minsyms : ∀ i ∈ t.live, (t.at i).key.minsym < 256

theorem Building.live_lt {t : TreeStore} {L S : Nat} (h : Building t L S) {i : Nat} (hi : i ∈ t.live) : i < t.ncnt := by
  obtain ⟨g, hg, _⟩ := h.trees; exact within_lt (hg i hi)

theorem firstOf_mem (t : TreeStore) (x : Nat) (xs : List Nat) : t.firstOf x xs ∈ x :: xs := by
  induction xs generalizing x with
  | nil => exact List.mem_singleton.2 rfl
  | cons y ys ih =>
    have h := ih (if (t.at y).key.before (t.at x).key then y else x)
    simp only [TreeStore.firstOf]
    split at h <;> rename_i hc <;> simp only [hc, if_true, if_false, Bool.false_eq_true]
    · exact List.mem_cons_of_mem _ h
    · rcases List.mem_cons.1 h with h | h
      · rw [h]; exact List.mem_cons_self
      · exact List.mem_cons_of_mem _ (List.mem_cons_of_mem _ h)

theorem addLive_leaf_building {t : TreeStore} {L S : Nat} (h : Building t L S) {f v : Nat} (b : Byte) (hv : v < 256) :
    Building (t.addLive (.leaf b (some { freq := f, minsym := v }))) (L + 1) (S + f) := by
  have hne : ∀ i ∈ t.live, i ≠ t.ncnt := fun i hi => by have := h.live_lt hi; omega
  have hat : ∀ i ∈ t.live, (t.addLive (.leaf b (some { freq := f, minsym := v }))).at i = t.at i := fun i hi => by
    rw [addLive_at, if_neg (hne i hi)]
  obtain ⟨g, hg, hs⟩ := h.trees
  constructor
  · refine ⟨fun i => if i = t.ncnt then .leaf b else g i, fun i hi => ?_, ?_⟩
    · rw [addLive_live, List.mem_append, List.mem_singleton] at hi
      rcases hi with hi | rfl
      · simp only [if_neg (hne i hi)]
        exact within_mono (fun j hj => by rw [addLive_at, if_neg (by omega)]) (Nat.le_succ _) (hg i hi)
      · simp only [if_pos trivial]
        exact ⟨Nat.lt_succ_self _, _, by rw [addLive_at, if_pos rfl]⟩
    · rw [addLive_live, List.map_append, List.sum_append, ← hs]
      congr 1
      · exact congrArg List.sum (List.map_congr_left fun i hi => by simp only [if_neg (hne i hi)])
      · simp [treeLeaves]
  · have := h.entries; simp only [addLive_ncnt, addLive_live, List.length_append, List.length_singleton]; omega
  · exact fun _ => by simp
  · rw [addLive_live, List.map_append, List.sum_append, ← h.freqs]
    congr 1
    · exact congrArg List.sum (List.map_congr_left fun i hi => by rw [hat i hi])
    · simp [addLive_at, Node.key]
  · intro i hi
    rw [addLive_live, List.mem_append, List.mem_singleton] at hi
    rcases hi with hi | rfl
    · rw [hat i hi]; exact h.minsyms i hi
    · rw [addLive_at, if_pos rfl]; exact hv

theorem mergeOnce_building {t : TreeStore} {L S : Nat} (h : Building t L S) : Building t.mergeOnce L S := by
  unfold TreeStore.mergeOnce
  split
  · exact h
  next x xs hx =>
    dsimp only
    split
    · exact h
    next y ys hy =>
      have ha : t.firstOf x xs ∈ t.live := by rw [hx]; exact firstOf_mem t x xs
      have hb := firstOf_mem t y ys
      have hp1 : t.live.Perm (t.firstOf x xs :: y :: ys) := by rw [← hy, hx]; exact List.perm_cons_erase (firstOf_mem t x xs)
      generalize t.firstOf x xs = a at ha hp1
      generalize t.firstOf y ys = b at hb
      have hp : t.live.Perm (a :: b :: (y :: ys).erase b) := hp1.trans ((List.perm_cons_erase hb).cons a)
      have hmem : ∀ i ∈ (y :: ys).erase b, i ∈ t.live := fun i hi => hp.symm.subset (by simp [hi])
      have hb' : b ∈ t.live := hp.symm.subset (by simp)
      have hne : ∀ i ∈ (y :: ys).erase b, i ≠ t.ncnt := fun i hi => by have := h.live_lt (hmem i hi); omega
      obtain ⟨g, hg, hs⟩ := h.trees
      have hatl : ∀ i, i < t.ncnt →
          (TreeStore.addLive { t with live := (y :: ys).erase b } (t.merged a b)).at i = t.at i := fun i hi => by
        rw [addLive_at, if_neg (by show i ≠ t.ncnt; omega)]; rfl
      have hroot : (TreeStore.addLive { t with live := (y :: ys).erase b } (t.merged a b)).at t.ncnt = t.merged a b := by
        rw [addLive_at]; exact if_pos rfl
      constructor
      · refine ⟨fun i => if i = t.ncnt then .node (g a) (g b) else g i, fun i hi => ?_, ?_⟩
        · rw [addLive_live, List.mem_append, List.mem_singleton] at hi
          rcases hi with hi | rfl
          · simp only [if_neg (hne i hi)]
            exact within_mono hatl (Nat.le_succ _) (hg i (hmem i hi))
          · simp only [if_pos trivial]
            exact ⟨Nat.lt_succ_self _, a, b, _, hroot, within_mono hatl (Nat.le_succ _) (hg a ha),
              within_mono hatl (Nat.le_succ _) (hg b hb')⟩
        · have hsum := (hp.map fun i => treeLeaves (g i)).sum_eq
          rw [hs] at hsum
          rw [addLive_live, List.map_append, List.sum_append,
            List.map_congr_left (g := fun i => treeLeaves (g i)) fun i hi => by simp only [if_neg (hne i hi)]]
          simp only [List.map_cons, List.sum_cons] at hsum
          simp only [List.map_cons, List.map_nil, List.sum_cons, List.sum_nil, if_true, treeLeaves]
          omega
      · have hlen := hp.length_eq
        have he := h.entries
        simp only [List.length_cons] at hlen
        simp only [addLive_ncnt, addLive_live, List.length_append, List.length_singleton]
        omega
      · exact fun _ => by simp
      · have hsum := (hp.map fun i => (t.at i).key.freq).sum_eq
        rw [h.freqs] at hsum
        rw [addLive_live, List.map_append, List.sum_append,
          List.map_congr_left (g := fun i => (t.at i).key.freq) fun i hi => by rw [hatl i (h.live_lt (hmem i hi))]]
        simp only [List.map_cons, List.sum_cons] at hsum
        simp only [List.map_cons, List.map_nil, List.sum_cons, List.sum_nil, hroot, merged_key]
        omega
      · intro i hi
        rw [addLive_live, List.mem_append, List.mem_singleton] at hi
        rcases hi with hi | rfl
        · rw [hatl i (h.live_lt (hmem i hi))]; exact h.minsyms i (hmem i hi)
        · rw [hroot]
          have := h.minsyms a ha
          rw [merged_key]; exact Nat.lt_of_le_of_lt (Nat.min_le_left _ _) this

theorem mergeAll_building (n : Nat) {t : TreeStore} {L S : Nat} (h : Building t L S) :
    Building (TreeStore.mergeAll n t) L S := by
  induction n generalizing t with
  | zero => exact h
  | succ n ih => exact ih (mergeOnce_building h)

/-- The leaves placed for a list of byte values. -/
theorem addLeaves_building (f : Table Nat) (l : List Nat) (hl : ∀ v ∈ l, v < 256) {t : TreeStore} {L S : Nat}
    (h : Building t L S) :
    ∃ m, m ≤ l.length ∧ Building (l.foldl (TreeStore.addLeaf f) t) (L + m) (S + (l.map (freqAt f)).sum) := by
  induction l generalizing t L S with
  | nil => exact ⟨0, Nat.le_refl _, h⟩
  | cons v l ih =>
    have hl' : ∀ w ∈ l, w < 256 := fun w hw => hl w (List.mem_cons_of_mem _ hw)
    simp only [List.foldl_cons, List.map_cons, List.sum_cons, List.length_cons]
    by_cases hv : freqAt f v > 0
    · obtain ⟨m, hm, hb⟩ := ih hl' (addLive_leaf_building h (f := freqAt f v) (BitVec.ofNat 8 v) (hl v List.mem_cons_self))
      refine ⟨m + 1, by omega, ?_⟩
      rw [TreeStore.addLeaf, if_pos hv, ← Nat.add_assoc S, Nat.add_comm m 1, ← Nat.add_assoc L]; exact hb
    · obtain ⟨m, hm, hb⟩ := ih hl' h
      refine ⟨m, by omega, ?_⟩
      rw [TreeStore.addLeaf, if_neg hv, show freqAt f v = 0 by omega, Nat.zero_add]; exact hb

-- The store HF_BUILD leaves ---------------------------------------------------------------------------------------------

/-- The leaves and merges of HF_BUILD before `ROOT` is set. -/
theorem build_forest (f : Table Nat) (t : TreeStore) :
    ∃ u L, L ≤ 256 ∧ Building u L ((List.range 256).map (freqAt f)).sum ∧ t.build f = { u with root := u.live.head? } := by
  have h0 : Building { t with ncnt := 0, live := [], root := none } 0 0 :=
    ⟨⟨fun _ => .leaf 0, fun _ h => (by cases h), rfl⟩, rfl, fun h => absurd h (by decide), rfl, fun _ h => by cases h⟩
  obtain ⟨m, hm, hb⟩ := addLeaves_building f (List.range 256) (fun v hv => List.mem_range.1 hv) h0
  refine ⟨_, 0 + m, by simpa using hm, ?_, rfl⟩
  have := mergeAll_building
    ((List.range 256).foldl (TreeStore.addLeaf f) { t with ncnt := 0, live := [], root := none }).live.length hb
  rwa [Nat.zero_add ((List.range 256).map (freqAt f)).sum] at this

/-- `HF_BUILD` from any table: at most 511 entries, live nodes and root among them, and a tree of at most 256 leaves or none. -/
theorem build_bounds (f : Table Nat) (t : TreeStore) :
    (t.build f).ncnt ≤ 511 ∧ (∀ i ∈ (t.build f).live, i < 511) ∧ (∀ r, (t.build f).root = some r → r < 511) ∧
      ∃ o, (t.build f).isTree o := by
  obtain ⟨u, L, hL, hb, he⟩ := build_forest f t
  rw [he]
  have hn : u.ncnt ≤ 511 := by
    have := hb.entries
    rcases Nat.eq_zero_or_pos L with h0 | h0
    · omega
    · have := List.length_pos_iff.2 (hb.rooted h0); omega
  have hlive : ∀ i ∈ u.live, i < 511 := fun i hi => by have := hb.live_lt hi; omega
  refine ⟨hn, hlive, fun r hr => hlive r (List.mem_of_mem_head? hr), ?_⟩
  cases hh : u.live.head? with
  | none => exact ⟨none, rfl⟩
  | some r =>
    obtain ⟨g, hg, hs⟩ := hb.trees
    have hr : r ∈ u.live := List.mem_of_mem_head? hh
    have hle : treeLeaves (g r) ≤ (u.live.map fun i => treeLeaves (g i)).sum :=
      List.single_le_sum (fun _ _ => Nat.zero_le _) _ (List.mem_map_of_mem hr)
    have hw : TreeStore.within { u with root := some r } u.ncnt r (g r) :=
      within_mono (t := u) (u := { u with root := some r }) (fun _ _ => rfl) (Nat.le_refl _) (hg r hr)
    exact ⟨some (g r), r, rfl, holds_of_within hw, by omega⟩

-- The entries of the store ----------------------------------------------------------------------------------------------

/-- The fields of a node within their widths, frequencies below `F` (R33). -/
def Node.Fits (F : Nat) (n : Node) : Prop :=
  (∀ l r k, n = .internal l r k → l < 511 ∧ r < 511) ∧ n.key.freq < F ∧ n.key.minsym < 256

/-- Every entry is below index 511 and within its widths. -/
def TreeStore.Fits (F : Nat) (t : TreeStore) : Prop := tableBelow 511 t.node ∧ ∀ i, (t.at i).Fits F

theorem addLive_fits {F : Nat} {t : TreeStore} {n : Node} (h : t.Fits F) (hn : n.Fits F) (hc : t.ncnt < 511) :
    (t.addLive n).Fits F := by
  refine ⟨tableBelow_tableSet n h.1 hc, fun i => ?_⟩
  rw [addLive_at]; split
  · exact hn
  · exact h.2 i

theorem Building.ncnt_lt {t : TreeStore} {L S : Nat} (h : Building t L S) (hL : L ≤ 255) : t.ncnt < 511 := by
  have := h.entries; omega

theorem mergeOnce_fits {F : Nat} {t : TreeStore} {L S : Nat} (hb : Building t L S) (hL : L ≤ 256) (hS : S < F)
    (h : t.Fits F) : t.mergeOnce.Fits F := by
  unfold TreeStore.mergeOnce
  split
  · exact h
  next x xs hx =>
    dsimp only
    split
    · exact h
    next y ys hy =>
      have hp1 : t.live.Perm (t.firstOf x xs :: y :: ys) := by rw [← hy, hx]; exact List.perm_cons_erase (firstOf_mem t x xs)
      have hp := hp1.trans ((List.perm_cons_erase (firstOf_mem t y ys)).cons _)
      have ha : t.firstOf x xs ∈ t.live := hp.symm.subset (by simp)
      have hb' : t.firstOf y ys ∈ t.live := hp.symm.subset (by simp)
      have hlen := hp.length_eq
      have he := hb.entries
      simp only [List.length_cons] at hlen
      have hsum := (hp.map fun i => (t.at i).key.freq).sum_eq
      rw [hb.freqs] at hsum
      simp only [List.map_cons, List.sum_cons] at hsum
      refine addLive_fits (t := { t with live := (y :: ys).erase (t.firstOf y ys) }) h ⟨fun l r k hk => ?_, ?_, ?_⟩
        (by show t.ncnt < 511; omega)
      · have := hb.live_lt ha
        have := hb.live_lt hb'
        simp only [TreeStore.merged, Node.internal.injEq] at hk
        omega
      · rw [merged_key]; show _ + _ < F; omega
      · rw [merged_key]; exact Nat.lt_of_le_of_lt (Nat.min_le_left _ _) (hb.minsyms _ ha)

theorem mergeAll_fits {F : Nat} (n : Nat) {t : TreeStore} {L S : Nat} (hb : Building t L S) (hL : L ≤ 256) (hS : S < F)
    (h : t.Fits F) : (TreeStore.mergeAll n t).Fits F := by
  induction n generalizing t with
  | zero => exact h
  | succ n ih => exact ih (mergeOnce_building hb) (mergeOnce_fits hb hL hS h)

theorem addLeaves_fits {F : Nat} (f : Table Nat) (l : List Nat) (hl : ∀ v ∈ l, v < 256) {t : TreeStore} {L S : Nat}
    (hb : Building t L S) (hL : L + l.length ≤ 256) (hS : S + (l.map (freqAt f)).sum < F) (h : t.Fits F) :
    (l.foldl (TreeStore.addLeaf f) t).Fits F := by
  induction l generalizing t L S with
  | nil => exact h
  | cons v l ih =>
    have hl' : ∀ w ∈ l, w < 256 := fun w hw => hl w (List.mem_cons_of_mem _ hw)
    simp only [List.length_cons] at hL
    simp only [List.map_cons, List.sum_cons] at hS
    simp only [List.foldl_cons]
    by_cases hv : freqAt f v > 0
    · rw [TreeStore.addLeaf, if_pos hv]
      refine ih hl' (addLive_leaf_building hb (BitVec.ofNat 8 v) (hl v List.mem_cons_self)) (by omega) (by omega)
        (addLive_fits h ⟨fun _ _ _ hk => (by cases hk), ?_, hl v List.mem_cons_self⟩ (hb.ncnt_lt (by omega)))
      show freqAt f v < F; omega
    · rw [TreeStore.addLeaf, if_neg hv]
      exact ih hl' hb (by omega) (by omega) h

/-- `HF_BUILD` keeps every entry of the store within its widths, where the frequencies sum to less than `F`. -/
theorem build_fits {F : Nat} (f : Table Nat) {t : TreeStore} (hS : ((List.range 256).map (freqAt f)).sum < F)
    (h : t.Fits F) : (t.build f).Fits F := by
  have h0 : Building { t with ncnt := 0, live := [], root := none } 0 0 :=
    ⟨⟨fun _ => .leaf 0, fun _ h => (by cases h), rfl⟩, rfl, fun h => absurd h (by decide), rfl, fun _ h => by cases h⟩
  have hl : ∀ v ∈ List.range 256, v < 256 := fun v hv => List.mem_range.1 hv
  obtain ⟨m, hm, hb⟩ := addLeaves_building f (List.range 256) hl h0
  exact mergeAll_fits _ hb (by simpa using hm) (by rwa [Nat.zero_add])
    (addLeaves_fits f (List.range 256) hl h0 (by simp) (by rwa [Nat.zero_add]) h)

-- Lengths of codes and of the serialisation ------------------------------------------------------------------------------

theorem codesInto_length {K : Nat} (t : Tree) {path : Bits} {c : Table Bits}
    (hc : ∀ v p, tableGet c v = some p → p.length ≤ K) (hp : path.length + treeLeaves t ≤ K + 1) :
    ∀ v p, tableGet (Tree.codesInto t path c) v = some p → p.length ≤ K := by
  induction t generalizing path c with
  | leaf w =>
    intro v p h
    simp only [Tree.codesInto, tableGet_tableSet] at h
    simp only [treeLeaves] at hp
    split at h
    · cases h; omega
    · exact hc v p h
  | node l r hl hr =>
    have hpl := treeLeaves_pos l
    have hpr := treeLeaves_pos r
    simp only [treeLeaves] at hp
    exact hr (hl hc (by simp; omega)) (by simp; omega)

/-- A code of a tree of at most 256 leaves is at most 255 bits long (R35). -/
theorem codeTable_length {o : Option Tree} (h : ∀ t, o = some t → treeLeaves t ≤ 256) :
    ∀ v p, tableGet (codeTable o) v = some p → p.length ≤ 255 := by
  match o with
  | none => exact fun _ _ h => by cases h
  | some (.leaf w) =>
    intro v p h
    simp only [codeTable, tableGet] at h
    split at h
    · cases h; decide
    · cases h
  | some (.node l r) =>
    exact codesInto_length _ (fun _ _ h => by cases h) (by have := h _ rfl; simp only [List.length_nil]; omega)

end Sys2Proof.Machine
end

