-- ==== Sys2Proof/Laws/State.lean ====
section
/-! SUPPORT. What each update of `State` changes: for every update and every field, the field after the update. Each theorem is
one conjunction, which `simp` takes apart into one rewriting rule per field. -/

namespace Sys2Proof.Machine

@[simp] theorem State.setHost_fields (s : State) (x : HostRegs) :
    (s.setHost x).host = x ∧ (s.setHost x).caps = s.caps ∧ (s.setHost x).seq = s.seq ∧ (s.setHost x).inp = s.inp ∧
    (s.setHost x).tb = s.tb ∧ (s.setHost x).out = s.out ∧ (s.setHost x).win = s.win ∧
    (s.setHost x).finder = s.finder ∧ (s.setHost x).enc = s.enc ∧ (s.setHost x).dec = s.dec ∧
    (s.setHost x).freq = s.freq ∧ (s.setHost x).tree = s.tree ∧ (s.setHost x).code = s.code ∧
    (s.setHost x).tbl = s.tbl ∧ (s.setHost x).walker = s.walker ∧ (s.setHost x).bw = s.bw ∧ (s.setHost x).br = s.br ∧
    (s.setHost x).env = s.env :=
  ⟨rfl, rfl, rfl, rfl, rfl, rfl, rfl, rfl, rfl, rfl, rfl, rfl, rfl, rfl, rfl, rfl, rfl, rfl⟩

@[simp] theorem State.setSeq_fields (s : State) (x : Sequencer) :
    (s.setSeq x).host = s.host ∧ (s.setSeq x).caps = s.caps ∧ (s.setSeq x).seq = x ∧ (s.setSeq x).inp = s.inp ∧
    (s.setSeq x).tb = s.tb ∧ (s.setSeq x).out = s.out ∧ (s.setSeq x).win = s.win ∧ (s.setSeq x).finder = s.finder ∧
    (s.setSeq x).enc = s.enc ∧ (s.setSeq x).dec = s.dec ∧ (s.setSeq x).freq = s.freq ∧ (s.setSeq x).tree = s.tree ∧
    (s.setSeq x).code = s.code ∧ (s.setSeq x).tbl = s.tbl ∧ (s.setSeq x).walker = s.walker ∧ (s.setSeq x).bw = s.bw ∧
    (s.setSeq x).br = s.br ∧ (s.setSeq x).env = s.env :=
  ⟨rfl, rfl, rfl, rfl, rfl, rfl, rfl, rfl, rfl, rfl, rfl, rfl, rfl, rfl, rfl, rfl, rfl, rfl⟩

@[simp] theorem State.setInp_fields (s : State) (x : Mem) :
    (s.setInp x).host = s.host ∧ (s.setInp x).caps = s.caps ∧ (s.setInp x).seq = s.seq ∧ (s.setInp x).inp = x ∧
    (s.setInp x).tb = s.tb ∧ (s.setInp x).out = s.out ∧ (s.setInp x).win = s.win ∧ (s.setInp x).finder = s.finder ∧
    (s.setInp x).enc = s.enc ∧ (s.setInp x).dec = s.dec ∧ (s.setInp x).freq = s.freq ∧ (s.setInp x).tree = s.tree ∧
    (s.setInp x).code = s.code ∧ (s.setInp x).tbl = s.tbl ∧ (s.setInp x).walker = s.walker ∧ (s.setInp x).bw = s.bw ∧
    (s.setInp x).br = s.br ∧ (s.setInp x).env = s.env :=
  ⟨rfl, rfl, rfl, rfl, rfl, rfl, rfl, rfl, rfl, rfl, rfl, rfl, rfl, rfl, rfl, rfl, rfl, rfl⟩

@[simp] theorem State.setTb_fields (s : State) (x : TokenBuffer) :
    (s.setTb x).host = s.host ∧ (s.setTb x).caps = s.caps ∧ (s.setTb x).seq = s.seq ∧ (s.setTb x).inp = s.inp ∧
    (s.setTb x).tb = x ∧ (s.setTb x).out = s.out ∧ (s.setTb x).win = s.win ∧ (s.setTb x).finder = s.finder ∧
    (s.setTb x).enc = s.enc ∧ (s.setTb x).dec = s.dec ∧ (s.setTb x).freq = s.freq ∧ (s.setTb x).tree = s.tree ∧
    (s.setTb x).code = s.code ∧ (s.setTb x).tbl = s.tbl ∧ (s.setTb x).walker = s.walker ∧ (s.setTb x).bw = s.bw ∧
    (s.setTb x).br = s.br ∧ (s.setTb x).env = s.env :=
  ⟨rfl, rfl, rfl, rfl, rfl, rfl, rfl, rfl, rfl, rfl, rfl, rfl, rfl, rfl, rfl, rfl, rfl, rfl⟩

@[simp] theorem State.setOut_fields (s : State) (x : OutBuffer) :
    (s.setOut x).host = s.host ∧ (s.setOut x).caps = s.caps ∧ (s.setOut x).seq = s.seq ∧ (s.setOut x).inp = s.inp ∧
    (s.setOut x).tb = s.tb ∧ (s.setOut x).out = x ∧ (s.setOut x).win = s.win ∧ (s.setOut x).finder = s.finder ∧
    (s.setOut x).enc = s.enc ∧ (s.setOut x).dec = s.dec ∧ (s.setOut x).freq = s.freq ∧ (s.setOut x).tree = s.tree ∧
    (s.setOut x).code = s.code ∧ (s.setOut x).tbl = s.tbl ∧ (s.setOut x).walker = s.walker ∧ (s.setOut x).bw = s.bw ∧
    (s.setOut x).br = s.br ∧ (s.setOut x).env = s.env :=
  ⟨rfl, rfl, rfl, rfl, rfl, rfl, rfl, rfl, rfl, rfl, rfl, rfl, rfl, rfl, rfl, rfl, rfl, rfl⟩

@[simp] theorem State.setWin_fields (s : State) (x : Window) :
    (s.setWin x).host = s.host ∧ (s.setWin x).caps = s.caps ∧ (s.setWin x).seq = s.seq ∧ (s.setWin x).inp = s.inp ∧
    (s.setWin x).tb = s.tb ∧ (s.setWin x).out = s.out ∧ (s.setWin x).win = x ∧ (s.setWin x).finder = s.finder ∧
    (s.setWin x).enc = s.enc ∧ (s.setWin x).dec = s.dec ∧ (s.setWin x).freq = s.freq ∧ (s.setWin x).tree = s.tree ∧
    (s.setWin x).code = s.code ∧ (s.setWin x).tbl = s.tbl ∧ (s.setWin x).walker = s.walker ∧ (s.setWin x).bw = s.bw ∧
    (s.setWin x).br = s.br ∧ (s.setWin x).env = s.env :=
  ⟨rfl, rfl, rfl, rfl, rfl, rfl, rfl, rfl, rfl, rfl, rfl, rfl, rfl, rfl, rfl, rfl, rfl, rfl⟩

@[simp] theorem State.setFinder_fields (s : State) (x : MatchFinder) :
    (s.setFinder x).host = s.host ∧ (s.setFinder x).caps = s.caps ∧ (s.setFinder x).seq = s.seq ∧
    (s.setFinder x).inp = s.inp ∧ (s.setFinder x).tb = s.tb ∧ (s.setFinder x).out = s.out ∧
    (s.setFinder x).win = s.win ∧ (s.setFinder x).finder = x ∧ (s.setFinder x).enc = s.enc ∧
    (s.setFinder x).dec = s.dec ∧ (s.setFinder x).freq = s.freq ∧ (s.setFinder x).tree = s.tree ∧
    (s.setFinder x).code = s.code ∧ (s.setFinder x).tbl = s.tbl ∧ (s.setFinder x).walker = s.walker ∧
    (s.setFinder x).bw = s.bw ∧ (s.setFinder x).br = s.br ∧ (s.setFinder x).env = s.env :=
  ⟨rfl, rfl, rfl, rfl, rfl, rfl, rfl, rfl, rfl, rfl, rfl, rfl, rfl, rfl, rfl, rfl, rfl, rfl⟩

@[simp] theorem State.setEnc_fields (s : State) (x : TokenEncoder) :
    (s.setEnc x).host = s.host ∧ (s.setEnc x).caps = s.caps ∧ (s.setEnc x).seq = s.seq ∧ (s.setEnc x).inp = s.inp ∧
    (s.setEnc x).tb = s.tb ∧ (s.setEnc x).out = s.out ∧ (s.setEnc x).win = s.win ∧ (s.setEnc x).finder = s.finder ∧
    (s.setEnc x).enc = x ∧ (s.setEnc x).dec = s.dec ∧ (s.setEnc x).freq = s.freq ∧ (s.setEnc x).tree = s.tree ∧
    (s.setEnc x).code = s.code ∧ (s.setEnc x).tbl = s.tbl ∧ (s.setEnc x).walker = s.walker ∧ (s.setEnc x).bw = s.bw ∧
    (s.setEnc x).br = s.br ∧ (s.setEnc x).env = s.env :=
  ⟨rfl, rfl, rfl, rfl, rfl, rfl, rfl, rfl, rfl, rfl, rfl, rfl, rfl, rfl, rfl, rfl, rfl, rfl⟩

@[simp] theorem State.setDec_fields (s : State) (x : TokenDecoder) :
    (s.setDec x).host = s.host ∧ (s.setDec x).caps = s.caps ∧ (s.setDec x).seq = s.seq ∧ (s.setDec x).inp = s.inp ∧
    (s.setDec x).tb = s.tb ∧ (s.setDec x).out = s.out ∧ (s.setDec x).win = s.win ∧ (s.setDec x).finder = s.finder ∧
    (s.setDec x).enc = s.enc ∧ (s.setDec x).dec = x ∧ (s.setDec x).freq = s.freq ∧ (s.setDec x).tree = s.tree ∧
    (s.setDec x).code = s.code ∧ (s.setDec x).tbl = s.tbl ∧ (s.setDec x).walker = s.walker ∧ (s.setDec x).bw = s.bw ∧
    (s.setDec x).br = s.br ∧ (s.setDec x).env = s.env :=
  ⟨rfl, rfl, rfl, rfl, rfl, rfl, rfl, rfl, rfl, rfl, rfl, rfl, rfl, rfl, rfl, rfl, rfl, rfl⟩

@[simp] theorem State.setFreq_fields (s : State) (x : Table Nat) :
    (s.setFreq x).host = s.host ∧ (s.setFreq x).caps = s.caps ∧ (s.setFreq x).seq = s.seq ∧
    (s.setFreq x).inp = s.inp ∧ (s.setFreq x).tb = s.tb ∧ (s.setFreq x).out = s.out ∧ (s.setFreq x).win = s.win ∧
    (s.setFreq x).finder = s.finder ∧ (s.setFreq x).enc = s.enc ∧ (s.setFreq x).dec = s.dec ∧ (s.setFreq x).freq = x ∧
    (s.setFreq x).tree = s.tree ∧ (s.setFreq x).code = s.code ∧ (s.setFreq x).tbl = s.tbl ∧
    (s.setFreq x).walker = s.walker ∧ (s.setFreq x).bw = s.bw ∧ (s.setFreq x).br = s.br ∧ (s.setFreq x).env = s.env :=
  ⟨rfl, rfl, rfl, rfl, rfl, rfl, rfl, rfl, rfl, rfl, rfl, rfl, rfl, rfl, rfl, rfl, rfl, rfl⟩

@[simp] theorem State.setTree_fields (s : State) (x : TreeStore) :
    (s.setTree x).host = s.host ∧ (s.setTree x).caps = s.caps ∧ (s.setTree x).seq = s.seq ∧
    (s.setTree x).inp = s.inp ∧ (s.setTree x).tb = s.tb ∧ (s.setTree x).out = s.out ∧ (s.setTree x).win = s.win ∧
    (s.setTree x).finder = s.finder ∧ (s.setTree x).enc = s.enc ∧ (s.setTree x).dec = s.dec ∧
    (s.setTree x).freq = s.freq ∧ (s.setTree x).tree = x ∧ (s.setTree x).code = s.code ∧ (s.setTree x).tbl = s.tbl ∧
    (s.setTree x).walker = s.walker ∧ (s.setTree x).bw = s.bw ∧ (s.setTree x).br = s.br ∧ (s.setTree x).env = s.env :=
  ⟨rfl, rfl, rfl, rfl, rfl, rfl, rfl, rfl, rfl, rfl, rfl, rfl, rfl, rfl, rfl, rfl, rfl, rfl⟩

@[simp] theorem State.setCode_fields (s : State) (x : Table Bits) :
    (s.setCode x).host = s.host ∧ (s.setCode x).caps = s.caps ∧ (s.setCode x).seq = s.seq ∧
    (s.setCode x).inp = s.inp ∧ (s.setCode x).tb = s.tb ∧ (s.setCode x).out = s.out ∧ (s.setCode x).win = s.win ∧
    (s.setCode x).finder = s.finder ∧ (s.setCode x).enc = s.enc ∧ (s.setCode x).dec = s.dec ∧
    (s.setCode x).freq = s.freq ∧ (s.setCode x).tree = s.tree ∧ (s.setCode x).code = x ∧ (s.setCode x).tbl = s.tbl ∧
    (s.setCode x).walker = s.walker ∧ (s.setCode x).bw = s.bw ∧ (s.setCode x).br = s.br ∧ (s.setCode x).env = s.env :=
  ⟨rfl, rfl, rfl, rfl, rfl, rfl, rfl, rfl, rfl, rfl, rfl, rfl, rfl, rfl, rfl, rfl, rfl, rfl⟩

@[simp] theorem State.setTbl_fields (s : State) (x : Nat) :
    (s.setTbl x).host = s.host ∧ (s.setTbl x).caps = s.caps ∧ (s.setTbl x).seq = s.seq ∧ (s.setTbl x).inp = s.inp ∧
    (s.setTbl x).tb = s.tb ∧ (s.setTbl x).out = s.out ∧ (s.setTbl x).win = s.win ∧ (s.setTbl x).finder = s.finder ∧
    (s.setTbl x).enc = s.enc ∧ (s.setTbl x).dec = s.dec ∧ (s.setTbl x).freq = s.freq ∧ (s.setTbl x).tree = s.tree ∧
    (s.setTbl x).code = s.code ∧ (s.setTbl x).tbl = x ∧ (s.setTbl x).walker = s.walker ∧ (s.setTbl x).bw = s.bw ∧
    (s.setTbl x).br = s.br ∧ (s.setTbl x).env = s.env :=
  ⟨rfl, rfl, rfl, rfl, rfl, rfl, rfl, rfl, rfl, rfl, rfl, rfl, rfl, rfl, rfl, rfl, rfl, rfl⟩

@[simp] theorem State.setWalker_fields (s : State) (x : Walker) :
    (s.setWalker x).host = s.host ∧ (s.setWalker x).caps = s.caps ∧ (s.setWalker x).seq = s.seq ∧
    (s.setWalker x).inp = s.inp ∧ (s.setWalker x).tb = s.tb ∧ (s.setWalker x).out = s.out ∧
    (s.setWalker x).win = s.win ∧ (s.setWalker x).finder = s.finder ∧ (s.setWalker x).enc = s.enc ∧
    (s.setWalker x).dec = s.dec ∧ (s.setWalker x).freq = s.freq ∧ (s.setWalker x).tree = s.tree ∧
    (s.setWalker x).code = s.code ∧ (s.setWalker x).tbl = s.tbl ∧ (s.setWalker x).walker = x ∧
    (s.setWalker x).bw = s.bw ∧ (s.setWalker x).br = s.br ∧ (s.setWalker x).env = s.env :=
  ⟨rfl, rfl, rfl, rfl, rfl, rfl, rfl, rfl, rfl, rfl, rfl, rfl, rfl, rfl, rfl, rfl, rfl, rfl⟩

@[simp] theorem State.setBw_fields (s : State) (x : BitWriter) :
    (s.setBw x).host = s.host ∧ (s.setBw x).caps = s.caps ∧ (s.setBw x).seq = s.seq ∧ (s.setBw x).inp = s.inp ∧
    (s.setBw x).tb = s.tb ∧ (s.setBw x).out = s.out ∧ (s.setBw x).win = s.win ∧ (s.setBw x).finder = s.finder ∧
    (s.setBw x).enc = s.enc ∧ (s.setBw x).dec = s.dec ∧ (s.setBw x).freq = s.freq ∧ (s.setBw x).tree = s.tree ∧
    (s.setBw x).code = s.code ∧ (s.setBw x).tbl = s.tbl ∧ (s.setBw x).walker = s.walker ∧ (s.setBw x).bw = x ∧
    (s.setBw x).br = s.br ∧ (s.setBw x).env = s.env :=
  ⟨rfl, rfl, rfl, rfl, rfl, rfl, rfl, rfl, rfl, rfl, rfl, rfl, rfl, rfl, rfl, rfl, rfl, rfl⟩

@[simp] theorem State.setBr_fields (s : State) (x : BitReader) :
    (s.setBr x).host = s.host ∧ (s.setBr x).caps = s.caps ∧ (s.setBr x).seq = s.seq ∧ (s.setBr x).inp = s.inp ∧
    (s.setBr x).tb = s.tb ∧ (s.setBr x).out = s.out ∧ (s.setBr x).win = s.win ∧ (s.setBr x).finder = s.finder ∧
    (s.setBr x).enc = s.enc ∧ (s.setBr x).dec = s.dec ∧ (s.setBr x).freq = s.freq ∧ (s.setBr x).tree = s.tree ∧
    (s.setBr x).code = s.code ∧ (s.setBr x).tbl = s.tbl ∧ (s.setBr x).walker = s.walker ∧ (s.setBr x).bw = s.bw ∧
    (s.setBr x).br = x ∧ (s.setBr x).env = s.env :=
  ⟨rfl, rfl, rfl, rfl, rfl, rfl, rfl, rfl, rfl, rfl, rfl, rfl, rfl, rfl, rfl, rfl, rfl, rfl⟩

@[simp] theorem State.setEnv_fields (s : State) (x : Environment) :
    (s.setEnv x).host = s.host ∧ (s.setEnv x).caps = s.caps ∧ (s.setEnv x).seq = s.seq ∧ (s.setEnv x).inp = s.inp ∧
    (s.setEnv x).tb = s.tb ∧ (s.setEnv x).out = s.out ∧ (s.setEnv x).win = s.win ∧ (s.setEnv x).finder = s.finder ∧
    (s.setEnv x).enc = s.enc ∧ (s.setEnv x).dec = s.dec ∧ (s.setEnv x).freq = s.freq ∧ (s.setEnv x).tree = s.tree ∧
    (s.setEnv x).code = s.code ∧ (s.setEnv x).tbl = s.tbl ∧ (s.setEnv x).walker = s.walker ∧ (s.setEnv x).bw = s.bw ∧
    (s.setEnv x).br = s.br ∧ (s.setEnv x).env = x :=
  ⟨rfl, rfl, rfl, rfl, rfl, rfl, rfl, rfl, rfl, rfl, rfl, rfl, rfl, rfl, rfl, rfl, rfl, rfl⟩

@[simp] theorem State.setHost_setHost (s : State) (x y : HostRegs) : (s.setHost x).setHost y = s.setHost y := rfl
@[simp] theorem State.setSeq_setSeq (s : State) (x y : Sequencer) : (s.setSeq x).setSeq y = s.setSeq y := rfl
@[simp] theorem State.setInp_setInp (s : State) (x y : Mem) : (s.setInp x).setInp y = s.setInp y := rfl
@[simp] theorem State.setTb_setTb (s : State) (x y : TokenBuffer) : (s.setTb x).setTb y = s.setTb y := rfl
@[simp] theorem State.setOut_setOut (s : State) (x y : OutBuffer) : (s.setOut x).setOut y = s.setOut y := rfl
@[simp] theorem State.setWin_setWin (s : State) (x y : Window) : (s.setWin x).setWin y = s.setWin y := rfl
@[simp] theorem State.setFinder_setFinder (s : State) (x y : MatchFinder) : (s.setFinder x).setFinder y = s.setFinder y := rfl
@[simp] theorem State.setEnc_setEnc (s : State) (x y : TokenEncoder) : (s.setEnc x).setEnc y = s.setEnc y := rfl
@[simp] theorem State.setDec_setDec (s : State) (x y : TokenDecoder) : (s.setDec x).setDec y = s.setDec y := rfl
@[simp] theorem State.setFreq_setFreq (s : State) (x y : Table Nat) : (s.setFreq x).setFreq y = s.setFreq y := rfl
@[simp] theorem State.setTree_setTree (s : State) (x y : TreeStore) : (s.setTree x).setTree y = s.setTree y := rfl
@[simp] theorem State.setCode_setCode (s : State) (x y : Table Bits) : (s.setCode x).setCode y = s.setCode y := rfl
@[simp] theorem State.setTbl_setTbl (s : State) (x y : Nat) : (s.setTbl x).setTbl y = s.setTbl y := rfl
@[simp] theorem State.setWalker_setWalker (s : State) (x y : Walker) : (s.setWalker x).setWalker y = s.setWalker y := rfl
@[simp] theorem State.setBw_setBw (s : State) (x y : BitWriter) : (s.setBw x).setBw y = s.setBw y := rfl
@[simp] theorem State.setBr_setBr (s : State) (x y : BitReader) : (s.setBr x).setBr y = s.setBr y := rfl
@[simp] theorem State.setEnv_setEnv (s : State) (x y : Environment) : (s.setEnv x).setEnv y = s.setEnv y := rfl

end Sys2Proof.Machine
end

