-- ==== Sys2Proof/Laws/Op.lean ====
section
/-! SUPPORT. How operations compose: what each primitive does to a state, what a sequence that ends without a stop did, and the
one induction-free rule by which a property that every part keeps is kept by the whole. -/

namespace Sys2Proof.Machine

variable {α β : Type}

/-- What an operation answered that did not stop. -/
def Op.Ends (x : Op α) (s : State) (a : α) (t : State) : Prop := x s = .ok a t

@[simp] theorem op_pure (a : α) (s : State) : (pure a : Op α) s = .ok a s := rfl

@[simp] theorem look_apply (f : State → α) (s : State) : look f s = .ok (f s) s := rfl

@[simp] theorem upd_apply (f : State → State) (s : State) : upd f s = .ok () (f s) := rfl

@[simp] theorem raise_apply (e : ErrKind) (s : State) : (raise e : Op α) s = .error (.err e) s := rfl

@[simp] theorem refuse_apply (r : Refusal) (s : State) : (refuse r : Op α) s = .error (.refuse r) s := rfl

theorem check_apply (c : Prop) [Decidable c] (e : ErrKind) (s : State) :
    check c e s = if c then .ok () s else .error (.err e) s := by
  unfold check; split <;> rfl

@[simp] theorem check_pos {c : Prop} [Decidable c] (h : c) (e : ErrKind) (s : State) : check c e s = .ok () s := by
  simp [check_apply, h]

@[simp] theorem check_neg {c : Prop} [Decidable c] (h : ¬ c) (e : ErrKind) (s : State) :
    check c e s = .error (.err e) s := by simp [check_apply, h]

theorem need_apply (c : Prop) [Decidable c] (op : String) (s : State) :
    need c op s = if c then .ok () s else .error (.refuse (.precondition op)) s := by
  unfold need; split <;> rfl

@[simp] theorem need_pos {c : Prop} [Decidable c] (h : c) (op : String) (s : State) : need c op s = .ok () s := by
  simp [need_apply, h]

@[simp] theorem need_neg {c : Prop} [Decidable c] (h : ¬ c) (op : String) (s : State) :
    need c op s = .error (.refuse (.precondition op)) s := by simp [need_apply, h]

/-- A sequence whose first part ends goes on with the second. -/
theorem bind_ok {x : Op α} {f : α → Op β} {s t : State} {a : α} (h : x s = .ok a t) : (x >>= f) s = f a t := by
  show EStateM.bind x f s = f a t
  simp [EStateM.bind, h]

/-- A sequence whose first part stops, stops there. -/
theorem bind_error {x : Op α} {f : α → Op β} {s t : State} {e : Stop} (h : x s = .error e t) :
    (x >>= f) s = .error e t := by
  show EStateM.bind x f s = .error e t
  simp [EStateM.bind, h]

/-- What a sequence that ended did: both parts ended. -/
theorem bind_eq_ok {x : Op α} {f : α → Op β} {s u : State} {b : β} :
    (x >>= f) s = .ok b u ↔ ∃ a t, x s = .ok a t ∧ f a t = .ok b u := by
  constructor
  · intro h
    cases hx : x s with
    | ok a t => exact ⟨a, t, rfl, by rwa [bind_ok hx] at h⟩
    | error e t => rw [bind_error hx] at h; cases h
  · rintro ⟨a, t, hx, hf⟩; rw [bind_ok hx, hf]

/-- What a sequence that stopped did: its first part stopped, or its second did. -/
theorem bind_eq_error {x : Op α} {f : α → Op β} {s u : State} {e : Stop} :
    (x >>= f) s = .error e u ↔ x s = .error e u ∨ ∃ a t, x s = .ok a t ∧ f a t = .error e u := by
  constructor
  · intro h
    cases hx : x s with
    | ok a t => exact .inr ⟨a, t, rfl, by rwa [bind_ok hx] at h⟩
    | error e' t => rw [bind_error hx] at h; cases h; exact .inl rfl
  · rintro (h | ⟨a, t, hx, hf⟩)
    · exact bind_error h
    · rw [bind_ok hx, hf]

@[simp] theorem look_bind (g : State → α) (f : α → Op β) (s : State) : (look g >>= f) s = f (g s) s := bind_ok rfl

@[simp] theorem upd_bind (g : State → State) (f : Unit → Op β) (s : State) : (upd g >>= f) s = f () (g s) := bind_ok rfl

@[simp] theorem pure_bind_apply (a : α) (f : α → Op β) (s : State) : ((pure a : Op α) >>= f) s = f a s := bind_ok rfl

@[simp] theorem raise_bind (e : ErrKind) (f : α → Op β) (s : State) :
    ((raise e : Op α) >>= f) s = .error (.err e) s := bind_error rfl

@[simp] theorem refuse_bind (r : Refusal) (f : α → Op β) (s : State) :
    ((refuse r : Op α) >>= f) s = .error (.refuse r) s := bind_error rfl

theorem check_bind (c : Prop) [Decidable c] (e : ErrKind) (f : Unit → Op β) (s : State) :
    (check c e >>= f) s = if c then f () s else .error (.err e) s := by
  split
  · next h => exact bind_ok (check_pos h e s)
  · next h => exact bind_error (check_neg h e s)

theorem need_bind (c : Prop) [Decidable c] (op : String) (f : Unit → Op β) (s : State) :
    (need c op >>= f) s = if c then f () s else .error (.refuse (.precondition op)) s := by
  split
  · next h => exact bind_ok (need_pos h op s)
  · next h => exact bind_error (need_neg h op s)

/-- From every state with `P`, `x` ends with a result and a state that satisfy `Q`, or stops for a reason and in a state that
satisfy `E`. -/
def Op.Triple (P : State → Prop) (x : Op α) (Q : α → State → Prop) (E : Stop → State → Prop) : Prop :=
  ∀ s, P s → match x s with
    | .ok a t => Q a t
    | .error e t => E e t

section Triple

variable {P : State → Prop} {E : Stop → State → Prop}

theorem Op.Triple.ok {x : Op α} {Q : α → State → Prop} (h : Op.Triple P x Q E) {s t : State} {a : α} (hp : P s)
    (hx : x s = .ok a t) : Q a t := by have := h s hp; rwa [hx] at this

theorem Op.Triple.error {x : Op α} {Q : α → State → Prop} (h : Op.Triple P x Q E) {s t : State} {e : Stop} (hp : P s)
    (hx : x s = .error e t) : E e t := by have := h s hp; rwa [hx] at this

theorem Op.Triple.imp {x : Op α} {P' : State → Prop} {Q Q' : α → State → Prop} {E' : Stop → State → Prop}
    (h : Op.Triple P x Q E) (hP : ∀ s, P' s → P s) (hQ : ∀ a t, Q a t → Q' a t) (hE : ∀ e t, E e t → E' e t) :
    Op.Triple P' x Q' E' := by
  intro s hp
  have := h s (hP s hp)
  cases hx : x s with
  | ok a t => rw [hx] at this; exact hQ a t this
  | error e t => rw [hx] at this; exact hE e t this

theorem Op.Triple.bind {x : Op α} {f : α → Op β} {R : α → State → Prop} {Q : β → State → Prop}
    (hx : Op.Triple P x R E) (hf : ∀ a, Op.Triple (R a) (f a) Q E) : Op.Triple P (x >>= f) Q E := by
  intro s hp
  have h := hx s hp
  cases hs : x s with
  | ok a t => rw [hs] at h; rw [bind_ok hs]; exact hf a t h
  | error e t => rw [hs] at h; rw [bind_error hs]; exact h

theorem Op.Triple.pure {Q : α → State → Prop} {a : α} (h : ∀ s, P s → Q a s) :
    Op.Triple P (pure a : Op α) Q E := fun s hp => h s hp

theorem Op.Triple.upd {f : State → State} {Q : Unit → State → Prop} (h : ∀ s, P s → Q () (f s)) :
    Op.Triple P (upd f) Q E := fun s hp => h s hp

/-- Reading the state and going on: what follows may use what was read. -/
theorem Op.Triple.looked {f : State → Op β} {Q : β → State → Prop}
    (h : ∀ v, P v → Op.Triple (fun s => s = v) (f v) Q E) : Op.Triple P (look id >>= f) Q E := by
  intro s hp; rw [look_bind]; exact h s hp s rfl

theorem Op.Triple.raise {e : ErrKind} {Q : α → State → Prop} (h : ∀ s, P s → E (.err e) s) :
    Op.Triple P (raise e : Op α) Q E := fun s hp => h s hp

theorem Op.Triple.refuse {r : Refusal} {Q : α → State → Prop} (h : ∀ s, P s → E (.refuse r) s) :
    Op.Triple P (refuse r : Op α) Q E := fun s hp => h s hp

theorem Op.Triple.check {c : Prop} [Decidable c] {e : ErrKind} {Q : Unit → State → Prop}
    (ht : ∀ s, P s → c → Q () s) (hf : ∀ s, P s → ¬ c → E (.err e) s) : Op.Triple P (check c e) Q E := by
  intro s hp
  by_cases h : c
  · rw [check_pos h]; exact ht s hp h
  · rw [check_neg h]; exact hf s hp h

theorem Op.Triple.need {c : Prop} [Decidable c] {op : String} {Q : Unit → State → Prop}
    (ht : ∀ s, P s → c → Q () s) (hf : ∀ s, P s → ¬ c → E (.refuse (.precondition op)) s) :
    Op.Triple P (need c op) Q E := by
  intro s hp
  by_cases h : c
  · rw [need_pos h]; exact ht s hp h
  · rw [need_neg h]; exact hf s hp h

theorem Op.Triple.ite {c : Prop} [Decidable c] {x y : Op α} {Q : α → State → Prop} (hx : c → Op.Triple P x Q E)
    (hy : ¬ c → Op.Triple P y Q E) : Op.Triple P (if c then x else y) Q E := by
  split
  · next h => exact hx h
  · next h => exact hy h

end Triple

/-- What `runOp` answers with a next state: the operation ended there, or its error was taken there. -/
theorem runOp_eq_next {x : Op Unit} {s t : State} :
    runOp x s = .next t ↔ x s = .ok () t ∨ ∃ e u, x s = .error (.err e) u ∧ t = u.takeError e := by
  unfold runOp
  cases hx : x s with
  | ok a u => cases a; simp
  | error st u =>
    cases st with
    | err e => simp [eq_comm]
    | refuse r => simp

/-- What `runRes` answers with a next state. -/
theorem runRes_eq_next {x : Op α} {f : α → OpResult} {s t : State} :
    runRes x f s = .next t ↔
      (∃ a u, x s = .ok a u ∧ t = u.withResult (f a)) ∨ ∃ e u, x s = .error (.err e) u ∧ t = u.takeError e := by
  unfold runRes
  cases hx : x s with
  | ok a u => simp [eq_comm]
  | error st u =>
    cases st with
    | err e => simp [eq_comm]
    | refuse r => simp

theorem runOp_of_ok {x : Op Unit} {s t : State} {a : Unit} (h : x s = .ok a t) : runOp x s = .next t := by simp [runOp, h]

theorem runOp_of_err {x : Op Unit} {s t : State} {e : ErrKind} (h : x s = .error (.err e) t) :
    runOp x s = .next (t.takeError e) := by simp [runOp, h]

theorem runRes_of_ok {x : Op α} {f : α → OpResult} {s t : State} {a : α} (h : x s = .ok a t) :
    runRes x f s = .next (t.withResult (f a)) := by simp [runRes, h]

theorem runRes_of_err {x : Op α} {f : α → OpResult} {s t : State} {e : ErrKind} (h : x s = .error (.err e) t) :
    runRes x f s = .next (t.takeError e) := by simp [runRes, h]

end Sys2Proof.Machine
end

