-- ==== Sys2Proof/Laws/Ops.lean ====
section
/-! SUPPORT. One lemma per shared operation that says all it can do: where it ends and in which state, and where it stops. -/

namespace Sys2Proof.Machine

-- Bytes -----------------------------------------------------------------------------------------------------------------

theorem outAppend_apply (v : Byte) (s : State) :
    outAppend v s =
      if s.out.ptr < s.caps.outCap then
        .ok () (s.setOut { mem := tableSet s.out.mem s.out.ptr v, ptr := s.out.ptr + 1 })
      else .error (.err .capacityExceeded) s := by
  simp only [outAppend, look_bind, check_bind, id_eq]; rfl

theorem tbAppend_apply (v : Byte) (s : State) :
    tbAppend v s =
      if s.tb.len < s.tCap then .ok () (s.setTb { mem := tableSet s.tb.mem s.tb.len v, len := s.tb.len + 1 })
      else .error (.err .capacityExceeded) s := by
  simp only [tbAppend, look_bind, check_bind, id_eq]; rfl

-- The window ------------------------------------------------------------------------------------------------------------

@[simp] theorem winInit_apply (s : State) : winInit s = .ok () (s.setWin { s.win with pos := 0, fill := 0 }) := rfl

@[simp] theorem winPut_apply (b : Byte) (s : State) : winPut b s = .ok () (s.setWin (windowPut s.win b)) := rfl

theorem winGet_apply (d : Nat) (s : State) :
    winGet d s = if 1 ≤ d ∧ d ≤ s.win.fill then .ok (s.winBack d) s
      else .error (.refuse (.precondition "WIN_GET")) s := by
  simp only [winGet, look_bind, need_bind, id_eq]; rfl

-- The bit writer --------------------------------------------------------------------------------------------------------

@[simp] theorem bwInit_apply (s : State) : bwInit s = .ok () (s.setBw { acc := 0, cnt := 0 }) := rfl

theorem bwFlushByte_apply (s : State) :
    bwFlushByte s =
      if s.out.ptr < s.caps.outCap then
        .ok () ((s.setOut { mem := tableSet s.out.mem s.out.ptr s.bw.acc, ptr := s.out.ptr + 1 }).setBw
          { acc := 0, cnt := 0 })
      else .error (.err .capacityExceeded) s := by
  simp only [bwFlushByte, look_bind, id_eq]
  split
  · next h => rw [bind_ok (by rw [outAppend_apply, if_pos h])]; rfl
  · next h => rw [bind_error (by rw [outAppend_apply, if_neg h])]

theorem bwPutBit_apply (b : Bool) (s : State) :
    bwPutBit b s =
      if s.bw.cnt = 7 then
        if s.out.ptr < s.caps.outCap then
          .ok () ((s.setOut { mem := tableSet s.out.mem s.out.ptr (bitInto s.bw.acc s.bw.cnt b)
                              ptr := s.out.ptr + 1 }).setBw { acc := 0, cnt := 0 })
        else .error (.err .capacityExceeded) (s.setBw { s.bw with acc := bitInto s.bw.acc s.bw.cnt b })
      else .ok () (s.setBw { acc := bitInto s.bw.acc s.bw.cnt b, cnt := s.bw.cnt + 1 }) := by
  simp only [bwPutBit, upd_bind, look_bind, id_eq, State.setBw_fields]
  split
  · rw [bwFlushByte_apply]; rfl
  · rfl

@[simp] theorem bwPutAll_nil (s : State) : bwPutAll [] s = .ok () s := rfl

theorem bwPutAll_cons (b : Bool) (bs : Bits) (s : State) :
    bwPutAll (b :: bs) s = (bwPutBit b >>= fun _ => bwPutAll bs) s := rfl

theorem bwPutAll_append (xs ys : Bits) (s : State) :
    bwPutAll (xs ++ ys) s = (bwPutAll xs >>= fun _ => bwPutAll ys) s := by
  induction xs generalizing s with
  | nil => rfl
  | cons x xs ih =>
    rw [List.cons_append, bwPutAll_cons]
    cases hx : bwPutBit x s with
    | ok a t =>
      rw [bind_ok hx, ih]
      cases hxs : bwPutAll xs t with
      | ok a' u => rw [bind_ok hxs, bind_ok (by rw [bwPutAll_cons, bind_ok hx, hxs])]
      | error e u => rw [bind_error hxs, bind_error (by rw [bwPutAll_cons, bind_ok hx, hxs])]
    | error e t => rw [bind_error hx, bind_error (by rw [bwPutAll_cons, bind_error hx])]

theorem bwAlign_apply (s : State) : bwAlign s = if s.bw.cnt ≠ 0 then bwFlushByte s else .ok () s := by
  simp only [bwAlign, look_bind, id_eq]; split <;> rfl

-- The bit reader --------------------------------------------------------------------------------------------------------

theorem brInit_apply (start limit : Nat) (err : ErrKind) (s : State) :
    brInit start limit err s =
      if start ≤ limit ∧ limit ≤ 8 * s.host.inLen then .ok () (s.setBr { pos := start, limit := limit, err := err })
      else .error (.refuse (.precondition "BR_INIT")) s := by
  simp only [brInit, look_bind, need_bind, id_eq]; rfl

theorem brGetBit_apply (s : State) :
    brGetBit s =
      if s.br.pos < s.br.limit then .ok (s.inBit s.br.pos) (s.setBr { s.br with pos := s.br.pos + 1 })
      else .error (.err s.br.err) s := by
  simp only [brGetBit, look_bind, id_eq, ge_iff_le]
  split
  · rw [if_neg (by omega)]; rfl
  · rw [if_pos (by omega)]; rfl

@[simp] theorem inBits_length (s : State) (q n : Nat) : (s.inBits q n).length = n := by
  induction n generalizing q with
  | zero => rfl
  | succ n ih => simp [State.inBits, ih]

/-- The bits of `IN` do not depend on the reader. -/
@[simp] theorem inBit_setBr (s : State) (x : BitReader) (q : Nat) : (s.setBr x).inBit q = s.inBit q := rfl

@[simp] theorem inBits_setBr (s : State) (x : BitReader) (q n : Nat) : (s.setBr x).inBits q n = s.inBits q n := by
  induction n generalizing q with
  | zero => rfl
  | succ n ih => simp [State.inBits, ih]

theorem brGetBitsFrom_ok (n v : Nat) (s : State) (h : s.br.pos + n ≤ s.br.limit) :
    brGetBitsFrom n v s = .ok (bitsNatFrom v (s.inBits s.br.pos n)) (s.setBr { s.br with pos := s.br.pos + n }) := by
  induction n generalizing v s with
  | zero => rfl
  | succ n ih =>
    have hb : brGetBit s = .ok (s.inBit s.br.pos) (s.setBr { s.br with pos := s.br.pos + 1 }) := by
      rw [brGetBit_apply, if_pos (by omega)]
    show (brGetBit >>= fun b => brGetBitsFrom n (2 * v + b.toNat)) s = _
    rw [bind_ok hb, ih]
    · simp [State.inBits, bitsNatFrom, Nat.add_assoc, Nat.add_comm 1 n]
    · simp; omega

theorem brGetBitsFrom_end (n v : Nat) (s : State) (h : s.br.limit < s.br.pos + n) (hp : s.br.pos ≤ s.br.limit) :
    brGetBitsFrom n v s = .error (.err s.br.err) (s.setBr { s.br with pos := s.br.limit }) := by
  induction n generalizing v s with
  | zero => omega
  | succ n ih =>
    show (brGetBit >>= fun b => brGetBitsFrom n (2 * v + b.toNat)) s = _
    by_cases hlt : s.br.pos < s.br.limit
    · have hb : brGetBit s = .ok (s.inBit s.br.pos) (s.setBr { s.br with pos := s.br.pos + 1 }) := by
        rw [brGetBit_apply, if_pos hlt]
      rw [bind_ok hb, ih]
      · simp
      · simp; omega
      · simp; omega
    · have hb : brGetBit s = .error (.err s.br.err) s := by rw [brGetBit_apply, if_neg hlt]
      rw [bind_error hb]
      have : s.br.pos = s.br.limit := by omega
      rw [← this]; rfl

theorem brSkip_apply (n : Nat) (s : State) (h : s.br.pos + n ≤ s.br.limit) :
    brSkip n s = .ok () (s.setBr { s.br with pos := s.br.pos + n }) := by
  induction n generalizing s with
  | zero => rfl
  | succ n ih =>
    have hb : brGetBit s = .ok (s.inBit s.br.pos) (s.setBr { s.br with pos := s.br.pos + 1 }) := by
      rw [brGetBit_apply, if_pos (by omega)]
    show (brGetBit >>= fun _ => brSkip n) s = _
    rw [bind_ok hb, ih]
    · simp [Nat.add_assoc, Nat.add_comm 1 n]
    · simp; omega

-- Errors and ends -------------------------------------------------------------------------------------------------------

@[simp] theorem takeError_fields (s : State) (e : ErrKind) :
    (s.takeError e).host = { status := 0x06, errcode := errCode e, inLen := s.host.inLen, outLen := 0 } ∧
    (s.takeError e).seq = { phase := .idle, line := .start } ∧ (s.takeError e).caps = s.caps ∧
    (s.takeError e).inp = s.inp ∧ (s.takeError e).tb = s.tb ∧ (s.takeError e).out = s.out ∧
    (s.takeError e).win = s.win ∧ (s.takeError e).finder = s.finder ∧ (s.takeError e).enc = s.enc ∧
    (s.takeError e).dec = s.dec ∧ (s.takeError e).freq = s.freq ∧ (s.takeError e).tree = s.tree ∧
    (s.takeError e).code = s.code ∧ (s.takeError e).tbl = s.tbl ∧ (s.takeError e).walker = s.walker ∧
    (s.takeError e).bw = s.bw ∧ (s.takeError e).br = s.br ∧ (s.takeError e).env = s.env :=
  ⟨rfl, rfl, rfl, rfl, rfl, rfl, rfl, rfl, rfl, rfl, rfl, rfl, rfl, rfl, rfl, rfl, rfl, rfl⟩

@[simp] theorem endOk_fields (s : State) :
    s.endOk.host = { status := 0x02, errcode := 0, inLen := s.host.inLen, outLen := s.out.ptr } ∧
    s.endOk.seq = { phase := .idle, line := .start } ∧ s.endOk.caps = s.caps ∧ s.endOk.inp = s.inp ∧
    s.endOk.tb = s.tb ∧ s.endOk.out = s.out ∧ s.endOk.win = s.win ∧ s.endOk.finder = s.finder ∧ s.endOk.enc = s.enc ∧
    s.endOk.dec = s.dec ∧ s.endOk.freq = s.freq ∧ s.endOk.tree = s.tree ∧ s.endOk.code = s.code ∧
    s.endOk.tbl = s.tbl ∧ s.endOk.walker = s.walker ∧ s.endOk.bw = s.bw ∧ s.endOk.br = s.br ∧ s.endOk.env = s.env :=
  ⟨rfl, rfl, rfl, rfl, rfl, rfl, rfl, rfl, rfl, rfl, rfl, rfl, rfl, rfl, rfl, rfl, rfl, rfl⟩

@[simp] theorem accept_fields (s : State) :
    s.accept.host = { status := 0x01, errcode := 0, inLen := s.host.inLen, outLen := 0 } ∧
    s.accept.env = { s.env with calls := s.env.calls + 1 } ∧ s.accept.seq = s.seq ∧ s.accept.caps = s.caps ∧
    s.accept.inp = s.inp ∧ s.accept.tb = s.tb ∧ s.accept.out = s.out ∧ s.accept.win = s.win ∧
    s.accept.finder = s.finder ∧ s.accept.enc = s.enc ∧ s.accept.dec = s.dec ∧ s.accept.freq = s.freq ∧
    s.accept.tree = s.tree ∧ s.accept.code = s.code ∧ s.accept.tbl = s.tbl ∧ s.accept.walker = s.walker ∧
    s.accept.bw = s.bw ∧ s.accept.br = s.br :=
  ⟨rfl, rfl, rfl, rfl, rfl, rfl, rfl, rfl, rfl, rfl, rfl, rfl, rfl, rfl, rfl, rfl, rfl, rfl⟩

end Sys2Proof.Machine
end

