-- ==== Sys2Proof/Laws/Codec.lean ====
section
/-! SUPPORT. What the operations of the window replay and of the token codec can do: one lemma per operation, and for each loop
the state it ends in and where it stops. -/

namespace Sys2Proof.Machine

-- Window ----------------------------------------------------------------------------------------------------------------

@[simp] theorem windowPut_pos (w : Window) (b : Byte) : (windowPut w b).pos = (w.pos + 1) % 4096 := rfl

@[simp] theorem windowPut_fill (w : Window) (b : Byte) : (windowPut w b).fill = min (w.fill + 1) 4096 := rfl

@[simp] theorem windowPut_mem (w : Window) (b : Byte) : (windowPut w b).mem = tableSet w.mem w.pos b := rfl

theorem mfSearch_apply (s : State) : mfSearch s =
    .ok () (s.setFinder { s.finder with bestLen := s.bestMatch.1, bestOff := s.bestMatch.2 }) := rfl

/-- The window after `n` input bytes from `CUR + k` on. -/
def State.winInput (s : State) (w : Window) : Nat → Nat → Window
  | _, 0 => w
  | k, n + 1 => s.winInput (windowPut w (s.inByte (s.finder.cur + k))) (k + 1) n

@[simp] theorem State.winInput_setWin (s : State) (x w : Window) (k n : Nat) :
    (s.setWin x).winInput w k n = s.winInput w k n := by
  induction n generalizing w k with
  | zero => rfl
  | succ n ih => simp only [State.winInput, ih]; rfl

theorem appendInput_apply (k n : Nat) (s : State) :
    appendInput k n s = .ok () (s.setWin (s.winInput s.win k n)) := by
  induction n generalizing k s with
  | zero => rfl
  | succ n ih =>
    simp only [appendInput, look_bind, id_eq]
    rw [bind_ok (winPut_apply _ _), ih]
    simp [State.winInput]

theorem replayLiteral_apply (b : Byte) (s : State) : replayLiteral b s =
    if s.out.ptr < s.caps.outCap then
      .ok () ((s.setOut { mem := tableSet s.out.mem s.out.ptr b, ptr := s.out.ptr + 1 }).setWin (windowPut s.win b))
    else .error (.err .capacityExceeded) s := by
  unfold replayLiteral; split
  · next h => rw [bind_ok (by rw [outAppend_apply, if_pos h])]; rfl
  · next h => rw [bind_error (by rw [outAppend_apply, if_neg h])]

theorem winEmit_apply (b : Byte) (s : State) : winEmit b s =
    if s.out.ptr < s.caps.outCap then
      .ok () ((s.setWin (windowPut s.win b)).setOut { mem := tableSet s.out.mem s.out.ptr b, ptr := s.out.ptr + 1 })
    else .error (.err .capacityExceeded) (s.setWin (windowPut s.win b)) := by
  unfold winEmit; rw [bind_ok (winPut_apply _ _), outAppend_apply]; rfl

/-- One round of the copy loop. -/
theorem replayLoop_succ (offset n : Nat) (s : State) (h1 : 1 ≤ offset) (hf : offset ≤ s.win.fill) :
    replayLoop offset (n + 1) s =
      if s.out.ptr < s.caps.outCap then
        replayLoop offset n ((s.setOut { mem := tableSet s.out.mem s.out.ptr (s.winBack offset)
                                         ptr := s.out.ptr + 1 }).setWin (windowPut s.win (s.winBack offset)))
      else .error (.err .capacityExceeded) s := by
  simp only [replayLoop]
  rw [bind_ok (by rw [winGet_apply, if_pos ⟨h1, hf⟩])]
  split
  · next h => rw [bind_ok (by rw [outAppend_apply, if_pos h]), bind_ok (winPut_apply _ _)]; rfl
  · next h => rw [bind_error (by rw [outAppend_apply, if_neg h])]

/-- The copy loop with room for its bytes. -/
theorem replayLoop_ok (offset n : Nat) (s : State) (h1 : 1 ≤ offset) (hf : offset ≤ s.win.fill) (hw : s.win.fill ≤ 4096)
    (hc : s.out.ptr + n ≤ s.caps.outCap) :
    ∃ t, replayLoop offset n s = .ok () t ∧ t = (s.setOut t.out).setWin t.win ∧ t.out.ptr = s.out.ptr + n ∧
      s.win.fill ≤ t.win.fill ∧ ∀ a, a < s.out.ptr ∨ t.out.ptr ≤ a → t.outByte a = s.outByte a := by
  induction n generalizing s with
  | zero => exact ⟨s, rfl, rfl, rfl, Nat.le_refl _, fun _ _ => rfl⟩
  | succ n ih =>
    rw [replayLoop_succ _ _ _ h1 hf, if_pos (by omega)]
    obtain ⟨t, ht, hs, hp, hfill, hb⟩ := ih ((s.setOut { mem := tableSet s.out.mem s.out.ptr (s.winBack offset)
                                                         ptr := s.out.ptr + 1 }).setWin
      (windowPut s.win (s.winBack offset))) (by simp; omega) (by simp) (by simp; omega)
    simp only [State.setWin_fields, State.setOut_fields, windowPut_fill] at hp hfill hb
    refine ⟨t, ht, hs, by omega, by omega, fun a ha => ?_⟩
    rw [hb a (by omega)]
    exact readByte_tableSet_of_ne _ _ _ _ (by omega)

/-- The copy loop without room for its bytes. -/
theorem replayLoop_full (offset n : Nat) (s : State) (h1 : 1 ≤ offset) (hf : offset ≤ s.win.fill)
    (hw : s.win.fill ≤ 4096) (hn : 0 < n) (hc : s.caps.outCap < s.out.ptr + n) :
    ∃ t, replayLoop offset n s = .error (.err .capacityExceeded) t ∧ t = (s.setOut t.out).setWin t.win ∧
      ∀ a, a < s.out.ptr ∨ s.caps.outCap ≤ a → t.outByte a = s.outByte a := by
  induction n generalizing s with
  | zero => omega
  | succ n ih =>
    rw [replayLoop_succ _ _ _ h1 hf]
    by_cases h : s.out.ptr < s.caps.outCap
    · rw [if_pos h]
      obtain ⟨t, ht, hs, hb⟩ := ih ((s.setOut { mem := tableSet s.out.mem s.out.ptr (s.winBack offset)
                                                ptr := s.out.ptr + 1 }).setWin
        (windowPut s.win (s.winBack offset))) (by simp; omega) (by simp) (by omega) (by simp; omega)
      simp only [State.setWin_fields, State.setOut_fields] at hb
      refine ⟨t, ht, hs, fun a ha => ?_⟩
      rw [hb a (by omega)]
      exact readByte_tableSet_of_ne _ _ _ _ (by omega)
    · rw [if_neg h]; exact ⟨s, rfl, rfl, fun _ _ => rfl⟩

theorem replayMatch_apply (offset length : Nat) (s : State) : replayMatch offset length s =
    if 1 ≤ offset ∧ offset ≤ s.win.fill then replayLoop offset length s
    else .error (.refuse (.precondition "REPLAY_MATCH")) s := by
  simp only [replayMatch, look_bind, need_bind, id_eq]

-- Token encoder ---------------------------------------------------------------------------------------------------------

@[simp] theorem staged_stage (e : TokenEncoder) (b : Byte) (i : Nat) :
    (e.stage b).staged i = if i = e.gplen then b else e.staged i := by
  by_cases h : i = e.gplen <;> simp [TokenEncoder.staged, TokenEncoder.stage, tableGet_tableSet, h]

/-- The staged bytes with room for them. -/
theorem appendStaged_ok (i n : Nat) (s : State) (hc : s.tb.len + n ≤ s.tCap) :
    ∃ m, appendStaged i n s = .ok () (s.setTb { mem := m, len := s.tb.len + n }) ∧
      (∀ j, j < n → readByte s.env.epoch .tb m (s.tb.len + j) = s.enc.staged (i + j)) ∧
      ∀ a, a < s.tb.len ∨ s.tb.len + n ≤ a → readByte s.env.epoch .tb m a = s.tbByte a := by
  induction n generalizing i s with
  | zero => exact ⟨s.tb.mem, rfl, fun _ h => absurd h (Nat.not_lt_zero _), fun _ _ => rfl⟩
  | succ n ih =>
    simp only [appendStaged, look_bind, id_eq]
    rw [bind_ok (by rw [tbAppend_apply, if_pos (by omega)])]
    obtain ⟨m, hm, hj, ha⟩ := ih (i + 1)
      (s.setTb { mem := tableSet s.tb.mem s.tb.len (s.enc.staged i), len := s.tb.len + 1 })
      (by show s.tb.len + 1 + n ≤ s.tCap; omega)
    simp only [State.setTb_fields] at hm hj ha
    refine ⟨m, by rw [hm]; simp only [Nat.add_assoc, Nat.add_comm 1 n]; rfl, fun j hjn => ?_, fun a ha' => ?_⟩
    · cases j with
      | zero =>
        rw [Nat.add_zero, ha _ (by omega)]
        exact readByte_tableSet_self _ _ _ _ _
      | succ j => have := hj j (by omega); rw [show s.tb.len + (j + 1) = s.tb.len + 1 + j by omega,
          show i + (j + 1) = i + 1 + j by omega]; exact this
    · rw [ha a (by omega)]; exact readByte_tableSet_of_ne _ _ _ _ (by omega)

/-- The staged bytes without room for them. -/
theorem appendStaged_full (i n : Nat) (s : State) (hn : 0 < n) (hc : s.tCap < s.tb.len + n) :
    ∃ t, appendStaged i n s = .error (.err .capacityExceeded) t ∧ t = s.setTb t.tb ∧
      ∀ a, a < s.tb.len ∨ s.tCap ≤ a → t.tbByte a = s.tbByte a := by
  induction n generalizing i s with
  | zero => omega
  | succ n ih =>
    simp only [appendStaged, look_bind, id_eq]
    by_cases h : s.tb.len < s.tCap
    · rw [bind_ok (by rw [tbAppend_apply, if_pos h])]
      have hcap : (s.setTb { mem := tableSet s.tb.mem s.tb.len (s.enc.staged i), len := s.tb.len + 1 }).tCap = s.tCap :=
        rfl
      obtain ⟨t, ht, hs, ha⟩ := ih (i + 1)
        (s.setTb { mem := tableSet s.tb.mem s.tb.len (s.enc.staged i), len := s.tb.len + 1 }) (by omega)
        (by rw [hcap]; simp; omega)
      rw [hcap] at ha
      simp only [State.setTb_fields] at ha
      refine ⟨t, ht, hs, fun a ha' => ?_⟩
      rw [ha a (by omega)]; exact readByte_tableSet_of_ne _ _ _ _ (by omega)
    · rw [bind_error (by rw [tbAppend_apply, if_neg h])]; exact ⟨s, rfl, rfl, fun _ _ => rfl⟩

theorem teFlush_empty (s : State) (h : s.enc.gc = 0) : teFlush s = .ok () s := by
  simp [teFlush, h]

/-- `TE_FLUSH` with room for the group. -/
theorem teFlush_ok (s : State) (h : 0 < s.enc.gc) (hc : s.tb.len + 1 + s.enc.gplen ≤ s.tCap) :
    ∃ m, teFlush s = .ok () ((s.setTb { mem := m, len := s.tb.len + 1 + s.enc.gplen }).setEnc
        { s.enc with flg := 0, gc := 0, gplen := 0 }) ∧
      readByte s.env.epoch .tb m s.tb.len = s.enc.flg ∧
      (∀ j, j < s.enc.gplen → readByte s.env.epoch .tb m (s.tb.len + 1 + j) = s.enc.staged j) ∧
      ∀ a, a < s.tb.len ∨ s.tb.len + 1 + s.enc.gplen ≤ a → readByte s.env.epoch .tb m a = s.tbByte a := by
  simp only [teFlush, look_bind, id_eq, gt_iff_lt, if_pos h]
  rw [bind_ok (by rw [tbAppend_apply, if_pos (by omega)])]
  obtain ⟨m, hm, hj, ha⟩ := appendStaged_ok 0 s.enc.gplen
    (s.setTb { mem := tableSet s.tb.mem s.tb.len s.enc.flg, len := s.tb.len + 1 }) hc
  simp only [State.setTb_fields, Nat.zero_add] at hm hj ha
  refine ⟨m, by rw [bind_ok hm]; rfl, ?_, hj, fun a ha' => ?_⟩
  · rw [ha _ (by omega)]; exact readByte_tableSet_self _ _ _ _ _
  · rw [ha a (by omega)]; exact readByte_tableSet_of_ne _ _ _ _ (by omega)

/-- `TE_FLUSH` without room for the group. -/
theorem teFlush_full (s : State) (h : 0 < s.enc.gc) (hc : s.tCap < s.tb.len + 1 + s.enc.gplen) :
    ∃ t, teFlush s = .error (.err .capacityExceeded) t ∧ t = s.setTb t.tb ∧
      ∀ a, a < s.tb.len ∨ s.tCap ≤ a → t.tbByte a = s.tbByte a := by
  simp only [teFlush, look_bind, id_eq, gt_iff_lt, if_pos h]
  by_cases hl : s.tb.len < s.tCap
  · rw [bind_ok (by rw [tbAppend_apply, if_pos hl])]
    obtain ⟨t, ht, hs, ha⟩ := appendStaged_full 0 s.enc.gplen
      (s.setTb { mem := tableSet s.tb.mem s.tb.len s.enc.flg, len := s.tb.len + 1 }) (by omega) hc
    refine ⟨t, bind_error ht, hs, fun a ha' => ?_⟩
    rw [ha a (by simp only [State.setTb_fields]; exact ha'.imp (by omega) id)]
    exact readByte_tableSet_of_ne _ _ _ _ (by omega)
  · rw [bind_error (by rw [tbAppend_apply, if_neg hl])]; exact ⟨s, rfl, rfl, fun _ _ => rfl⟩

theorem teCount_apply (s : State) : teCount s =
    if s.enc.gc = 7 then teFlush (s.setEnc { s.enc with gc := s.enc.gc + 1 })
    else .ok () (s.setEnc { s.enc with gc := s.enc.gc + 1 }) := by
  simp only [teCount, upd_bind, look_bind, id_eq, State.setEnc_fields]
  have hg : (s.enc.gc + 1 = Config.groupSize) ↔ s.enc.gc = 7 := by show s.enc.gc + 1 = 8 ↔ _; omega
  split <;> split <;> first | rfl | (exfalso; omega)

-- Token decoder ---------------------------------------------------------------------------------------------------------

theorem acceptFlag_apply (v : Byte) (s : State) : acceptFlag v s =
    if s.dec.tp + 1 ≠ s.tb.len then .ok () (s.setDec { tp := s.dec.tp + 1, dflg := v })
    else .error (.err .invalidToken) (s.setDec { tp := s.dec.tp + 1, dflg := v }) := by
  simp only [acceptFlag, upd_bind, look_bind, id_eq, check_apply]; rfl

theorem tdFlag_apply (s : State) : tdFlag s =
    if s.dec.tp < s.tb.len then acceptFlag (s.tbByte s.dec.tp) s
    else .error (.refuse (.precondition "TD_FLAG")) s := by
  simp only [tdFlag, look_bind, need_bind, id_eq]

theorem acceptLiteral_apply (b : Byte) (s : State) :
    acceptLiteral b s = replayLiteral b (s.setDec { s.dec with tp := s.dec.tp + 1 }) := by
  simp only [acceptLiteral, advanceTp, upd_bind]

theorem tdLiteral_apply (s : State) : tdLiteral s =
    if s.dec.tp < s.tb.len then acceptLiteral (s.tbByte s.dec.tp) s
    else .error (.refuse (.precondition "TD_LITERAL")) s := by
  simp only [tdLiteral, look_bind, need_bind, id_eq]

theorem acceptMatch_apply (o : BitVec 12) (l : BitVec 4) (s : State) : acceptMatch o l s =
    if fieldOffset o ≤ s.win.fill then
      replayMatch (fieldOffset o) (fieldLength l) (s.setDec { s.dec with tp := s.dec.tp + 2 })
    else .error (.err .invalidToken) (s.setDec { s.dec with tp := s.dec.tp + 2 }) := by
  simp only [acceptMatch, advanceTp, upd_bind, look_bind, check_bind, id_eq]; rfl

theorem tdMatch_apply (s : State) : tdMatch s =
    if s.dec.tp < s.tb.len then
      if 2 ≤ s.tb.len - s.dec.tp then
        acceptMatch (bytesOffsetField (s.tbByte s.dec.tp) (s.tbByte (s.dec.tp + 1)))
          (byteLengthField (s.tbByte (s.dec.tp + 1))) s
      else .error (.err .invalidToken) s
    else .error (.refuse (.precondition "TD_MATCH")) s := by
  simp only [tdMatch, look_bind, need_bind, check_bind, id_eq]

end Sys2Proof.Machine
end

