-- ==== Sys2Proof/Laws/Keeps.lean ====
section
/-! SUPPORT. What every operation keeps: a property of the state that is closed under the ways in which the operations write
the datapath (`Closed`) holds after each of them, whether it ends or stops. -/

namespace Sys2Proof.Machine

variable {α β : Type} {P : State → Prop}

/-- `x` keeps `P`, however it ends. -/
def Op.Keeps (P : State → Prop) (x : Op α) : Prop := Op.Triple P x (fun _ => P) (fun _ => P)

/-- `P` is closed under the writes of the datapath: memories and tables are written entry by entry, the tables of the Huffman
coder as wholes in canonical form, every other register to any value. -/
structure Closed (P : State → Prop) : Prop where
  out : ∀ s a v n, P s → P (s.setOut { mem := tableSet s.out.mem a v, ptr := n })
  outPtr : ∀ s n, P s → P (s.setOut { s.out with ptr := n })
  tb : ∀ s a v n, P s → P (s.setTb { mem := tableSet s.tb.mem a v, len := n })
  tbLen : ∀ s n, P s → P (s.setTb { s.tb with len := n })
  win : ∀ s a v p f, P s → P (s.setWin { mem := tableSet s.win.mem a v, pos := p, fill := f })
  winInit : ∀ s p f, P s → P (s.setWin { s.win with pos := p, fill := f })
  finder : ∀ s x, P s → P (s.setFinder x)
  enc : ∀ s x, (Memory.wf s.enc.gp = true → Memory.wf x.gp = true) → P s → P (s.setEnc x)
  dec : ∀ s x, P s → P (s.setDec x)
  freq : ∀ s x, Memory.wf x = true → P s → P (s.setFreq x)
  tree : ∀ s x, (Memory.wf s.tree.node = true → Memory.wf x.node = true) → P s → P (s.setTree x)
  code : ∀ s x, Memory.wf x = true → P s → P (s.setCode x)
  tbl : ∀ s x, P s → P (s.setTbl x)
  walker : ∀ s x, P s → P (s.setWalker x)
  bw : ∀ s x, P s → P (s.setBw x)
  br : ∀ s x, P s → P (s.setBr x)

namespace Op.Keeps

theorem bind {x : Op α} {f : α → Op β} (hx : Op.Keeps P x) (hf : ∀ a, Op.Keeps P (f a)) : Op.Keeps P (x >>= f) :=
  Op.Triple.bind hx hf

theorem pure (a : α) : Op.Keeps P (pure a : Op α) := Op.Triple.pure fun _ h => h

theorem upd {f : State → State} (h : ∀ s, P s → P (f s)) : Op.Keeps P (upd f) := Op.Triple.upd h

theorem look (f : State → α) : Op.Keeps P (look f) := fun _ hp => hp

theorem raise (e : ErrKind) : Op.Keeps P (raise e : Op α) := Op.Triple.raise fun _ h => h

theorem refuse (r : Refusal) : Op.Keeps P (refuse r : Op α) := Op.Triple.refuse fun _ h => h

theorem check (c : Prop) [Decidable c] (e : ErrKind) : Op.Keeps P (check c e) :=
  Op.Triple.check (fun _ h _ => h) fun _ h _ => h

theorem need (c : Prop) [Decidable c] (op : String) : Op.Keeps P (need c op) :=
  Op.Triple.need (fun _ h _ => h) fun _ h _ => h

theorem ite {c : Prop} [Decidable c] {x y : Op α} (hx : Op.Keeps P x) (hy : Op.Keeps P y) :
    Op.Keeps P (if c then x else y) := Op.Triple.ite (fun _ => hx) fun _ => hy

end Op.Keeps

namespace Closed

variable (C : Closed P)
include C

-- Shared operations -----------------------------------------------------------------------------------------------------

theorem outAppend (v : Byte) : Op.Keeps P (outAppend v) :=
  .bind (.look _) fun _ => .bind (.check _ _) fun _ => .upd fun s h => C.out s _ _ _ h

theorem tbAppend (v : Byte) : Op.Keeps P (tbAppend v) :=
  .bind (.look _) fun _ => .bind (.check _ _) fun _ => .upd fun s h => C.tb s _ _ _ h

theorem windowInit : Op.Keeps P Machine.winInit := .upd fun s h => C.winInit s _ _ h

theorem winPut (b : Byte) : Op.Keeps P (winPut b) := .upd fun s h => C.win s _ _ _ _ h

omit C in
theorem winGet (d : Nat) : Op.Keeps P (winGet d) := .bind (.look _) fun _ => .bind (.need _ _) fun _ => .pure _

theorem bwInit : Op.Keeps P bwInit := .upd fun s h => C.bw s _ h

theorem bwFlushByte : Op.Keeps P bwFlushByte :=
  .bind (.look _) fun _ => .bind (C.outAppend _) fun _ => .upd fun s h => C.bw s _ h

theorem bwPutBit (b : Bool) : Op.Keeps P (bwPutBit b) :=
  .bind (.upd fun s h => C.bw s _ h) fun _ => .bind (.look _) fun _ => .ite C.bwFlushByte (.upd fun s h => C.bw s _ h)

theorem bwPutAll (bs : Bits) : Op.Keeps P (bwPutAll bs) := by
  induction bs with
  | nil => exact .pure _
  | cons b bs ih => exact .bind (C.bwPutBit b) fun _ => ih

theorem bwPutBits (v n : Nat) : Op.Keeps P (bwPutBits v n) := C.bwPutAll _

theorem bwAlign : Op.Keeps P bwAlign := .bind (.look _) fun _ => .ite C.bwFlushByte (.pure _)

theorem bwPutCode (v : Byte) : Op.Keeps P (bwPutCode v) :=
  .bind (.look _) fun s => by
    cases tableGet s.code v.toNat with
    | none => exact .pure _
    | some bits => exact C.bwPutAll bits

theorem brInit (start limit : Nat) (err : ErrKind) : Op.Keeps P (brInit start limit err) :=
  .bind (.look _) fun _ => .bind (.need _ _) fun _ => .upd fun s h => C.br s _ h

theorem brGetBit : Op.Keeps P brGetBit :=
  .bind (.look _) fun _ => .ite (.raise _) (.bind (.upd fun s h => C.br s _ h) fun _ => .pure _)

theorem brGetBitsFrom (n v : Nat) : Op.Keeps P (brGetBitsFrom n v) := by
  induction n generalizing v with
  | zero => exact .pure _
  | succ n ih => exact .bind C.brGetBit fun b => ih _

theorem brSkip (n : Nat) : Op.Keeps P (brSkip n) := by
  induction n with
  | zero => exact .pure _
  | succ n ih => exact .bind C.brGetBit fun _ => ih

-- Window, match finder, replay ------------------------------------------------------------------------------------------

theorem mfSearch : Op.Keeps P mfSearch := .upd fun s h => C.finder s _ h

theorem appendInput (k n : Nat) : Op.Keeps P (appendInput k n) := by
  induction n generalizing k with
  | zero => exact .pure _
  | succ n ih => exact .bind (.look _) fun _ => .bind (C.winPut _) fun _ => ih _

theorem advanceCur (n : Nat) : Op.Keeps P (advanceCur n) := .upd fun s h => C.finder s _ h

theorem mfStep : Op.Keeps P mfStep :=
  .bind (.look _) fun _ => .bind (.need _ _) fun _ => .bind C.mfSearch fun _ => .bind (.look _) fun _ =>
    .ite (.bind (C.appendInput _ _) fun _ => .bind (C.advanceCur _) fun _ => .pure _)
      (.bind (C.winPut _) fun _ => .bind (C.advanceCur _) fun _ => .pure _)

theorem replayLoop (offset n : Nat) : Op.Keeps P (replayLoop offset n) := by
  induction n with
  | zero => exact .pure _
  | succ n ih => exact .bind (Closed.winGet _) fun _ => .bind (C.outAppend _) fun _ => .bind (C.winPut _) fun _ => ih

theorem replayMatch (offset length : Nat) : Op.Keeps P (replayMatch offset length) :=
  .bind (.look _) fun _ => .bind (.need _ _) fun _ => C.replayLoop _ _

theorem replayLiteral (b : Byte) : Op.Keeps P (replayLiteral b) := .bind (C.outAppend _) fun _ => C.winPut _

theorem winEmit (b : Byte) : Op.Keeps P (winEmit b) := .bind (C.winPut _) fun _ => C.outAppend _

-- Token codec -----------------------------------------------------------------------------------------------------------

theorem teInit : Op.Keeps P teInit := .upd fun s h => C.tbLen _ _ (C.enc s _ id h)

theorem appendStaged (i n : Nat) : Op.Keeps P (appendStaged i n) := by
  induction n generalizing i with
  | zero => exact .pure _
  | succ n ih => exact .bind (.look _) fun _ => .bind (C.tbAppend _) fun _ => ih _

theorem teFlush : Op.Keeps P teFlush :=
  .bind (.look _) fun _ => .ite
    (.bind (C.tbAppend _) fun _ => .bind (C.appendStaged _ _) fun _ => .upd fun s h => C.enc s _ id h) (.pure _)

theorem teCount : Op.Keeps P teCount :=
  .bind (.upd fun s h => C.enc s _ id h) fun _ => .bind (.look _) fun _ => .ite C.teFlush (.pure _)

theorem tePutLiteral (b : Byte) : Op.Keeps P (tePutLiteral b) :=
  .bind (.upd fun s h => C.enc s _ (Memory.wf_tableSet _ _) h) fun _ => C.teCount

theorem tePutMatch (offset length : Nat) : Op.Keeps P (tePutMatch offset length) :=
  .bind (.upd fun s h => C.enc s _ (fun hw => Memory.wf_tableSet _ _ (Memory.wf_tableSet _ _ hw)) h) fun _ => C.teCount

theorem advanceTp (n : Nat) : Op.Keeps P (advanceTp n) := .upd fun s h => C.dec s _ h

theorem acceptFlag (v : Byte) : Op.Keeps P (acceptFlag v) :=
  .bind (.upd fun s h => C.dec s _ h) fun _ => .bind (.look _) fun _ => .check _ _

theorem tdFlag : Op.Keeps P tdFlag := .bind (.look _) fun _ => .bind (.need _ _) fun _ => C.acceptFlag _

theorem acceptLiteral (b : Byte) : Op.Keeps P (acceptLiteral b) := .bind (C.advanceTp _) fun _ => C.replayLiteral _

theorem tdLiteral : Op.Keeps P tdLiteral := .bind (.look _) fun _ => .bind (.need _ _) fun _ => C.acceptLiteral _

theorem acceptMatch (o : BitVec 12) (l : BitVec 4) : Op.Keeps P (acceptMatch o l) :=
  .bind (C.advanceTp _) fun _ => .bind (.look _) fun _ => .bind (.check _ _) fun _ => C.replayMatch _ _

theorem tdMatch : Op.Keeps P tdMatch :=
  .bind (.look _) fun _ => .bind (.need _ _) fun _ => .bind (.check _ _) fun _ => C.acceptMatch _ _

theorem tdToken (i : Nat) : Op.Keeps P (tdToken i) := .bind (.look _) fun _ => .ite C.tdLiteral C.tdMatch

theorem tdTokens (n : Nat) : Op.Keeps P (tdTokens n) := by
  induction n with
  | zero => exact .pure _
  | succ n ih => exact .bind (.look _) fun _ => .ite (.pure _) (.bind (C.tdToken _) fun _ => ih)

theorem tdGroups (n : Nat) : Op.Keeps P (tdGroups n) := by
  induction n with
  | zero => exact .pure _
  | succ n ih =>
    exact .bind (.look _) fun _ => .ite (.bind C.tdFlag fun _ => .bind (C.tdTokens _) fun _ => ih) (.pure _)

theorem tdDecode : Op.Keeps P tdDecode :=
  .bind C.windowInit fun _ => .bind (.upd fun s h => C.outPtr _ _ (C.dec s _ h)) fun _ => .bind (.look _) fun _ =>
    C.tdGroups _

end Closed

-- Huffman coder ---------------------------------------------------------------------------------------------------------

theorem countFrom_wf (s : State) (i n : Nat) {f : Table Nat} (h : Memory.wf f = true) :
    Memory.wf (s.countFrom i n f) = true := by
  induction n generalizing i f with
  | zero => exact h
  | succ n ih => exact ih _ (Memory.wf_tableSet _ _ h)

theorem codesInto_wf (t : Tree) (path : Bits) {c : Table Bits} (h : Memory.wf c = true) :
    Memory.wf (Tree.codesInto t path c) = true := by
  induction t generalizing path c with
  | leaf v => exact Memory.wf_tableSet _ _ h
  | node l r hl hr => exact hr _ (hl _ h)

theorem codeTable_wf (o : Option Tree) : Memory.wf (codeTable o) = true := by
  match o with
  | none => rfl
  | some (.leaf v) => rfl
  | some (.node l r) => exact codesInto_wf _ _ rfl

theorem addLive_wf (t : TreeStore) (n : Node) (h : Memory.wf t.node = true) : Memory.wf (t.addLive n).node = true :=
  Memory.wf_tableSet _ _ h

theorem addLeaf_wf (f : Table Nat) (t : TreeStore) (v : Nat) (h : Memory.wf t.node = true) :
    Memory.wf (TreeStore.addLeaf f t v).node = true := by
  unfold TreeStore.addLeaf; split
  · exact addLive_wf _ _ h
  · exact h

theorem mergeOnce_wf (t : TreeStore) (h : Memory.wf t.node = true) : Memory.wf t.mergeOnce.node = true := by
  unfold TreeStore.mergeOnce; split
  · exact h
  · dsimp only; split
    · exact h
    · exact addLive_wf _ _ h

theorem mergeAll_wf (n : Nat) (t : TreeStore) (h : Memory.wf t.node = true) :
    Memory.wf (TreeStore.mergeAll n t).node = true := by
  induction n generalizing t with
  | zero => exact h
  | succ n ih => exact ih _ (mergeOnce_wf _ h)

theorem build_wf (f : Table Nat) (t : TreeStore) (h : Memory.wf t.node = true) :
    Memory.wf (t.build f).node = true := by
  have key : ∀ (l : List Nat) (t : TreeStore), Memory.wf t.node = true →
      Memory.wf (l.foldl (TreeStore.addLeaf f) t).node = true := by
    intro l
    induction l with
    | nil => exact fun _ h => h
    | cons v l ih => exact fun t h => ih _ (addLeaf_wf f t v h)
  exact mergeAll_wf _ _ (key _ _ h)

theorem close_wf (t : TreeStore) (i : Nat) (st : List (Nat × Bool)) (h : Memory.wf t.node = true) :
    Memory.wf (t.close i st).node = true := by
  induction st generalizing t i with
  | nil => exact h
  | cons e st ih =>
    obtain ⟨j, b⟩ := e
    cases b with
    | false => exact h
    | true => exact ih _ _ (Memory.wf_tableSet _ _ h)

namespace Closed

variable (C : Closed P)
include C

theorem hfCount : Op.Keeps P hfCount := .upd fun s h => C.freq s _ (countFrom_wf _ _ _ rfl) h

theorem hfBuild : Op.Keeps P hfBuild := .upd fun s h => C.tree s _ (build_wf _ _) h

theorem hfCodegen : Op.Keeps P hfCodegen := .upd fun s h => C.code s _ (codeTable_wf _) h

theorem hfSerTree : Op.Keeps P hfSerTree :=
  .bind (.look _) fun _ => .bind (.upd fun s h => C.tbl s _ h) fun _ => .pure _

theorem allocNode : Op.Keeps P allocNode :=
  .bind (.look _) fun _ => .bind (.check _ _) fun _ => .bind (.upd fun s h => C.tree s _ id h) fun _ => .pure _

theorem openNode (i : Nat) : Op.Keeps P (openNode i) := .upd fun s h => C.tree s _ id h

theorem leafNode (i : Nat) (v : Byte) : Op.Keeps P (leafNode i v) :=
  .upd fun s h => C.tree s _ (fun hw => close_wf _ _ _ (Memory.wf_tableSet _ _ hw)) h

theorem readNode : Op.Keeps P readNode :=
  .bind C.allocNode fun _ => .bind C.brGetBit fun b => by
    cases b
    · exact C.openNode _
    · exact .bind (C.brGetBitsFrom _ _) fun _ => C.leafNode _ _

theorem readNodes (n : Nat) : Op.Keeps P (readNodes n) := by
  induction n with
  | zero => exact .pure _
  | succ n ih => exact .bind C.readNode fun _ => .bind (.look _) fun _ => .ite (.pure _) ih

omit C in
theorem closeTree : Op.Keeps P closeTree := .bind (.look _) fun _ => .check _ _

theorem hfDeserTree : Op.Keeps P hfDeserTree :=
  .bind (.upd fun s h => C.tree s _ id h) fun _ => .bind (.look _) fun _ => .ite (.pure _)
    (.bind (C.brInit _ _ _) fun _ => .bind (C.readNodes _) fun _ => Closed.closeTree)

theorem encodeFrom (i n : Nat) : Op.Keeps P (encodeFrom i n) := by
  induction n generalizing i with
  | zero => exact .pure _
  | succ n ih => exact .bind (.look _) fun _ => .bind (C.bwPutCode _) fun _ => ih _

theorem hfEncode : Op.Keeps P hfEncode := .bind (.look _) fun _ => C.encodeFrom _ _

theorem setWalk (i : Nat) : Op.Keeps P (setWalk i) := .upd fun s h => C.walker s _ h

theorem putSymbol (v : Byte) : Op.Keeps P (putSymbol v) := .upd fun s h => C.walker _ _ (C.tb s _ _ _ h)

theorem walkDown (n : Nat) : Op.Keeps P (walkDown n) := by
  induction n with
  | zero => exact .pure _
  | succ n ih =>
    exact .bind (.look _) fun s => by
      cases s.tree.at s.walker.walk with
      | leaf v k => exact .pure _
      | internal l r k => exact .bind C.brGetBit fun _ => .bind (C.setWalk _) fun _ => ih

theorem readSymbol (root : Nat) : Op.Keeps P (readSymbol root) :=
  .bind (.look _) fun s => by
    cases s.tree.at root with
    | leaf v k => exact .bind C.brGetBit fun _ => C.putSymbol _
    | internal l r k =>
      exact .bind (C.setWalk _) fun _ => .bind (C.walkDown _) fun _ => .bind (.look _) fun _ => C.putSymbol _

theorem readSymbols (root n : Nat) : Op.Keeps P (readSymbols root n) := by
  induction n with
  | zero => exact .pure _
  | succ n ih => exact .bind (C.readSymbol root) fun _ => ih

theorem hfDecode : Op.Keeps P hfDecode :=
  .bind (.look _) fun s => .bind (.need _ _) fun _ => .bind (.upd fun s h => C.walker s _ h) fun _ => by
    cases s.tree.root with
    | none => exact .need _ _
    | some root => exact C.readSymbols root _

-- Archive and format elements -------------------------------------------------------------------------------------------

theorem arPack : Op.Keeps P arPack :=
  .bind C.hfSerTree fun _ => .bind C.bwInit fun _ => .bind (C.bwPutBits _ _) fun _ => .bind (C.bwPutBits _ _) fun _ =>
    .bind (.look _) fun _ => .bind (C.bwPutBits _ _) fun _ => .bind (C.bwPutBits _ _) fun _ => .bind (C.bwPutAll _) fun _ =>
      .bind C.bwAlign fun _ => .bind C.hfEncode fun _ => C.bwAlign

theorem acceptTokenLen (n : Nat) : Op.Keeps P (acceptTokenLen n) := .upd fun s h => C.tbLen s _ h

theorem acceptTreeBitLen (n : Nat) : Op.Keeps P (acceptTreeBitLen n) :=
  .bind (.upd fun s h => C.tbl s _ h) fun _ => .bind (.look _) fun _ => .check _ _

theorem arUnpack : Op.Keeps P arUnpack :=
  .bind (.bind (.look _) fun _ => .check _ _) fun _ => .bind (.bind (.look _) fun _ => .check _ _) fun _ =>
    .bind (.look _) fun _ => .bind (C.acceptTokenLen _) fun _ => .bind (C.acceptTreeBitLen _) fun _ =>
      .bind C.hfDeserTree fun _ => .bind (.bind (.look _) fun _ => .bind (.check _ _) fun _ => .check _ _) fun _ =>
        .bind (.look _) fun _ => C.brInit _ _ _

theorem acceptInternal : Op.Keeps P acceptInternal :=
  .bind C.allocNode fun _ => .bind (C.brSkip _) fun _ => C.openNode _

theorem acceptLeaf (v : Byte) : Op.Keeps P (acceptLeaf v) :=
  .bind C.allocNode fun _ => .bind (C.brSkip _) fun _ => C.leafNode _ _

theorem walkedTo (t : TreeStore) (root leaf : Nat) : Op.Keeps P (walkedTo t root leaf) := by
  unfold Machine.walkedTo
  cases t.at root with
  | leaf v k => exact .pure _
  | internal l r k => exact C.setWalk _

theorem acceptCodeword (path : Bits) : Op.Keeps P (acceptCodeword path) :=
  .bind (.look _) fun s => .bind (.need _ _) fun _ => by
    cases s.tree.root with
    | none => exact .need _ _
    | some root =>
      dsimp only
      cases s.tree.codewordLeaf root path with
      | none => exact .refuse _
      | some leaf => exact .bind (C.brSkip _) fun _ => .bind (C.walkedTo _ _ _) fun _ => C.putSymbol _

theorem acceptTreeBits (bits : Bits) : Op.Keeps P (acceptTreeBits bits) :=
  .bind (.look _) fun _ => .ite C.hfDeserTree (.refuse _)

theorem acceptPayload (bits : Bits) : Op.Keeps P (acceptPayload bits) :=
  .bind (.look _) fun _ => .ite C.hfDecode (.refuse _)

theorem putPadded (bits : Bits) : Op.Keeps P (putPadded bits) := .bind (C.bwPutAll _) fun _ => C.bwAlign

omit C in
theorem writeOrRead {x y : Op Unit} (hx : Op.Keeps P x) (hy : Op.Keeps P y) : Op.Keeps P (writeOrRead x y) :=
  .bind (.look _) fun _ => .ite hx hy

end Closed

-- The meanings ----------------------------------------------------------------------------------------------------------

/-- What `exec` of an operation that is no command can answer with a next state: a state with everything that `P` keeps, but for
the value returned, or such a state after an error is taken. -/
theorem exec_keeps (C : Closed P) (hr : ∀ s r, P s → P (s.withResult r)) {i : Instr} (hc : i ≠ .compress)
    (hd : i ≠ .decompress) {s t : State} (hs : P s) (h : exec i s = .next t) :
    P t ∨ ∃ e u, P u ∧ t = u.takeError e := by
  have op : ∀ {x : Op Unit}, Op.Keeps P x → runOp x s = .next t → P t ∨ ∃ e u, P u ∧ t = u.takeError e := by
    intro x hk h
    rcases runOp_eq_next.1 h with hx | ⟨e, u, hx, rfl⟩
    · exact .inl (hk.ok hs hx)
    · exact .inr ⟨e, u, hk.error hs hx, rfl⟩
  have res : ∀ {α : Type} {x : Op α} {f : α → OpResult}, Op.Keeps P x → runRes x f s = .next t →
      P t ∨ ∃ e u, P u ∧ t = u.takeError e := by
    intro α x f hk h
    rcases runRes_eq_next.1 h with ⟨a, u, hx, rfl⟩ | ⟨e, u, hx, rfl⟩
    · exact .inl (hr _ _ (hk.ok hs hx))
    · exact .inr ⟨e, u, hk.error hs hx, rfl⟩
  cases i with
  | compress => exact absurd rfl hc
  | decompress => exact absurd rfl hd
  | flag v => exact op (Closed.writeOrRead (C.tbAppend _) (.bind (.bind (.look _) fun _ => .need _ _) fun _ => C.acceptFlag _)) h
  | literal v =>
    exact op (Closed.writeOrRead (C.tePutLiteral _) (.bind (.bind (.look _) fun _ => .need _ _) fun _ => C.acceptLiteral _)) h
  | matchTok o l =>
    exact op (Closed.writeOrRead (C.tePutMatch _ _) (.bind (.bind (.look _) fun _ => .need _ _) fun _ =>
      .bind (.bind (.look _) fun _ => .check _ _) fun _ => C.acceptMatch _ _)) h
  | nodeInternal => exact op (Closed.writeOrRead (C.bwPutBit _) C.acceptInternal) h
  | nodeLeaf v => exact op (Closed.writeOrRead (C.bwPutAll _) (C.acceptLeaf _)) h
  | codeword path => exact op (Closed.writeOrRead (C.bwPutAll _) (C.acceptCodeword _)) h
  | magic => exact op (Closed.writeOrRead (C.bwPutBits _ _) (.bind (.look _) fun _ => .check _ _)) h
  | tokenLen n => exact op (Closed.writeOrRead (C.bwPutBits _ _) (C.acceptTokenLen _)) h
  | treeBitLen n => exact op (Closed.writeOrRead (C.bwPutBits _ _) (C.acceptTreeBitLen _)) h
  | treeBits bits => exact op (Closed.writeOrRead (C.putPadded _) (C.acceptTreeBits _)) h
  | payloadBits bits => exact op (Closed.writeOrRead (C.putPadded _) (C.acceptPayload _)) h
  | bwInit => exact op C.bwInit h
  | bwPutBit b => exact op (C.bwPutBit b) h
  | bwPutBits v n => exact op (C.bwPutBits v n) h
  | bwAlign => exact op C.bwAlign h
  | brInit a b e => exact op (C.brInit a b e) h
  | brGetBit => exact res C.brGetBit h
  | brGetBits n => exact res (C.brGetBitsFrom n 0) h
  | winInit => exact op C.windowInit h
  | winPut b => exact op (C.winPut b) h
  | winGet d => exact res (Closed.winGet d) h
  | mfSearch => exact op C.mfSearch h
  | mfStep => exact res C.mfStep h
  | replayMatch o l => exact op (C.replayMatch o l) h
  | replayLiteral b => exact op (C.replayLiteral b) h
  | teInit => exact op C.teInit h
  | tePutLiteral b => exact op (C.tePutLiteral b) h
  | tePutMatch o l => exact op (C.tePutMatch o l) h
  | tbAppend v => exact op (C.tbAppend v) h
  | teFlush => exact op C.teFlush h
  | tdDecode => exact op C.tdDecode h
  | tdFlag => exact op C.tdFlag h
  | tdLiteral => exact op C.tdLiteral h
  | tdMatch => exact op C.tdMatch h
  | hfCount => exact op C.hfCount h
  | hfBuild => exact op C.hfBuild h
  | hfCodegen => exact op C.hfCodegen h
  | hfSerTree => exact res C.hfSerTree h
  | hfDeserTree => exact op C.hfDeserTree h
  | hfEncode => exact op C.hfEncode h
  | hfDecode => exact op C.hfDecode h
  | arPack => exact op C.arPack h
  | arUnpack => exact op C.arUnpack h
  | bwPutByte v => exact op (C.bwPutBits _ _) h
  | bwPutU32 v => exact op (C.bwPutBits _ _) h
  | bwPutCode v => exact op (C.bwPutCode v) h
  | winEmit b => exact op (C.winEmit b) h

end Sys2Proof.Machine
end

