-- ==== Sys2Proof/Laws/PerInstr.lean ====
section
/-! SUPPORT. One statement per instruction: which instructions have an encoding, and where it can stand (R70, R97). -/

namespace Sys2Proof.Laws

/-- A well-formed instruction has an encoding exactly if some position of R70 can hold it; the internal operations have
neither (R97). -/
def Fits.Statement (i : Instr) : Prop :=
  WellFormed i = true → ((encode i).isSome = true ↔ ∃ sl, slotFits sl i = true)

/-- Nothing holds an instruction that no position fits. -/
theorem fits_none {i : Instr} (he : encode i = none) (hs : ∀ sl, slotFits sl i = false) : Fits.Statement i :=
  fun _ => by simp [he, hs]

/-- An instruction with an encoding and a position. -/
theorem fits_some {i : Instr} (sl : Slot) (he : (encode i).isSome = true) (hs : slotFits sl i = true) :
    Fits.Statement i := fun _ => ⟨fun _ => ⟨sl, hs⟩, fun _ => he⟩

/-- No position fits an internal operation: `slotFits` lists the formats only. -/
theorem slotFits_cases (sl : Slot) (i : Instr) (he : encode i = none) : slotFits sl i = false := by
  cases i <;> first
    | (simp [encode] at he; done)
    | (cases sl <;> first | rfl | (rename_i b; cases b <;> rfl))

/-- The position of a code word. -/
theorem slotFits_codeword (t : Tree) (path : Bits) :
    slotFits (.codeword t) (.codeword path) = true ↔ codewordBits t path = some (path, []) := by
  show (codewordBits t path == some (path, [])) = true ↔ _
  exact beq_iff_eq

/-- The position of a tree field. -/
theorem slotFits_treeBits (n : Nat) (bits : Bits) :
    slotFits (.treeBits n) (.treeBits bits) = true ↔ n = bits.length := by
  show (n == bits.length) = true ↔ _
  exact beq_iff_eq

/-- A tree in which a path leads to a leaf: the path with a leaf at every other edge. -/
def combTree : Bits → Tree
  | [] => .leaf 0
  | true :: bs => .node (.leaf 0) (combTree bs)
  | false :: bs => .node (combTree bs) (.leaf 0)

theorem codePath_combTree (bs : Bits) : codePath (combTree bs) bs = some (bs, []) := by
  induction bs with
  | nil => rfl
  | cons b bs ih => cases b <;> simp [combTree, codePath, ih]

theorem codewordBits_combTree {bs : Bits} (h : bs ≠ []) : codewordBits (combTree bs) bs = some (bs, []) := by
  have := codePath_combTree bs
  cases bs with
  | nil => exact absurd rfl h
  | cons b bs => cases b <;> simpa [combTree, codewordBits] using this

theorem Fits.compress : Fits.Statement .compress := fits_some .cmd rfl rfl
theorem Fits.decompress : Fits.Statement .decompress := fits_some .cmd rfl rfl
theorem Fits.flag (v : Byte) : Fits.Statement (.flag v) := fits_some .flag rfl rfl
theorem Fits.literal (v : Byte) : Fits.Statement (.literal v) := fits_some (.token true) rfl rfl
theorem Fits.matchTok (o : BitVec 12) (l : BitVec 4) : Fits.Statement (.matchTok o l) := fits_some (.token false) rfl rfl
theorem Fits.nodeInternal : Fits.Statement .nodeInternal := fits_some .node rfl rfl
theorem Fits.nodeLeaf (v : Byte) : Fits.Statement (.nodeLeaf v) := fits_some .node rfl rfl
theorem Fits.codeword (path : Bits) : Fits.Statement (.codeword path) := fun hw => by
  have hp : path ≠ [] := by intro h; subst h; exact absurd hw (by decide)
  exact ⟨fun _ => ⟨.codeword (combTree path), (slotFits_codeword _ _).2 (codewordBits_combTree hp)⟩, fun _ => rfl⟩
theorem Fits.magic : Fits.Statement .magic := fits_some .magic rfl rfl
theorem Fits.tokenLen (n : BitVec 32) : Fits.Statement (.tokenLen n) := fits_some .tokenLen rfl rfl
theorem Fits.treeBitLen (t : BitVec 32) : Fits.Statement (.treeBitLen t) := fits_some .treeBitLen rfl rfl
theorem Fits.treeBits (bits : Bits) : Fits.Statement (.treeBits bits) := 
  fits_some (.treeBits bits.length) rfl ((slotFits_treeBits _ _).2 rfl)
theorem Fits.payloadBits (bits : Bits) : Fits.Statement (.payloadBits bits) := fits_some .payload rfl rfl
theorem Fits.bwInit : Fits.Statement .bwInit :=
  fits_none rfl fun sl => slotFits_cases sl _ rfl
theorem Fits.bwPutBit (b : Bool) : Fits.Statement (.bwPutBit b) :=
  fits_none rfl fun sl => slotFits_cases sl _ rfl
theorem Fits.bwPutBits (v : Nat) (n : Nat) : Fits.Statement (.bwPutBits v n) :=
  fits_none rfl fun sl => slotFits_cases sl _ rfl
theorem Fits.bwAlign : Fits.Statement .bwAlign :=
  fits_none rfl fun sl => slotFits_cases sl _ rfl
theorem Fits.brInit (start : Nat) (limit : Nat) (err : ErrKind) : Fits.Statement (.brInit start limit err) :=
  fits_none rfl fun sl => slotFits_cases sl _ rfl
theorem Fits.brGetBit : Fits.Statement .brGetBit :=
  fits_none rfl fun sl => slotFits_cases sl _ rfl
theorem Fits.brGetBits (n : Nat) : Fits.Statement (.brGetBits n) :=
  fits_none rfl fun sl => slotFits_cases sl _ rfl
theorem Fits.winInit : Fits.Statement .winInit :=
  fits_none rfl fun sl => slotFits_cases sl _ rfl
theorem Fits.winPut (b : Byte) : Fits.Statement (.winPut b) :=
  fits_none rfl fun sl => slotFits_cases sl _ rfl
theorem Fits.winGet (d : Nat) : Fits.Statement (.winGet d) :=
  fits_none rfl fun sl => slotFits_cases sl _ rfl
theorem Fits.mfSearch : Fits.Statement .mfSearch :=
  fits_none rfl fun sl => slotFits_cases sl _ rfl
theorem Fits.mfStep : Fits.Statement .mfStep :=
  fits_none rfl fun sl => slotFits_cases sl _ rfl
theorem Fits.replayMatch (offset : Nat) (length : Nat) : Fits.Statement (.replayMatch offset length) :=
  fits_none rfl fun sl => slotFits_cases sl _ rfl
theorem Fits.replayLiteral (b : Byte) : Fits.Statement (.replayLiteral b) :=
  fits_none rfl fun sl => slotFits_cases sl _ rfl
theorem Fits.teInit : Fits.Statement .teInit :=
  fits_none rfl fun sl => slotFits_cases sl _ rfl
theorem Fits.tePutLiteral (b : Byte) : Fits.Statement (.tePutLiteral b) :=
  fits_none rfl fun sl => slotFits_cases sl _ rfl
theorem Fits.tePutMatch (offset : Nat) (length : Nat) : Fits.Statement (.tePutMatch offset length) :=
  fits_none rfl fun sl => slotFits_cases sl _ rfl
theorem Fits.tbAppend (v : Byte) : Fits.Statement (.tbAppend v) :=
  fits_none rfl fun sl => slotFits_cases sl _ rfl
theorem Fits.teFlush : Fits.Statement .teFlush :=
  fits_none rfl fun sl => slotFits_cases sl _ rfl
theorem Fits.tdDecode : Fits.Statement .tdDecode :=
  fits_none rfl fun sl => slotFits_cases sl _ rfl
theorem Fits.tdFlag : Fits.Statement .tdFlag :=
  fits_none rfl fun sl => slotFits_cases sl _ rfl
theorem Fits.tdLiteral : Fits.Statement .tdLiteral :=
  fits_none rfl fun sl => slotFits_cases sl _ rfl
theorem Fits.tdMatch : Fits.Statement .tdMatch :=
  fits_none rfl fun sl => slotFits_cases sl _ rfl
theorem Fits.hfCount : Fits.Statement .hfCount :=
  fits_none rfl fun sl => slotFits_cases sl _ rfl
theorem Fits.hfBuild : Fits.Statement .hfBuild :=
  fits_none rfl fun sl => slotFits_cases sl _ rfl
theorem Fits.hfCodegen : Fits.Statement .hfCodegen :=
  fits_none rfl fun sl => slotFits_cases sl _ rfl
theorem Fits.hfSerTree : Fits.Statement .hfSerTree :=
  fits_none rfl fun sl => slotFits_cases sl _ rfl
theorem Fits.hfDeserTree : Fits.Statement .hfDeserTree :=
  fits_none rfl fun sl => slotFits_cases sl _ rfl
theorem Fits.hfEncode : Fits.Statement .hfEncode :=
  fits_none rfl fun sl => slotFits_cases sl _ rfl
theorem Fits.hfDecode : Fits.Statement .hfDecode :=
  fits_none rfl fun sl => slotFits_cases sl _ rfl
theorem Fits.arPack : Fits.Statement .arPack :=
  fits_none rfl fun sl => slotFits_cases sl _ rfl
theorem Fits.arUnpack : Fits.Statement .arUnpack :=
  fits_none rfl fun sl => slotFits_cases sl _ rfl
theorem Fits.bwPutByte (v : Byte) : Fits.Statement (.bwPutByte v) :=
  fits_none rfl fun sl => slotFits_cases sl _ rfl
theorem Fits.bwPutU32 (v : BitVec 32) : Fits.Statement (.bwPutU32 v) :=
  fits_none rfl fun sl => slotFits_cases sl _ rfl
theorem Fits.bwPutCode (v : Byte) : Fits.Statement (.bwPutCode v) :=
  fits_none rfl fun sl => slotFits_cases sl _ rfl
theorem Fits.winEmit (b : Byte) : Fits.Statement (.winEmit b) :=
  fits_none rfl fun sl => slotFits_cases sl _ rfl

end Sys2Proof.Laws
end

