-- ==== Sys2Proof/Laws/Tree.lean ====
section
/-! SUPPORT. What the operations of the Huffman coder and of the archive container can do: one lemma per operation, one round
for each loop. -/

namespace Sys2Proof.Machine

-- Tree ------------------------------------------------------------------------------------------------------------------

theorem hfSerTree_apply (s : State) :
    hfSerTree s = .ok (serTree s.tree.shape) (s.setTbl (serTree s.tree.shape).length) := rfl

theorem allocNode_apply (s : State) : allocNode s =
    if s.tree.ncnt < 511 then .ok s.tree.ncnt (s.setTree { s.tree with ncnt := s.tree.ncnt + 1 })
    else .error (.err .malformedArchive) s := by
  simp only [allocNode, look_bind, check_bind, id_eq]; rfl

@[simp] theorem openNode_apply (i : Nat) (s : State) :
    openNode i s = .ok () (s.setTree { s.tree with dstk := (i, false) :: s.tree.dstk }) := rfl

@[simp] theorem leafNode_apply (i : Nat) (v : Byte) (s : State) :
    leafNode i v s = .ok () (s.setTree ((s.tree.put i (.leaf v none)).close i s.tree.dstk)) := rfl

/-- A marker 0 with a free entry of the store. -/
theorem readNode_internal (s : State) (hn : s.tree.ncnt < 511) (hp : s.br.pos < s.br.limit)
    (hb : s.inBit s.br.pos = false) :
    readNode s = .ok () ((s.setTree { s.tree with ncnt := s.tree.ncnt + 1
                                                  dstk := (s.tree.ncnt, false) :: s.tree.dstk }).setBr
      { s.br with pos := s.br.pos + 1 }) := by
  unfold readNode
  rw [bind_ok (by rw [allocNode_apply, if_pos hn]), bind_ok (by rw [brGetBit_apply, if_pos (by simpa using hp)])]
  have : (s.setTree { s.tree with ncnt := s.tree.ncnt + 1 }).inBit s.br.pos = false := hb
  simp only [State.setTree_fields, this]; rfl

/-- A marker 1 and its 8 bits with a free entry of the store. -/
theorem readNode_leaf (s : State) (hn : s.tree.ncnt < 511) (hp : s.br.pos + 9 ≤ s.br.limit)
    (hb : s.inBit s.br.pos = true) :
    readNode s = leafNode s.tree.ncnt (BitVec.ofNat 8 (bitsNatFrom 0 (s.inBits (s.br.pos + 1) 8)))
      ((s.setTree { s.tree with ncnt := s.tree.ncnt + 1 }).setBr { s.br with pos := s.br.pos + 9 }) := by
  unfold readNode
  have hlt : (s.setTree { s.tree with ncnt := s.tree.ncnt + 1 }).br.pos <
      (s.setTree { s.tree with ncnt := s.tree.ncnt + 1 }).br.limit := by simp; omega
  rw [bind_ok (by rw [allocNode_apply, if_pos hn]), bind_ok (by rw [brGetBit_apply, if_pos hlt])]
  have hbit : (s.setTree { s.tree with ncnt := s.tree.ncnt + 1 }).inBit s.br.pos = true := hb
  have hbits : ∀ n q, (s.setTree { s.tree with ncnt := s.tree.ncnt + 1 }).inBits q n = s.inBits q n := by
    intro n
    induction n with
    | zero => exact fun _ => rfl
    | succ n ih => intro q; simp only [State.inBits, ih]; rfl
  simp only [State.setTree_fields, hbit, if_true]
  have h8 : 8 + (s.br.pos + 1) ≤ s.br.limit := by omega
  rw [bind_ok (by unfold brGetBits; rw [brGetBitsFrom_ok _ _ _ (by simp; omega)])]
  simp only [State.setBr_fields, inBits_setBr, hbits]; rfl

/-- No free entry of the store (R180). -/
theorem readNode_full (s : State) (hn : 511 ≤ s.tree.ncnt) : readNode s = .error (.err .malformedArchive) s := by
  unfold readNode; rw [bind_error (by rw [allocNode_apply, if_neg (by omega)])]

theorem closeTree_apply (s : State) : closeTree s =
    if s.br.pos = s.br.limit then .ok () s else .error (.err .malformedArchive) s := by
  simp only [closeTree, look_bind, check_apply, id_eq]

theorem readNodes_succ {s t : State} (n : Nat) (h : readNode s = .ok () t) :
    readNodes (n + 1) s = if t.tree.root.isSome then .ok () t else readNodes n t := by
  simp only [readNodes]; rw [bind_ok h]; simp only [look_bind, id_eq]; split <;> rfl

theorem readNodes_stop {s t : State} {e : Stop} (n : Nat) (h : readNode s = .error e t) :
    readNodes (n + 1) s = .error e t := by simp only [readNodes]; rw [bind_error h]

/-- An empty tree region (R178). -/
theorem hfDeserTree_empty (s : State) (h : s.tbl = 0) :
    hfDeserTree s = .ok () (s.setTree { s.tree with ncnt := 0, root := none, dstk := [] }) := by
  simp [hfDeserTree, h]

/-- A tree region inside the input. -/
theorem hfDeserTree_region (s : State) (h : s.tbl ≠ 0) (hr : 80 + s.tbl ≤ 8 * s.host.inLen) :
    hfDeserTree s = (readNodes 512 >>= fun _ => closeTree)
      ((s.setTree { s.tree with ncnt := 0, root := none, dstk := [] }).setBr
        { pos := 80, limit := 80 + s.tbl, err := .malformedArchive }) := by
  simp only [hfDeserTree, upd_bind, look_bind, id_eq, State.setTree_fields, if_neg h]
  rw [bind_ok (by rw [brInit_apply, if_pos ⟨by omega, hr⟩])]

-- Symbols ---------------------------------------------------------------------------------------------------------------

@[simp] theorem setWalk_apply (i : Nat) (s : State) : setWalk i s = .ok () (s.setWalker { s.walker with walk := i }) := rfl

@[simp] theorem putSymbol_apply (v : Byte) (s : State) : putSymbol v s =
    .ok () ((s.setTb { s.tb with mem := tableSet s.tb.mem s.walker.symcnt v }).setWalker
      { s.walker with symcnt := s.walker.symcnt + 1 }) := rfl

theorem walkDown_leaf (n : Nat) (s : State) {v : Byte} {k : Option Key} (h : s.tree.at s.walker.walk = .leaf v k) :
    walkDown (n + 1) s = .ok () s := by simp [walkDown, h]

theorem walkDown_internal (n : Nat) (s : State) {l r : Nat} {k : Option Key}
    (h : s.tree.at s.walker.walk = .internal l r k) :
    walkDown (n + 1) s =
      if s.br.pos < s.br.limit then
        walkDown n ((s.setBr { s.br with pos := s.br.pos + 1 }).setWalker
          { s.walker with walk := childOf l r (s.inBit s.br.pos) })
      else .error (.err s.br.err) s := by
  simp only [walkDown, look_bind, id_eq, h]
  split
  · next hp => rw [bind_ok (by rw [brGetBit_apply, if_pos hp]), bind_ok (setWalk_apply _ _)]; rfl
  · next hp => rw [bind_error (by rw [brGetBit_apply, if_neg hp])]

theorem readSymbol_lone (root : Nat) (s : State) {v : Byte} {k : Option Key} (h : s.tree.at root = .leaf v k) :
    readSymbol root s =
      if s.br.pos < s.br.limit then putSymbol v (s.setBr { s.br with pos := s.br.pos + 1 })
      else .error (.err s.br.err) s := by
  simp only [readSymbol, look_bind, id_eq, h]
  split
  · next hp => rw [bind_ok (by rw [brGetBit_apply, if_pos hp])]
  · next hp => rw [bind_error (by rw [brGetBit_apply, if_neg hp])]

-- Archive ---------------------------------------------------------------------------------------------------------------

theorem checkHeader_apply (s : State) : checkHeader s =
    if 10 ≤ s.host.inLen then .ok () s else .error (.err .malformedArchive) s := by
  simp only [checkHeader, look_bind, check_apply, id_eq]

theorem checkMagic_apply (s : State) : checkMagic s =
    if s.inByte 0 = 0x43 ∧ s.inByte 1 = 0x5A then .ok () s else .error (.err .malformedArchive) s := by
  simp only [checkMagic, look_bind, check_apply, id_eq]

theorem acceptTreeBitLen_apply (n : Nat) (s : State) : acceptTreeBitLen n s =
    if ceil8 n ≤ s.host.inLen - 10 then .ok () (s.setTbl n) else .error (.err .malformedArchive) (s.setTbl n) := by
  simp only [acceptTreeBitLen, upd_bind, look_bind, check_apply, id_eq]; rfl

theorem checkStream_apply (s : State) : checkStream s =
    if s.tb.len = 0 ∨ s.tree.root.isSome then
      if s.tb.len ≤ s.tCap then .ok () s else .error (.err .capacityExceeded) s
    else .error (.err .malformedArchive) s := by
  simp only [checkStream, look_bind, check_bind, check_apply, id_eq]

-- Commands --------------------------------------------------------------------------------------------------------------

theorem startCall_apply (first : Phase) (s : State) : startCall first s =
    if s.host.inLen ≤ s.caps.inCap then .ok () (s.accept.initCall.setSeq { phase := first, line := .start })
    else .error (.err .capacityExceeded) s.accept.initCall := by
  simp only [startCall, upd_bind, look_bind, check_bind, id_eq]; rfl

end Sys2Proof.Machine
end

