-- ==== Sys2Proof/Tests/Slice0.lean ====
section
/-! SUPPORT. The model's own tests: the well-formedness checks, words written out from the spec's encodings, one or two steps
of each instruction with the spec's own examples, and for each statement with hypotheses a state that meets them. -/

namespace Sys2Proof.Tests

set_option Elab.async false

open Sys2Proof Sys2Proof.Machine

-- Well-formedness -------------------------------------------------------------------------------------------------------

theorem test_wf_codeword_empty : WellFormed (.codeword []) = false := by decide
theorem test_wf_codeword_long : WellFormed (.codeword (List.replicate 256 true)) = false := by
  simp only [WellFormed, List.length_replicate]; decide
theorem test_wf_tree_bits_long : WellFormed (.treeBits (List.replicate 4294967296 false)) = false := by
  simp only [WellFormed, List.length_replicate]; decide
theorem test_wf_payload_ragged : WellFormed (.payloadBits [true]) = false := by decide
theorem test_wf_put_bits_wide : WellFormed (.bwPutBits 0 33) = false := by decide
theorem test_wf_reader_backwards : WellFormed (.brInit 5 4 .malformedArchive) = false := by decide
theorem test_wf_reader_error : WellFormed (.brInit 4 5 .invalidToken) = false := by decide
theorem test_wf_get_bits_wide : WellFormed (.brGetBits 33) = false := by decide
theorem test_wf_get_zero : WellFormed (.winGet 0) = false := by decide
theorem test_wf_get_far : WellFormed (.winGet 4097) = false := by decide
theorem test_wf_replay_zero : WellFormed (.replayMatch 0 3) = false := by decide
theorem test_wf_replay_far : WellFormed (.replayMatch 4097 3) = false := by decide
theorem test_wf_replay_short : WellFormed (.replayMatch 1 2) = false := by decide
theorem test_wf_put_match_long : WellFormed (.tePutMatch 1 19) = false := by decide
theorem test_wf_put_match_edge : WellFormed (.tePutMatch 4096 18) = true := by decide

-- Words of the spec -----------------------------------------------------------------------------------------------------

/-- Bits from a word of zeros and ones, first bit first. -/
def bits (l : List Nat) : Bits := l.map (· == 1)

/-- R73: `op = 0x01`. -/
theorem test_decode_compress : decode .cmd (bits [0, 0, 0, 0, 0, 0, 0, 1]) = .ok (.compress, []) := by decide +kernel
/-- R73: `op = 0x02`. -/
theorem test_decode_decompress : decode .cmd (bits [0, 0, 0, 0, 0, 0, 1, 0]) = .ok (.decompress, []) := by decide +kernel
/-- R74: `op = 0x03` is reserved. -/
theorem test_decode_reserved : decode .cmd (bits [0, 0, 0, 0, 0, 0, 1, 1]) = .error .reservedCommand := by decide +kernel
/-- R76: token 0 a Literal, the others Matches. -/
theorem test_decode_flag : decode .flag (bits [0, 0, 0, 0, 0, 0, 0, 1]) = .ok (.flag 0x01, []) := by decide +kernel
/-- R77: the byte `41`. -/
theorem test_decode_literal : decode (.token true) (bits [0, 1, 0, 0, 0, 0, 0, 1]) = .ok (.literal 0x41, []) := by
  decide +kernel
/-- R143: `TE_PUT_MATCH(7, 4)` is `00 71`. -/
theorem test_decode_match :
    decode (.token false) (bits [0, 0, 0, 0, 0, 0, 0, 0, 0, 1, 1, 1, 0, 0, 0, 1]) = .ok (.matchTok 7 1, []) := by
  decide +kernel
theorem test_decode_node_internal : decode .node (bits [0, 1]) = .ok (.nodeInternal, [true]) := by decide +kernel
/-- R174: the leaf `01` is `100000001`. -/
theorem test_decode_node_leaf : decode .node (bits [1, 0, 0, 0, 0, 0, 0, 0, 1]) = .ok (.nodeLeaf 0x01, []) := by
  decide +kernel
/-- R170: in the tree `(41 (52 (42 (43 44))))` the bits `110` are the code of `42`. -/
theorem test_decode_codeword :
    decode (.codeword (.node (.leaf 0x41) (.node (.leaf 0x52) (.node (.leaf 0x42) (.node (.leaf 0x43) (.leaf 0x44))))))
      (bits [1, 1, 0, 1]) = .ok (.codeword [true, true, false], [true]) := by decide +kernel
/-- R86: `43 5A`. -/
theorem test_decode_magic :
    decode .magic (bits [0, 1, 0, 0, 0, 0, 1, 1, 0, 1, 0, 1, 1, 0, 1, 0]) = .ok (.magic, []) := by decide +kernel
/-- R87, R51: `00 00 02 50` is 592, the stream length of R231's last row. -/
theorem test_decode_token_len :
    decode .tokenLen (bits [0, 0, 0, 0, 0, 0, 0, 0, 0, 0, 0, 0, 0, 0, 0, 0, 0, 0, 0, 0, 0, 0, 1, 0, 0, 1, 0, 1, 0, 0, 0, 0])
      = .ok (.tokenLen 592, []) := by decide +kernel
/-- R88: `00 00 00 13` is 19. -/
theorem test_decode_tree_bit_len :
    decode .treeBitLen (bits [0, 0, 0, 0, 0, 0, 0, 0, 0, 0, 0, 0, 0, 0, 0, 0, 0, 0, 0, 0, 0, 0, 0, 0, 0, 0, 0, 1, 0, 0, 1, 1])
      = .ok (.treeBitLen 19, []) := by decide +kernel
/-- R89: 9 bits and 7 pad bits, which are not looked at. -/
theorem test_decode_tree_bits :
    decode (.treeBits 9) (bits [1, 0, 0, 0, 0, 0, 0, 0, 1, 1, 0, 0, 0, 0, 0, 0, 1])
      = .ok (.treeBits (bits [1, 0, 0, 0, 0, 0, 0, 0, 1]), [true]) := by decide +kernel
/-- R90: the payload runs to the end. -/
theorem test_decode_payload : decode .payload (bits [0, 1, 0, 0, 0, 0, 0, 0])
    = .ok (.payloadBits (bits [0, 1, 0, 0, 0, 0, 0, 0]), []) := by decide +kernel
/-- R97: the internal operations have no binary encoding. -/
theorem test_encode_none : encode .bwAlign = none ∧ encode .mfStep = none ∧ encode .arPack = none := by decide
/-- The table word of MATCH `00 10`, `M(1,3)`. -/
theorem test_table_word_match : decodeTableWord 16 0x0010 = some (.matchTok 1 0) := by decide +kernel
/-- The table word of NODE_LEAF `1vvvvvvvv`. -/
theorem test_table_word_leaf : decodeTableWord 9 0x141 = some (.nodeLeaf 0x41) := by decide +kernel

-- Small states ----------------------------------------------------------------------------------------------------------

/-- These bytes from index 0 on. -/
def cells (bs : List Byte) : Mem := (List.range bs.length).zip bs
/-- After reset, with this input. -/
def withIn (bs : List Byte) : State :=
  (State.reset.setInp (cells bs)).setHost { status := 0, errcode := 0, inLen := bs.length, outLen := 0 }
/-- After reset, with this stream in `TB`. -/
def withT (bs : List Byte) : State := State.reset.setTb { mem := cells bs, len := bs.length }
/-- This many bytes of room in `OUT` and `TB`. -/
def roomy (s : State) (tCap outCap : Nat) : State :=
  { s with caps := { inCap := s.caps.inCap, tCap := tCap, outCap := outCap } }
/-- A window that holds these bytes, fewer than 4096. -/
def windowOf (bs : List Byte) : Window := { mem := cells bs, pos := bs.length, fill := bs.length }
/-- In this phase, busy. -/
def inPhase (s : State) (p : Phase) (l : Line) : State :=
  (s.setSeq { phase := p, line := l }).setHost { s.host with status := 1 }
/-- The tree `(01 41)` of R174. -/
def tree0141 : TreeStore :=
  { node := [(0, .leaf 0x01 none), (1, .leaf 0x41 none), (2, .internal 0 1 none)], ncnt := 3, root := some 2
    live := [], dstk := [] }
/-- The archive of R201. -/
def archive : List Byte := [0x43, 0x5A, 0, 0, 0, 2, 0, 0, 0, 0x13, 0x40, 0x68, 0x20, 0x40]
/-- The answer is a next state with this property. -/
def goesOn (o : Host.Outcome State Fault Refusal) (p : State → Bool) : Bool :=
  match o with
  | .next t => p t
  | .fault _ => false
  | .refused _ => false
/-- The answer is this refusal. -/
def refuses (o : Host.Outcome State Fault Refusal) (r : Refusal) : Bool :=
  match o with
  | .next _ => false
  | .fault _ => false
  | .refused q => q == r
/-- The bytes of `OUT` so far are these. -/
def outIs (t : State) (bs : List Byte) : Bool := t.out.mem == cells bs && t.out.ptr == bs.length
/-- The bytes of `TB` are these. -/
def tbIs (t : State) (bs : List Byte) : Bool := t.tb.mem == cells bs && t.tb.len == bs.length
/-- The call ended with this error code. -/
def failedWith (t : State) (c : Byte) : Bool :=
  t.host.status == 6 && t.host.errcode == c && t.host.outLen == 0 && t.seq.phase == .idle

-- One step of each instruction ------------------------------------------------------------------------------------------

/-- R101. -/
theorem test_bwInit : goesOn (exec .bwInit (State.reset.setBw { acc := 0x80, cnt := 1 }))
    (fun t => t.bw == { acc := 0, cnt := 0 } && t.out.ptr == 0) = true := by decide +kernel
/-- R102: the eighth of the bits `0,1,0,0,0,0,0,0` writes `40`. -/
theorem test_bwPutBit : goesOn (exec (.bwPutBit false) (State.reset.setBw { acc := 0x40, cnt := 7 }))
    (fun t => outIs t [0x40] && t.bw == { acc := 0, cnt := 0 }) = true := by decide +kernel
theorem test_bwPutBit_full : goesOn (exec (.bwPutBit true) (roomy (State.reset.setBw { acc := 0x40, cnt := 7 }) 0 0))
    (fun t => failedWith t 4 && t.out.ptr == 0) = true := by decide +kernel
/-- R103. -/
theorem test_bwPutBits : goesOn (exec (.bwPutBits 0x41 8) (State.reset.setBw { acc := 0x80, cnt := 1 }))
    (fun t => outIs t [0xA0] && t.bw == { acc := 0x80, cnt := 1 }) = true := by decide +kernel
/-- R103: bits at and above `n` are ignored. -/
theorem test_bwPutBits_low : goesOn (exec (.bwPutBits 0x1FF 3) State.reset)
    (fun t => t.bw == { acc := 0xE0, cnt := 3 }) = true := by decide +kernel
/-- R104: the last 3 of the 19 bits. -/
theorem test_bwAlign : goesOn (exec .bwAlign ((State.reset.setBw { acc := 0x20, cnt := 3 }).setOut { mem := [], ptr := 12 }))
    (fun t => t.out.mem == [(12, 0x20)] && t.out.ptr == 13 && t.bw == { acc := 0, cnt := 0 }) = true := by decide +kernel
theorem test_bwAlign_aligned : goesOn (exec .bwAlign State.reset) (fun t => t == State.reset) = true := by decide +kernel
/-- R109: the tree region of the archive of 14 bytes. -/
theorem test_brInit : goesOn (exec (.brInit 80 99 .malformedArchive) (withIn archive))
    (fun t => t.br == { pos := 80, limit := 99, err := .malformedArchive }) = true := by decide +kernel
/-- R110. -/
theorem test_brGetBit : goesOn (exec .brGetBit ((withIn archive).setBr { pos := 81, limit := 99, err := .malformedArchive }))
    (fun t => t.env.result == .bit true && t.br.pos == 82) = true := by decide +kernel
theorem test_brGetBit_end : goesOn (exec .brGetBit
    ((withIn archive).setBr { pos := 112, limit := 112, err := .unexpectedEndOfStream }))
    (fun t => failedWith t 2 && t.br.pos == 112) = true := by decide +kernel
/-- R111. -/
theorem test_brGetBits : goesOn (exec (.brGetBits 8)
    ((withIn archive).setBr { pos := 82, limit := 99, err := .malformedArchive }))
    (fun t => t.env.result == .value 1 && t.br.pos == 90) = true := by decide +kernel
/-- R120. -/
theorem test_winInit : goesOn (exec .winInit (State.reset.setWin (windowOf [0x61])))
    (fun t => t.win == { mem := [(0, 0x61)], pos := 0, fill := 0 }) = true := by decide +kernel
/-- R121. -/
theorem test_winPut : goesOn (exec (.winPut 0x61) (State.reset.setWin { mem := [], pos := 4095, fill := 4095 }))
    (fun t => t.win == { mem := [(4095, 0x61)], pos := 0, fill := 4096 }) = true := by decide +kernel
/-- R122. -/
theorem test_winGet : goesOn (exec (.winGet 2) (State.reset.setWin (windowOf [0x61, 0x62])))
    (fun t => t.env.result == .byte 0x61) = true := by decide +kernel
/-- R122: `d = 4096` reads `WIN[WPOS]`. -/
theorem test_winGet_oldest : goesOn (exec (.winGet 4096) (State.reset.setWin { mem := [(7, 0x55)], pos := 7, fill := 4096 }))
    (fun t => t.env.result == .byte 0x55) = true := by decide +kernel
/-- R126: "abababababab" at `c = 2`. -/
theorem test_mfSearch : goesOn (exec .mfSearch
    (((withIn [0x61, 0x62, 0x61, 0x62, 0x61, 0x62, 0x61, 0x62, 0x61, 0x62, 0x61, 0x62]).setWin (windowOf [0x61, 0x62])).setFinder
      { cur := 2, bestLen := 0, bestOff := 0 }))
    (fun t => t.finder == { cur := 2, bestLen := 10, bestOff := 2 }) = true := by decide +kernel
/-- R128: "AAAAAAAAAA" at `c = 1`. -/
theorem test_mfStep : goesOn (exec .mfStep
    (((withIn (List.replicate 10 0x41)).setWin (windowOf [0x41])).setFinder { cur := 1, bestLen := 0, bestOff := 0 }))
    (fun t => t.env.result == .token (.mat 1 9) && t.finder.cur == 10 && t.win.fill == 10) = true := by decide +kernel
theorem test_mfStep_first : goesOn (exec .mfStep (withIn [0x41]))
    (fun t => t.env.result == .token (.lit 0x41) && t.finder.cur == 1) = true := by decide +kernel
/-- R131. -/
theorem test_replayMatch : goesOn (exec (.replayMatch 2 10) (((State.reset.setWin (windowOf [0x61, 0x62]))).setOut
      { mem := cells [0x61, 0x62], ptr := 2 }))
    (fun t => outIs t [0x61, 0x62, 0x61, 0x62, 0x61, 0x62, 0x61, 0x62, 0x61, 0x62, 0x61, 0x62] && t.win.fill == 12) = true := by
  decide +kernel
/-- R132. -/
theorem test_replayLiteral : goesOn (exec (.replayLiteral 0x41) State.reset)
    (fun t => outIs t [0x41] && t.win == windowOf [0x41]) = true := by decide +kernel
/-- R96. -/
theorem test_winEmit : goesOn (exec (.winEmit 0x41) State.reset)
    (fun t => outIs t [0x41] && t.win == windowOf [0x41]) = true := by decide +kernel
/-- R141. -/
theorem test_teInit : goesOn (exec .teInit ((withT [1, 2]).setEnc { flg := 1, gc := 1, gplen := 1, gp := [(0, 9)] }))
    (fun t => t.enc == { flg := 0, gc := 0, gplen := 0, gp := [(0, 9)] } && t.tb.len == 0) = true := by decide +kernel
/-- R142. -/
theorem test_tePutLiteral : goesOn (exec (.tePutLiteral 0x41) State.reset)
    (fun t => t.enc == { flg := 0x01, gc := 1, gplen := 1, gp := [(0, 0x41)] }) = true := by decide +kernel
/-- R142: the eighth token flushes the group. -/
theorem test_tePutLiteral_eighth : goesOn (exec (.tePutLiteral 0x08)
      (State.reset.setEnc { flg := 0x7F, gc := 7, gplen := 7, gp := cells [1, 2, 3, 4, 5, 6, 7] }))
    (fun t => tbIs t [0xFF, 1, 2, 3, 4, 5, 6, 7, 8] && t.enc.gc == 0) = true := by decide +kernel
/-- R143: `offset = 4096, length = 3` gives `00 00`. -/
theorem test_tePutMatch : goesOn (exec (.tePutMatch 4096 3) State.reset)
    (fun t => t.enc == { flg := 0x00, gc := 1, gplen := 2, gp := cells [0x00, 0x00] }) = true := by decide +kernel
/-- R143: `TE_PUT_MATCH(7, 4)` stages `00 71`. -/
theorem test_tePutMatch_bytes : goesOn (exec (.tePutMatch 7 4) State.reset)
    (fun t => t.enc.gp == cells [0x00, 0x71]) = true := by decide +kernel
/-- R145. -/
theorem test_tbAppend : goesOn (exec (.tbAppend 0x41) (withT [0x01])) (fun t => tbIs t [0x01, 0x41]) = true := by
  decide +kernel
theorem test_tbAppend_full : goesOn (exec (.tbAppend 0x41) (roomy (withT [0x01]) 1 9))
    (fun t => failedWith t 4 && t.tb.len == 1) = true := by decide +kernel
/-- R146. -/
theorem test_teFlush : goesOn (exec .teFlush (State.reset.setEnc { flg := 0x01, gc := 2, gplen := 3, gp := cells [0x41, 0x00, 0x16] }))
    (fun t => tbIs t [0x01, 0x41, 0x00, 0x16] && t.enc.gc == 0 && t.enc.flg == 0) = true := by decide +kernel
/-- R150. -/
theorem test_tdDecode : goesOn (exec .tdDecode (withT [0x01, 0x41, 0x00, 0x16]))
    (fun t => outIs t (List.replicate 10 0x41) && t.dec.tp == 4) = true := by decide +kernel
/-- R275: `[L(61), L(62), M(2,10)]`. -/
theorem test_tdDecode_overlap : goesOn (exec .tdDecode (withT [0x03, 0x61, 0x62, 0x00, 0x27]))
    (fun t => outIs t [0x61, 0x62, 0x61, 0x62, 0x61, 0x62, 0x61, 0x62, 0x61, 0x62, 0x61, 0x62]) = true := by decide +kernel
/-- R151: the second flag byte ends the stream. -/
theorem test_tdFlag : goesOn (exec .tdFlag
      ((withT [0xFF, 1, 2, 3, 4, 5, 6, 7, 8, 0x01]).setDec { tp := 9, dflg := 0xFF }))
    (fun t => failedWith t 3) = true := by decide +kernel
/-- R152. -/
theorem test_tdLiteral : goesOn (exec .tdLiteral ((withT [0x01, 0x41]).setDec { tp := 1, dflg := 0x01 }))
    (fun t => outIs t [0x41] && t.dec.tp == 2) = true := by decide +kernel
/-- R153: `T = 00 00 10` with nothing produced. -/
theorem test_tdMatch : goesOn (exec .tdMatch ((withT [0x00, 0x00, 0x10]).setDec { tp := 1, dflg := 0x00 }))
    (fun t => failedWith t 3 && t.out.ptr == 0) = true := by decide +kernel
/-- R161. -/
theorem test_hfCount : goesOn (exec .hfCount (withT [0x01, 0x41, 0x00, 0x16]))
    (fun t => t.freq == [(0x00, 1), (0x01, 1), (0x16, 1), (0x41, 1)]) = true := by decide +kernel
/-- R166: "ABRACADABRA". -/
theorem test_hfBuild : goesOn (exec .hfBuild (State.reset.setFreq [(0x41, 5), (0x42, 2), (0x43, 1), (0x44, 1), (0x52, 2)]))
    (fun t => t.tree.shape == some (.node (.leaf 0x41) (.node (.leaf 0x52) (.node (.leaf 0x42)
      (.node (.leaf 0x43) (.leaf 0x44))))) && t.tree.ncnt == 9) = true := by decide +kernel
/-- R170. -/
theorem test_hfCodegen : goesOn (exec .hfCodegen (State.reset.setTree tree0141))
    (fun t => t.code == [(0x01, [false]), (0x41, [true])]) = true := by decide +kernel
/-- R171: the single leaf. -/
theorem test_hfCodegen_leaf : goesOn (exec .hfCodegen
      (State.reset.setTree { node := [(0, .leaf 0x41 none)], ncnt := 1, root := some 0, live := [], dstk := [] }))
    (fun t => t.code == [(0x41, [false])]) = true := by decide +kernel
/-- R174. -/
theorem test_hfSerTree : goesOn (exec .hfSerTree (State.reset.setTree tree0141))
    (fun t => t.env.result == .bits (bits [0, 1, 0, 0, 0, 0, 0, 0, 0, 1, 1, 0, 1, 0, 0, 0, 0, 0, 1]) && t.tbl == 19) = true := by
  decide +kernel
/-- R176. -/
theorem test_hfDeserTree : goesOn (exec .hfDeserTree ((withIn archive).setTbl 19))
    (fun t => t.tree.shape == some (.node (.leaf 0x01) (.leaf 0x41)) && t.br.pos == 99 && t.tree.ncnt == 3) = true := by
  decide +kernel
/-- R179: the tree closes after 9 of 10 bits. -/
theorem test_hfDeserTree_early : goesOn (exec .hfDeserTree
      ((withIn [0, 0, 0, 0, 0, 0, 0, 0, 0, 0, 0x80, 0x00]).setTbl 10)) (fun t => failedWith t 1) = true := by decide +kernel
/-- R191. -/
theorem test_hfEncode : goesOn (exec .hfEncode ((withT [0x01, 0x41]).setCode [(0x01, [false]), (0x41, [true])]))
    (fun t => t.bw == { acc := 0x40, cnt := 2 }) = true := by decide +kernel
/-- R193. -/
theorem test_hfDecode : goesOn (exec .hfDecode ((((withIn archive).setTree tree0141).setTb { mem := [], len := 2 }).setBr
      { pos := 104, limit := 112, err := .unexpectedEndOfStream }))
    (fun t => tbIs t [0x01, 0x41] && t.br.pos == 106 && t.walker.symcnt == 2) = true := by decide +kernel
/-- R195: 9 symbols of a payload of 8 bits. -/
theorem test_hfDecode_short : goesOn (exec .hfDecode ((((withIn archive).setTree tree0141).setTb { mem := [], len := 9 }).setBr
      { pos := 104, limit := 112, err := .unexpectedEndOfStream })) (fun t => failedWith t 2) = true := by decide +kernel
/-- R201. -/
theorem test_arPack : goesOn (exec .arPack (((withT [0x01, 0x41]).setTree tree0141).setCode [(0x01, [false]), (0x41, [true])]))
    (fun t => outIs t archive && t.tbl == 19) = true := by decide +kernel
/-- R203: the empty stream. -/
theorem test_arPack_empty : goesOn (exec .arPack State.reset)
    (fun t => outIs t [0x43, 0x5A, 0, 0, 0, 0, 0, 0, 0, 0]) = true := by decide +kernel
/-- R205. -/
theorem test_arUnpack : goesOn (exec .arUnpack (withIn archive))
    (fun t => t.tb.len == 2 && t.tbl == 19 && t.tree.shape == some (.node (.leaf 0x01) (.leaf 0x41)) &&
      t.br == { pos := 104, limit := 112, err := .unexpectedEndOfStream }) = true := by decide +kernel
/-- R286: `TBL = 0xFFFFFFFF` does not wrap. -/
theorem test_arUnpack_wrap : goesOn (exec .arUnpack (withIn [0x43, 0x5A, 0, 0, 0, 0, 0xFF, 0xFF, 0xFF, 0xFF]))
    (fun t => failedWith t 1) = true := by decide +kernel
/-- R223. -/
theorem test_compress : goesOn (exec .compress (withIn [0x41]))
    (fun t => outIs t archive && t.host.status == 2 && t.host.outLen == 14) = true := by decide +kernel
/-- R224. -/
theorem test_decompress : goesOn (exec .decompress (withIn archive))
    (fun t => outIs t [0x41] && t.host.status == 2 && t.host.outLen == 1) = true := by decide +kernel
/-- R207: the empty input. -/
theorem test_decompress_empty : goesOn (exec .decompress (withIn [])) (fun t => failedWith t 1) = true := by decide +kernel
theorem test_bwPutByte : goesOn (exec (.bwPutByte 0x5A) State.reset) (fun t => outIs t [0x5A]) = true := by decide +kernel
/-- R51: big-endian. -/
theorem test_bwPutU32 : goesOn (exec (.bwPutU32 0x01020304) State.reset)
    (fun t => outIs t [0x01, 0x02, 0x03, 0x04]) = true := by decide +kernel
/-- R96. -/
theorem test_bwPutCode : goesOn (exec (.bwPutCode 0x42) (State.reset.setCode [(0x42, [true, true, false])]))
    (fun t => t.bw == { acc := 0xC0, cnt := 3 }) = true := by decide +kernel
/-- R151: reading a flag byte. -/
theorem test_flag : goesOn (exec (.flag 0x01) ((inPhase (withT [0x01, 0x41]) .dTokens .flag)))
    (fun t => t.dec == { tp := 1, dflg := 0x01 }) = true := by decide +kernel
/-- R146: writing one. -/
theorem test_flag_write : goesOn (exec (.flag 0x01) ((inPhase State.reset .cTokens .put))) (fun t => tbIs t [0x01]) = true := by
  decide +kernel
theorem test_literal : goesOn (exec (.literal 0x41)
      ((inPhase (withT [0x01, 0x41]) .dTokens (.token 0)).setDec { tp := 1, dflg := 0x01 }))
    (fun t => outIs t [0x41] && t.dec.tp == 2) = true := by decide +kernel
/-- R150: `M(1,9)` after `41`. -/
theorem test_matchTok : goesOn (exec (.matchTok 1 6)
      ((((inPhase (withT [0x01, 0x41, 0x00, 0x16]) .dTokens (.token 1)).setDec { tp := 2, dflg := 0x01 }).setWin
        (windowOf [0x41])).setOut { mem := cells [0x41], ptr := 1 }))
    (fun t => outIs t (List.replicate 10 0x41) && t.dec.tp == 4) = true := by decide +kernel
theorem test_matchTok_write : goesOn (exec (.matchTok 0 0) (inPhase State.reset .cTokens .put))
    (fun t => t.enc.gp == cells [0x00, 0x00] && t.enc.gc == 1) = true := by decide +kernel
theorem test_nodeInternal : goesOn (exec .nodeInternal ((inPhase (withIn archive) .dUnpack .nodes).setBr
      { pos := 80, limit := 99, err := .malformedArchive }))
    (fun t => t.tree.ncnt == 1 && t.tree.dstk == [(0, false)] && t.br.pos == 81) = true := by decide +kernel
theorem test_nodeLeaf : goesOn (exec (.nodeLeaf 0x41) (((inPhase (withIn archive) .dUnpack .nodes).setBr
      { pos := 90, limit := 99, err := .malformedArchive }).setTree
        { node := [(1, .leaf 0x01 none)], ncnt := 2, root := none, live := [], dstk := [(0, true)] }))
    (fun t => t.tree.shape == some (.node (.leaf 0x01) (.leaf 0x41)) && t.br.pos == 99) = true := by decide +kernel
theorem test_nodeLeaf_write : goesOn (exec (.nodeLeaf 0x41) (inPhase State.reset .cPack .treeBits))
    (fun t => outIs t [0xA0] && t.bw == { acc := 0x80, cnt := 1 }) = true := by decide +kernel
theorem test_codeword : goesOn (exec (.codeword [true]) ((((inPhase (withIn archive) .dHuff .start).setTree tree0141).setTb
      { mem := [], len := 2 }).setBr { pos := 105, limit := 112, err := .unexpectedEndOfStream }))
    (fun t => t.tb.mem == [(0, 0x41)] && t.walker == { walk := 1, symcnt := 1 } && t.br.pos == 106) = true := by decide +kernel
theorem test_magic : goesOn (exec .magic (inPhase (withIn archive) .dUnpack .start)) (fun t => t.host.status == 1) = true := by
  decide +kernel
/-- R208. -/
theorem test_magic_wrong : goesOn (exec .magic (inPhase (withIn [0x43, 0x5B]) .dUnpack .start))
    (fun t => failedWith t 1) = true := by decide +kernel
theorem test_tokenLen : goesOn (exec (.tokenLen 592) (inPhase State.reset .dUnpack .tokenLen))
    (fun t => t.tb.len == 592) = true := by decide +kernel
/-- R209. -/
theorem test_treeBitLen : goesOn (exec (.treeBitLen 33) (inPhase (withIn archive) .dUnpack .treeBitLen))
    (fun t => failedWith t 1) = true := by decide +kernel
theorem test_treeBitLen_write : goesOn (exec (.treeBitLen 19) (inPhase State.reset .cPack .treeBitLen))
    (fun t => outIs t [0, 0, 0, 0x13]) = true := by decide +kernel
/-- R89, R174: 19 bits pad to `40 68 20`. -/
theorem test_treeBits : goesOn (exec (.treeBits (bits [0, 1, 0, 0, 0, 0, 0, 0, 0, 1, 1, 0, 1, 0, 0, 0, 0, 0, 1]))
    (inPhase State.reset .cPack .treeBits)) (fun t => outIs t [0x40, 0x68, 0x20]) = true := by decide +kernel
theorem test_treeBits_elsewhere : refuses (exec (.treeBits [true]) (inPhase (withIn archive) .dUnpack .treeBits))
    (.notAtCursor "TREE_BITS") = true := by decide +kernel
theorem test_payloadBits : goesOn (exec (.payloadBits (bits [0, 1, 0, 0, 0, 0, 0, 0]))
    ((((inPhase (withIn archive) .dHuff .start).setTree tree0141).setTb { mem := [], len := 2 }).setBr
      { pos := 104, limit := 112, err := .unexpectedEndOfStream })) (fun t => tbIs t [0x01, 0x41]) = true := by decide +kernel
theorem test_payloadBits_write : goesOn (exec (.payloadBits [false, true]) (inPhase State.reset .cPack .payload))
    (fun t => outIs t [0x40]) = true := by decide +kernel

-- Steps -----------------------------------------------------------------------------------------------------------------

theorem test_fetch_word_command : goesOn (step (State.reset.withFetchWord 8 0x02)) (fun t => failedWith t 1) = true := by
  decide +kernel
theorem test_fetch_word_match : goesOn (step (State.reset.withFetchWord 16 0x0010)) (fun t => failedWith t 3) = true := by
  decide +kernel
theorem test_fetch_word_leaf : goesOn (step (State.reset.withFetchWord 9 0x141))
    (fun t => t.tree.shape == some (.leaf 0x41) && t.seq == { phase := .dUnpack, line := .nodes }) = true := by decide +kernel
theorem test_fetch_word_token_len : goesOn (step (State.reset.withFetchWord 32 592)) (fun t => t.tb.len == 592) = true := by
  decide +kernel

-- Witnesses: states that meet the hypotheses of the statements ----------------------------------------------------------

theorem exists_of_goesOn {o : Host.Outcome State Fault Refusal} {p : State → Bool} (h : goesOn o p = true) :
    ∃ t, o = .next t ∧ p t = true := by
  cases o with
  | next t => exact ⟨t, rfl, h⟩
  | fault r => exact absurd h (by simp [goesOn])
  | refused r => exact absurd h (by simp [goesOn])

/-- The answer is a next state. -/
theorem answers {o : Host.Outcome State Fault Refusal} (h : goesOn o (fun _ => true) = true) : ∃ t, o = .next t :=
  (exists_of_goesOn h).imp fun _ h => h.1

/-- A window of fewer than 4096 bytes holds them. -/
theorem windowOf_holds_two (s : State) : (s.setWin (windowOf [0x61, 0x62])).windowHolds [0x61, 0x62] := by
  refine ⟨rfl, rfl, fun d h1 h2 => ?_⟩
  have h2' : d ≤ 2 := h2
  have : d = 1 ∨ d = 2 := by omega
  rcases this with rfl | rfl
  · change readByte s.env.epoch .win (cells [0x61, 0x62]) ((2 + 4096 - 1) % 4096) = 0x62
    rw [show (2 + 4096 - 1) % 4096 = 1 by decide]; rfl
  · change readByte s.env.epoch .win (cells [0x61, 0x62]) ((2 + 4096 - 2) % 4096) = 0x61
    rw [show (2 + 4096 - 2) % 4096 = 0 by decide]; rfl

/-- "ab" consumed of "abababab". -/
def atTwo : State :=
  ((withIn [0x61, 0x62, 0x61, 0x62, 0x61, 0x62, 0x61, 0x62]).setWin (windowOf [0x61, 0x62])).setFinder
    { cur := 2, bestLen := 0, bestOff := 0 }

/-- The middle of a decompression: the flag byte of a stream is next. -/
def atFlag : State := roomy (inPhase (withT [0x01]) .dTokens .flag) 9 9

theorem atFlag_agrees : atFlag.StatusAgrees := by constructor <;> decide

theorem atFlag_inRange : atFlag.InRange := by
  constructor <;> first
    | decide +kernel
    | exact fun _ => ⟨by decide, by decide⟩
    | trivial
    | exact fun h => absurd h (by decide)
    | (intro _; refine ⟨?_, Nat.two_pow_pos 32, Nat.zero_lt_succ 255⟩; intro _ _ _ h; cases h)
    | (intro _ _ h; cases h)

theorem witness_EncodedElementsDecodeBack :
    WellFormed (.flag 5) = true ∧ slotFits .flag (.flag 5) = true ∧ encode (.flag 5) = some (byteBits 5) ∧
      Slot.flag ≠ .payload := by decide
theorem witness_DecodedElementsEncodeBack :
    decode .flag (byteBits 5 ++ [true]) = .ok (.flag 5, [true]) ∧
      decode (.treeBits 1) (bits [1, 0, 0, 0, 0, 0, 0, 1]) = .ok (.treeBits [true], []) := by decide +kernel
theorem witness_SerializedTreesDelimitThemselves : treeLeaves (.node (.leaf 1) (.leaf 1)) ≤ 2 := by decide
theorem witness_MatchFieldsRoundTrip : 1 ≤ 4096 ∧ 4096 ≤ 4096 ∧ 3 ≤ 18 ∧ 18 ≤ 18 := by decide

/-- After reset, with these turns to come. -/
def withTurns (s : State) (ts : List Turn) : State := s.setEnv { s.env with turns := ts }

theorem witness_StepRunsTheWrittenCommand :
    (withTurns State.reset [.writeReg 0 1]).env.turns = .writeReg 0 1 :: [] ∧ State.reset.busy = false ∧
      atFlag.busy = true ∧ decode .cmd (byteBits (BitVec.ofNat 8 1)) = .ok (.compress, []) ∧
      decode .cmd (byteBits (BitVec.ofNat 8 0)) = .error .reservedCommand ∧
      decode .cmd (byteBits (BitVec.ofNat 8 3)) = .error .reservedCommand := by decide +kernel
theorem witness_StepRunsTheDecodedElement :
    atFlag.ElementAt .flag (byteBits (atFlag.tbByte 0)) .dTokens (.token 0) ∧
      decode .flag (byteBits (atFlag.tbByte 0)) = .ok (.flag 1, []) ∧ atFlag.env.turns = [] ∧
      fetch atFlag = .run (.flag 1) .dTokens (.token 0) ∧ (∃ t, exec (.flag 1) atFlag = .next t) :=
  ⟨.flag rfl (by decide), by decide +kernel, rfl, by decide +kernel, answers (by decide +kernel)⟩
/-- A tree region longer than the input: the reader cannot be set up on it. -/
theorem witness_StepRunsTheDecodedElement_refused :
    fetch ((inPhase State.reset .dUnpack .treeBits).setTbl 5) = .run (.brInit 80 85 .malformedArchive) .dUnpack .nodes ∧
      ∃ r, exec (.brInit 80 85 .malformedArchive) ((inPhase State.reset .dUnpack .treeBits).setTbl 5) = .refused r :=
  ⟨by decide, ⟨_, rfl⟩⟩
theorem witness_PhasesFollowTheirOrder : atFlag.StatusAgrees ∧ ∃ t, step atFlag = .next t :=
  ⟨atFlag_agrees, answers (by decide +kernel)⟩
theorem witness_StepKeepsCanonicalForm : atFlag.Canonical ∧ ∃ t, step atFlag = .next t := by
  exact ⟨⟨rfl, rfl, rfl, rfl, rfl, rfl, rfl, rfl⟩, answers (by decide +kernel)⟩
theorem witness_StepKeepsRangesAndCapacities : atFlag.Sound ∧ ∃ t, step atFlag = .next t :=
  ⟨⟨atFlag_agrees, atFlag_inRange⟩, answers (by decide +kernel)⟩
theorem witness_HardwareResetDiscardsTheCall : (withTurns atFlag [.reset]).env.turns = [.reset] := rfl
theorem witness_HostRegistersReadAndWrite :
    (withTurns State.reset [.readReg 5]).env.turns = .readReg 5 :: [] ∧
      (withTurns State.reset [.writeReg 3 7]).env.turns = .writeReg 3 7 :: [] ∧ State.reset.busy = false ∧
      (withTurns atFlag [.writeReg 3 7]).env.turns = .writeReg 3 7 :: [] ∧ atFlag.busy = true := by decide
theorem witness_HostReachesItsBuffers :
    State.reset.busy = false ∧ 4294967295 < State.reset.caps.inCap ∧ State.reset.caps.inCap ≤ 4294967296 ∧
      atFlag.busy = true ∧ 4294967295 < State.reset.caps.outCap ∧ State.reset.host.outLen ≤ 4294967295 ∧
      (0 < (State.reset.setHost { status := 2, errcode := 0, inLen := 0, outLen := 1 }).host.outLen) := by decide
theorem witness_AcceptedCommandStartsACall :
    State.reset.busy = false ∧ State.reset.host.inLen ≤ State.reset.caps.inCap ∧ [Turn.engine] ≠ [] ∧
      (State.reset.setHost { status := 0, errcode := 0, inLen := 4294967297, outLen := 0 }).caps.inCap < 4294967297 := by
  decide
theorem witness_OnlyStartsAndEndsWriteStatus :
    Instr.bwInit ≠ .compress ∧ Instr.bwInit ≠ .decompress ∧ ∃ t, exec .bwInit State.reset = .next t :=
  ⟨by decide, by decide, answers (by decide +kernel)⟩
theorem witness_ErrorsComeFromTheirPhases :
    atFlag.Sound ∧ atFlag.env.turns = [] ∧ atFlag.seq.phase ≠ .idle ∧
      ∃ t, step atFlag = .next t ∧ t.host.status = 0x06 :=
  ⟨⟨atFlag_agrees, atFlag_inRange⟩, rfl, by decide,
    (exists_of_goesOn (p := fun t => t.host.status == 0x06) (by decide +kernel)).imp fun _ h => ⟨h.1, by simpa using h.2⟩⟩
theorem witness_PutBitFillsAByteFromBitSeven :
    State.reset.bw.cnt ≠ 7 ∧ (State.reset.setBw { acc := 0, cnt := 7 }).bw.cnt = 7 ∧
      State.reset.out.ptr < State.reset.caps.outCap ∧ (roomy State.reset 0 0).caps.outCap ≤ State.reset.out.ptr := by decide

/-- Seven bits of ones are pending. -/
def pending (cap : Nat) : State := roomy (State.reset.setBw { acc := 0xFE, cnt := 7 }) 9 cap

theorem witness_BitWritersAppendTheirBits :
    (pending 9).writerOk ∧ (pending 9).bitsWritten (.bwPutBits 0x41 8) = some (natBits 8 0x41) ∧
      (pending 9).out.ptr + ((pending 9).bw.cnt + 8) / 8 ≤ (pending 9).caps.outCap ∧
      (inPhase (pending 9) .cPack .magic).bitsWritten .magic = some (byteBits 0x43 ++ byteBits 0x5A) := by
  refine ⟨⟨by decide, by decide⟩, rfl, by decide, rfl⟩
theorem witness_PaddedFieldsEndOnAByteBoundary :
    (pending 9).writerOk ∧ (pending 9).bitsPadded .bwAlign = some [] ∧ (pending 9).bw.cnt ≠ 0 ∧
      (pending 9).out.ptr + ceil8 7 ≤ (pending 9).caps.outCap ∧ State.reset.writerOk ∧
      (inPhase State.reset .cPack .treeBits).bitsPadded (.treeBits []) = some [] := by
  refine ⟨⟨by decide, by decide⟩, rfl, by decide, by decide, ⟨by decide, by decide⟩, rfl⟩
theorem witness_BitWritersStopAtTheCapacity :
    (pending 0).writerOk ∧ ((pending 0).bitsWritten (.bwPutBit true) = some [true] ∧
        ((pending 0).bw.cnt + [true].length) / 8 ≠ 0 ∧ (pending 0).caps.outCap < (pending 0).out.ptr + 1) ∧
      (pending 0).bitsPadded .bwAlign = some [] ∧ (pending 0).bw.cnt + 0 ≠ 0 ∧
      (pending 0).caps.outCap < (pending 0).out.ptr + ceil8 7 := by
  refine ⟨⟨by decide, by decide⟩, ⟨rfl, by decide, by decide⟩, rfl, by decide, by decide⟩
theorem witness_ReaderDeliversTheNextBit :
    80 ≤ 112 ∧ 112 ≤ 8 * (withIn archive).host.inLen ∧ ¬ (5 ≤ 4 ∧ 4 ≤ 8 * (withIn archive).host.inLen) ∧
      ((withIn archive).setBr { pos := 98, limit := 99, err := .malformedArchive }).br.pos < 99 ∧
      99 ≤ ((withIn archive).setBr { pos := 99, limit := 99, err := .malformedArchive }).br.pos := by decide
theorem witness_ReaderDeliversValuesFirstBitHighest :
    ((withIn archive).setBr { pos := 91, limit := 99, err := .malformedArchive }).br.pos + 8 ≤ 99 ∧ 8 ≠ 0 ∧
      99 < ((withIn archive).setBr { pos := 92, limit := 99, err := .malformedArchive }).br.pos + 8 := by decide
/-- One bit written at byte 0, and the byte it is padded to given back as input. -/
theorem witness_WrittenBitsReadBack :
    State.reset.out.ptr + ceil8 [true].length ≤ State.reset.caps.outCap ∧
      ∃ t, execAll (.bwInit :: [true].map Instr.bwPutBit ++ [.bwAlign]) State.reset = .next t ∧
        (∀ a, 0 ≤ a → a < t.out.ptr → (withIn [0x80]).inByte a = t.outByte a) ∧
        t.out.ptr ≤ (withIn [0x80]).host.inLen := by
  refine ⟨by decide, ⟨_, rfl, ?_, by decide⟩⟩
  intro a _ h
  have : a = 0 := by have h' : a < 1 := h; omega
  subst this; rfl
theorem witness_WindowHoldsTheLatestBytes :
    (State.reset.setWin (windowOf [0x61, 0x62])).windowHolds [0x61, 0x62] ∧ 1 ≤ 2 ∧
      2 ≤ (State.reset.setWin (windowOf [0x61, 0x62])).win.fill ∧
      (State.reset.setWin (windowOf [0x61, 0x62])).win.fill < 3 := ⟨windowOf_holds_two _, by decide, by decide, by decide⟩
theorem witness_SearchFindsTheNearestLongestMatch :
    atTwo.windowHolds atTwo.consumed ∧ atTwo.finder.cur ≤ atTwo.host.inLen ∧ 1 ≤ 2 ∧ 2 ≤ min atTwo.finder.cur 4096 ∧
      isCandidateLength atTwo.inByte atTwo.host.inLen atTwo.finder.cur 2 6 ∧
      ∃ t, exec .mfSearch atTwo = .next t ∧ 0 < t.finder.bestLen := by
  refine ⟨windowOf_holds_two _, by decide, by decide, by decide, ⟨by decide, ?_, by decide⟩,
    (exists_of_goesOn (p := fun t => decide (0 < t.finder.bestLen)) (by decide +kernel)).imp fun _ h => ⟨h.1, by simpa using h.2⟩⟩
  intro k hk
  have : k = 0 ∨ k = 1 ∨ k = 2 ∨ k = 3 ∨ k = 4 ∨ k = 5 := by omega
  rcases this with rfl | rfl | rfl | rfl | rfl | rfl <;> rfl
/-- With nothing consumed no candidate has a byte. -/
theorem witness_SearchFindsTheNearestLongestMatch_none :
    (withIn [0x61]).windowHolds (withIn [0x61]).consumed ∧ (withIn [0x61]).finder.cur ≤ (withIn [0x61]).host.inLen ∧
      ∃ t, exec .mfSearch (withIn [0x61]) = .next t ∧ t.finder.bestLen = 0 :=
  ⟨⟨rfl, rfl, fun d h1 h2 => absurd (show d ≤ 0 from h2) (by omega)⟩, by decide,
    (exists_of_goesOn (p := fun t => t.finder.bestLen == 0) (by decide +kernel)).imp fun _ h => ⟨h.1, by simpa using h.2⟩⟩
theorem witness_FinderStepsOverOneToken :
    atTwo.windowHolds atTwo.consumed ∧ atTwo.finder.cur < atTwo.host.inLen ∧
      State.reset.host.inLen ≤ State.reset.finder.cur := ⟨windowOf_holds_two _, by decide, by decide⟩
theorem witness_ReplayedLiteralGoesToOutputAndWindow :
    State.reset.out.ptr < State.reset.caps.outCap ∧ (roomy State.reset 0 0).caps.outCap ≤ State.reset.out.ptr := by decide
theorem witness_ReplayedMatchCopiesByteByByte :
    (State.reset.setWin (windowOf [0x61, 0x62])).windowHolds [0x61, 0x62] ∧ 1 ≤ 2 ∧
      2 ≤ (State.reset.setWin (windowOf [0x61, 0x62])).win.fill ∧ State.reset.out.ptr + 18 ≤ State.reset.caps.outCap ∧
      (roomy State.reset 0 17).caps.outCap < State.reset.out.ptr + 18 ∧
      (State.reset.setWin (windowOf [0x61, 0x62])).win.fill < 3 :=
  ⟨windowOf_holds_two _, by decide, by decide, by decide, by decide, by decide⟩
theorem witness_PutLiteralStagesItsByte :
    State.reset.enc.gc < 8 ∧ (inPhase State.reset .cTokens .put).seq.phase.writes = true ∧
      (State.reset.setEnc { flg := 0, gc := 7, gplen := 14, gp := [] }).enc.gc = 7 ∧
      State.reset.tb.len + 14 + 2 ≤ (roomy State.reset 16 9).tCap := by decide
theorem witness_PutMatchStagesItsTwoBytes :
    State.reset.enc.gc < 8 ∧ 1 ≤ 4096 ∧ 3 ≤ 18 ∧ (inPhase State.reset .cTokens .put).seq.phase.writes = true ∧
      (State.reset.setEnc { flg := 0, gc := 7, gplen := 14, gp := [] }).enc.gc = 7 ∧
      State.reset.tb.len + 14 + 3 ≤ (roomy State.reset 17 9).tCap := by decide
theorem witness_FlushWritesTheGroup :
    State.reset.enc.gc = 0 ∧ 0 < (State.reset.setEnc { flg := 1, gc := 1, gplen := 1, gp := [(0, 9)] }).enc.gc ∧
      State.reset.tb.len + 1 + 1 ≤ (roomy State.reset 2 9).tCap ∧ (roomy State.reset 1 9).tCap < State.reset.tb.len + 1 + 1 := by
  decide
theorem witness_TokenBytesAreAppendedBelowTheCapacity :
    (inPhase State.reset .cTokens .put).seq.phase.writes = true ∧ State.reset.tb.len < State.reset.tCap ∧
      (roomy State.reset 0 9).tCap ≤ State.reset.tb.len := by decide
theorem witness_EncoderWritesTheTokenStream :
    (∀ o l, Token.mat o l ∈ [Token.lit 0x41, Token.mat 1 9] → matchOperands o l = true) ∧
      (streamOf [Token.lit 0x41, Token.mat 1 9]).length ≤ State.reset.tCap := by
  refine ⟨fun o l h => ?_, by decide⟩
  simp only [List.mem_cons, Token.mat.injEq, reduceCtorEq, List.not_mem_nil, or_false, false_or] at h
  obtain ⟨rfl, rfl⟩ := h; decide
theorem witness_TokenElementsAreReadFromTheStream :
    (inPhase (withT [0x00, 0x00, 0x10]) .dTokens .flag).seq.phase.writes = false ∧
      (withT [0x00, 0x00, 0x10]).dec.tp + 1 < (withT [0x00, 0x00, 0x10]).tb.len ∧
      (withT [0x00]).dec.tp + 1 = (withT [0x00]).tb.len ∧ State.reset.tb.len ≤ State.reset.dec.tp ∧
      (withT [0x00]).out.ptr < (withT [0x00]).caps.outCap ∧ (withT [0x00, 0x10]).dec.tp + 2 ≤ (withT [0x00, 0x10]).tb.len ∧
      fieldOffset 1 ≤ (State.reset.setWin (windowOf [0x61])).win.fill ∧
      State.reset.win.fill < fieldOffset 1 ∧ State.reset.out.ptr + fieldLength 15 ≤ State.reset.caps.outCap := by decide
theorem witness_EncodedTokensReplay :
    tokensFit 0 [.lit 0x41, .mat 1 9] ∧ (streamOf [.lit 0x41, .mat 1 9]).length ≤ State.reset.tCap ∧
      (replayed [.lit 0x41, .mat 1 9] []).length ≤ State.reset.caps.outCap := by
  refine ⟨⟨trivial, ⟨by decide, by decide, by decide, by decide⟩, trivial⟩, by decide, by decide⟩
theorem witness_EncodedTokensReplay_stream :
    (inPhase (withT [0x01, 0x41, 0x00, 0x16]) .dTokens .start).busy = true ∧
      flagsClear (inPhase (withT [0x01, 0x41, 0x00, 0x16]) .dTokens .start).stream = true ∧
      (inPhase (withT [0x01, 0x41, 0x00, 0x16]) .dTokens .start).tb.len ≤ State.reset.tCap ∧
      ∃ t, exec .tdDecode (inPhase (withT [0x01, 0x41, 0x00, 0x16]) .dTokens .start) = .next t ∧ t.busy = true :=
  ⟨rfl, by decide +kernel, by decide, exists_of_goesOn (p := fun t => t.busy) (by decide +kernel)⟩
theorem witness_BuildMakesTheTreeOfTheFrequencies :
    (∀ v : Byte, freqAt (State.reset.setFreq [(0x41, 2), (0x42, 1)]).freq v.toNat = [0x41, 0x42, 0x41].count v) ∧
      ∃ tr, treeOf [0x41, 0x42, 0x41] = some tr := ⟨by decide +kernel, ⟨_, rfl⟩⟩

theorem tree0141_isTree : tree0141.isTree (some (.node (.leaf 0x01) (.leaf 0x41))) :=
  ⟨2, rfl, ⟨0, 1, none, rfl, ⟨none, rfl⟩, ⟨none, rfl⟩⟩, by decide⟩

theorem witness_CodesAreThePathsOfTheTree :
    State.reset.tree.isTree none ∧ tree0141.isTree (some (.node (.leaf 0x01) (.leaf 0x41))) ∧
      (treeValues (.node (.leaf 0x01) (.leaf 0x41))).Nodup ∧
      TreeStore.isTree { node := [], ncnt := 1, root := some 0, live := [], dstk := [] } (some (.leaf 0)) :=
  ⟨rfl, tree0141_isTree, by decide, ⟨0, rfl, ⟨none, rfl⟩, by decide⟩⟩
theorem witness_DeserialisationReadsExactlyOneTree :
    80 + ((withIn archive).setTbl 19).tbl ≤ 8 * (withIn archive).host.inLen ∧
      (inPhase (withIn archive) .dUnpack .treeBits).seq.phase.writes = false ∧
      80 + 2560 ≤ 8 * (State.reset.setHost { status := 0, errcode := 0, inLen := 330, outLen := 0 }).host.inLen ∧
      (refTree (bits [1, 0, 0, 0, 0, 0, 0, 0, 1])).toOption = some (some (.leaf 1)) ∧
      (refTree [true]).toOption = none := by decide +kernel
theorem witness_SerializedTreesRebuild :
    treeLeaves (.node (.leaf 0x01) (.leaf 0x41)) ≤ 256 ∧
      ((withIn archive).setTbl 19).tbl = (Tree.ser (.node (.leaf 0x01) (.leaf 0x41))).length ∧
      8 * (10 + ceil8 19) ≤ 8 * (withIn archive).host.inLen ∧
      (withIn archive).inBits 80 (8 * ceil8 19) = padded (Tree.ser (.node (.leaf 0x01) (.leaf 0x41))) := by
  decide +kernel
theorem witness_NodesAreReadOneByOne :
    (inPhase State.reset .dUnpack .nodes).seq.phase.writes = false ∧ State.reset.tree.ncnt < 511 ∧
      (State.reset.setBr { pos := 90, limit := 99, err := .malformedArchive }).br.pos + 9 ≤ 99 ∧
      State.reset.br.limit ≤ State.reset.br.pos ∧ State.reset.br.limit < State.reset.br.pos + 9 ∧
      511 ≤ (State.reset.setTree { node := [], ncnt := 511, root := none, live := [], dstk := [] }).tree.ncnt := by decide
/-- A leaf at index 4 that ends the nodes 2 and 0, which is then the root; and one that ends node 2 inside node 0. -/
theorem witness_NodesAreReadOneByOne_closing :
    ([4, 2, 0] : List Nat).Nodup ∧ [(2, true), (0, true)] = [2, 0].map (fun j => (j, true)) ++ [] ∧
      [(2, true), (0, false)] = [2].map (fun j => (j, true)) ++ [(0, false)] ∧
      ∀ e, [(0, false)].head? = some e → e.2 = false :=
  ⟨by decide, rfl, rfl, fun e h => by cases h; rfl⟩
theorem witness_DecoderWalksTheTreeForEachSymbol :
    State.reset.tb.len = 0 ∧ (roomy State.reset 1 1).tCap < 2 ∧ 0 < (withT [1]).tb.len ∧ (withT [1]).tree.root = none ∧
      tree0141.isTree (some (.node (.leaf 0x01) (.leaf 0x41))) ∧ (withT [1, 2]).tb.len ≤ State.reset.tCap ∧
      (refSymbols (.node (.leaf 0x01) (.leaf 0x41)) 2 [false, true, true]).toOption = some [0x01, 0x41] ∧
      (refSymbols (.node (.leaf 0x01) (.leaf 0x41)) 2 [false]).toOption = none :=
  ⟨rfl, by decide, by decide, rfl, tree0141_isTree, by decide, by decide +kernel, by decide +kernel⟩
theorem witness_CodewordsEmitTheirLeaf :
    (inPhase State.reset .dHuff .start).seq.phase.writes = false ∧
      tree0141.isTree (some (.node (.leaf 0x01) (.leaf 0x41))) ∧ State.reset.walker.symcnt < (withT [1, 2]).tb.len ∧
      (withT [1, 2]).tb.len ≤ State.reset.tCap ∧ ([true] ≠ [] ∧ leadsTo (.node (.leaf 0x01) (.leaf 0x41)) [true] 0x41) ∧
      (State.reset.setBr { pos := 111, limit := 112, err := .unexpectedEndOfStream }).br.pos + 1 ≤ 112 ∧
      State.reset.br.limit < State.reset.br.pos + 1 :=
  ⟨rfl, tree0141_isTree, by decide, by decide, ⟨by decide, rfl, rfl⟩, by decide, by decide⟩
theorem witness_PackWritesTheArchiveFields :
    tree0141.isTree (some (.node (.leaf 0x01) (.leaf 0x41))) ∧ State.reset.out.ptr + 14 ≤ State.reset.caps.outCap ∧
      (roomy State.reset 9 13).caps.outCap < State.reset.out.ptr + 14 := ⟨tree0141_isTree, by decide, by decide⟩
theorem witness_SerialisationIsThePreOrderString :
    State.reset.tree.isTree none ∧ tree0141.isTree (some (.node (.leaf 0x01) (.leaf 0x41))) := ⟨rfl, tree0141_isTree⟩
theorem witness_HeaderFieldsAreReadAndChecked :
    (inPhase (withIn archive) .dUnpack .start).seq.phase.writes = false ∧ (withIn archive).inByte 0 = 0x43 ∧
      (withIn archive).inByte 1 = 0x5A ∧ (withIn [0x43, 0x5B]).inByte 1 ≠ 0x5A ∧
      ceil8 (32 : BitVec 32).toNat ≤ (withIn archive).host.inLen - 10 ∧
      (withIn archive).host.inLen - 10 < ceil8 (33 : BitVec 32).toNat := by decide +kernel
theorem witness_EveryCallEnds : State.reset.ready ∧ atFlag.busy = true := ⟨⟨rfl, rfl⟩, rfl⟩
theorem witness_DecompressInvertsCompress :
    (withIn [0x41]).ready ∧ (withIn archive).ready ∧
      (withIn archive).host.inLen ≤ (withIn archive).caps.inCap ∧ (withIn [0x41]).tCap ≤ (withIn archive).tCap ∧
      (withIn [0x41]).host.inLen ≤ (withIn archive).caps.outCap ∧
      ∃ t, exec .compress (withIn [0x41]) = .next t ∧ t.host.status = 0x02 ∧ (withIn archive).input = t.result :=
  ⟨⟨rfl, rfl⟩, ⟨rfl, rfl⟩, by decide, by decide, by decide,
    (exists_of_goesOn (p := fun t => t.host.status == 0x02 && (withIn archive).input == t.result) (by decide +kernel)).imp
      fun _ h => ⟨h.1, by simpa using h.2⟩⟩
theorem witness_CallsDependOnTheirInputAlone :
    (withIn [0x41]).ready ∧ ((withIn [0x41]).setTree tree0141).ready ∧
      (withIn [0x41]).sameCall ((withIn [0x41]).setTree tree0141) := ⟨⟨rfl, rfl⟩, ⟨rfl, rfl⟩, rfl, rfl⟩
theorem witness_StepwiseCallsAgreeWithWholeCalls :
    (withIn [0x41]).ready ∧ (withIn [0x41]).seq.phase = .idle ∧ ∃ t, exec .compress (withIn [0x41]) = .next t :=
  ⟨⟨rfl, rfl⟩, rfl, answers (by decide +kernel)⟩
theorem witness_EnginesShareNothing :
    (1 : Nat) ≠ 0 ∧ [State.reset, atFlag][1]? = some atFlag ∧ ∃ t, step atFlag = .next t := ⟨by decide, rfl, answers (by decide +kernel)⟩

end Sys2Proof.Tests
end

/-! The operations a call is made of neither look at the sequencer, the turns to come and the latest returned value nor write
them: what they do is the same at the grain of a whole call and at the grain of one operation a step (R18, R65). -/

namespace Sys2Proof.Machine

variable {α β : Type}

/-- `s` at another place of the sequencer and with another returned value, with no turn scheduled. -/
def State.relabel (q : Sequencer) (r : OpResult) (s : State) : State :=
  (s.setSeq q).setEnv { s.env with turns := [], result := r }

@[simp] theorem relabel_fields (q : Sequencer) (r : OpResult) (s : State) :
    (s.relabel q r).host = s.host ∧ (s.relabel q r).caps = s.caps ∧ (s.relabel q r).seq = q ∧
    (s.relabel q r).inp = s.inp ∧ (s.relabel q r).tb = s.tb ∧ (s.relabel q r).out = s.out ∧
    (s.relabel q r).win = s.win ∧ (s.relabel q r).finder = s.finder ∧ (s.relabel q r).enc = s.enc ∧
    (s.relabel q r).dec = s.dec ∧ (s.relabel q r).freq = s.freq ∧ (s.relabel q r).tree = s.tree ∧
    (s.relabel q r).code = s.code ∧ (s.relabel q r).tbl = s.tbl ∧ (s.relabel q r).walker = s.walker ∧
    (s.relabel q r).bw = s.bw ∧ (s.relabel q r).br = s.br ∧ (s.relabel q r).env.turns = [] ∧
    (s.relabel q r).env.result = r :=
  ⟨rfl, rfl, rfl, rfl, rfl, rfl, rfl, rfl, rfl, rfl, rfl, rfl, rfl, rfl, rfl, rfl, rfl, rfl, rfl⟩

@[simp] theorem tbByte_relabel (q : Sequencer) (r : OpResult) (s : State) (a : Nat) :
    (s.relabel q r).tbByte a = s.tbByte a := rfl

/-- The bits of `IN` are read off its bytes. -/
theorem inBits_congr {s t : State} (h : ∀ a, s.inByte a = t.inByte a) (n q : Nat) : s.inBits q n = t.inBits q n := by
  induction n generalizing q with
  | zero => rfl
  | succ n ih => simp only [State.inBits, ih, State.inBit, h]

theorem countFrom_relabel (q : Sequencer) (r : OpResult) (s : State) (n i : Nat) (f : Table Nat) :
    (s.relabel q r).countFrom i n f = s.countFrom i n f := by
  induction n generalizing i f with
  | zero => rfl
  | succ n ih => simp only [State.countFrom, ih, tbByte_relabel]

theorem runFrom_relabel (q : Sequencer) (r : OpResult) (s : State) (d n k : Nat) :
    (s.relabel q r).runFrom d k n = s.runFrom d k n := by
  induction n generalizing k with
  | zero => rfl
  | succ n ih => simp only [State.runFrom, ih]; rfl

theorem searchFrom_relabel (q : Sequencer) (r : OpResult) (s : State) (n d : Nat) (best : Nat × Nat) :
    (s.relabel q r).searchFrom d n best = s.searchFrom d n best := by
  have hc : ∀ d, (s.relabel q r).candidate d = s.candidate d := fun d => runFrom_relabel q r s d _ 0
  induction n generalizing d best with
  | zero => rfl
  | succ n ih => simp only [State.searchFrom, ih, hc]

theorem bestMatch_relabel (q : Sequencer) (r : OpResult) (s : State) : (s.relabel q r).bestMatch = s.bestMatch :=
  searchFrom_relabel q r s _ 1 _

/-- The answer of an operation with its state relabelled. -/
def relabelResult (q : Sequencer) (r : OpResult) : EStateM.Result Stop State α → EStateM.Result Stop State α
  | .ok a t => .ok a (t.relabel q r)
  | .error e t => .error e (t.relabel q r)

/-- `x` does the same whatever the sequencer, the turns and the latest result, and leaves them as they are. -/
def Op.Blind (x : Op α) : Prop := ∀ q r s, x (s.relabel q r) = relabelResult q r (x s)

namespace Op.Blind

theorem bind {x : Op α} {f : α → Op β} (hx : Op.Blind x) (hf : ∀ a, Op.Blind (f a)) : Op.Blind (x >>= f) := by
  intro q r s
  have h := hx q r s
  cases hs : x s with
  | ok a t => rw [hs] at h; rw [bind_ok h, bind_ok hs]; exact hf a q r t
  | error e t => rw [hs] at h; rw [bind_error h, bind_error hs]; rfl

theorem pure (a : α) : Op.Blind (pure a : Op α) := fun _ _ _ => rfl

theorem raise (e : ErrKind) : Op.Blind (raise e : Op α) := fun _ _ _ => rfl

theorem refuse (r : Refusal) : Op.Blind (refuse r : Op α) := fun _ _ _ => rfl

theorem ite {c : Prop} [Decidable c] {x y : Op α} (hx : Op.Blind x) (hy : Op.Blind y) :
    Op.Blind (if c then x else y) := by split <;> assumption

theorem check (c : Prop) [Decidable c] (e : ErrKind) : Op.Blind (check c e) := .ite (.pure _) (.raise e)

theorem need (c : Prop) [Decidable c] (op : String) : Op.Blind (need c op) := .ite (.pure _) (.refuse _)

/-- A write commutes with the relabelling. -/
theorem upd {f : State → State} (h : ∀ q r s, f (s.relabel q r) = (f s).relabel q r) : Op.Blind (upd f) :=
  fun q r s => congrArg (EStateM.Result.ok ()) (h q r s)

/-- Reading the state and going on with what is not the sequencer's. -/
theorem looked {f : State → Op β} (h : ∀ q r s, f (s.relabel q r) = f s) (hf : ∀ s, Op.Blind (f s)) :
    Op.Blind (look id >>= f) := by
  intro q r s
  rw [look_bind, look_bind, id_eq, id_eq, h]
  exact hf s q r s

-- Shared operations -----------------------------------------------------------------------------------------------------

theorem outAppend (v : Byte) : Op.Blind (outAppend v) :=
  .looked (fun _ _ _ => rfl) fun _ => .bind (.check _ _) fun _ => .upd fun _ _ _ => rfl

theorem tbAppend (v : Byte) : Op.Blind (tbAppend v) :=
  .looked (fun _ _ _ => rfl) fun _ => .bind (.check _ _) fun _ => .upd fun _ _ _ => rfl

theorem winInit : Op.Blind winInit := .upd fun _ _ _ => rfl

theorem winPut (b : Byte) : Op.Blind (winPut b) := .upd fun _ _ _ => rfl

theorem winGet (d : Nat) : Op.Blind (winGet d) :=
  .looked (fun _ _ _ => rfl) fun _ => .bind (.need _ _) fun _ => .pure _

theorem bwInit : Op.Blind bwInit := .upd fun _ _ _ => rfl

theorem bwFlushByte : Op.Blind bwFlushByte :=
  .looked (fun _ _ _ => rfl) fun _ => .bind (.outAppend _) fun _ => .upd fun _ _ _ => rfl

theorem bwPutBit (b : Bool) : Op.Blind (bwPutBit b) :=
  .bind (.upd fun _ _ _ => rfl) fun _ =>
    .looked (fun _ _ _ => rfl) fun _ => .ite .bwFlushByte (.upd fun _ _ _ => rfl)

theorem bwPutAll (bs : Bits) : Op.Blind (bwPutAll bs) := by
  induction bs with
  | nil => exact .pure _
  | cons b bs ih => exact .bind (.bwPutBit b) fun _ => ih

theorem bwAlign : Op.Blind bwAlign := .looked (fun _ _ _ => rfl) fun _ => .ite .bwFlushByte (.pure _)

theorem putPadded (bits : Bits) : Op.Blind (putPadded bits) := .bind (.bwPutAll _) fun _ => .bwAlign

theorem bwPutCode (v : Byte) : Op.Blind (bwPutCode v) :=
  .looked (fun _ _ _ => rfl) fun s => by
    cases tableGet s.code v.toNat with
    | none => exact .pure _
    | some bits => exact .bwPutAll bits

theorem brInit (start limit : Nat) (err : ErrKind) : Op.Blind (brInit start limit err) :=
  .looked (fun _ _ _ => rfl) fun _ => .bind (.need _ _) fun _ => .upd fun _ _ _ => rfl

theorem brGetBit : Op.Blind brGetBit :=
  .looked (fun _ _ _ => rfl) fun _ => .ite (.raise _) (.bind (.upd fun _ _ _ => rfl) fun _ => .pure _)

theorem brGetBitsFrom (n v : Nat) : Op.Blind (brGetBitsFrom n v) := by
  induction n generalizing v with
  | zero => exact .pure _
  | succ n ih => exact .bind .brGetBit fun b => ih _

-- Window, match finder, token codec -------------------------------------------------------------------------------------

theorem mfSearch : Op.Blind mfSearch := .upd fun q r s => by rw [bestMatch_relabel]; rfl

theorem appendInput (k n : Nat) : Op.Blind (appendInput k n) := by
  induction n generalizing k with
  | zero => exact .pure _
  | succ n ih => exact .looked (fun _ _ _ => rfl) fun _ => .bind (.winPut _) fun _ => ih _

theorem advanceCur (n : Nat) : Op.Blind (advanceCur n) := .upd fun _ _ _ => rfl

theorem mfStep : Op.Blind mfStep :=
  .looked (fun _ _ _ => rfl) fun _ => .bind (.need _ _) fun _ => .bind .mfSearch fun _ =>
    .looked (fun _ _ _ => rfl) fun _ =>
      .ite (.bind (.appendInput _ _) fun _ => .bind (.advanceCur _) fun _ => .pure _)
        (.bind (.winPut _) fun _ => .bind (.advanceCur _) fun _ => .pure _)

theorem replayLoop (offset n : Nat) : Op.Blind (replayLoop offset n) := by
  induction n with
  | zero => exact .pure _
  | succ n ih => exact .bind (.winGet _) fun _ => .bind (.outAppend _) fun _ => .bind (.winPut _) fun _ => ih

theorem replayMatch (offset length : Nat) : Op.Blind (replayMatch offset length) :=
  .looked (fun _ _ _ => rfl) fun _ => .bind (.need _ _) fun _ => .replayLoop _ _

theorem replayLiteral (b : Byte) : Op.Blind (replayLiteral b) := .bind (.outAppend _) fun _ => .winPut _

theorem teInit : Op.Blind teInit := .upd fun _ _ _ => rfl

theorem appendStaged (i n : Nat) : Op.Blind (appendStaged i n) := by
  induction n generalizing i with
  | zero => exact .pure _
  | succ n ih => exact .looked (fun _ _ _ => rfl) fun _ => .bind (.tbAppend _) fun _ => ih _

theorem teFlush : Op.Blind teFlush :=
  .looked (fun _ _ _ => rfl) fun _ => .ite
    (.bind (.tbAppend _) fun _ => .bind (.appendStaged _ _) fun _ => .upd fun _ _ _ => rfl) (.pure _)

theorem teCount : Op.Blind teCount :=
  .bind (.upd fun _ _ _ => rfl) fun _ => .looked (fun _ _ _ => rfl) fun _ => .ite .teFlush (.pure _)

theorem tePutLiteral (b : Byte) : Op.Blind (tePutLiteral b) := .bind (.upd fun _ _ _ => rfl) fun _ => .teCount

theorem tePutMatch (offset length : Nat) : Op.Blind (tePutMatch offset length) :=
  .bind (.upd fun _ _ _ => rfl) fun _ => .teCount

theorem tePutToken (t : Token) : Op.Blind (tePutToken t) := by
  cases t with
  | lit b => exact .tePutLiteral b
  | mat o l => exact .tePutMatch o l

theorem advanceTp (n : Nat) : Op.Blind (advanceTp n) := .upd fun _ _ _ => rfl

theorem acceptFlag (v : Byte) : Op.Blind (acceptFlag v) :=
  .bind (.upd fun _ _ _ => rfl) fun _ => .looked (fun _ _ _ => rfl) fun _ => .check _ _

theorem tdFlag : Op.Blind tdFlag := .looked (fun _ _ _ => rfl) fun _ => .bind (.need _ _) fun _ => .acceptFlag _

theorem tdLiteral : Op.Blind tdLiteral :=
  .looked (fun _ _ _ => rfl) fun _ => .bind (.need _ _) fun _ => .bind (.advanceTp _) fun _ => .replayLiteral _

theorem tdMatch : Op.Blind tdMatch :=
  .looked (fun _ _ _ => rfl) fun _ => .bind (.need _ _) fun _ => .bind (.check _ _) fun _ =>
    .bind (.advanceTp _) fun _ => .looked (fun _ _ _ => rfl) fun _ => .bind (.check _ _) fun _ => .replayMatch _ _

theorem tdToken (i : Nat) : Op.Blind (tdToken i) := .looked (fun _ _ _ => rfl) fun _ => .ite .tdLiteral .tdMatch

-- Huffman coder, archive ------------------------------------------------------------------------------------------------

theorem hfCount : Op.Blind hfCount := .upd fun q r s => by rw [countFrom_relabel]; rfl

theorem hfBuild : Op.Blind hfBuild := .upd fun _ _ _ => rfl

theorem hfCodegen : Op.Blind hfCodegen := .upd fun _ _ _ => rfl

theorem hfSerTree : Op.Blind hfSerTree :=
  .looked (fun _ _ _ => rfl) fun _ => .bind (.upd fun _ _ _ => rfl) fun _ => .pure _

theorem encodeFrom (i n : Nat) : Op.Blind (encodeFrom i n) := by
  induction n generalizing i with
  | zero => exact .pure _
  | succ n ih => exact .looked (fun _ _ _ => rfl) fun _ => .bind (.bwPutCode _) fun _ => ih _

theorem hfEncode : Op.Blind hfEncode := .looked (fun _ _ _ => rfl) fun _ => .encodeFrom _ _

theorem allocNode : Op.Blind allocNode :=
  .looked (fun _ _ _ => rfl) fun _ => .bind (.check _ _) fun _ => .bind (.upd fun _ _ _ => rfl) fun _ => .pure _

theorem readNode : Op.Blind readNode :=
  .bind .allocNode fun _ => .bind .brGetBit fun b => by
    cases b
    · exact .upd fun _ _ _ => rfl
    · exact .bind (.brGetBitsFrom _ _) fun _ => .upd fun _ _ _ => rfl

theorem setWalk (i : Nat) : Op.Blind (setWalk i) := .upd fun _ _ _ => rfl

theorem putSymbol (v : Byte) : Op.Blind (putSymbol v) := .upd fun _ _ _ => rfl

theorem walkDown (n : Nat) : Op.Blind (walkDown n) := by
  induction n with
  | zero => exact .pure _
  | succ n ih =>
    exact .looked (fun _ _ _ => rfl) fun s => by
      cases s.tree.at s.walker.walk with
      | leaf v k => exact .pure _
      | internal l r k => exact .bind .brGetBit fun _ => .bind (.setWalk _) fun _ => ih

theorem readSymbol (root : Nat) : Op.Blind (readSymbol root) :=
  .looked (fun _ _ _ => rfl) fun s => by
    cases s.tree.at root with
    | leaf v k => exact .bind .brGetBit fun _ => .putSymbol _
    | internal l r k =>
      exact .bind (.setWalk _) fun _ => .bind (.walkDown _) fun _ =>
        .looked (fun _ _ _ => rfl) fun _ => .putSymbol _

theorem checkMagic : Op.Blind checkMagic := .looked (fun _ _ _ => rfl) fun _ => .check _ _

theorem acceptTokenLen (n : Nat) : Op.Blind (acceptTokenLen n) := .upd fun _ _ _ => rfl

theorem acceptTreeBitLen (n : Nat) : Op.Blind (acceptTreeBitLen n) :=
  .bind (.upd fun _ _ _ => rfl) fun _ => .looked (fun _ _ _ => rfl) fun _ => .check _ _

end Op.Blind

end Sys2Proof.Machine

/-! The stepwise run of a call follows the whole run: one rule for each thing the sequencer can do next. -/

namespace Sys2Proof.Machine

variable {α : Type}

theorem stepMany_succ {s s' : State} (n : Nat) (h : step s = .next s') : stepMany (n + 1) s = stepMany n s' := by
  simp only [stepMany, h]

/-- With no turn scheduled a step is the engine's turn. -/
theorem step_relabel (q : Sequencer) (r : OpResult) (s : State) :
    step (s.relabel q r) = engineTurn exec (s.relabel q r) := rfl

/-- After finitely many steps `u` is idle with no turn left, and shows the host what `t` shows. -/
def Finishes (u t : State) : Prop :=
  ∃ n w, stepMany n u = .next w ∧ w.env.turns = [] ∧ w.seq.phase = .idle ∧ w.host = t.host ∧ w.result = t.result

theorem Finishes.step {u u' t : State} (h : Machine.step u = .next u') (hf : Finishes u' t) : Finishes u t := by
  obtain ⟨n, w, hn, hw⟩ := hf
  exact ⟨n + 1, w, by rw [stepMany_succ n h, hn], hw⟩

theorem Finishes.now {u t : State} (hturns : u.env.turns = []) (hidle : u.seq.phase = .idle) (hhost : u.host = t.host)
    (hres : u.result = t.result) : Finishes u t := ⟨0, u, rfl, hturns, hidle, hhost, hres⟩

theorem Finishes.takeError (q : Sequencer) (r : OpResult) (s : State) (e : ErrKind) :
    Finishes ((s.relabel q r).takeError e) (s.takeError e) := .now rfl rfl rfl rfl

theorem Finishes.endOk (q : Sequencer) (r : OpResult) (s : State) : Finishes ((s.relabel q r).endOk) s.endOk :=
  .now rfl rfl rfl rfl

/-- The stepwise run from `u` ends as what is left of the whole run, if that answers a next state. -/
def Follows (u : State) : EStateM.Result Stop State Unit → Prop
  | .ok _ t => Finishes u t
  | .error (.err e) t => Finishes u (t.takeError e)
  | .error (.refuse _) _ => True

theorem Follows.finishes {u s t : State} {x : Op Unit} (h : Follows u (x s)) (hx : runOp x s = .next t) :
    Finishes u t := by
  rcases runOp_eq_next.1 hx with ho | ⟨e, v, ho, rfl⟩ <;> rw [ho] at h <;> exact h

theorem Follows.step {u u' : State} {o : EStateM.Result Stop State Unit} (h : Machine.step u = .next u')
    (hf : Follows u' o) : Follows u o := by
  match o, hf with
  | .ok _ _, hf => exact Finishes.step h hf
  | .error (.err _) _, hf => exact Finishes.step h hf
  | .error (.refuse _) _, _ => exact trivial

section Rules

variable {s : State} {q : Sequencer} {r : OpResult} {i : Instr} {p : Phase} {l : Line} {e : ErrKind}
  {o : EStateM.Result Stop State Unit}

theorem Follows.move (hf : fetch (s.relabel q r) = .move p l) (h : Follows ((s.relabel q r).goTo p l) o) :
    Follows (s.relabel q r) o :=
  .step (by rw [step_relabel, engineTurn, hf]) h

theorem Follows.raise {t : State} (hf : fetch (s.relabel q r) = .raise e) (ho : o = .error (.err e) t)
    (hh : t.host = s.host) : Follows (s.relabel q r) o := by
  subst ho
  refine .step (u' := (s.relabel q r).takeError e) (by rw [step_relabel, engineTurn, hf]) ?_
  exact Finishes.now rfl rfl (by simp [hh]) rfl

theorem Follows.done (hf : fetch (s.relabel q r) = .done) : Follows (s.relabel q r) (endCall s) :=
  .step (u' := (s.relabel q r).endOk) (by rw [step_relabel, engineTurn, hf]) (Finishes.endOk q r s)

/-- An operation that has taken an error ends the call (R246). -/
theorem afterRun_takeError (p : Phase) (l : Line) (t : State) (e : ErrKind) :
    afterRun p l (.next (t.takeError e)) = .next (t.takeError e) := by
  simp [afterRun]

/-- An operation that has not gives the turn to the next one. -/
theorem afterRun_relabel (hq : q.phase ≠ .idle) (p : Phase) (l : Line) (t : State) :
    afterRun p l (.next (t.relabel q r)) = .next ((t.relabel q r).goTo p l) := if_neg hq

/-- The sequencer executes the operation `x` that the whole call executes next, keeps what it returned as `f` has it, and goes
on. -/
theorem Follows.executed {x : Op α} {f : α → OpResult} {k : α → Op Unit} (hq : q.phase ≠ .idle)
    (hf : fetch (s.relabel q r) = .run i p l) (hx : Op.Blind x)
    (hok : ∀ a (t : State), x (s.relabel q r) = .ok a (t.relabel q r) → exec i (s.relabel q r) = .next (t.relabel q (f a)))
    (herr : ∀ e (t : State), x (s.relabel q r) = .error (.err e) t → exec i (s.relabel q r) = .next (t.takeError e))
    (hk : ∀ a s', x s = .ok a s' → Follows ((s'.relabel q (f a)).goTo p l) (k a s')) :
    Follows (s.relabel q r) ((x >>= k) s) := by
  have hb := hx q r s
  have hstep : Machine.step (s.relabel q r) = afterRun p l (exec i (s.relabel q r)) := by
    rw [step_relabel, engineTurn, hf]
  cases hs : x s with
  | ok a s' =>
    rw [hs] at hb
    rw [bind_ok hs]
    exact .step (by rw [hstep, hok a s' hb, afterRun_relabel hq]) (hk a s' hs)
  | error st s' =>
    rw [hs] at hb
    rw [bind_error hs]
    cases st with
    | refuse c => exact trivial
    | err e =>
      exact .step (o := .error (.err e) s') (by rw [hstep, herr e _ hb, afterRun_takeError]) (Finishes.takeError q r s' e)

theorem Follows.run {x : Op Unit} {k : Unit → Op Unit} (hq : q.phase ≠ .idle)
    (hf : fetch (s.relabel q r) = .run i p l) (hi : exec i (s.relabel q r) = runOp x (s.relabel q r))
    (hx : Op.Blind x) (hk : ∀ s', x s = .ok () s' → Follows ((s'.relabel q r).goTo p l) (k () s')) :
    Follows (s.relabel q r) ((x >>= k) s) :=
  .executed (f := fun _ => r) hq hf hx (fun _ _ h => by rw [hi, runOp_of_ok h]) (fun _ _ h => by rw [hi, runOp_of_err h])
    fun _ => hk

theorem Follows.runRes {x : Op α} {f : α → OpResult} {k : α → Op Unit} (hq : q.phase ≠ .idle)
    (hf : fetch (s.relabel q r) = .run i p l) (hi : exec i (s.relabel q r) = Machine.runRes x f (s.relabel q r))
    (hx : Op.Blind x) (hk : ∀ a s', x s = .ok a s' → Follows ((s'.relabel q (f a)).goTo p l) (k a s')) :
    Follows (s.relabel q r) ((x >>= k) s) :=
  .executed hq hf hx (fun _ _ h => by rw [hi, runRes_of_ok h]; rfl) (fun _ _ h => by rw [hi, runRes_of_err h]) hk

/-- In `u` the sequencer does what `x` does there: it executes it, or raises the error `x` raises, or `x` has no meaning. -/
def Fetches (u : State) (x : Op Unit) (p : Phase) (l : Line) : Prop :=
  (∃ i, fetch u = .run i p l ∧ exec i u = runOp x u) ∨
    (∃ e t, fetch u = .raise e ∧ x u = .error (.err e) t ∧ t.host = u.host) ∨ ∃ c t, x u = .error (.refuse c) t

theorem Follows.fetched {x : Op Unit} {k : Unit → Op Unit} (hq : q.phase ≠ .idle) (h : Fetches (s.relabel q r) x p l)
    (hx : Op.Blind x) (hk : ∀ s', x s = .ok () s' → Follows ((s'.relabel q r).goTo p l) (k () s')) :
    Follows (s.relabel q r) ((x >>= k) s) := by
  have hb := hx q r s
  rcases h with ⟨i, hf, hi⟩ | ⟨e, t, hf, ht, hh⟩ | ⟨c, t, ht⟩
  · exact .run hq hf hi hx hk
  · cases hs : x s with
    | ok a s' => rw [hs, ht] at hb; cases hb
    | error e' s' =>
      rw [hs, ht] at hb
      cases hb
      exact .raise hf (bind_error hs) hh
  · cases hs : x s with
    | ok a s' => rw [hs, ht] at hb; cases hb
    | error e' s' =>
      rw [hs, ht] at hb
      cases hb
      rw [bind_error hs]
      exact trivial

/-- A change of phase in the whole call: the sequencer has made it on the way. -/
theorem Follows.setPhase {k : Unit → Op Unit}
    (h : Follows ((s.setSeq ⟨p, .start⟩).relabel q r) (k () (s.setSeq ⟨p, .start⟩))) :
    Follows (s.relabel q r) ((Machine.setPhase p >>= k) s) := h

end Rules

-- Format elements (log entry 8) --------------------------------------------------------------------------------------------

/-- While formats are written an element is written. -/
theorem runOp_writeOrRead_writes {s : State} (h : s.seq.phase.writes = true) (x y : Op Unit) :
    runOp (writeOrRead x y) s = runOp x s := by
  unfold runOp writeOrRead
  rw [look_bind, id_eq, if_pos h]

/-- While formats are read an element is read. -/
theorem runOp_writeOrRead_reads {s : State} (h : s.seq.phase.writes = false) (x y : Op Unit) :
    runOp (writeOrRead x y) s = runOp y s := by
  unfold runOp writeOrRead
  rw [look_bind, id_eq, h]
  rfl

theorem runOp_congr {x y : Op Unit} {s : State} (h : x s = y s) : runOp x s = runOp y s := by unfold runOp; rw [h]

end Sys2Proof.Machine

/-! A compression run one operation at a time follows the whole one (R223). -/

namespace Sys2Proof.Machine

-- Archive (R201) ----------------------------------------------------------------------------------------------------------

/-- What the bit writer keeps: all but `OUT` and itself. -/
theorem bwPutAll_keeps {P : State → Prop} (hout : ∀ s x, P s → P (s.setOut x)) (hbw : ∀ s x, P s → P (s.setBw x))
    (bs : Bits) : Op.Keeps P (bwPutAll bs) := by
  have hflush : Op.Keeps P bwFlushByte :=
    .bind (.look _) fun _ => .bind (.bind (.look _) fun _ => .bind (.check _ _) fun _ => .upd fun s => hout s _) fun _ =>
      .upd fun s => hbw s _
  induction bs with
  | nil => exact .pure _
  | cons b bs ih =>
    exact .bind (.bind (.upd fun s => hbw s _) fun _ => .bind (.look _) fun _ => .ite hflush (.upd fun s => hbw s _))
      fun _ => ih

/-- The serialized tree, its length and the stream stay as they are while the bit writer writes. -/
theorem bwPutAll_frame {bs : Bits} {s t : State} (h : bwPutAll bs s = .ok () t) :
    t.tbl = s.tbl ∧ t.tree = s.tree :=
  (bwPutAll_keeps (P := fun t => t.tbl = s.tbl ∧ t.tree = s.tree) (fun _ _ h => h) (fun _ _ h => h) bs).ok ⟨rfl, rfl⟩ h

/-- `MAGIC` in one piece (R86) and byte by byte (R201). -/
theorem bwPutBits_magic (k : Unit → Op Unit) (s : State) :
    (bwPutBits Config.magic0.toNat 8 >>= fun _ => bwPutBits Config.magic1.toNat 8 >>= k) s =
      (bwPutBits Config.magicWord 16 >>= k) s := by
  have hbits : natBits 16 Config.magicWord = natBits 8 Config.magic0.toNat ++ natBits 8 Config.magic1.toNat := by decide
  have h : bwPutBits Config.magicWord 16 = bwPutBits Config.magic0.toNat 8 >>= fun _ => bwPutBits Config.magic1.toNat 8 := by
    funext s
    show bwPutAll _ s = _
    rw [hbits, bwPutAll_append]
    rfl
  rw [h, bind_assoc]

/-- A field of 32 bits takes the low 32 bits of its number (R103). -/
theorem natBits_ofNat (v n : Nat) (hn : n ≤ 32) : natBits n (BitVec.ofNat 32 v).toNat = natBits n v := by
  induction n with
  | zero => rfl
  | succ n ih =>
    have ht : (BitVec.ofNat 32 v).toNat.testBit n = v.testBit n := by
      rw [BitVec.toNat_ofNat, Nat.testBit_mod_two_pow]
      simp [show n < 32 by omega]
    rw [natBits, natBits, ih (by omega), ht]

theorem bwPutBits_ofNat (v : Nat) : bwPutBits (BitVec.ofNat 32 v).toNat 32 = bwPutBits v 32 :=
  congrArg bwPutAll (natBits_ofNat v 32 (Nat.le_refl _))

/-- The payload and the end of the call. -/
theorem payload_follows (s : State) (r : OpResult) : Follows (s.relabel ⟨.cPack, .payload⟩ r)
    ((hfEncode >>= fun _ => bwAlign >>= fun _ => endCall) s) :=
  .run (by decide) rfl rfl .hfEncode fun _ _ =>
    .run (p := .cPack) (l := .finish) (by decide) rfl rfl .bwAlign fun _ _ => .done rfl

/-- The header fields and the tree field. -/
theorem fields_follow (s : State) (r : OpResult) (k : Op Unit)
    (hk : ∀ s' r, Follows (s'.relabel ⟨.cPack, .payload⟩ r) (k s')) :
    Follows (s.relabel ⟨.cPack, .tokenLen⟩ r)
      ((bwPutBits s.tb.len 32 >>= fun _ => bwPutBits s.tbl 32 >>= fun _ =>
        putPadded (serTree s.tree.shape) >>= fun _ => k) s) := by
  refine .run (i := .tokenLen (BitVec.ofNat 32 s.tb.len)) (p := .cPack) (l := .treeBitLen) (by decide) rfl
    ((runOp_writeOrRead_writes rfl _ _).trans (by rw [bwPutBits_ofNat])) (.bwPutAll _) fun s₁ h₁ => ?_
  obtain ⟨htbl, htree⟩ := bwPutAll_frame h₁
  refine .run (i := .treeBitLen (BitVec.ofNat 32 s₁.tbl)) (p := .cPack) (l := .treeBits) (q := ⟨.cPack, .treeBitLen⟩)
    (by decide) rfl ((runOp_writeOrRead_writes rfl _ _).trans (by rw [bwPutBits_ofNat, htbl])) (.bwPutAll _) fun s₂ h₂ => ?_
  obtain ⟨-, htree'⟩ := bwPutAll_frame h₂
  have htree'' : s₂.tree = s.tree := htree'.trans htree
  exact .run (i := .treeBits (serTree s₂.tree.shape)) (p := .cPack) (l := .payload) (q := ⟨.cPack, .treeBits⟩)
    (by decide) rfl ((runOp_writeOrRead_writes rfl _ _).trans (by rw [htree''])) (.putPadded _) fun s₃ _ => hk s₃ r

/-- `AR_PACK` with its last operations apart. -/
theorem arPack_bind (k : Unit → Op Unit) : arPack >>= k =
    hfSerTree >>= fun tree => bwInit >>= fun _ => bwPutBits Config.magic0.toNat 8 >>= fun _ =>
      bwPutBits Config.magic1.toNat 8 >>= fun _ => look id >>= fun s => bwPutBits s.tb.len 32 >>= fun _ =>
        bwPutBits s.tbl 32 >>= fun _ => putPadded tree >>= fun _ => hfEncode >>= fun _ => bwAlign >>= k := by
  simp only [arPack, putPadded, bind_assoc]

theorem arPack_follows (s : State) (r : OpResult) : Follows (s.relabel ⟨.cPack, .start⟩ r)
    ((arPack >>= fun _ => endCall) s) := by
  rw [arPack_bind]
  refine .runRes (p := .cPack) (l := .bwInit) (by decide) rfl rfl .hfSerTree fun tree s₁ h₁ => ?_
  obtain ⟨rfl, rfl⟩ : tree = serTree s.tree.shape ∧ s₁ = s.setTbl (serTree s.tree.shape).length := by
    rw [hfSerTree_apply] at h₁; cases h₁; exact ⟨rfl, rfl⟩
  refine .run (p := .cPack) (l := .magic) (q := ⟨.cPack, .bwInit⟩) (by decide) rfl rfl .bwInit fun s₂ h₂ => ?_
  have htree : s₂.tree = s.tree := by rw [bwInit_apply] at h₂; cases h₂; rfl
  rw [bwPutBits_magic]
  refine .run (i := .magic) (p := .cPack) (l := .tokenLen) (q := ⟨.cPack, .magic⟩) (by decide) rfl
    (runOp_writeOrRead_writes rfl _ _) (.bwPutAll _) fun s₃ h₃ => ?_
  obtain ⟨-, htree'⟩ := bwPutAll_frame h₃
  have htree'' : s.tree = s₃.tree := (htree'.trans htree).symm
  rw [look_bind, id_eq, htree'']
  exact fields_follow s₃ _ _ payload_follows

-- Tokens (R129, R223) -----------------------------------------------------------------------------------------------------

/-- The token encoder keeps the cursor and the input. -/
theorem tePutToken_keeps {P : State → Prop} (htb : ∀ s x, P s → P (s.setTb x)) (henc : ∀ s x, P s → P (s.setEnc x))
    (t : Token) : Op.Keeps P (tePutToken t) := by
  have happend : ∀ v, Op.Keeps P (tbAppend v) := fun v =>
    .bind (.look _) fun _ => .bind (.check _ _) fun _ => .upd fun s => htb s _
  have hstaged : ∀ n i, Op.Keeps P (appendStaged i n) := by
    intro n
    induction n with
    | zero => exact fun _ => .pure _
    | succ n ih => exact fun i => .bind (.look _) fun _ => .bind (happend _) fun _ => ih _
  have hflush : Op.Keeps P teFlush := .bind (.look _) fun _ => .ite
    (.bind (happend _) fun _ => .bind (hstaged _ _) fun _ => .upd fun s => henc s _) (.pure _)
  have hcount : Op.Keeps P teCount :=
    .bind (.upd fun s => henc s _) fun _ => .bind (.look _) fun _ => .ite hflush (.pure _)
  cases t with
  | lit b => exact .bind (.upd fun s => henc s _) fun _ => hcount
  | mat o l => exact .bind (.upd fun s => henc s _) fun _ => hcount

theorem tePutToken_frame {tk : Token} {s t : State} (h : tePutToken tk s = .ok () t) :
    t.host = s.host ∧ t.finder = s.finder :=
  (tePutToken_keeps (P := fun t => t.host = s.host ∧ t.finder = s.finder) (fun _ _ h => h) (fun _ _ h => h) tk).ok
    ⟨rfl, rfl⟩ h

/-- `MF_STEP` consumes at least one byte (R128, R232). -/
theorem mfStep_advances {s t : State} {tk : Token} (h : mfStep s = .ok tk t) :
    t.host = s.host ∧ s.finder.cur < t.finder.cur := by
  simp only [mfStep, look_bind, need_bind, id_eq] at h
  split at h
  · rw [bind_ok (mfSearch_apply s)] at h
    simp only [look_bind, id_eq] at h
    split at h
    · next hm =>
      rw [bind_ok (appendInput_apply _ _ _)] at h
      cases h
      exact ⟨rfl, Nat.lt_add_of_pos_right (Nat.lt_of_lt_of_le (by decide) hm)⟩
    · cases h
      exact ⟨rfl, Nat.lt_succ_self _⟩
  · cases h

theorem tokenLoop_follows (k : Op Unit) (hk : ∀ s r, ¬ s.finder.cur < s.host.inLen →
      Follows (s.relabel ⟨.cTokens, .tokens⟩ r) (k s)) (fuel : Nat) (s : State) (r : OpResult)
    (hfuel : s.host.inLen ≤ s.finder.cur + fuel) :
    Follows (s.relabel ⟨.cTokens, .tokens⟩ r) ((tokenLoop fuel >>= fun _ => k) s) := by
  induction fuel generalizing s r with
  | zero => exact hk s r (by omega)
  | succ fuel ih =>
    simp only [tokenLoop, bind_assoc, look_bind, id_eq]
    split
    · next hlt =>
      simp only [bind_assoc]
      refine .runRes (p := .cTokens) (l := .put) (by decide) (if_pos hlt) rfl .mfStep fun tk s₁ h₁ => ?_
      obtain ⟨hhost, hcur⟩ := mfStep_advances h₁
      have hput : ∃ i, fetch (s₁.relabel ⟨.cTokens, .put⟩ (.token tk)) = .run i .cTokens .tokens ∧
          exec i (s₁.relabel ⟨.cTokens, .put⟩ (.token tk)) =
            runOp (tePutToken tk) (s₁.relabel ⟨.cTokens, .put⟩ (.token tk)) := by
        cases tk with
        | lit b => exact ⟨_, rfl, rfl⟩
        | mat o l => exact ⟨_, rfl, rfl⟩
      obtain ⟨i, hf, hi⟩ := hput
      refine .run (by decide) hf hi (.tePutToken tk) fun s₂ h₂ => ih s₂ _ ?_
      obtain ⟨hhost', hfinder⟩ := tePutToken_frame h₂
      rw [hhost', hfinder, hhost]
      omega
    · next hge => exact hk s r hge

/-- The end of a compression: the last group, the frequencies, the tree, the codes and the archive. -/
theorem flush_follows (s : State) (r : OpResult) (h : ¬ s.finder.cur < s.host.inLen) :
    Follows (s.relabel ⟨.cTokens, .tokens⟩ r)
      ((teFlush >>= fun _ => setPhase .cCount >>= fun _ => hfCount >>= fun _ => setPhase .cBuild >>= fun _ =>
        hfBuild >>= fun _ => hfCodegen >>= fun _ => setPhase .cPack >>= fun _ => arPack >>= fun _ => endCall) s) := by
  refine .run (p := .cCount) (l := .start) (by decide) (if_neg h) rfl .teFlush fun s₁ _ => ?_
  refine .setPhase (q := ⟨.cCount, .start⟩) (r := r) ?_
  refine .run (p := .cBuild) (l := .start) (by decide) rfl rfl .hfCount fun s₂ _ => ?_
  refine .setPhase (q := ⟨.cBuild, .start⟩) (r := r) ?_
  refine .run (p := .cBuild) (l := .codegen) (by decide) rfl rfl .hfBuild fun s₃ _ => ?_
  refine .run (q := ⟨.cBuild, .codegen⟩) (p := .cPack) (l := .start) (by decide) rfl rfl .hfCodegen fun s₄ _ => ?_
  exact .setPhase (q := ⟨.cPack, .start⟩) (r := r) (arPack_follows _ _)

/-- A compression from its first phase on. `CUR <- 0` stands after TE_INIT in R223; the sequencer does it on the way there. -/
theorem compressBody_follows (s : State) (r : OpResult) : Follows (s.relabel ⟨.cTokens, .start⟩ r) (compressBody s) := by
  refine .run (p := .cTokens) (l := .teInit) (by decide) rfl rfl .winInit fun s₁ _ => ?_
  refine .run (x := teInit) (k := fun _ => look id >>= fun s => _) (s := s₁.setFinder { s₁.finder with cur := 0 })
    (q := ⟨.cTokens, .teInit⟩) (r := r) (p := .cTokens) (l := .tokens) (by decide) rfl rfl .teInit fun s₂ _ => ?_
  exact tokenLoop_follows _ flush_follows _ s₂ r (Nat.le_add_left _ _)

end Sys2Proof.Machine

/-! What `HF_DESER_TREE` leaves in the node store when it has closed the root: one tree of at most 256 leaves (R176, R177). -/

namespace Sys2Proof.Machine

/-- The tree stands in pre-order in exactly the entries from `i` up to `hi`. -/
def TreeStore.laidOut (t : TreeStore) : Tree → Nat → Nat → Prop
  | .leaf v, i, hi => hi = i + 1 ∧ ∃ k, t.at i = .leaf v k
  | .node l r, i, hi => ∃ m k, t.at i = .internal (i + 1) m k ∧ t.laidOut l (i + 1) m ∧ t.laidOut r m hi

/-- The open nodes, innermost first, with `n` entries allotted: on its left side a node was allotted last, on its right side its
left subtree fills the entries after it. -/
def TreeStore.openOk (t : TreeStore) : List (Nat × Bool) → Nat → Prop
  | [], _ => True
  | (j, false) :: rest, n => n = j + 1 ∧ t.openOk rest j
  | (j, true) :: rest, n => (∃ l, t.laidOut l (j + 1) n) ∧ t.openOk rest j

theorem laidOut_size {t : TreeStore} {tr : Tree} {i hi : Nat} (h : t.laidOut tr i hi) :
    hi + 1 = i + 2 * treeLeaves tr := by
  induction tr generalizing i hi with
  | leaf v => simp only [treeLeaves, h.1]
  | node l r hl hr =>
    obtain ⟨m, k, -, h₁, h₂⟩ := h
    have := hl h₁
    have := hr h₂
    simp only [treeLeaves]
    omega

theorem laidOut_lt {t : TreeStore} {tr : Tree} {i hi : Nat} (h : t.laidOut tr i hi) : i < hi := by
  have := laidOut_size h
  have := treeLeaves_pos tr
  omega

theorem laidOut_congr {t u : TreeStore} {tr : Tree} {i hi : Nat} (hu : ∀ j, i ≤ j → j < hi → u.at j = t.at j)
    (h : t.laidOut tr i hi) : u.laidOut tr i hi := by
  induction tr generalizing i hi with
  | leaf v =>
    obtain ⟨rfl, k, hk⟩ := h
    exact ⟨rfl, k, by rw [hu i (Nat.le_refl _) (Nat.lt_succ_self _), hk]⟩
  | node l r hl hr =>
    obtain ⟨m, k, he, h₁, h₂⟩ := h
    have := laidOut_lt h₁
    have := laidOut_lt h₂
    exact ⟨m, k, by rw [hu i (Nat.le_refl _) (by omega), he], hl (fun j _ _ => hu j (by omega) (by omega)) h₁,
      hr (fun j _ _ => hu j (by omega) (by omega)) h₂⟩

theorem holds_of_laidOut {t : TreeStore} {tr : Tree} {i hi : Nat} (h : t.laidOut tr i hi) : t.holds i tr := by
  induction tr generalizing i hi with
  | leaf v => exact h.2
  | node l r hl hr =>
    obtain ⟨m, k, he, h₁, h₂⟩ := h
    exact ⟨_, _, k, he, hl h₁, hr h₂⟩

theorem openOk_congr {t u : TreeStore} {st : List (Nat × Bool)} {n : Nat} (hu : ∀ j, j < n → u.at j = t.at j)
    (h : t.openOk st n) : u.openOk st n := by
  induction st generalizing n with
  | nil => exact trivial
  | cons e st ih =>
    obtain ⟨j, b⟩ := e
    cases b with
    | false => exact ⟨h.1, ih (fun k hk => hu k (by have := h.1; omega)) h.2⟩
    | true =>
      obtain ⟨⟨l, hl⟩, ho⟩ := h
      have := laidOut_lt hl
      exact ⟨⟨l, laidOut_congr (fun k _ hk => hu k hk) hl⟩, ih (fun k hk => hu k (by omega)) ho⟩

/-- The entries are all that counts. -/
theorem at_congr {t u : TreeStore} (hu : u.node = t.node) (j : Nat) : u.at j = t.at j := by
  simp only [TreeStore.at, hu]

theorem put_at (t : TreeStore) (i : Nat) (n : Node) (j : Nat) : (t.put i n).at j = if j = i then n else t.at j :=
  at_of_node_eq rfl

theorem close_ncnt (t : TreeStore) (i : Nat) (st : List (Nat × Bool)) : (t.close i st).ncnt = t.ncnt := by
  induction st generalizing t i with
  | nil => rfl
  | cons e st ih =>
    obtain ⟨j, b⟩ := e
    cases b with
    | false => rfl
    | true => exact ih _ j

/-- The store while a tree is read: no root yet, and the open nodes as `DSTK` has them. -/
structure TreeStore.Reading (t : TreeStore) : Prop where
  rootless : t.root = none
  opened : t.openOk t.dstk t.ncnt
  room : t.ncnt ≤ 511

/-- The end of a subtree in the last entries: the reading goes on, or the store holds its tree. -/
theorem close_reading {t : TreeStore} {st : List (Nat × Bool)} {i : Nat} {tr : Tree} (hroot : t.root = none)
    (hn : t.ncnt ≤ 511) (htr : t.laidOut tr i t.ncnt) (hst : t.openOk st i) :
    (t.close i st).Reading ∨ ∃ tr', (t.close i st).isTree (some tr') := by
  induction st generalizing t i tr with
  | nil =>
    have hsize := laidOut_size htr
    exact .inr ⟨tr, i, rfl, holds_of_laidOut (laidOut_congr (fun j _ _ => at_congr (t := t) rfl j) htr), by omega⟩
  | cons e st ih =>
    obtain ⟨j, b⟩ := e
    cases b with
    | false =>
      obtain ⟨rfl, ho⟩ := hst
      exact .inl ⟨hroot, ⟨⟨tr, laidOut_congr (fun j _ _ => at_congr (t := t) rfl j) htr⟩,
        openOk_congr (fun j _ => at_congr (t := t) rfl j) ho⟩, hn⟩
    | true =>
      obtain ⟨⟨l, hl⟩, ho⟩ := hst
      have hji := laidOut_lt hl
      refine ih (t := t.put j (.internal (j + 1) i none)) (i := j) (tr := .node l tr) hroot hn
        ⟨i, none, by simp [put_at], laidOut_congr (fun k hk _ => ?_) hl, laidOut_congr (fun k hk _ => ?_) htr⟩
        (openOk_congr (fun k hk => ?_) ho)
      all_goals rw [put_at, if_neg (by omega)]

/-- An internal node is opened in the next entry. -/
theorem reading_openNode {t : TreeStore} (h : t.Reading) (hn : t.ncnt < 511) :
    TreeStore.Reading { t with ncnt := t.ncnt + 1, dstk := (t.ncnt, false) :: t.dstk } :=
  ⟨h.rootless, ⟨rfl, openOk_congr (fun j _ => at_congr (t := t) rfl j) h.opened⟩, hn⟩

/-- A leaf is put in the next entry. -/
theorem reading_leafNode {t : TreeStore} (h : t.Reading) (hn : t.ncnt < 511) (v : Byte) :
    (TreeStore.close (TreeStore.put { t with ncnt := t.ncnt + 1 } t.ncnt (.leaf v none)) t.ncnt t.dstk).Reading ∨
      ∃ tr, (TreeStore.close (TreeStore.put { t with ncnt := t.ncnt + 1 } t.ncnt (.leaf v none)) t.ncnt t.dstk).isTree
        (some tr) :=
  close_reading (tr := .leaf v) h.rootless hn ⟨rfl, none, by simp [put_at]⟩
    (openOk_congr (fun j hj => by rw [put_at, if_neg (by omega)]; rfl) h.opened)

end Sys2Proof.Machine

/-! What the decoder reads from the bits at the readers' positions, in terms of the bytes there. -/

namespace Sys2Proof.Machine

-- Bit strings -----------------------------------------------------------------------------------------------------------

theorem takeBits_eq (n : Nat) (bs : Bits) :
    takeBits n bs = if n ≤ bs.length then some (bs.take n, bs.drop n) else none := by
  induction n generalizing bs with
  | zero => simp [takeBits]
  | succ n ih =>
    cases bs with
    | nil => simp [takeBits]
    | cons b bs =>
      simp only [takeBits, ih, List.length_cons, Nat.add_le_add_iff_right]
      by_cases h : n ≤ bs.length <;> simp [h]

/-- An element of a fixed width whose bits are all there, with nothing after them. -/
theorem fixedWidth_exact {n : Nat} {bs : Bits} (f : Nat → Except Reject Instr) (h : bs.length = n) :
    fixedWidth n f bs = (f (bitsNat bs)).map fun i => (i, []) := by
  subst h
  simp only [fixedWidth, takeBits_eq, Nat.le_refl, if_true, List.take_length, List.drop_length]
  cases f (bitsNat bs) <;> rfl

theorem fixedWidth_short {n : Nat} {bs : Bits} (f : Nat → Except Reject Instr) (h : bs.length < n) :
    fixedWidth n f bs = .error .truncated := by
  simp only [fixedWidth, takeBits_eq, if_neg (Nat.not_le.2 h)]

theorem bitsNatFrom_eq (acc : Nat) (bs : Bits) : bitsNatFrom acc bs = acc * 2 ^ bs.length + bitsNat bs := by
  induction bs generalizing acc with
  | nil => simp [bitsNatFrom, bitsNat]
  | cons b bs ih =>
    simp only [bitsNatFrom, bitsNat, ih (2 * acc + b.toNat), ih (2 * 0 + b.toNat), List.length_cons, Nat.pow_succ]
    ring

theorem bitsNat_append (xs ys : Bits) : bitsNat (xs ++ ys) = bitsNat xs * 2 ^ ys.length + bitsNat ys := by
  rw [← bitsNatFrom_eq]
  unfold bitsNat
  generalize 0 = acc
  induction xs generalizing acc with
  | nil => rfl
  | cons b xs ih => exact ih _

theorem natBits_length (n v : Nat) : (natBits n v).length = n := by
  induction n with
  | zero => rfl
  | succ n ih => simp [natBits, ih]

@[simp] theorem byteBits_length (b : Byte) : (byteBits b).length = 8 := natBits_length 8 _

theorem bitsNat_natBits (n v : Nat) : bitsNat (natBits n v) = v % 2 ^ n := by
  induction n with
  | zero => simp [natBits, bitsNat, bitsNatFrom, Nat.mod_one]
  | succ n ih =>
    have h := bitsNat_append [v.testBit n] (natBits n v)
    rw [List.singleton_append, natBits_length, ih] at h
    rw [natBits, h, Nat.mod_pow_succ, Nat.testBit_eq_decide_div_mod_eq]
    rcases Nat.mod_two_eq_zero_or_one (v / 2 ^ n) with h0 | h1
    · simp [h0, bitsNat, bitsNatFrom]
    · simp [h1, bitsNat, bitsNatFrom]; omega

@[simp] theorem bitsNat_byteBits (b : Byte) : bitsNat (byteBits b) = b.toNat := by
  rw [byteBits, bitsNat_natBits, Nat.mod_eq_of_lt b.isLt]

-- The bits of IN --------------------------------------------------------------------------------------------------------

theorem inBits_add (s : State) (q m n : Nat) : s.inBits q (m + n) = s.inBits q m ++ s.inBits (q + m) n := by
  induction m generalizing q with
  | zero => simp [State.inBits]
  | succ m ih => rw [Nat.succ_add]; simp only [State.inBits, ih, List.cons_append]; congr 3; omega

theorem inBits_byte (s : State) (a : Nat) : s.inBits (8 * a) 8 = byteBits (s.inByte a) := by
  have hbit : ∀ k, k < 8 → s.inBit (8 * a + k) = (s.inByte a).toNat.testBit (7 - k) := by
    intro k hk
    simp only [State.inBit, show (8 * a + k) / 8 = a by omega, show (8 * a + k) % 8 = k by omega]
    rfl
  simp only [State.inBits, byteBits, natBits, Nat.add_assoc]
  rw [hbit 1 (by decide), hbit 2 (by decide), hbit 3 (by decide), hbit 4 (by decide), hbit 5 (by decide),
    hbit 6 (by decide), hbit 7 (by decide), ← hbit 0 (by decide)]
  rfl

/-- Two bytes of the archive as bits. -/
theorem inBits_word (s : State) (a : Nat) :
    s.inBits (8 * a) 16 = byteBits (s.inByte a) ++ byteBits (s.inByte (a + 1)) := by
  rw [show 16 = 8 + 8 from rfl, inBits_add, inBits_byte, show 8 * a + 8 = 8 * (a + 1) by ring, inBits_byte]

/-- The big-endian field at a byte of the archive (R51). -/
theorem bitsNat_be32 (s : State) (a : Nat) : bitsNat (s.inBits (8 * a) 32) = s.be32 a := by
  rw [show 32 = 16 + 16 from rfl, inBits_add, inBits_word, show 8 * a + 16 = 8 * (a + 2) by ring, inBits_word]
  simp only [bitsNat_append, bitsNat_byteBits, List.length_append, byteBits_length, State.be32]
  ring

theorem be32_lt (s : State) (a : Nat) : s.be32 a < 2 ^ 32 := by
  have h0 := (s.inByte a).isLt
  have h1 := (s.inByte (a + 1)).isLt
  have h2 := (s.inByte (a + 2)).isLt
  have h3 := (s.inByte (a + 3)).isLt
  unfold State.be32
  omega

-- The header (R86 to R88) -----------------------------------------------------------------------------------------------

theorem magic_iff (b0 b1 : Byte) : b0.toNat * 2 ^ 8 + b1.toNat = Config.magicWord ↔ b0 = 0x43 ∧ b1 = 0x5A := by
  have h0 := b0.isLt
  have h1 := b1.isLt
  constructor
  · intro h
    change _ = 0x435A at h
    exact ⟨BitVec.eq_of_toNat_eq (show b0.toNat = 0x43 by omega), BitVec.eq_of_toNat_eq (show b1.toNat = 0x5A by omega)⟩
  · rintro ⟨rfl, rfl⟩; rfl

theorem decode_magic (s : State) : decode .magic (s.inBits 0 16) =
    if s.inByte 0 = 0x43 ∧ s.inByte 1 = 0x5A then .ok (.magic, []) else .error .badMagic := by
  have hn : bitsNat (s.inBits 0 16) = (s.inByte 0).toNat * 2 ^ 8 + (s.inByte 1).toNat := by
    rw [inBits_word s 0, bitsNat_append, bitsNat_byteBits, bitsNat_byteBits, byteBits_length]
  simp only [decode]
  rw [fixedWidth_exact _ (by simp), hn]
  simp only [magic_iff]
  split <;> rfl

theorem decode_tokenLen (s : State) : decode .tokenLen (s.inBits 16 32) = .ok (.tokenLen (BitVec.ofNat 32 (s.be32 2)), []) := by
  simp only [decode]
  rw [fixedWidth_exact _ (by simp), bitsNat_be32 s 2]
  rfl

theorem decode_treeBitLen (s : State) :
    decode .treeBitLen (s.inBits 48 32) = .ok (.treeBitLen (BitVec.ofNat 32 (s.be32 6)), []) := by
  simp only [decode]
  rw [fixedWidth_exact _ (by simp), bitsNat_be32 s 6]
  rfl

theorem toNat_be32 (s : State) (a : Nat) : (BitVec.ofNat 32 (s.be32 a)).toNat = s.be32 a := by
  rw [BitVec.toNat_ofNat, Nat.mod_eq_of_lt (be32_lt s a)]

-- Nodes (R83) -----------------------------------------------------------------------------------------------------------

theorem decode_nodeLeaf {bs : Bits} (h : bs.length = 8) :
    decode .node (true :: bs) = .ok (.nodeLeaf (BitVec.ofNat 8 (bitsNat bs)), []) := by
  simp only [decode]
  rw [fixedWidth_exact _ h]
  rfl

theorem decode_nodeLeaf_short {bs : Bits} (h : bs.length < 8) : decode .node (true :: bs) = .error .truncated := by
  simp only [decode]
  rw [fixedWidth_short _ h]

-- The stream (R76 to R78) -----------------------------------------------------------------------------------------------

theorem tbBits_one (s : State) (a : Nat) : s.tbBits a 1 = byteBits (s.tbByte a) := by
  simp [State.tbBits]

theorem tbBits_two (s : State) (a : Nat) : s.tbBits a 2 = byteBits (s.tbByte a) ++ byteBits (s.tbByte (a + 1)) := by
  simp [State.tbBits]

@[simp] theorem tbBits_length (s : State) (a n : Nat) : (s.tbBits a n).length = 8 * n := by
  induction n generalizing a with
  | zero => rfl
  | succ n ih => simp only [State.tbBits, List.length_append, byteBits_length, ih]; omega

theorem decode_flag (b : Byte) : decode .flag (byteBits b) = .ok (.flag b, []) := by
  simp only [decode]
  rw [fixedWidth_exact _ (by simp)]
  simp [Except.map]

theorem decode_literal (b : Byte) : decode (.token true) (byteBits b) = .ok (.literal b, []) := by
  simp only [decode]
  rw [fixedWidth_exact _ (by simp)]
  simp [Except.map]

/-- The fields of a Match in the number its two bytes spell (R78, R153). -/
theorem matchFields (b0 b1 : Byte) : BitVec.ofNat 12 ((b0.toNat * 2 ^ 8 + b1.toNat) / 16) = bytesOffsetField b0 b1 ∧
    BitVec.ofNat 4 (b0.toNat * 2 ^ 8 + b1.toNat) = byteLengthField b1 := by
  have h0 := b0.isLt
  have h1 := b1.isLt
  constructor
  · apply BitVec.eq_of_toNat_eq
    rw [BitVec.toNat_ofNat, bytesOffsetField, BitVec.toNat_append, BitVec.extractLsb'_toNat, Nat.shiftRight_eq_div_pow,
      ← Nat.shiftLeft_add_eq_or_of_lt (Nat.mod_lt _ (by decide)), Nat.shiftLeft_eq]
    omega
  · apply BitVec.eq_of_toNat_eq
    rw [BitVec.toNat_ofNat, byteLengthField, BitVec.extractLsb'_toNat, Nat.shiftRight_zero]
    omega

theorem decode_match (b0 b1 : Byte) : decode (.token false) (byteBits b0 ++ byteBits b1) =
    .ok (.matchTok (bytesOffsetField b0 b1) (byteLengthField b1), []) := by
  obtain ⟨ho, hl⟩ := matchFields b0 b1
  simp only [decode]
  rw [fixedWidth_exact _ (by simp)]
  simp only [bitsNat_append, bitsNat_byteBits, byteBits_length, ho, hl]
  rfl

theorem decode_match_short {bs : Bits} (h : bs.length < 16) : decode (.token false) bs = .error .truncated := by
  simp only [decode]
  rw [fixedWidth_short _ h]

-- What is fetched there ---------------------------------------------------------------------------------------------------

theorem element_of_ok {d : Except Reject (Instr × Bits)} {i : Instr} {rest : Bits} (h : d = .ok (i, rest)) (e : ErrKind)
    (p : Phase) (l : Line) : element d e p l = .run i p l := by rw [h]; rfl

theorem element_of_error {d : Except Reject (Instr × Bits)} {x : Reject} (h : d = .error x) (e : ErrKind)
    (p : Phase) (l : Line) : element d e p l = .raise e := by rw [h]; rfl

end Sys2Proof.Machine

/-! The sequencer in D_UNPACK follows `AR_UNPACK` and `HF_DESER_TREE` (R176, R205). -/

namespace Sys2Proof.Machine

-- The lengths (R205) ----------------------------------------------------------------------------------------------------

theorem exec_tokenLen_reads {s : State} (h : s.seq.phase.writes = false) (a : Nat) :
    exec (.tokenLen (BitVec.ofNat 32 (s.be32 a))) s = runOp (acceptTokenLen (s.be32 a)) s := by
  show runOp (writeOrRead _ _) s = _
  rw [runOp_writeOrRead_reads h, toNat_be32]

theorem exec_treeBitLen_reads {s : State} (h : s.seq.phase.writes = false) (a : Nat) :
    exec (.treeBitLen (BitVec.ofNat 32 (s.be32 a))) s = runOp (acceptTreeBitLen (s.be32 a)) s := by
  show runOp (writeOrRead _ _) s = _
  rw [runOp_writeOrRead_reads h, toNat_be32]

-- Nodes (R176) ----------------------------------------------------------------------------------------------------------

theorem acceptInternal_eq_readNode {s : State} (hn : s.tree.ncnt < 511) (hp : s.br.pos < s.br.limit)
    (hb : s.inBit s.br.pos = false) : acceptInternal s = readNode s := by
  rw [readNode_internal s hn hp hb]
  unfold acceptInternal
  rw [bind_ok (by rw [allocNode_apply, if_pos hn]), bind_ok (by rw [brSkip_apply 1 _ (by simpa using hp)])]
  rfl

theorem acceptLeaf_eq_readNode {s : State} (hn : s.tree.ncnt < 511) (hp : s.br.pos + 9 ≤ s.br.limit)
    (hb : s.inBit s.br.pos = true) :
    acceptLeaf (BitVec.ofNat 8 (bitsNat (s.inBits (s.br.pos + 1) 8))) s = readNode s := by
  rw [readNode_leaf s hn hp hb]
  unfold acceptLeaf
  rw [bind_ok (by rw [allocNode_apply, if_pos hn]), bind_ok (by rw [brSkip_apply 9 _ (by simpa using hp)])]
  rfl

/-- A node that the bits left do not hold (R176). -/
theorem readNode_short {s : State} (hn : s.tree.ncnt < 511) (hp : s.br.limit < s.br.pos + 9)
    (hb : s.br.pos < s.br.limit → s.inBit s.br.pos = true) :
    ∃ t, readNode s = .error (.err s.br.err) t ∧ t.host = s.host := by
  unfold readNode
  rw [bind_ok (by rw [allocNode_apply, if_pos hn])]
  by_cases hlt : s.br.pos < s.br.limit
  · rw [bind_ok (by rw [brGetBit_apply, if_pos (by simpa using hlt)])]
    rw [show (s.setTree { s.tree with ncnt := s.tree.ncnt + 1 }).inBit
      (s.setTree { s.tree with ncnt := s.tree.ncnt + 1 }).br.pos = true from hb hlt, if_pos rfl,
      bind_error (by unfold brGetBits; rw [brGetBitsFrom_end _ _ _ (by simp; omega) (by simp; omega)])]
    exact ⟨_, rfl, rfl⟩
  · rw [bind_error (by rw [brGetBit_apply, if_neg (by simpa using hlt)])]
    exact ⟨_, rfl, rfl⟩

/-- What the sequencer does at the next node is what `HF_DESER_TREE` does there. -/
theorem fetches_readNode {s : State} (hq : s.seq = ⟨.dUnpack, .nodes⟩) (hr : s.tree.root = none) :
    Fetches s readNode .dUnpack .nodes := by
  have hwrites : s.seq.phase.writes = false := by rw [hq]; rfl
  have hfetch : fetch s = if s.tree.ncnt < Config.nodeCap then
      element (decode .node (s.inBits s.br.pos (min 9 (s.br.limit - s.br.pos)))) s.br.err .dUnpack .nodes
      else .raise .malformedArchive := by
    simp only [fetch, fetchUnpack, fetchNode, hq, hr]
    rfl
  unfold Fetches
  rw [hfetch]
  by_cases hn : s.tree.ncnt < 511
  · rw [if_pos hn]
    by_cases hlt : s.br.pos < s.br.limit
    · obtain ⟨m, hm⟩ : ∃ m, min 9 (s.br.limit - s.br.pos) = m + 1 := ⟨min 9 (s.br.limit - s.br.pos) - 1, by omega⟩
      rw [hm, State.inBits]
      cases hb : s.inBit s.br.pos with
      | false =>
        exact .inl ⟨.nodeInternal, rfl, (runOp_writeOrRead_reads hwrites _ _).trans
          (runOp_congr (acceptInternal_eq_readNode hn hlt hb))⟩
      | true =>
        by_cases h9 : s.br.pos + 9 ≤ s.br.limit
        · obtain rfl : m = 8 := by omega
          exact .inl ⟨_, element_of_ok (decode_nodeLeaf (inBits_length _ _ _)) _ _ _,
            (runOp_writeOrRead_reads hwrites _ _).trans (runOp_congr (acceptLeaf_eq_readNode hn h9 hb))⟩
        · obtain ⟨t, ht, hh⟩ := readNode_short hn (by omega) fun _ => hb
          exact .inr (.inl ⟨_, t, element_of_error (decode_nodeLeaf_short (by rw [inBits_length]; omega)) _ _ _, ht, hh⟩)
    · obtain ⟨t, ht, hh⟩ := readNode_short hn (by omega) fun h => absurd h hlt
      rw [show min 9 (s.br.limit - s.br.pos) = 0 by omega]
      exact .inr (.inl ⟨_, t, rfl, ht, hh⟩)
  · exact .inr (.inl ⟨_, s, if_neg hn, readNode_full s (by omega), rfl⟩)

/-- A node read leaves the store in the midst of a tree, or with one. -/
theorem readNode_reading {s t : State} (hs : s.tree.Reading) (h : readNode s = .ok () t) :
    t.tree.ncnt = s.tree.ncnt + 1 ∧ (t.tree.Reading ∨ ∃ tr, t.tree.isTree (some tr)) := by
  by_cases hn : s.tree.ncnt < 511
  · by_cases hp : s.br.pos < s.br.limit ∧ s.inBit s.br.pos = false
    · rw [readNode_internal s hn hp.1 hp.2] at h
      cases h
      exact ⟨rfl, .inl (reading_openNode hs hn)⟩
    · have hb : s.br.pos < s.br.limit → s.inBit s.br.pos = true := fun hlt => by
        simpa using fun hf => hp ⟨hlt, hf⟩
      by_cases h9 : s.br.pos + 9 ≤ s.br.limit
      · rw [readNode_leaf s hn h9 (hb (by omega)), leafNode_apply] at h
        cases h
        exact ⟨close_ncnt _ _ _, reading_leafNode hs hn _⟩
      · obtain ⟨u, hu, -⟩ := readNode_short hn (by omega) hb
        rw [hu] at h
        cases h
  · rw [readNode_full s (by omega)] at h
    cases h

theorem isTree_root {t : TreeStore} {tr : Tree} (h : t.isTree (some tr)) : t.root.isSome = true := by
  obtain ⟨r, hr, -⟩ := h
  rw [hr]
  rfl

/-- The store as `HF_DESER_TREE` starts with it (R176). -/
def TreeStore.cleared (t : TreeStore) : TreeStore := { t with ncnt := 0, root := none, dstk := [] }

theorem cleared_reading (t : TreeStore) : t.cleared.Reading := ⟨rfl, trivial, Nat.zero_le _⟩

section Tree

variable {k : Op Unit}
  (hk : ∀ s r, (∃ o, s.tree.isTree o) → Follows (s.relabel ⟨.dUnpack, .payload⟩ r) (k s))
include hk

/-- The end of the tree region (R176, R179). -/
theorem closeTree_follows (s : State) (r : OpResult) {tr : Tree} (hs : s.tree.isTree (some tr)) :
    Follows (s.relabel ⟨.dUnpack, .nodes⟩ r) ((closeTree >>= fun _ => k) s) := by
  have hfetch : fetch (s.relabel ⟨.dUnpack, .nodes⟩ r) =
      if s.br.pos = s.br.limit then .move .dUnpack .payload else .raise .malformedArchive := if_pos (isTree_root hs)
  by_cases hp : s.br.pos = s.br.limit
  · rw [bind_ok (by rw [closeTree_apply, if_pos hp])]
    exact .move (hfetch.trans (if_pos hp)) (hk s r ⟨_, hs⟩)
  · exact .raise (hfetch.trans (if_neg hp)) (bind_error (by rw [closeTree_apply, if_neg hp])) rfl

/-- The nodes of the tree, one a step; each takes an entry of the store, so the bound of the loop is never met (R180). -/
theorem nodes_follow (fuel : Nat) (s : State) (r : OpResult) (hs : s.tree.Reading) (hfuel : s.tree.ncnt + fuel = 512) :
    Follows (s.relabel ⟨.dUnpack, .nodes⟩ r) ((readNodes fuel >>= fun _ => closeTree >>= fun _ => k) s) := by
  induction fuel generalizing s r with
  | zero => have := hs.room; omega
  | succ fuel ih =>
    simp only [readNodes, bind_assoc]
    refine .fetched (p := .dUnpack) (l := .nodes) (by decide) (fetches_readNode rfl hs.rootless) .readNode fun s₁ h₁ => ?_
    obtain ⟨hncnt, hs₁⟩ := readNode_reading hs h₁
    rw [look_bind, id_eq]
    rcases hs₁ with hs₁ | ⟨tr, htr⟩
    · rw [hs₁.rootless]
      exact ih s₁ r hs₁ (by omega)
    · rw [if_pos (isTree_root htr)]
      exact closeTree_follows hk s₁ r htr

/-- `HF_DESER_TREE` (R176). The sequencer clears the store on the way there. -/
theorem hfDeserTree_follows (s : State) (r : OpResult) :
    Follows ((s.setTree s.tree.cleared).relabel ⟨.dUnpack, .treeBits⟩ r) ((hfDeserTree >>= fun _ => k) s) := by
  have hfetch : fetch ((s.setTree s.tree.cleared).relabel ⟨.dUnpack, .treeBits⟩ r) =
      if s.tbl = 0 then .move .dUnpack .payload
      else .run (.brInit 80 (80 + s.tbl) .malformedArchive) .dUnpack .nodes := rfl
  by_cases h : s.tbl = 0
  · rw [bind_ok (hfDeserTree_empty s h)]
    exact .move (hfetch.trans (if_pos h)) (hk _ r ⟨none, rfl⟩)
  · have hbody : (hfDeserTree >>= fun _ => k) s =
        (brInit 80 (80 + s.tbl) .malformedArchive >>= fun _ => readNodes (Config.nodeCap + 1) >>= fun _ =>
          closeTree >>= fun _ => k) (s.setTree s.tree.cleared) := by
      simp only [hfDeserTree, bind_assoc, upd_bind, look_bind, id_eq, State.setTree_fields, if_neg h]
      rfl
    rw [hbody]
    refine .run (by decide) (hfetch.trans (if_neg h)) rfl (.brInit _ _ _) fun s₁ h₁ => ?_
    obtain rfl : s₁ = (s.setTree s.tree.cleared).setBr ⟨80, 80 + s.tbl, .malformedArchive⟩ := by
      rw [brInit_apply] at h₁
      split at h₁ <;> cases h₁
      rfl
    exact nodes_follow hk _ _ r (cleared_reading _) rfl

/-- `TOKEN_LEN` and `TREE_BIT_LEN` (R205, R209). -/
theorem lengths_follow (s : State) (r : OpResult) :
    Follows (s.relabel ⟨.dUnpack, .tokenLen⟩ r)
      ((acceptTokenLen (s.be32 2) >>= fun _ => acceptTreeBitLen (s.be32 6) >>= fun _ => hfDeserTree >>= fun _ => k) s) := by
  refine .run (p := .dUnpack) (l := .treeBitLen) (by decide)
    (element_of_ok (decode_tokenLen (s.relabel _ r)) .malformedArchive _ _) (exec_tokenLen_reads rfl 2)
    (.acceptTokenLen _) fun s₁ h₁ => ?_
  have hbytes : s.be32 6 = s₁.be32 6 := by cases h₁; rfl
  rw [hbytes]
  exact .run (q := ⟨.dUnpack, .treeBitLen⟩) (p := .dUnpack) (l := .treeBits) (by decide)
    (element_of_ok (decode_treeBitLen (s₁.relabel _ r)) .malformedArchive _ _) (exec_treeBitLen_reads rfl 6)
    (.acceptTreeBitLen _) fun s₂ _ => hfDeserTree_follows hk s₂ r

end Tree

-- The header and the last checks (R205) -----------------------------------------------------------------------------------

/-- The sequencer checks the header and `MAGIC` in one line. -/
theorem fetches_header {s : State} (hq : s.seq = ⟨.dUnpack, .start⟩) (hl : 10 ≤ s.host.inLen) :
    Fetches s checkMagic .dUnpack .tokenLen := by
  have hfetch : fetch s = element (decode .magic (s.inBits 0 16)) .malformedArchive .dUnpack .tokenLen := by
    simp only [fetch, fetchUnpack, hq]
    exact if_neg (Nat.not_lt.2 hl)
  unfold Fetches
  rw [hfetch, decode_magic]
  by_cases hm : s.inByte 0 = 0x43 ∧ s.inByte 1 = 0x5A
  · rw [if_pos hm]
    exact .inl ⟨.magic, rfl, runOp_writeOrRead_reads (by rw [hq]; rfl) _ _⟩
  · rw [if_neg hm]
    exact .inr (.inl ⟨_, s, rfl, by rw [checkMagic_apply, if_neg hm], rfl⟩)

section Payload

variable {k : Op Unit} (hk : ∀ s r, (∃ o, s.tree.isTree o) →
  Follows ((s.setWalker { s.walker with symcnt := 0 }).relabel ⟨.dHuff, .start⟩ r) (k s))
include hk

/-- The last checks of `AR_UNPACK` and its payload region (R211 to R213). -/
theorem payloadRegion_follows (s : State) (r : OpResult) (hs : ∃ o, s.tree.isTree o) :
    Follows (s.relabel ⟨.dUnpack, .payload⟩ r)
      ((checkStream >>= fun _ => look id >>= fun s =>
        brInit s.payloadStart (8 * s.host.inLen) .unexpectedEndOfStream >>= fun _ => k) s) := by
  have hfetch : fetch (s.relabel ⟨.dUnpack, .payload⟩ r) =
      if ¬ (s.tb.len = 0 ∨ s.tree.root.isSome) then .raise .malformedArchive
      else if ¬ s.tb.len ≤ s.tCap then .raise .capacityExceeded
      else .run (.brInit s.payloadStart (8 * s.host.inLen) .unexpectedEndOfStream) .dHuff .start := rfl
  by_cases ht : s.tb.len = 0 ∨ s.tree.root.isSome
  · rw [if_neg (not_not.2 ht)] at hfetch
    by_cases hc : s.tb.len ≤ s.tCap
    · rw [bind_ok (by rw [checkStream_apply, if_pos ht, if_pos hc]), look_bind, id_eq]
      refine .run (by decide) (hfetch.trans (if_neg (not_not.2 hc))) rfl (.brInit _ _ _) fun s₁ h₁ => hk s₁ r ?_
      rw [brInit_apply] at h₁
      split at h₁ <;> cases h₁
      exact hs
    · exact .raise (hfetch.trans (if_pos hc)) (bind_error (by rw [checkStream_apply, if_pos ht, if_neg hc])) rfl
  · exact .raise (hfetch.trans (if_pos ht)) (bind_error (by rw [checkStream_apply, if_neg ht])) rfl

/-- `AR_UNPACK` (R205). -/
theorem arUnpack_follows (s : State) (r : OpResult) :
    Follows (s.relabel ⟨.dUnpack, .start⟩ r) ((arUnpack >>= fun _ => k) s) := by
  simp only [arUnpack, bind_assoc]
  by_cases hl : 10 ≤ s.host.inLen
  · rw [bind_ok (by rw [checkHeader_apply, if_pos hl])]
    refine .fetched (p := .dUnpack) (l := .tokenLen) (by decide) (fetches_header rfl hl) .checkMagic fun s₁ _ => ?_
    rw [look_bind, id_eq]
    exact lengths_follow (payloadRegion_follows hk) s₁ r
  · exact .raise (if_pos (Nat.not_le.1 hl)) (bind_error (by rw [checkHeader_apply, if_neg hl])) rfl

end Payload

end Sys2Proof.Machine

/-! The sequencer in D_HUFF follows `HF_DECODE` (R193): it executes one code word at a time. -/

namespace Sys2Proof.Machine

-- Walks -----------------------------------------------------------------------------------------------------------------

/-- The state of a walk that has taken `n` bits and come to node `i`. -/
def State.walked (s : State) (n i : Nat) : State :=
  (s.setBr { s.br with pos := s.br.pos + n }).setWalker { s.walker with walk := i }

/-- The bits left to the reader. -/
def State.bitsLeft (s : State) : Bits := s.inBits s.br.pos (s.br.limit - s.br.pos)

theorem bitsLeft_nil {s : State} (h : ¬ s.br.pos < s.br.limit) : s.bitsLeft = [] := by
  rw [State.bitsLeft, show s.br.limit - s.br.pos = 0 by omega]
  rfl

theorem bitsLeft_cons {s : State} (h : s.br.pos < s.br.limit) (i : Nat) :
    s.bitsLeft = s.inBit s.br.pos :: (s.walked 1 i).bitsLeft := by
  rw [State.bitsLeft, show s.br.limit - s.br.pos = s.br.limit - (s.br.pos + 1) + 1 by omega, State.inBits]
  exact congrArg _ (inBits_congr (s := s) (t := s.walked 1 i) (fun _ => rfl) _ _)

theorem codePath_node (l r : Tree) (b : Bool) (bs : Bits) :
    codePath (.node l r) (b :: bs) = (codePath (if b then r else l) bs).map fun x => (b :: x.1, x.2) := by
  simp only [codePath]
  cases codePath (if b then r else l) bs <;> rfl

/-- The child of a node that a bit selects holds the subtree it selects. -/
theorem holds_childOf {t : TreeStore} {a b : Nat} {l r : Tree} (hl : t.holds a l) (hr : t.holds b r) (bit : Bool) :
    t.holds (childOf a b bit) (if bit then r else l) := by
  cases bit
  · exact hl
  · exact hr

/-- A walk over the bits of a code word ends at the leaf its path leads to. -/
theorem walkDown_path (tr : Tree) {fuel : Nat} {s : State} {path rest : Bits} (hs : s.tree.holds s.walker.walk tr)
    (hp : codePath tr s.bitsLeft = some (path, rest)) (hfuel : s.br.limit - s.br.pos < fuel) :
    ∃ leaf v k, s.tree.at leaf = .leaf v k ∧ s.tree.follow s.walker.walk path = some leaf ∧
      path.length ≤ s.br.limit - s.br.pos ∧ walkDown fuel s = .ok () (s.walked path.length leaf) := by
  induction path generalizing tr fuel s with
  | nil =>
    cases tr with
    | leaf v =>
      obtain ⟨k, hk⟩ := hs
      obtain ⟨f, rfl⟩ : ∃ f, fuel = f + 1 := ⟨fuel - 1, by omega⟩
      exact ⟨_, v, k, hk, rfl, Nat.zero_le _, walkDown_leaf f s hk⟩
    | node l r =>
      by_cases hlt : s.br.pos < s.br.limit
      · rw [bitsLeft_cons hlt 0, codePath_node] at hp
        simp at hp
      · rw [bitsLeft_nil hlt] at hp
        cases hp
  | cons b path ih =>
    cases tr with
    | leaf v => simp [codePath] at hp
    | node l r =>
      obtain ⟨x, y, k, hat, hl, hr⟩ := hs
      by_cases hlt : s.br.pos < s.br.limit
      · obtain ⟨f, rfl⟩ : ∃ f, fuel = f + 1 := ⟨fuel - 1, by omega⟩
        rw [bitsLeft_cons hlt (childOf x y (s.inBit s.br.pos)), codePath_node, Option.map_eq_some_iff] at hp
        obtain ⟨⟨path', rest'⟩, hp, heq⟩ := hp
        simp only [Prod.mk.injEq, List.cons.injEq] at heq
        obtain ⟨⟨rfl, rfl⟩, rfl⟩ := heq
        obtain ⟨leaf, v, k', hleaf, hfollow, hlen, hwalk⟩ := ih (fuel := f)
          (s := s.walked 1 (childOf x y (s.inBit s.br.pos))) _ (holds_childOf hl hr _) hp
          (by show s.br.limit - (s.br.pos + 1) < f; omega)
        change path'.length ≤ s.br.limit - (s.br.pos + 1) at hlen
        refine ⟨leaf, v, k', hleaf, ?_, by simp only [List.length_cons]; omega, ?_⟩
        · simp only [TreeStore.follow, hat]
          exact hfollow
        · rw [walkDown_internal f s hat, if_pos hlt]
          refine hwalk.trans ?_
          simp only [State.walked, List.length_cons, Nat.add_comm path'.length 1, ← Nat.add_assoc]
          rfl
      · rw [bitsLeft_nil hlt] at hp
        cases hp

/-- A walk whose bits run out (R195). -/
theorem walkDown_short (tr : Tree) {fuel : Nat} {s : State} (hs : s.tree.holds s.walker.walk tr)
    (hp : codePath tr s.bitsLeft = none) (hfuel : s.br.limit - s.br.pos < fuel) :
    ∃ t, walkDown fuel s = .error (.err s.br.err) t ∧ t.host = s.host := by
  induction fuel generalizing tr s with
  | zero => omega
  | succ f ih =>
    cases tr with
    | leaf v => simp [codePath] at hp
    | node l r =>
      obtain ⟨x, y, k, hat, hl, hr⟩ := hs
      rw [walkDown_internal f s hat]
      by_cases hlt : s.br.pos < s.br.limit
      · rw [bitsLeft_cons hlt (childOf x y (s.inBit s.br.pos)), codePath_node, Option.map_eq_none_iff] at hp
        rw [if_pos hlt]
        exact ih (s := s.walked 1 (childOf x y (s.inBit s.br.pos))) _ (holds_childOf hl hr _) hp
          (by show s.br.limit - (s.br.pos + 1) < f; omega)
      · exact ⟨s, if_neg hlt, rfl⟩

-- Symbols (R193) ----------------------------------------------------------------------------------------------------------

theorem bitsLeft_setWalker (s : State) (x : Walker) : (s.setWalker x).bitsLeft = s.bitsLeft :=
  inBits_congr (s := s.setWalker x) (t := s) (fun _ => rfl) _ _

theorem acceptCodeword_apply {s : State} {root leaf : Nat} {path : Bits} (hroot : s.tree.root = some root)
    (hn : s.walker.symcnt < s.tb.len ∧ s.tb.len ≤ s.tCap) (hleaf : s.tree.codewordLeaf root path = some leaf) :
    acceptCodeword path s =
      (brSkip path.length >>= fun _ => walkedTo s.tree root leaf >>= fun _ => putSymbol (s.tree.at leaf).value) s := by
  simp only [acceptCodeword, look_bind, need_bind, id_eq, if_pos hn, hroot, hleaf]

theorem readSymbol_node {s : State} {root x y : Nat} {k : Option Key} (h : s.tree.at root = .internal x y k) :
    readSymbol root s = (walkDown (s.br.limit - s.br.pos + 1) >>= fun _ => look id >>= fun s =>
      putSymbol (s.tree.at s.walker.walk).value) (s.setWalker { s.walker with walk := root }) := by
  simp only [readSymbol, look_bind, id_eq, h]
  rw [bind_ok (setWalk_apply root s)]

/-- A code word executed at the reader is the symbol read there. -/
theorem acceptCodeword_eq_readSymbol {s : State} {root : Nat} {tr : Tree} {path rest : Bits}
    (hroot : s.tree.root = some root) (hs : s.tree.holds root tr)
    (hn : s.walker.symcnt < s.tb.len ∧ s.tb.len ≤ s.tCap) (hp : codewordBits tr s.bitsLeft = some (path, rest)) :
    acceptCodeword path s = readSymbol root s := by
  cases tr with
  | leaf v =>
    obtain ⟨k, hk⟩ := hs
    by_cases hlt : s.br.pos < s.br.limit
    · rw [bitsLeft_cons hlt 0] at hp
      cases hp
      rw [acceptCodeword_apply hroot hn (leaf := root) (by simp [TreeStore.codewordLeaf, hk]), readSymbol_lone root s hk,
        if_pos hlt]
      refine (bind_ok (brSkip_apply 1 s hlt)).trans ?_
      simp only [walkedTo, hk, pure_bind_apply]
      rfl
    · rw [bitsLeft_nil hlt] at hp
      cases hp
  | node l r =>
    obtain ⟨x, y, k, hat, -⟩ := id hs
    have hlt : s.br.pos < s.br.limit := by
      by_contra hlt
      rw [bitsLeft_nil hlt] at hp
      cases hp
    obtain ⟨leaf, v, k', hleaf, hfollow, hlen, hwalk⟩ := walkDown_path (.node l r) (fuel := s.br.limit - s.br.pos + 1)
      (s := s.setWalker { s.walker with walk := root }) hs ((bitsLeft_setWalker s _).symm ▸ hp) (Nat.lt_succ_self _)
    change s.tree.at leaf = _ at hleaf
    change path.length ≤ s.br.limit - s.br.pos at hlen
    change s.tree.follow root path = _ at hfollow
    rw [acceptCodeword_apply hroot hn (leaf := leaf) (by simp only [TreeStore.codewordLeaf, hat, hfollow, hleaf]),
      readSymbol_node hat, bind_ok (brSkip_apply _ s (by omega)), bind_ok hwalk]
    simp only [walkedTo, hat]
    rfl

/-- A symbol whose bits run out (R195). -/
theorem readSymbol_short {s : State} {root : Nat} {tr : Tree} (hs : s.tree.holds root tr)
    (hp : codewordBits tr s.bitsLeft = none) :
    ∃ t, readSymbol root s = .error (.err s.br.err) t ∧ t.host = s.host := by
  cases tr with
  | leaf v =>
    obtain ⟨k, hk⟩ := hs
    by_cases hlt : s.br.pos < s.br.limit
    · rw [bitsLeft_cons hlt 0] at hp
      cases hp
    · exact ⟨s, by rw [readSymbol_lone root s hk, if_neg hlt], rfl⟩
  | node l r =>
    obtain ⟨x, y, k, hat, -⟩ := id hs
    obtain ⟨t, ht, hh⟩ := walkDown_short (.node l r) (fuel := s.br.limit - s.br.pos + 1)
      (s := s.setWalker { s.walker with walk := root }) hs ((bitsLeft_setWalker s _).symm ▸ hp) (Nat.lt_succ_self _)
    exact ⟨t, by rw [readSymbol_node hat, bind_error ht]; rfl, hh⟩

/-- `u` stands at the same symbol of the same stream as `s`, with the same tree. -/
def State.sameSymbol (s u : State) : Prop :=
  u.tree = s.tree ∧ u.caps = s.caps ∧ u.tb.len = s.tb.len ∧ u.walker.symcnt = s.walker.symcnt

theorem walkDown_sameSymbol (s : State) (n : Nat) : Op.Keeps s.sameSymbol (walkDown n) := by
  induction n with
  | zero => exact .pure _
  | succ n ih =>
    refine .bind (.look _) fun u => ?_
    cases u.tree.at u.walker.walk with
    | leaf v k => exact .pure _
    | internal l r k =>
      exact .bind (.bind (.look _) fun _ => .ite (.raise _) (.bind (.upd fun _ h => h) fun _ => .pure _)) fun _ =>
        .bind (.upd fun _ h => h) fun _ => ih

/-- A symbol read moves the reader and the walk and puts one byte into the stream. -/
theorem readSymbol_frame {root : Nat} {s t : State} (h : readSymbol root s = .ok () t) :
    t.tree = s.tree ∧ t.caps = s.caps ∧ t.tb.len = s.tb.len ∧ t.walker.symcnt = s.walker.symcnt + 1 := by
  cases hat : s.tree.at root with
  | leaf v k =>
    rw [readSymbol_lone root s hat] at h
    split at h <;> cases h
    exact ⟨rfl, rfl, rfl, rfl⟩
  | internal x y k =>
    rw [readSymbol_node hat, bind_eq_ok] at h
    obtain ⟨_, u, hwalk, hput⟩ := h
    obtain ⟨htree, hcaps, hlen, hcnt⟩ := (walkDown_sameSymbol s _).ok (s := s.setWalker { s.walker with walk := root })
      ⟨rfl, rfl, rfl, rfl⟩ hwalk
    cases hput
    exact ⟨htree, hcaps, hlen, congrArg (· + 1) hcnt⟩

-- The phase ---------------------------------------------------------------------------------------------------------------

/-- What the sequencer does at the next code word is what `HF_DECODE` does there. -/
theorem fetches_readSymbol {s : State} {root : Nat} {tr : Tree} (hq : s.seq = ⟨.dHuff, .start⟩)
    (hroot : s.tree.root = some root) (hs : s.tree.holds root tr) (hleaves : treeLeaves tr ≤ 256)
    (hn : s.walker.symcnt < s.tb.len ∧ s.tb.len ≤ s.tCap) : Fetches s (readSymbol root) .dHuff .start := by
  have hfetch : fetch s = element (decode (.codeword tr) s.bitsLeft) s.br.err .dHuff .start := by
    simp only [fetch, fetchSymbol, hq, if_pos hn.1, shape_of_isTree (o := some tr) ⟨root, hroot, hs, hleaves⟩]
    rfl
  unfold Fetches
  rw [hfetch]
  cases hp : codewordBits tr s.bitsLeft with
  | none =>
    obtain ⟨t, ht, hh⟩ := readSymbol_short hs hp
    exact .inr (.inl ⟨_, t, by simp only [decode, hp]; rfl, ht, hh⟩)
  | some pr =>
    exact .inl ⟨.codeword pr.1, by simp only [decode, hp]; rfl, (runOp_writeOrRead_reads (by rw [hq]; rfl) _ _).trans
      (runOp_congr (acceptCodeword_eq_readSymbol hroot hs hn hp))⟩

/-- The registers as D_TOKENS starts with them (R150). -/
def State.tokensReset (s : State) : State := (s.setDec { s.dec with tp := 0 }).setOut { s.out with ptr := 0 }

/-- All symbols are there. -/
theorem symbols_done {k : Op Unit} {s : State} {r : OpResult} (h : ¬ s.walker.symcnt < s.tb.len)
    (hk : Follows (s.tokensReset.relabel ⟨.dTokens, .start⟩ r) (k s)) : Follows (s.relabel ⟨.dHuff, .start⟩ r) (k s) :=
  .move (p := .dTokens) (l := .start) (if_neg h) hk

theorem symbols_follow (k : Op Unit) (hk : ∀ s r, Follows (s.tokensReset.relabel ⟨.dTokens, .start⟩ r) (k s)) {root : Nat}
    {tr : Tree} (hleaves : treeLeaves tr ≤ 256) (n : Nat) (s : State) (r : OpResult) (hroot : s.tree.root = some root)
    (hs : s.tree.holds root tr) (hn : s.walker.symcnt + n = s.tb.len) (hc : s.tb.len ≤ s.tCap) :
    Follows (s.relabel ⟨.dHuff, .start⟩ r) ((readSymbols root n >>= fun _ => k) s) := by
  induction n generalizing s r with
  | zero => exact symbols_done (by omega) (hk s r)
  | succ n ih =>
    simp only [readSymbols, bind_assoc]
    have hlt : s.walker.symcnt < s.tb.len := by omega
    refine .fetched (p := .dHuff) (l := .start) (by decide)
      (fetches_readSymbol (s := s.relabel ⟨.dHuff, .start⟩ r) rfl hroot hs hleaves ⟨hlt, hc⟩)
      (.readSymbol root) fun s₁ h₁ => ?_
    obtain ⟨htree, hcaps, hlen, hcnt⟩ := readSymbol_frame h₁
    exact ih s₁ r (by rw [htree, hroot]) (by rw [htree]; exact hs) (by omega)
      (by rw [State.tCap, hcaps, hlen]; exact hc)

/-- `HF_DECODE` (R193). The sequencer sets `SYMCNT` to 0 on the way there. -/
theorem hfDecode_follows (k : Op Unit) (hk : ∀ s r, Follows (s.tokensReset.relabel ⟨.dTokens, .start⟩ r) (k s)) (s : State)
    (r : OpResult) (hs : ∃ o, s.tree.isTree o) :
    Follows ((s.setWalker { s.walker with symcnt := 0 }).relabel ⟨.dHuff, .start⟩ r) ((hfDecode >>= fun _ => k) s) := by
  simp only [hfDecode, bind_assoc, look_bind, id_eq, need_bind]
  split
  · next hc =>
    rw [upd_bind]
    obtain ⟨_ | tr, ho⟩ := hs
    · rw [show s.tree.root = none from ho]
      simp only [need_bind]
      split
      · next h0 => exact symbols_done (s := s.setWalker { s.walker with symcnt := 0 }) (by simp [h0]) (hk _ r)
      · exact trivial
    · obtain ⟨root, hroot, hholds, hleaves⟩ := ho
      rw [hroot]
      exact symbols_follow k hk hleaves _ (s.setWalker { s.walker with symcnt := 0 }) r hroot hholds (Nat.zero_add _) hc
  · exact trivial

end Sys2Proof.Machine

/-! The sequencer in D_TOKENS follows `TD_DECODE` (R150), and the whole decompression (R224). -/

namespace Sys2Proof.Machine

/-- What the sequencer does at a flag byte is what `TD_FLAG` does there. -/
theorem fetches_tdFlag {s : State} (hq : s.seq = ⟨.dTokens, .flag⟩) (hn : s.dec.tp < s.tb.len) :
    Fetches s tdFlag .dTokens (.token 0) := by
  refine .inl ⟨.flag (s.tbByte s.dec.tp), ?_, (runOp_writeOrRead_reads (by rw [hq]; rfl) _ _).trans (runOp_congr ?_)⟩
  · simp only [fetch, fetchDecode, hq, if_pos hn, tbBits_one]
    exact element_of_ok (decode_flag _) _ _ _
  · rw [tdFlag_apply, if_pos hn]
    exact bind_ok (need_pos hn "FLAG" s)

/-- A Literal executed at its byte. -/
theorem exec_literal_reads {s : State} (hw : s.seq.phase.writes = false) (hn : s.dec.tp < s.tb.len) :
    exec (.literal (s.tbByte s.dec.tp)) s = runOp tdLiteral s := by
  refine (runOp_writeOrRead_reads hw _ _).trans (runOp_congr ?_)
  rw [tdLiteral_apply, if_pos hn]
  exact bind_ok (need_pos hn "LITERAL" s)

/-- A Match executed at its two bytes. -/
theorem exec_match_reads {s : State} (hw : s.seq.phase.writes = false) (hn : s.dec.tp < s.tb.len)
    (h2 : 2 ≤ s.tb.len - s.dec.tp) :
    exec (.matchTok (bytesOffsetField (s.tbByte s.dec.tp) (s.tbByte (s.dec.tp + 1)))
      (byteLengthField (s.tbByte (s.dec.tp + 1)))) s = runOp tdMatch s := by
  refine (runOp_writeOrRead_reads hw _ _).trans (runOp_congr ?_)
  rw [tdMatch_apply, if_pos hn, if_pos h2]
  exact (bind_ok (need_pos hn "MATCH" s)).trans (bind_ok (check_pos h2 .invalidToken s))

/-- Token `i` by the kind its flag bit gives it (R150). -/
theorem tdToken_apply (i : Nat) (s : State) : tdToken i s = if s.dec.dflg.getLsbD i then tdLiteral s else tdMatch s := by
  simp only [tdToken, look_bind, id_eq]
  split <;> rfl

/-- What the sequencer does at a token is what `TD_LITERAL` or `TD_MATCH` does there. -/
theorem fetches_tdToken {s : State} {i : Nat} (hq : s.seq = ⟨.dTokens, .token i⟩) (hi : i < 8)
    (hne : s.dec.tp ≠ s.tb.len) : Fetches s (tdToken i) .dTokens (.token (i + 1)) := by
  have hw : s.seq.phase.writes = false := by rw [hq]; rfl
  have hfetch : fetch s = element (decode (.token (s.dec.dflg.getLsbD i))
      (s.tbBits s.dec.tp (min (if s.dec.dflg.getLsbD i then 1 else 2) (s.tb.len - s.dec.tp))))
      .invalidToken .dTokens (.token (i + 1)) := by
    simp only [fetch, fetchDecode, fetchToken, hq, if_neg hne]
    exact if_neg (by show ¬ i ≥ 8; omega)
  unfold Fetches
  rw [hfetch, tdToken_apply]
  by_cases hn : s.dec.tp < s.tb.len
  · cases hb : s.dec.dflg.getLsbD i with
    | true =>
      refine .inl ⟨.literal (s.tbByte s.dec.tp), ?_, (exec_literal_reads hw hn).trans (runOp_congr ?_)⟩
      · rw [if_pos rfl, Nat.min_eq_left (by omega), tbBits_one]
        exact element_of_ok (decode_literal _) _ _ _
      · rw [tdToken_apply, hb, if_pos rfl]
    | false =>
      simp only [Bool.false_eq_true, if_false]
      by_cases h2 : 2 ≤ s.tb.len - s.dec.tp
      · refine .inl ⟨_, ?_, (exec_match_reads hw hn h2).trans (runOp_congr ?_)⟩
        · rw [Nat.min_eq_left h2, tbBits_two]
          exact element_of_ok (decode_match _ _) _ _ _
        · rw [tdToken_apply, hb, if_neg Bool.false_ne_true]
      · exact .inr (.inl ⟨.invalidToken, s, element_of_error (decode_match_short (by rw [tbBits_length]; omega)) _ _ _,
          by rw [tdMatch_apply, if_pos hn, if_neg h2], rfl⟩)
  · refine .inr (.inr ?_)
    split
    · exact ⟨_, s, by rw [tdLiteral_apply, if_neg hn]⟩
    · exact ⟨_, s, by rw [tdMatch_apply, if_neg hn]⟩

/-- At most `n` bytes of the stream are left to the token decoder. -/
def State.leftAtMost (n : Nat) (s : State) : Prop := s.tb.len ≤ s.dec.tp + n

/-- No token moves the decoder back, and none changes the length of the stream. -/
theorem tdToken_keeps (fuel i : Nat) : Op.Keeps (State.leftAtMost fuel) (tdToken i) := by
  have hadvance : ∀ n, Op.Keeps (State.leftAtMost fuel) (advanceTp n) := fun n =>
    .upd fun _ h => Nat.le_trans h (Nat.add_le_add_right (Nat.le_add_right _ _) _)
  have happend : ∀ v, Op.Keeps (State.leftAtMost fuel) (outAppend v) := fun v =>
    .bind (.look _) fun _ => .bind (.check _ _) fun _ => .upd fun _ h => h
  have hput : ∀ b, Op.Keeps (State.leftAtMost fuel) (winPut b) := fun b => .upd fun _ h => h
  have hloop : ∀ o n, Op.Keeps (State.leftAtMost fuel) (replayLoop o n) := by
    intro o n
    induction n with
    | zero => exact .pure _
    | succ n ih =>
      exact .bind (.bind (.look _) fun _ => .bind (.need _ _) fun _ => .pure _) fun _ => .bind (happend _) fun _ =>
        .bind (hput _) fun _ => ih
  refine .bind (.look _) fun _ => .ite ?_ ?_
  · exact .bind (.look _) fun _ => .bind (.need _ _) fun _ => .bind (hadvance 1) fun _ => .bind (happend _) fun _ => hput _
  · exact .bind (.look _) fun _ => .bind (.need _ _) fun _ => .bind (.check _ _) fun _ => .bind (hadvance 2) fun _ =>
      .bind (.look _) fun _ => .bind (.check _ _) fun _ => .bind (.look _) fun _ => .bind (.need _ _) fun _ => hloop _ _

/-- With no byte left there is no group. -/
theorem tdGroups_end (fuel : Nat) {s : State} (h : ¬ s.dec.tp < s.tb.len) : tdGroups fuel s = .ok () s := by
  cases fuel with
  | zero => rfl
  | succ fuel => simp only [tdGroups, look_bind, id_eq, if_neg h]; rfl

/-- The stream may end within a group (R150). -/
theorem streamEnd_follows (fuel i : Nat) {s : State} (r : OpResult) (h : s.dec.tp = s.tb.len) :
    Follows (s.relabel ⟨.dTokens, .token i⟩ r) ((tdGroups fuel >>= fun _ => endCall) s) := by
  rw [bind_ok (tdGroups_end fuel (by omega))]
  exact .done (if_pos h)

/-- The tokens of a group, followed by the groups after it. -/
theorem tokens_follow (fuel : Nat) (hgroups : ∀ s r, s.leftAtMost fuel →
      Follows (s.relabel ⟨.dTokens, .flag⟩ r) ((tdGroups fuel >>= fun _ => endCall) s)) (n : Nat) (hn : n ≤ 8) (s : State)
    (r : OpResult) (hs : s.leftAtMost fuel) :
    Follows (s.relabel ⟨.dTokens, .token (8 - n)⟩ r)
      ((tdTokens n >>= fun _ => tdGroups fuel >>= fun _ => endCall) s) := by
  induction n generalizing s r with
  | zero =>
    by_cases h : s.dec.tp = s.tb.len
    · exact streamEnd_follows fuel 8 r h
    · exact .move (p := .dTokens) (l := .flag) ((if_neg h).trans (if_pos (Nat.le_refl 8))) (hgroups s r hs)
  | succ n ih =>
    simp only [tdTokens, bind_assoc, look_bind, id_eq]
    split
    · next h => exact streamEnd_follows fuel _ r h
    · next h =>
      rw [bind_assoc]
      have hi : 8 - (n + 1) < 8 := by omega
      refine .fetched (p := .dTokens) (l := .token (8 - (n + 1) + 1)) (by simp)
        (fetches_tdToken (s := s.relabel ⟨.dTokens, .token (8 - (n + 1))⟩ r) rfl hi h) (.tdToken _) fun s₁ h₁ => ?_
      have hnext : 8 - (n + 1) + 1 = 8 - n := by omega
      rw [hnext]
      exact ih (by omega) s₁ r ((tdToken_keeps fuel _).ok hs h₁)

/-- A flag byte read is one byte less to read. -/
theorem tdFlag_frame {s t : State} (h : tdFlag s = .ok () t) : t.tb = s.tb ∧ t.dec.tp = s.dec.tp + 1 := by
  rw [tdFlag_apply, acceptFlag_apply] at h
  split at h
  · split at h <;> cases h
    exact ⟨rfl, rfl⟩
  · cases h

/-- The groups of the stream and the end of the call. -/
theorem groups_follow (fuel : Nat) (s : State) (r : OpResult) (hs : s.leftAtMost fuel) :
    Follows (s.relabel ⟨.dTokens, .flag⟩ r) ((tdGroups fuel >>= fun _ => endCall) s) := by
  induction fuel generalizing s r with
  | zero => exact .done (if_neg (Nat.not_lt.2 hs))
  | succ fuel ih =>
    simp only [tdGroups, bind_assoc, look_bind, id_eq]
    split
    · next hn =>
      simp only [bind_assoc]
      refine .fetched (p := .dTokens) (l := .token 0) (by decide)
        (fetches_tdFlag (s := s.relabel ⟨.dTokens, .flag⟩ r) rfl hn) .tdFlag fun s₁ h₁ => ?_
      obtain ⟨htb, htp⟩ := tdFlag_frame h₁
      have hs₁ : s₁.leftAtMost fuel := by
        have : s.tb.len ≤ s.dec.tp + (fuel + 1) := hs
        rw [State.leftAtMost, htb, htp]
        omega
      exact tokens_follow fuel ih 8 (Nat.le_refl 8) s₁ r hs₁
    · next hn => exact .done (if_neg hn)

/-- `TD_DECODE` (R150) and the end of the call. The sequencer sets `TP` and `OPTR` to 0 on the way there. -/
theorem tdDecode_follows (s : State) (r : OpResult) :
    Follows (s.tokensReset.relabel ⟨.dTokens, .start⟩ r) ((tdDecode >>= fun _ => endCall) s) := by
  have hbody : (tdDecode >>= fun _ => endCall) s =
      (winInit >>= fun _ => look id >>= fun s => tdGroups s.tb.len >>= fun _ => endCall) s.tokensReset := by
    simp only [tdDecode, bind_assoc]
    rfl
  rw [hbody]
  exact .run (p := .dTokens) (l := .flag) (by decide) rfl rfl .winInit fun s₁ _ =>
    groups_follow s₁.tb.len s₁ r (Nat.le_add_left _ _)

/-- A decompression from its first phase on. -/
theorem decompressBody_follows (s : State) (r : OpResult) :
    Follows (s.relabel ⟨.dUnpack, .start⟩ r) (decompressBody s) :=
  arUnpack_follows (fun s r hs => hfDecode_follows (hs := hs) (s := s.setSeq ⟨.dHuff, .start⟩) (r := r)
    (setPhase .dTokens >>= fun _ => tdDecode >>= fun _ => endCall)
    fun s r => tdDecode_follows (s.setSeq ⟨.dTokens, .start⟩) r) s r

end Sys2Proof.Machine

/-! The two granularities of a call agree on all the host can see (R18, R65). -/

namespace Sys2Proof.Machine

/-- `s` with these turns to come. -/
def State.withTurns (s : State) (ts : List Turn) : State := s.setEnv { s.env with turns := ts }

/-- A write of `CMD` that the engine is ready for runs the command (R221). -/
theorem step_writeCmd {s : State} {v : Nat} {c : Instr} (ts : List Turn) (hbusy : s.busy = false)
    (hdecode : decode .cmd (byteBits (BitVec.ofNat 8 v)) = .ok (c, [])) :
    step (s.withTurns (.writeReg 0 v :: ts)) = exec c (s.withTurns ts) := by
  show writeCmd exec (BitVec.ofNat 8 v) (s.withTurns ts) = _
  have hb : (s.withTurns ts).busy = false := hbusy
  simp only [writeCmd, hb, hdecode]
  rfl

/-- A turn of the engine is the step it takes with no turn scheduled. -/
theorem step_engine (s : State) : step (s.withTurns [.engine]) = step (s.withTurns []) := rfl

/-- While no call is in progress the engine waits (R270). -/
theorem step_idle {s : State} (hidle : s.seq.phase = .idle) : step (s.withTurns []) = .next (s.withTurns []) := by
  have hf : fetch (s.withTurns []) = .wait := by
    simp only [fetch, State.withTurns, State.setEnv_fields, hidle]
  show engineTurn exec (s.withTurns []) = _
  rw [engineTurn, hf]

/-- The first turn of the engine in a call may be one that was scheduled. -/
theorem Finishes.engine {s t : State} (hbusy : s.seq.phase ≠ .idle) (h : Finishes (s.withTurns []) t) :
    Finishes (s.withTurns [.engine]) t := by
  obtain ⟨n, w, hn, hturns, hidle, hw⟩ := h
  cases n with
  | zero => cases hn; exact absurd hidle hbusy
  | succ n => exact ⟨n + 1, w, by rw [← hn, stepMany, stepMany, step_engine], hturns, hidle, hw⟩

/-- The start of a call whose input fits, with its body if no turn is scheduled (log entry 2). -/
theorem command_whole (first : Phase) (body : Op Unit) {s : State} (h : s.host.inLen ≤ s.caps.inCap)
    (hturns : s.env.turns = []) : command first body s = body (s.accept.initCall.setSeq ⟨first, .start⟩) := by
  unfold command
  rw [bind_ok (by rw [startCall_apply, if_pos h]), look_bind, id_eq]
  exact congrFun (if_pos hturns) _

/-- With a turn scheduled the body is left to the engine's turns (log entry 2). -/
theorem command_stepwise (first : Phase) (body : Op Unit) {s : State} (h : s.host.inLen ≤ s.caps.inCap)
    (hturns : s.env.turns ≠ []) : command first body s = .ok () (s.accept.initCall.setSeq ⟨first, .start⟩) := by
  unfold command
  rw [bind_ok (by rw [startCall_apply, if_pos h]), look_bind, id_eq]
  exact congrFun (if_neg hturns) _

/-- An input longer than `IN_CAP` ends the call at its start (R222). -/
theorem command_tooLong (first : Phase) (body : Op Unit) {s : State} (h : ¬ s.host.inLen ≤ s.caps.inCap) :
    command first body s = .error (.err .capacityExceeded) s.accept.initCall :=
  bind_error (by rw [startCall_apply, if_neg h])

/-- A call whose body the sequencer follows, run one operation at a time from the write of its command on. -/
theorem call_finishes {s t : State} {v : Nat} {c : Instr} {first : Phase} {body : Op Unit} (hready : s.ready)
    (hdecode : decode .cmd (byteBits (BitVec.ofNat 8 v)) = .ok (c, []))
    (hexec : ∀ s : State, s.busy = false → exec c s = runOp (command first body) s) (hfirst : first ≠ .idle)
    (hfollows : ∀ s r, Follows (s.relabel ⟨first, .start⟩ r) (body s)) (ht : exec c s = .next t) :
    Finishes (s.withTurns [.writeReg 0 v, .engine]) t := by
  obtain ⟨hbusy, hturns⟩ := hready
  have hstep : step (s.withTurns [.writeReg 0 v, .engine]) = runOp (command first body) (s.withTurns [.engine]) :=
    (step_writeCmd _ hbusy hdecode).trans (hexec _ hbusy)
  rw [hexec s hbusy] at ht
  by_cases hlen : s.host.inLen ≤ s.caps.inCap
  · have hbody : runOp body (s.accept.initCall.setSeq ⟨first, .start⟩) = .next t := by
      unfold runOp at ht ⊢
      rwa [command_whole first body hlen hturns] at ht
    have hstart : runOp (command first body) (s.withTurns [.engine]) =
        .next ((s.accept.initCall.setSeq ⟨first, .start⟩).withTurns [.engine]) :=
      runOp_of_ok (command_stepwise first body (s := s.withTurns [.engine]) hlen (List.cons_ne_nil _ _))
    have hrun := (hfollows (s.accept.initCall.setSeq ⟨first, .start⟩) s.env.result).finishes hbody
    exact .step (hstep.trans hstart) (.engine hfirst hrun)
  · rw [runOp_of_err (command_tooLong first body hlen)] at ht
    cases ht
    have hstart : runOp (command first body) (s.withTurns [.engine]) =
        .next ((s.accept.initCall.takeError .capacityExceeded).withTurns [.engine]) :=
      runOp_of_err (command_tooLong first body (s := s.withTurns [.engine]) hlen)
    exact .step (hstep.trans hstart) (.step ((step_engine _).trans (step_idle rfl)) (.now rfl rfl rfl rfl))

/-- Settles O59: along each phase the sequencer executes, or refuses with the same error, the operation that the whole call runs
next (`compressBody_follows`, `decompressBody_follows`). -/
theorem stepwiseCallsAgreeWithWholeCalls : Obligations.StepwiseCallsAgreeWithWholeCalls := by
  unfold Obligations.StepwiseCallsAgreeWithWholeCalls
  rintro s t v c (⟨rfl, rfl⟩ | ⟨rfl, rfl⟩) hready - ht
  · exact call_finishes (first := .cTokens) hready (by decide) (fun s hs => by simp only [exec, execCompress, hs]; rfl)
      (by decide) compressBody_follows ht
  · exact call_finishes (first := .dUnpack) hready (by decide)
      (fun s hs => by simp only [exec, execDecompress, hs]; rfl) (by decide) decompressBody_follows ht

end Sys2Proof.Machine

/-! A step of the engine (R18, R70, R93, R220), and the append to the stream (R145). -/

namespace Sys2Proof.Machine

-- The decoded element ---------------------------------------------------------------------------------------------------

/-- Where an element is next, the sequencer fetches what the decoder reads there, or the error its reader raises. -/
theorem fetch_of_elementAt {s : State} {sl : Slot} {bits : Bits} {p : Phase} {l : Line} (h : s.ElementAt sl bits p l) :
    ∃ e, fetch s = element (decode sl bits) e p l := by
  cases h with
  | magic h hl => exact ⟨.malformedArchive, by simp only [fetch, fetchUnpack, h]; exact if_neg (Nat.not_lt.2 hl)⟩
  | tokenLen h => exact ⟨.malformedArchive, by simp only [fetch, fetchUnpack, h]⟩
  | treeBitLen h => exact ⟨.malformedArchive, by simp only [fetch, fetchUnpack, h]⟩
  | node h hr hn => exact ⟨s.br.err, by simp only [fetch, fetchUnpack, fetchNode, h, hr]; exact if_pos hn⟩
  | codeword tr h hn ht => exact ⟨s.br.err, by simp only [fetch, fetchSymbol, h, if_pos hn, ht]⟩
  | flag h hn => exact ⟨.invalidToken, by simp only [fetch, fetchDecode, h, if_pos hn, tbBits_one]⟩
  | literal j h hj hn hf =>
    refine ⟨.invalidToken, ?_⟩
    simp only [fetch, fetchDecode, fetchToken, h, hf, if_true]
    rw [if_neg (by omega), if_neg (show ¬ j ≥ 8 by omega), Nat.min_eq_left (by omega), tbBits_one]
  | matchTok j h hj hn hf =>
    refine ⟨.invalidToken, ?_⟩
    simp only [fetch, fetchDecode, fetchToken, h, hf, Bool.false_eq_true, if_false]
    rw [if_neg (by omega), if_neg (show ¬ j ≥ 8 by omega), Nat.min_eq_left (by omega), tbBits_two]

-- The step --------------------------------------------------------------------------------------------------------------

/-- With no turn scheduled a step executes what the sequencer fetches. -/
theorem step_of_fetch_run {s : State} {i : Instr} {p : Phase} {l : Line} (hturns : s.env.turns = [])
    (hf : fetch s = .run i p l) : step s = afterRun p l (exec i s) := by
  unfold step turnStep
  rw [hturns]
  simp only [engineTurn, hf]

theorem runOp_ne_fault (x : Op Unit) (s : State) (r : Fault) : runOp x s ≠ .fault r := by
  unfold runOp
  split <;> simp

theorem runRes_ne_fault {α : Type} (x : Op α) (f : α → OpResult) (s : State) (r : Fault) : runRes x f s ≠ .fault r := by
  unfold runRes
  split <;> simp

/-- Faults are the host's: no operation answers one. -/
theorem exec_ne_fault (i : Instr) (s : State) (r : Fault) : exec i s ≠ .fault r := by
  have command_ne : ∀ x, (if s.busy then .next s else runOp x s) ≠ Host.Outcome.fault r := fun x => by
    split
    · simp
    · exact runOp_ne_fault x s r
  cases i with
  | compress => exact command_ne _
  | decompress => exact command_ne _
  | brGetBit => exact runRes_ne_fault _ _ s r
  | brGetBits n => exact runRes_ne_fault _ _ s r
  | winGet d => exact runRes_ne_fault _ _ s r
  | mfStep => exact runRes_ne_fault _ _ s r
  | hfSerTree => exact runRes_ne_fault Machine.hfSerTree .bits s r
  | bwInit => exact runOp_ne_fault Machine.bwInit s r
  | winInit => exact runOp_ne_fault Machine.winInit s r
  | winPut b => exact runOp_ne_fault (Machine.winPut b) s r
  | mfSearch => exact runOp_ne_fault Machine.mfSearch s r
  | teInit => exact runOp_ne_fault Machine.teInit s r
  | hfCount => exact runOp_ne_fault Machine.hfCount s r
  | hfBuild => exact runOp_ne_fault Machine.hfBuild s r
  | hfCodegen => exact runOp_ne_fault Machine.hfCodegen s r
  | _ => exact runOp_ne_fault _ s r

/-- Settles O7: what is fetched at an element is `fetch_of_elementAt`, what a step does with it `step_of_fetch_run`. -/
theorem stepRunsTheDecodedElement : Obligations.StepRunsTheDecodedElement := by
  unfold Obligations.StepRunsTheDecodedElement
  intro s i p l
  constructor
  · intro sl bits rest hat hdecode
    obtain ⟨e, hf⟩ := fetch_of_elementAt hat
    exact hf.trans (element_of_ok hdecode e p l)
  · intro hturns hf
    have hstep := step_of_fetch_run hturns hf
    refine ⟨fun t ht => ?_, fun r hr => by rw [hstep, hr]; rfl, exec_ne_fault i s⟩
    rw [hstep, ht, afterRun]
    split <;> rfl

-- The append to the stream ------------------------------------------------------------------------------------------------

/-- The two instructions that append one byte to the stream (R76, R145). -/
theorem exec_tbAppend {s : State} {v : Byte} {i : Instr}
    (h : i = .tbAppend v ∨ (s.seq.phase.writes = true ∧ i = .flag v)) : exec i s = runOp (tbAppend v) s := by
  rcases h with rfl | ⟨hw, rfl⟩
  · rfl
  · exact runOp_writeOrRead_writes hw _ _

/-- Taking an error, as the host sees it (R246, R247). -/
theorem tookError_takeError (s : State) (e : ErrKind) : s.tookError (s.takeError e) e :=
  ⟨⟨rfl, by cases e <;> rfl, rfl, rfl⟩, rfl, rfl, rfl, rfl⟩

/-- `T_CAP` is a number of 32 bits (R10). -/
theorem tCap_lt (s : State) : s.tCap < 2 ^ 32 :=
  Nat.lt_of_le_of_lt (Nat.min_le_right _ _) (show 4294967295 < 2 ^ 32 by decide)

/-- Settles O37, by the two cases of `tbAppend_apply`. -/
theorem tokenBytesAreAppendedBelowTheCapacity : Obligations.TokenBytesAreAppendedBelowTheCapacity := by
  unfold Obligations.TokenBytesAreAppendedBelowTheCapacity
  refine fun s v i => ⟨tCap_lt s, fun hi => ⟨fun hlt => ?_, fun hfull => ?_⟩⟩
  · have hrun := runOp_of_ok ((tbAppend_apply v s).trans (if_pos hlt))
    exact ⟨_, (exec_tbAppend hi).trans hrun, rfl, rfl, readByte_tableSet_self _ _ _ _ _,
      fun a ha => readByte_tableSet_of_ne _ _ _ _ ha⟩
  · have hrun := runOp_of_err ((tbAppend_apply v s).trans (if_neg (Nat.not_lt.2 hfull)))
    exact ⟨_, (exec_tbAppend hi).trans hrun, tookError_takeError s _, rfl⟩

end Sys2Proof.Machine

/-! What an instruction and a turn of the engine can do to the host registers, the sequencer and the canonical form: one inversion
lemma for the operations, one for the commands, one for the engine's turn. -/

namespace Sys2Proof.Machine

-- Operations ------------------------------------------------------------------------------------------------------------

/-- `x` writes the datapath alone. -/
def Op.OnDatapath {α : Type} (x : Op α) : Prop := ∀ P : State → Prop, Closed P → Op.Keeps P x

/-- Behind the instruction stands one operation of the datapath, run for its effect or for its value. -/
def IsOperation (i : Instr) : Prop :=
  (∃ x : Op Unit, Op.OnDatapath x ∧ ∀ s, exec i s = runOp x s) ∨
    ∃ (α : Type) (x : Op α) (f : α → OpResult), Op.OnDatapath x ∧ ∀ s, exec i s = runRes x f s

theorem exec_isOperation {i : Instr} (hc : i ≠ .compress) (hd : i ≠ .decompress) : IsOperation i := by
  have op : ∀ x : Op Unit, Op.OnDatapath x → (∀ s, exec i s = runOp x s) → IsOperation i :=
    fun x hk he => .inl ⟨x, hk, he⟩
  have res : ∀ {α : Type} (x : Op α) (f : α → OpResult), Op.OnDatapath x → (∀ s, exec i s = runRes x f s) →
      IsOperation i := fun x f hk he => .inr ⟨_, x, f, hk, he⟩
  cases i with
  | compress => exact absurd rfl hc
  | decompress => exact absurd rfl hd
  | flag v =>
    exact op _ (fun _ C => Closed.writeOrRead (C.tbAppend _) (.bind (.bind (.look _) fun _ => .need _ _) fun _ =>
      C.acceptFlag _)) fun _ => rfl
  | literal v =>
    exact op _ (fun _ C => Closed.writeOrRead (C.tePutLiteral _) (.bind (.bind (.look _) fun _ => .need _ _) fun _ =>
      C.acceptLiteral _)) fun _ => rfl
  | matchTok o l =>
    exact op _ (fun _ C => Closed.writeOrRead (C.tePutMatch _ _) (.bind (.bind (.look _) fun _ => .need _ _) fun _ =>
      .bind (.bind (.look _) fun _ => .check _ _) fun _ => C.acceptMatch _ _)) fun _ => rfl
  | nodeInternal => exact op _ (fun _ C => Closed.writeOrRead (C.bwPutBit _) C.acceptInternal) fun _ => rfl
  | nodeLeaf v => exact op _ (fun _ C => Closed.writeOrRead (C.bwPutAll _) (C.acceptLeaf _)) fun _ => rfl
  | codeword path => exact op _ (fun _ C => Closed.writeOrRead (C.bwPutAll _) (C.acceptCodeword _)) fun _ => rfl
  | magic => exact op _ (fun _ C => Closed.writeOrRead (C.bwPutBits _ _) (.bind (.look _) fun _ => .check _ _)) fun _ => rfl
  | tokenLen n => exact op _ (fun _ C => Closed.writeOrRead (C.bwPutBits _ _) (C.acceptTokenLen _)) fun _ => rfl
  | treeBitLen n => exact op _ (fun _ C => Closed.writeOrRead (C.bwPutBits _ _) (C.acceptTreeBitLen _)) fun _ => rfl
  | treeBits bits => exact op _ (fun _ C => Closed.writeOrRead (C.putPadded _) (C.acceptTreeBits _)) fun _ => rfl
  | payloadBits bits => exact op _ (fun _ C => Closed.writeOrRead (C.putPadded _) (C.acceptPayload _)) fun _ => rfl
  | bwInit => exact op _ (fun _ C => C.bwInit) fun _ => rfl
  | bwPutBit b => exact op _ (fun _ C => C.bwPutBit b) fun _ => rfl
  | bwPutBits v n => exact op _ (fun _ C => C.bwPutBits v n) fun _ => rfl
  | bwAlign => exact op _ (fun _ C => C.bwAlign) fun _ => rfl
  | brInit a b e => exact op _ (fun _ C => C.brInit a b e) fun _ => rfl
  | brGetBit => exact res _ _ (fun _ C => C.brGetBit) fun _ => rfl
  | brGetBits n => exact res _ _ (fun _ C => C.brGetBitsFrom n 0) fun _ => rfl
  | winInit => exact op _ (fun _ C => C.windowInit) fun _ => rfl
  | winPut b => exact op _ (fun _ C => C.winPut b) fun _ => rfl
  | winGet d => exact res _ _ (fun _ _ => Closed.winGet d) fun _ => rfl
  | mfSearch => exact op _ (fun _ C => C.mfSearch) fun _ => rfl
  | mfStep => exact res _ _ (fun _ C => C.mfStep) fun _ => rfl
  | replayMatch o l => exact op _ (fun _ C => C.replayMatch o l) fun _ => rfl
  | replayLiteral b => exact op _ (fun _ C => C.replayLiteral b) fun _ => rfl
  | teInit => exact op _ (fun _ C => C.teInit) fun _ => rfl
  | tePutLiteral b => exact op _ (fun _ C => C.tePutLiteral b) fun _ => rfl
  | tePutMatch o l => exact op _ (fun _ C => C.tePutMatch o l) fun _ => rfl
  | tbAppend v => exact op _ (fun _ C => C.tbAppend v) fun _ => rfl
  | teFlush => exact op _ (fun _ C => C.teFlush) fun _ => rfl
  | tdDecode => exact op _ (fun _ C => C.tdDecode) fun _ => rfl
  | tdFlag => exact op _ (fun _ C => C.tdFlag) fun _ => rfl
  | tdLiteral => exact op _ (fun _ C => C.tdLiteral) fun _ => rfl
  | tdMatch => exact op _ (fun _ C => C.tdMatch) fun _ => rfl
  | hfCount => exact op _ (fun _ C => C.hfCount) fun _ => rfl
  | hfBuild => exact op _ (fun _ C => C.hfBuild) fun _ => rfl
  | hfCodegen => exact op _ (fun _ C => C.hfCodegen) fun _ => rfl
  | hfSerTree => exact res _ _ (fun _ C => C.hfSerTree) fun _ => rfl
  | hfDeserTree => exact op _ (fun _ C => C.hfDeserTree) fun _ => rfl
  | hfEncode => exact op _ (fun _ C => C.hfEncode) fun _ => rfl
  | hfDecode => exact op _ (fun _ C => C.hfDecode) fun _ => rfl
  | arPack => exact op _ (fun _ C => C.arPack) fun _ => rfl
  | arUnpack => exact op _ (fun _ C => C.arUnpack) fun _ => rfl
  | bwPutByte v => exact op _ (fun _ C => C.bwPutBits _ _) fun _ => rfl
  | bwPutU32 v => exact op _ (fun _ C => C.bwPutBits _ _) fun _ => rfl
  | bwPutCode v => exact op _ (fun _ C => C.bwPutCode v) fun _ => rfl
  | winEmit b => exact op _ (fun _ C => C.winEmit b) fun _ => rfl

/-- What such an instruction can answer with a next state, for a property the datapath keeps: the operation ended there, with or
without a value to return, or its error was taken there. -/
theorem exec_cases {P : State → Prop} (C : Closed P) {i : Instr} (hc : i ≠ .compress) (hd : i ≠ .decompress) {s t : State}
    (hs : P s) (h : exec i s = .next t) :
    P t ∨ (∃ u r, P u ∧ t = u.withResult r) ∨ ∃ u e, P u ∧ t = u.takeError e := by
  rcases exec_isOperation hc hd with ⟨x, hk, he⟩ | ⟨α, x, f, hk, he⟩ <;> rw [he] at h
  · rcases runOp_eq_next.1 h with hx | ⟨e, u, hx, rfl⟩
    · exact .inl ((hk P C).ok hs hx)
    · exact .inr (.inr ⟨u, e, (hk P C).error hs hx, rfl⟩)
  · rcases runRes_eq_next.1 h with ⟨a, u, hx, rfl⟩ | ⟨e, u, hx, rfl⟩
    · exact .inr (.inl ⟨u, _, (hk P C).ok hs hx, rfl⟩)
    · exact .inr (.inr ⟨u, e, (hk P C).error hs hx, rfl⟩)

/-- What no operation of the datapath writes is as it was in `s`. -/
def State.Outside (s u : State) : Prop :=
  u.host = s.host ∧ u.seq = s.seq ∧ u.inp = s.inp ∧ u.caps = s.caps ∧ u.env = s.env

theorem outside_closed (s : State) : Closed s.Outside := by
  constructor
  all_goals (intros; assumption)

/-- Settles O17: the operations are closed over what lies outside the datapath (`exec_cases`). -/
theorem onlyStartsAndEndsWriteStatus : Obligations.OnlyStartsAndEndsWriteStatus := by
  unfold Obligations.OnlyStartsAndEndsWriteStatus
  intro i s t hc hd h
  rcases exec_cases (outside_closed s) hc hd ⟨rfl, rfl, rfl, rfl, rfl⟩ h with
    ⟨hhost, hseq, -⟩ | ⟨u, r, ⟨hhost, hseq, -⟩, rfl⟩ | ⟨u, e, ⟨hhost, hseq, hinp, hcaps, henv⟩, rfl⟩
  · exact .inl ⟨hhost, hseq⟩
  · exact .inl ⟨hhost, hseq⟩
  · obtain ⟨hfailed, hlen, -⟩ := tookError_takeError u e
    exact .inr ⟨e, hfailed, hlen.trans (congrArg HostRegs.inLen hhost), hinp, hcaps, henv⟩

end Sys2Proof.Machine

namespace Sys2Proof.Machine

-- Commands --------------------------------------------------------------------------------------------------------------

/-- `P` is kept by the writes of the datapath and of the sequencer: by all that a call does between its start and its end. -/
structure ClosedInCall (P : State → Prop) : Prop extends Closed P where
  seq : ∀ s q, P s → P (s.setSeq q)

/-- The body of `COMPRESS` before the end of the call (R223). -/
def compressWork : Op Unit := do
  winInit
  teInit
  resetCur
  let s ← look id
  tokenLoop s.host.inLen
  teFlush
  setPhase .cCount
  hfCount
  setPhase .cBuild
  hfBuild
  hfCodegen
  setPhase .cPack
  arPack

/-- The body of `DECOMPRESS` before the end of the call (R224). -/
def decompressWork : Op Unit := do
  arUnpack
  setPhase .dHuff
  hfDecode
  setPhase .dTokens
  tdDecode

theorem compressBody_eq : compressBody = compressWork >>= fun _ => endCall := by
  simp only [compressBody, compressWork, bind_assoc]

theorem decompressBody_eq : decompressBody = decompressWork >>= fun _ => endCall := by
  simp only [decompressBody, decompressWork, bind_assoc]

namespace ClosedInCall

variable {P : State → Prop} (C : ClosedInCall P)
include C

theorem initCall {s : State} (h : P s) : P s.initCall :=
  C.code _ _ rfl (C.freq _ _ rfl (C.walker _ _ (C.tree _ _ id (C.bw _ _ (C.enc _ _ id (C.dec _ _ (C.tbLen _ _
    (C.outPtr _ _ (C.finder _ _ (C.winInit _ _ _ h))))))))))

theorem setPhase (p : Phase) : Op.Keeps P (setPhase p) := .upd fun s h => C.seq s _ h

theorem tePutToken (t : Token) : Op.Keeps P (tePutToken t) := by
  cases t with
  | lit b => exact C.tePutLiteral b
  | mat o l => exact C.tePutMatch o l

theorem tokenLoop (n : Nat) : Op.Keeps P (tokenLoop n) := by
  induction n with
  | zero => exact .pure _
  | succ n ih => exact .bind (.look _) fun _ => .ite (.bind C.mfStep fun t => .bind (C.tePutToken t) fun _ => ih) (.pure _)

theorem compressWork : Op.Keeps P compressWork :=
  .bind C.windowInit fun _ => .bind C.teInit fun _ => .bind (.upd fun s h => C.finder s _ h) fun _ =>
    .bind (.look _) fun _ => .bind (C.tokenLoop _) fun _ => .bind C.teFlush fun _ => .bind (C.setPhase _) fun _ =>
      .bind C.hfCount fun _ => .bind (C.setPhase _) fun _ => .bind C.hfBuild fun _ => .bind C.hfCodegen fun _ =>
        .bind (C.setPhase _) fun _ => C.arPack

theorem decompressWork : Op.Keeps P decompressWork :=
  .bind C.arUnpack fun _ => .bind (C.setPhase _) fun _ => .bind C.hfDecode fun _ => .bind (C.setPhase _) fun _ => C.tdDecode

end ClosedInCall

/-- What a command answers with a next state: the call is started and left to later turns, or has ended with `Ok` or with an
error. -/
theorem runOp_command_cases {P : State → Prop} (C : ClosedInCall P) {first : Phase} {work : Op Unit}
    (hwork : Op.Keeps P work) {s t : State} (hs : P s.accept)
    (h : runOp (command first (work >>= fun _ => endCall)) s = .next t) :
    (t = s.accept.initCall.setSeq ⟨first, .start⟩ ∧ P t) ∨ (∃ u, P u ∧ t = u.endOk) ∨ ∃ u e, P u ∧ t = u.takeError e := by
  have hinit : P s.accept.initCall := C.initCall hs
  have hstart : P (s.accept.initCall.setSeq ⟨first, .start⟩) := C.seq _ _ hinit
  by_cases hlen : s.host.inLen ≤ s.caps.inCap
  · by_cases hturns : s.env.turns = []
    · have hc := command_whole first (work >>= fun _ => endCall) hlen hturns
      rcases runOp_eq_next.1 h with hx | ⟨e, u, hx, rfl⟩ <;> rw [hc] at hx
      · obtain ⟨_, u, hu, he⟩ := bind_eq_ok.1 hx
        cases he
        exact .inr (.inl ⟨u, hwork.ok hstart hu, rfl⟩)
      · rcases bind_eq_error.1 hx with hu | ⟨_, v, -, hv⟩
        · exact .inr (.inr ⟨u, e, hwork.error hstart hu, rfl⟩)
        · cases hv
    · rw [runOp_of_ok (command_stepwise first _ hlen hturns)] at h
      cases h
      exact .inl ⟨rfl, hstart⟩
  · rw [runOp_of_err (command_tooLong first _ hlen)] at h
    cases h
    exact .inr (.inr ⟨_, _, hinit, rfl⟩)

/-- The first phase of a command (R223, R224). -/
def firstPhase : Instr → Phase
  | .compress => .cTokens
  | _ => .dUnpack

/-- What COMPRESS and DECOMPRESS answer with a next state while the engine is not busy. -/
theorem exec_command_cases {P : State → Prop} (C : ClosedInCall P) {c : Instr} (hc : c = .compress ∨ c = .decompress)
    {s t : State} (hbusy : s.busy = false) (hs : P s.accept) (h : exec c s = .next t) :
    (t = s.accept.initCall.setSeq ⟨firstPhase c, .start⟩ ∧ P t) ∨ (∃ u, P u ∧ t = u.endOk) ∨
      ∃ u e, P u ∧ t = u.takeError e := by
  rcases hc with rfl | rfl
  · simp only [exec, execCompress, hbusy, compressBody_eq] at h
    exact runOp_command_cases C C.compressWork hs h
  · simp only [exec, execDecompress, hbusy, decompressBody_eq] at h
    exact runOp_command_cases C C.decompressWork hs h

/-- While the engine is busy a command changes nothing (R25, R221). -/
theorem exec_command_busy {c : Instr} (hc : c = .compress ∨ c = .decompress) {s : State} (hbusy : s.busy = true) :
    exec c s = .next s := by
  rcases hc with rfl | rfl
  · exact if_pos hbusy
  · exact if_pos hbusy

/-- Of the host's side and of the input, only the count of accepted commands is not as it was in `s`. -/
def State.HostKept (s : State) (n : Nat) (u : State) : Prop :=
  u.inp = s.inp ∧ u.host.inLen = s.host.inLen ∧ u.caps = s.caps ∧ u.env.turns = s.env.turns ∧
    u.env.hostData = s.env.hostData ∧ u.env.epoch = s.env.epoch ∧ u.env.calls = n

theorem hostKept_closedInCall (s : State) (n : Nat) : ClosedInCall (s.HostKept n) := by
  refine ⟨?_, fun _ _ h => h⟩
  constructor
  all_goals (intros; assumption)

/-- Settles O18: neither the operations nor the bodies of the commands write the host's side; the start of a call counts it. -/
theorem noOperationWritesTheInput : Obligations.NoOperationWritesTheInput := by
  unfold Obligations.NoOperationWritesTheInput
  intro i s t h
  show s.HostKept _ t
  by_cases hi : i = .compress ∨ i = .decompress
  · by_cases hbusy : s.busy = true
    · rw [exec_command_busy hi hbusy] at h
      cases h
      rw [if_neg (by simp [hbusy])]
      exact ⟨rfl, rfl, rfl, rfl, rfl, rfl, rfl⟩
    · have hidle : s.busy = false := by simpa using hbusy
      rw [if_pos ⟨hi, hidle⟩]
      rcases exec_command_cases (hostKept_closedInCall s (s.env.calls + 1)) hi hidle
        ⟨rfl, rfl, rfl, rfl, rfl, rfl, rfl⟩ h with ⟨-, ht⟩ | ⟨u, hu, rfl⟩ | ⟨u, e, hu, rfl⟩
      · exact ht
      · exact hu
      · exact hu
  · rw [if_neg (fun h => hi h.1)]
    obtain ⟨hc, hd⟩ := not_or.1 hi
    rcases exec_cases (hostKept_closedInCall s s.env.calls).toClosed hc hd ⟨rfl, rfl, rfl, rfl, rfl, rfl, rfl⟩ h with
      ht | ⟨u, r, hu, rfl⟩ | ⟨u, e, hu, rfl⟩
    · exact ht
    · exact hu
    · exact hu

-- The engine's turn -----------------------------------------------------------------------------------------------------

theorem fixedWidth_eq_ok {n : Nat} {f : Nat → Except Reject Instr} {bs rest : Bits} {i : Instr}
    (h : fixedWidth n f bs = .ok (i, rest)) : ∃ v, f v = .ok i := by
  unfold fixedWidth at h
  split at h
  · cases h
  · split at h
    · next hf => cases h; exact ⟨_, hf⟩
    · cases h

/-- No position but host register 0 holds a command (R73). -/
theorem decode_ne_command {sl : Slot} {bs rest : Bits} {i : Instr} (hsl : sl ≠ .cmd) (h : decode sl bs = .ok (i, rest)) :
    i ≠ .compress ∧ i ≠ .decompress := by
  cases sl with
  | cmd => exact absurd rfl hsl
  | flag =>
    simp only [decode] at h
    obtain ⟨v, ⟨⟩⟩ := fixedWidth_eq_ok h
    simp
  | token b =>
    cases b <;> simp only [decode] at h <;> obtain ⟨v, ⟨⟩⟩ := fixedWidth_eq_ok h <;> simp
  | node =>
    match bs, h with
    | [], h => cases h
    | false :: _, h => cases h; simp
    | true :: _, h =>
      simp only [decode] at h
      obtain ⟨v, ⟨⟩⟩ := fixedWidth_eq_ok h
      simp
  | codeword t =>
    simp only [decode] at h
    split at h <;> cases h
    simp
  | magic =>
    simp only [decode] at h
    obtain ⟨v, hv⟩ := fixedWidth_eq_ok h
    split at hv <;> cases hv
    simp
  | tokenLen =>
    simp only [decode] at h
    obtain ⟨v, ⟨⟩⟩ := fixedWidth_eq_ok h
    simp
  | treeBitLen =>
    simp only [decode] at h
    obtain ⟨v, ⟨⟩⟩ := fixedWidth_eq_ok h
    simp
  | treeBits n =>
    simp only [decode] at h
    split at h
    · cases h
    · split at h <;> cases h
      simp
  | payload =>
    simp only [decode] at h
    split at h <;> cases h
    simp

/-- Inside a call phase `p` may follow `ph`, or is `ph` (R22). -/
abbrev FollowsPhase (ph p : Phase) : Prop := ph ≠ .idle ∧ p ∈ phaseSuccessors ph ∧ p ≠ .idle

/-- What the sequencer may do in a phase: it waits in `IDLE` alone, executes no command, and keeps to the order of R22. -/
def Fetched.Fits (ph : Phase) : Fetched → Prop
  | .wait => ph = .idle
  | .move p _ => FollowsPhase ph p
  | .run i p _ => (i ≠ .compress ∧ i ≠ .decompress) ∧ FollowsPhase ph p
  | .raise _ => ph ≠ .idle
  | .done => ph ≠ .idle
  | .refuse _ => ph ≠ .idle

theorem element_fits {ph : Phase} {sl : Slot} (hsl : sl ≠ .cmd) (bs : Bits) (e : ErrKind) {p : Phase} (l : Line)
    (hp : FollowsPhase ph p) : (element (decode sl bs) e p l).Fits ph := by
  cases hd : decode sl bs with
  | error x => exact hp.1
  | ok r => exact ⟨decode_ne_command (i := r.1) (rest := r.2) hsl hd, hp⟩

theorem fetchTokens_fits (s : State) (l : Line) : (fetchTokens s l).Fits .cTokens := by
  unfold fetchTokens
  split
  · exact ⟨by simp, by decide⟩
  · exact ⟨by simp, by decide⟩
  · split
    · exact ⟨by simp, by decide⟩
    · exact ⟨by simp, by decide⟩
    all_goals exact Phase.noConfusion
  · split <;> exact ⟨by simp, by decide⟩

theorem fetchBuild_fits (l : Line) : (fetchBuild l).Fits .cBuild := by
  unfold fetchBuild
  split <;> exact ⟨by simp, by decide⟩

theorem fetchPack_fits (s : State) (l : Line) : (fetchPack s l).Fits .cPack := by
  have hsame : FollowsPhase .cPack .cPack := by decide
  unfold fetchPack
  split
  case h_8 => exact Phase.noConfusion
  all_goals exact ⟨by simp, hsame⟩

theorem fetchNode_fits (s : State) : (fetchNode s).Fits .dUnpack := by
  unfold fetchNode
  split
  · split
    · change FollowsPhase _ _; decide
    · exact Phase.noConfusion
  · split
    · exact element_fits (by simp) _ _ _ (by decide)
    · exact Phase.noConfusion

theorem fetchPayload_fits (s : State) : (fetchPayload s).Fits .dUnpack := by
  unfold fetchPayload
  split
  · exact Phase.noConfusion
  · split
    · exact Phase.noConfusion
    · exact ⟨by simp, by decide⟩

theorem fetchUnpack_fits (s : State) (l : Line) : (fetchUnpack s l).Fits .dUnpack := by
  have hsame : FollowsPhase .dUnpack .dUnpack := ⟨by decide, by decide⟩
  unfold fetchUnpack
  split
  · exact element_fits (by simp) _ _ _ hsame
  · exact element_fits (by simp) _ _ _ hsame
  · split
    · exact hsame
    · exact ⟨by simp, hsame⟩
  · exact fetchNode_fits s
  · exact fetchPayload_fits s
  · split
    · exact Phase.noConfusion
    · exact element_fits (by simp) _ _ _ hsame

theorem fetchSymbol_fits (s : State) : (fetchSymbol s).Fits .dHuff := by
  unfold fetchSymbol
  split
  · split
    · exact Phase.noConfusion
    · exact element_fits (by simp) _ _ _ (by decide)
  · change FollowsPhase _ _; decide

theorem fetchToken_fits (s : State) (i : Nat) : (fetchToken s i).Fits .dTokens := by
  unfold fetchToken
  split
  · exact Phase.noConfusion
  · split
    · change FollowsPhase _ _; decide
    · exact element_fits (by simp) _ _ _ (by decide)

theorem fetchDecode_fits (s : State) (l : Line) : (fetchDecode s l).Fits .dTokens := by
  unfold fetchDecode
  split
  · split
    · exact element_fits (by simp) _ _ _ (by decide)
    · exact Phase.noConfusion
  · exact fetchToken_fits s _
  · exact ⟨by simp, by decide⟩

theorem fetch_fits (s : State) : (fetch s).Fits s.seq.phase := by
  unfold fetch
  cases s.seq.phase with
  | idle => exact rfl
  | cTokens => exact fetchTokens_fits s _
  | cCount => exact ⟨by simp, by decide⟩
  | cBuild => exact fetchBuild_fits _
  | cPack => exact fetchPack_fits s _
  | dUnpack => exact fetchUnpack_fits s _
  | dHuff => exact fetchSymbol_fits s
  | dTokens => exact fetchDecode_fits s _

end Sys2Proof.Machine

namespace Sys2Proof.Machine

theorem Closed.and {P Q : State → Prop} (C : Closed P) (D : Closed Q) : Closed fun s => P s ∧ Q s where
  out s a v n h := ⟨C.out s a v n h.1, D.out s a v n h.2⟩
  outPtr s n h := ⟨C.outPtr s n h.1, D.outPtr s n h.2⟩
  tb s a v n h := ⟨C.tb s a v n h.1, D.tb s a v n h.2⟩
  tbLen s n h := ⟨C.tbLen s n h.1, D.tbLen s n h.2⟩
  win s a v p f h := ⟨C.win s a v p f h.1, D.win s a v p f h.2⟩
  winInit s p f h := ⟨C.winInit s p f h.1, D.winInit s p f h.2⟩
  finder s x h := ⟨C.finder s x h.1, D.finder s x h.2⟩
  enc s x hx h := ⟨C.enc s x hx h.1, D.enc s x hx h.2⟩
  dec s x h := ⟨C.dec s x h.1, D.dec s x h.2⟩
  freq s x hx h := ⟨C.freq s x hx h.1, D.freq s x hx h.2⟩
  tree s x hx h := ⟨C.tree s x hx h.1, D.tree s x hx h.2⟩
  code s x hx h := ⟨C.code s x hx h.1, D.code s x hx h.2⟩
  tbl s x h := ⟨C.tbl s x h.1, D.tbl s x h.2⟩
  walker s x h := ⟨C.walker s x h.1, D.walker s x h.2⟩
  bw s x h := ⟨C.bw s x h.1, D.bw s x h.2⟩
  br s x h := ⟨C.br s x h.1, D.br s x h.2⟩

/-- What going on writes beside the sequencer: `CUR`, the tree registers, `SYMCNT`, or `TP` and `OPTR`. -/
theorem goTo_cases (s : State) (p : Phase) (l : Line) :
    s.goTo p l = s.setSeq ⟨p, l⟩ ∨
    (p = .cTokens ∧ s.goTo p l = (s.setSeq ⟨p, l⟩).setFinder { s.finder with cur := 0 }) ∨
    (p = .dUnpack ∧ s.goTo p l = (s.setSeq ⟨p, l⟩).setTree s.tree.cleared) ∨
    (p = .dHuff ∧ s.goTo p l = (s.setSeq ⟨p, l⟩).setWalker { s.walker with symcnt := 0 }) ∨
    (p = .dTokens ∧ s.goTo p l = ((s.setSeq ⟨p, l⟩).setDec { s.dec with tp := 0 }).setOut { s.out with ptr := 0 }) := by
  unfold State.goTo
  dsimp only
  split
  · exact .inr (.inl ⟨rfl, rfl⟩)
  · exact .inr (.inr (.inl ⟨rfl, rfl⟩))
  · split
    · exact .inl rfl
    · exact .inr (.inr (.inr (.inl ⟨rfl, rfl⟩)))
  · exact .inr (.inr (.inr (.inr ⟨rfl, rfl⟩)))
  · exact .inl rfl

theorem ClosedInCall.goTo {P : State → Prop} (C : ClosedInCall P) {s : State} (h : P s) (p : Phase) (l : Line) :
    P (s.goTo p l) := by
  have hseq := C.seq s ⟨p, l⟩ h
  rcases goTo_cases s p l with he | ⟨-, he⟩ | ⟨-, he⟩ | ⟨-, he⟩ | ⟨-, he⟩ <;> rw [he]
  · exact hseq
  · exact C.finder _ _ hseq
  · exact C.tree _ _ id hseq
  · exact C.walker _ _ hseq
  · exact C.outPtr _ _ (C.dec _ _ hseq)

@[simp] theorem goTo_seq (s : State) (p : Phase) (l : Line) : (s.goTo p l).seq = ⟨p, l⟩ := by
  rcases goTo_cases s p l with he | ⟨-, he⟩ | ⟨-, he⟩ | ⟨-, he⟩ | ⟨-, he⟩ <;> rw [he] <;> rfl

@[simp] theorem goTo_host (s : State) (p : Phase) (l : Line) : (s.goTo p l).host = s.host := by
  rcases goTo_cases s p l with he | ⟨-, he⟩ | ⟨-, he⟩ | ⟨-, he⟩ | ⟨-, he⟩ <;> rw [he] <;> rfl

/-- What the engine's turn answers with a next state, for a property the datapath and the returned value keep: it waits, goes on
in the call, or ends it with `Ok` or with an error. -/
theorem engineTurn_cases {P : State → Prop} (C : Closed P) (hr : ∀ s r, P s → P (s.withResult r)) {s t : State} (hs : P s)
    (h : engineTurn exec s = .next t) :
    (s.seq.phase = .idle ∧ t = s) ∨
      (∃ u p l, P u ∧ u.host = s.host ∧ FollowsPhase s.seq.phase p ∧ t = u.goTo p l) ∨
      (∃ u, P u ∧ t = u.endOk) ∨ ∃ u e, P u ∧ t = u.takeError e := by
  have hfits := fetch_fits s
  unfold engineTurn at h
  cases hf : fetch s with
  | wait => rw [hf] at h hfits; cases h; exact .inl ⟨hfits, rfl⟩
  | move p l => rw [hf] at h hfits; cases h; exact .inr (.inl ⟨s, p, l, hs, rfl, hfits, rfl⟩)
  | raise e => rw [hf] at h; cases h; exact .inr (.inr (.inr ⟨s, e, hs, rfl⟩))
  | done => rw [hf] at h; cases h; exact .inr (.inr (.inl ⟨s, hs, rfl⟩))
  | refuse r => rw [hf] at h; cases h
  | run i p l =>
    rw [hf] at h hfits
    obtain ⟨⟨hc, hd⟩, hp⟩ := hfits
    cases hx : exec i s with
    | fault r => simp only [hx, afterRun] at h; cases h
    | refused r => simp only [hx, afterRun] at h; cases h
    | next u =>
      simp only [hx, afterRun] at h
      rcases exec_cases (C.and (outside_closed s)) hc hd ⟨hs, rfl, rfl, rfl, rfl, rfl⟩ hx with
        ⟨hu, hhost, hseq, -⟩ | ⟨v, r, ⟨hv, hhost, hseq, -⟩, rfl⟩ | ⟨v, e, ⟨hv, -⟩, rfl⟩
      · rw [hseq, if_neg hp.1] at h
        cases h
        exact .inr (.inl ⟨u, p, l, hu, hhost, hp, rfl⟩)
      · simp only [State.withResult, State.setEnv_fields, hseq, if_neg hp.1] at h
        cases h
        exact .inr (.inl ⟨_, p, l, hr v r hv, hhost, hp, rfl⟩)
      · cases h
        exact .inr (.inr (.inr ⟨v, e, hv, rfl⟩))

-- The step --------------------------------------------------------------------------------------------------------------

/-- What a turn of the host, or the reset signal, makes of a state if it is not stopped (R24 to R30, R40, R270). -/
inductive HostTurn (s : State) : State → Prop
  | command {c : Instr} {t : State} (hc : c = .compress ∨ c = .decompress) (hbusy : s.busy = false)
      (h : exec c s = .next t) : HostTurn s t
  | ignored : HostTurn s s
  | length (v : Nat) (hbusy : s.busy = false) : HostTurn s (s.setHost { s.host with inLen := v })
  | data (v : Nat) : HostTurn s (s.withHostData v)
  | input (a : Nat) (b : Byte) (hbusy : s.busy = false) (ha : a < s.caps.inCap) : HostTurn s (s.setInp (tableSet s.inp a b))
  | reset : HostTurn s s.hardReset

/-- Host register 0 holds a command or a reserved code (R73, R74). -/
theorem decode_cmd_eq_ok {bs rest : Bits} {i : Instr} (h : decode .cmd bs = .ok (i, rest)) :
    i = .compress ∨ i = .decompress := by
  simp only [decode] at h
  obtain ⟨v, hv⟩ := fixedWidth_eq_ok h
  unfold decodeCmd at hv
  split at hv
  · cases hv; exact .inl rfl
  · split at hv <;> cases hv
    exact .inr rfl

theorem writeCmd_hostTurn {c : Byte} {s t : State} (h : writeCmd exec c s = .next t) : HostTurn s t := by
  unfold writeCmd at h
  cases hbusy : s.busy with
  | true =>
    rw [hbusy, if_pos rfl] at h
    cases h
    exact .ignored
  | false =>
    rw [hbusy, if_neg Bool.false_ne_true] at h
    split at h
    · next hd => exact .command (decode_cmd_eq_ok hd) hbusy h
    · cases h

theorem writeReg_hostTurn {n v : Nat} {s t : State} (h : writeReg exec n v s = .next t) : HostTurn s t := by
  unfold writeReg at h
  split at h
  · exact writeCmd_hostTurn h
  · cases h; exact .ignored
  · cases h; exact .ignored
  · cases hbusy : s.busy with
    | true =>
      rw [hbusy, if_pos rfl] at h
      cases h
      exact .ignored
    | false =>
      rw [hbusy, if_neg Bool.false_ne_true] at h
      cases h
      exact .length v hbusy
  · cases h; exact .ignored
  · cases h

/-- An access to a buffer that is answered: the engine is not busy and the index is below the capacity. -/
theorem bufferAccess_eq_next {sp : Space} {a cap : Nat} {s u t : State} (h : bufferAccess sp a cap s u = .next t) :
    s.busy = false ∧ a < cap ∧ t = u := by
  unfold bufferAccess at h
  split at h
  · cases h
  · next hb =>
    split at h <;> cases h
    next ha => exact ⟨by simpa using hb, ha, rfl⟩

/-- A turn of the host or the reset signal. -/
theorem takeTurn_cases {tn : Turn} {s t : State} (h : takeTurn exec tn s = .next t) :
    engineTurn exec s = .next t ∨ HostTurn s t := by
  cases tn with
  | engine => exact .inl h
  | writeReg n v => exact .inr (writeReg_hostTurn h)
  | readReg n =>
    change readReg n s = _ at h
    unfold readReg at h
    split at h <;> cases h
    exact .inr (.data _)
  | writeIn a b =>
    obtain ⟨hbusy, ha, rfl⟩ := bufferAccess_eq_next h
    exact .inr (.input a b hbusy ha)
  | readIn a =>
    obtain ⟨-, -, rfl⟩ := bufferAccess_eq_next h
    exact .inr (.data _)
  | writeOut a b =>
    change ite _ _ _ = _ at h
    split at h <;> cases h
  | readOut a =>
    obtain ⟨-, -, rfl⟩ := bufferAccess_eq_next h
    unfold State.readOut
    split <;> exact .inr (.data _)
  | reset => cases h; exact .inr .reset

/-- A step is the engine's turn or one of the host, at the state without that turn. -/
theorem step_cases {s t : State} (h : step s = .next t) :
    ∃ ts, engineTurn exec (s.withTurns ts) = .next t ∨ HostTurn (s.withTurns ts) t := by
  unfold step turnStep at h
  split at h
  · next hts => exact ⟨[], .inl (by rw [← h, State.withTurns, ← hts]; rfl)⟩
  · exact ⟨_, takeTurn_cases h⟩

-- The invariants of the host registers and of the canonical form ----------------------------------------------------------

/-- The host registers and the phase are all that the agreement is about. -/
theorem statusAgrees_congr {s t : State} (hhost : t.host = s.host) (hphase : t.seq.phase = s.seq.phase)
    (h : s.StatusAgrees) : t.StatusAgrees := by
  obtain ⟨h₁, h₂, h₃, h₄, h₅⟩ := h
  constructor <;> rw [hhost]
  · exact h₁
  · rw [hphase]; exact h₂
  · exact h₃
  · exact h₄
  · exact h₅

theorem takeError_agrees (s : State) (e : ErrKind) : (s.takeError e).StatusAgrees := by
  cases e <;> constructor <;> simp [errCode]

theorem endOk_agrees (s : State) : s.endOk.StatusAgrees := by constructor <;> simp

theorem hardReset_agrees (s : State) : s.hardReset.StatusAgrees := by
  constructor <;> simp [State.hardReset, State.reset, resetHost]

/-- The start of a call (R221). -/
theorem started_agrees (s : State) {p : Phase} (l : Line) (hp : p ≠ .idle) :
    (s.accept.initCall.setSeq ⟨p, l⟩).StatusAgrees := by
  constructor <;> simp [State.initCall, hp]

theorem firstPhase_ne_idle (c : Instr) : firstPhase c ≠ .idle := by cases c <;> simp [firstPhase]

/-- Not busy is idle. -/
theorem idle_of_agrees {s : State} (h : s.StatusAgrees) (hbusy : s.busy = false) : s.seq.phase = .idle := by
  by_contra hp
  rw [State.busy, h.busy.2 hp] at hbusy
  cases hbusy

/-- Settles O11: a call goes on busy, or ends in one of the two ways that set all the registers (`engineTurn_cases`,
`exec_command_cases`); the host writes none of them but `IN_LEN`. -/
theorem stepKeepsStatusAgreement : Obligations.StepKeepsStatusAgreement := by
  unfold Obligations.StepKeepsStatusAgreement
  intro s t hs h
  obtain ⟨ts, h⟩ := step_cases h
  replace hs : (s.withTurns ts).StatusAgrees := statusAgrees_congr (s := s) rfl rfl hs
  generalize s.withTurns ts = s at hs h
  rcases h with h | h
  · rcases engineTurn_cases (P := fun _ => True) (by constructor <;> simp) (fun _ _ _ => trivial) trivial h with
      ⟨-, rfl⟩ | ⟨u, p, l, -, hhost, hp, rfl⟩ | ⟨u, -, rfl⟩ | ⟨u, e, -, rfl⟩
    · exact hs
    · obtain ⟨h₁, h₂, h₃, h₄, h₅⟩ := hs
      constructor <;> rw [goTo_host, hhost]
      · exact h₁
      · rw [goTo_seq]; exact ⟨fun _ => hp.2.2, fun _ => h₂.2 hp.1⟩
      · exact h₃
      · exact h₄
      · exact h₅
    · exact endOk_agrees u
    · exact takeError_agrees u e
  · cases h with
    | command hc hbusy h =>
      rcases exec_command_cases (P := fun _ => True) ⟨by constructor <;> simp, by simp⟩ hc hbusy trivial h with
        ⟨rfl, -⟩ | ⟨u, -, rfl⟩ | ⟨u, e, -, rfl⟩
      · exact started_agrees s _ (firstPhase_ne_idle _)
      · exact endOk_agrees u
      · exact takeError_agrees u e
    | ignored => exact hs
    | length v hbusy => exact ⟨hs.legal, hs.busy, hs.code, hs.error, hs.length⟩
    | data v => exact statusAgrees_congr (s := s) rfl rfl hs
    | input a b hbusy ha => exact statusAgrees_congr (s := s) rfl rfl hs
    | reset => exact hardReset_agrees s

theorem mem_phaseSuccessors_self (p : Phase) : p ∈ phaseSuccessors p := by cases p <;> decide

theorem idle_mem_phaseSuccessors (p : Phase) : .idle ∈ phaseSuccessors p := by cases p <;> decide

/-- Settles O8: a call goes on in the order of R22 (`fetch_fits`) or ends in `IDLE`; a command starts one from `IDLE`. -/
theorem phasesFollowTheirOrder : Obligations.PhasesFollowTheirOrder := by
  unfold Obligations.PhasesFollowTheirOrder
  intro s t hs h
  obtain ⟨ts, h⟩ := step_cases h
  replace hs : (s.withTurns ts).StatusAgrees := statusAgrees_congr (s := s) rfl rfl hs
  change t.seq.phase ∈ phaseSuccessors (s.withTurns ts).seq.phase
  generalize s.withTurns ts = s at hs h
  rcases h with h | h
  · rcases engineTurn_cases (P := fun _ => True) (by constructor <;> simp) (fun _ _ _ => trivial) trivial h with
      ⟨-, rfl⟩ | ⟨u, p, l, -, -, hp, rfl⟩ | ⟨u, -, rfl⟩ | ⟨u, e, -, rfl⟩
    · exact mem_phaseSuccessors_self _
    · rw [goTo_seq]; exact hp.2.1
    · exact idle_mem_phaseSuccessors _
    · exact idle_mem_phaseSuccessors _
  · cases h with
    | command hc hbusy h =>
      rw [idle_of_agrees hs hbusy]
      rcases exec_command_cases (P := fun _ => True) ⟨by constructor <;> simp, by simp⟩ hc hbusy trivial h with
        ⟨rfl, -⟩ | ⟨u, -, rfl⟩ | ⟨u, e, -, rfl⟩
      · rcases hc with rfl | rfl <;> simp [firstPhase, phaseSuccessors]
      · exact idle_mem_phaseSuccessors .idle
      · exact idle_mem_phaseSuccessors .idle
    | reset => exact idle_mem_phaseSuccessors _
    | _ => exact mem_phaseSuccessors_self _

/-- Every write is one entry, or a whole table in canonical form. -/
theorem canonical_closedInCall : ClosedInCall State.Canonical := by
  refine ⟨?_, fun _ _ h => h⟩
  constructor
  case out => exact fun s a v n ⟨h₁, h₂, h₃, h₄⟩ => ⟨h₁, h₂, Memory.wf_tableSet _ _ h₃, h₄⟩
  case tb => exact fun s a v n ⟨h₁, h₂, h₃⟩ => ⟨h₁, Memory.wf_tableSet _ _ h₂, h₃⟩
  case win => exact fun s a v p f ⟨h₁, h₂, h₃, h₄, h₅⟩ => ⟨h₁, h₂, h₃, Memory.wf_tableSet _ _ h₄, h₅⟩
  case enc => exact fun s x hx ⟨h₁, h₂, h₃, h₄, h₅, h₆⟩ => ⟨h₁, h₂, h₃, h₄, hx h₅, h₆⟩
  case freq => exact fun s x hx ⟨h₁, h₂, h₃, h₄, h₅, h₆, h₇⟩ => ⟨h₁, h₂, h₃, h₄, h₅, hx, h₇⟩
  case tree => exact fun s x hx ⟨h₁, h₂, h₃, h₄, h₅, h₆, h₇, h₈⟩ => ⟨h₁, h₂, h₃, h₄, h₅, h₆, hx h₇, h₈⟩
  case code => exact fun s x hx ⟨h₁, h₂, h₃, h₄, h₅, h₆, h₇, h₈⟩ => ⟨h₁, h₂, h₃, h₄, h₅, h₆, h₇, hx⟩
  case winInit => exact fun _ _ _ h => h
  all_goals exact fun _ _ h => h

/-- Settles O10: the datapath keeps the canonical form (`canonical_closedInCall`), and so do the turns of the engine and of the
host. -/
theorem stepKeepsCanonicalForm : Obligations.StepKeepsCanonicalForm := by
  unfold Obligations.StepKeepsCanonicalForm
  intro s t hs h
  have C := canonical_closedInCall
  obtain ⟨ts, h⟩ := step_cases h
  replace hs : (s.withTurns ts).Canonical := hs
  generalize s.withTurns ts = s at hs h
  rcases h with h | h
  · rcases engineTurn_cases C.toClosed (fun _ _ h => h) hs h with
      ⟨-, rfl⟩ | ⟨u, p, l, hu, -, -, rfl⟩ | ⟨u, hu, rfl⟩ | ⟨u, e, hu, rfl⟩
    · exact hs
    · exact C.goTo hu p l
    · exact hu
    · exact hu
  · cases h with
    | command hc hbusy h =>
      rcases exec_command_cases C hc hbusy hs h with ⟨-, ht⟩ | ⟨u, hu, rfl⟩ | ⟨u, e, hu, rfl⟩
      · exact ht
      · exact hu
      · exact hu
    | ignored => exact hs
    | length v hbusy => exact hs
    | data v => exact hs
    | input a b hbusy ha => exact ⟨Memory.wf_tableSet _ _ hs.1, hs.2⟩
    | reset => exact ⟨rfl, rfl, rfl, rfl, rfl, rfl, rfl, rfl⟩

end Sys2Proof.Machine

/-! The host's side at one step (R24 to R30, R40, R43, R44, R221, R270), and the window (R61, R120 to R122). -/

namespace Sys2Proof.Machine

-- The host's turns ------------------------------------------------------------------------------------------------------

/-- A step whose turn is scheduled takes that turn at the state without it. -/
theorem step_of_turns {s : State} {tn : Turn} {rest : List Turn} (h : s.env.turns = tn :: rest) :
    step s = takeTurn exec tn (s.withTurns rest) := by
  unfold step turnStep
  rw [h]
  rfl

theorem writeCmd_of_ok {s : State} {c : Byte} {i : Instr} {rest : Bits} (hbusy : s.busy = false)
    (hd : decode .cmd (byteBits c) = .ok (i, rest)) : writeCmd exec c s = exec i s := by
  simp only [writeCmd, hbusy, hd, Bool.false_eq_true, if_false]

theorem writeCmd_of_error {s : State} {c : Byte} {e : Reject} (hbusy : s.busy = false)
    (hd : decode .cmd (byteBits c) = .error e) : writeCmd exec c s = .refused (.reservedCommand c) := by
  simp only [writeCmd, hbusy, hd, Bool.false_eq_true, if_false]

/-- Settles O6, by the three cases of a write of `CMD`. -/
theorem stepRunsTheWrittenCommand : Obligations.StepRunsTheWrittenCommand := by
  unfold Obligations.StepRunsTheWrittenCommand
  rintro s u v rest hturns rfl
  have hstep : step s = writeCmd exec (BitVec.ofNat 8 v) (s.withTurns rest) := step_of_turns hturns
  refine ⟨fun hbusy => ?_, fun hbusy i hd => ?_, fun hbusy e hd => ?_⟩
  · exact hstep.trans (if_pos hbusy)
  · exact hstep.trans (writeCmd_of_ok hbusy hd)
  · exact hstep.trans (writeCmd_of_error hbusy hd)

/-- Settles O13: the reset signal is the turn, and what it leaves is `State.hardReset`. -/
theorem hardwareResetDiscardsTheCall : Obligations.HardwareResetDiscardsTheCall := by
  unfold Obligations.HardwareResetDiscardsTheCall
  intro s rest hturns
  exact ⟨(s.withTurns rest).hardReset, step_of_turns hturns, rfl, rfl, rfl, rfl, rfl, rfl, rfl, rfl, rfl⟩

/-- Settles O14, register by register. -/
theorem hostRegistersReadAndWrite : Obligations.HostRegistersReadAndWrite := by
  unfold Obligations.HostRegistersReadAndWrite
  rintro s u n v rest rfl
  refine ⟨fun hturns => ?_, fun hturns => ?_⟩
  · have hstep : step s = readReg n (s.withTurns rest) := step_of_turns hturns
    rw [hstep]
    refine ⟨?_, ?_, ?_, ?_, ?_, fun h5 => ?_⟩
    iterate 5 rintro rfl; rfl
    obtain ⟨k, rfl⟩ : ∃ k, n = k + 5 := ⟨n - 5, by omega⟩
    rfl
  · have hstep : step s = writeReg exec n v (s.withTurns rest) := step_of_turns hturns
    rw [hstep]
    refine ⟨?_, ?_, ?_, fun h5 => ?_⟩
    · rintro (rfl | rfl | rfl) <;> rfl
    · rintro rfl hbusy
      exact if_pos hbusy
    · rintro rfl hbusy
      exact if_neg (by rw [Bool.not_eq_true]; exact hbusy)
    · obtain ⟨k, rfl⟩ : ∃ k, n = k + 5 := ⟨n - 5, by omega⟩
      rfl

/-- The three answers to an access to a buffer. -/
theorem bufferAccess_busy {sp : Space} {a cap : Nat} {s t : State} (h : s.busy = true) :
    bufferAccess sp a cap s t = .refused (.bufferWhileBusy sp) := if_pos h

theorem bufferAccess_ok {sp : Space} {a cap : Nat} {s t : State} (h : s.busy = false) (ha : a < cap) :
    bufferAccess sp a cap s t = .next t := by simp [bufferAccess, h, ha]

theorem bufferAccess_fault {sp : Space} {a cap : Nat} {s t : State} (h : s.busy = false) (ha : cap ≤ a) :
    bufferAccess sp a cap s t = .fault (.noSuchAddress sp a) := by simp [bufferAccess, h, Nat.not_lt.2 ha]

/-- Settles O15, access by access, by the three answers a buffer gives. -/
theorem hostReachesItsBuffers : Obligations.HostReachesItsBuffers := by
  unfold Obligations.HostReachesItsBuffers
  rintro s u a b rest rfl
  refine ⟨fun hturns => ?_, fun hturns => ?_, fun hturns => ?_, fun hturns => ?_⟩
  · have hstep : step s = bufferAccess .inp a s.caps.inCap (s.withTurns rest)
        ((s.withTurns rest).setInp (tableSet s.inp a b)) := step_of_turns hturns
    rw [hstep]
    refine ⟨bufferAccess_busy, fun hb ha => ⟨_, bufferAccess_ok hb ha, rfl, ?_, fun a' ha' => ?_⟩, bufferAccess_fault⟩
    · exact readByte_tableSet_self _ _ _ _ _
    · exact readByte_tableSet_of_ne _ _ _ _ ha'
  · have hstep : step s = bufferAccess .inp a s.caps.inCap (s.withTurns rest)
        ((s.withTurns rest).withHostData (s.inByte a).toNat) := step_of_turns hturns
    rw [hstep]
    exact ⟨bufferAccess_busy, bufferAccess_ok, bufferAccess_fault⟩
  · have hstep : step s = bufferAccess .out a s.caps.outCap (s.withTurns rest) ((s.withTurns rest).readOut a) :=
      step_of_turns hturns
    rw [hstep]
    refine ⟨bufferAccess_busy, bufferAccess_fault, fun hb ha hlen => ?_, fun hb ha hlen => ?_⟩
    · exact (bufferAccess_ok hb ha).trans (congrArg _ (if_pos hlen))
    · refine ⟨(Config.freeByte s.env.epoch s.env.calls a).toNat, BitVec.isLt _,
        (bufferAccess_ok hb ha).trans (congrArg _ (if_neg (Nat.not_lt.2 hlen))), ?_⟩
      rintro rest' rfl
      rw [step_of_turns (s := State.withHostData _ _) (rest := rest') rfl]
      exact (bufferAccess_ok hb ha).trans (congrArg _ (if_neg (Nat.not_lt.2 hlen)))
  · have hstep : step s = if (s.withTurns rest).busy then .refused (.bufferWhileBusy .out) else .refused .outputWritten :=
      step_of_turns hturns
    rw [hstep]
    split <;> exact ⟨_, rfl⟩

-- The start of a call -----------------------------------------------------------------------------------------------------

/-- A write of 1 or 2 to `CMD` while the engine is not busy starts its command (R73, R221). -/
theorem step_startsCommand {s : State} {v : Nat} {rest : List Turn} (hbusy : s.busy = false)
    (hturns : s.env.turns = .writeReg 0 v :: rest) (hv : v = 1 ∨ v = 2) :
    ∃ body, step s = runOp (command (if v = 1 then .cTokens else .dUnpack) body) (s.withTurns rest) := by
  have hstep : step s = writeCmd exec (BitVec.ofNat 8 v) (s.withTurns rest) := step_of_turns hturns
  have hb : (s.withTurns rest).busy = false := hbusy
  rcases hv with rfl | rfl
  · refine ⟨compressBody, hstep.trans ((writeCmd_of_ok hb (i := .compress) (rest := []) (by decide)).trans ?_)⟩
    simp only [exec, execCompress, hb]
    rfl
  · refine ⟨decompressBody, hstep.trans ((writeCmd_of_ok hb (i := .decompress) (rest := []) (by decide)).trans ?_)⟩
    simp only [exec, execDecompress, hb]
    rfl

/-- Settles O16: the command is started and its body left to later turns, or ended by the test of `IN_LEN`. -/
theorem acceptedCommandStartsACall : Obligations.AcceptedCommandStartsACall := by
  unfold Obligations.AcceptedCommandStartsACall
  intro s v rest hbusy hturns hv
  obtain ⟨body, hstep⟩ := step_startsCommand hbusy hturns hv
  refine ⟨fun hlen hrest => ?_, fun hlen => ?_⟩
  · refine ⟨_, hstep.trans (runOp_of_ok (command_stepwise _ body (s := s.withTurns rest) hlen hrest)), rfl, rfl, ?_⟩
    exact ⟨rfl, rfl, rfl, rfl, rfl, rfl, rfl, rfl, rfl, rfl, rfl, rfl, rfl, rfl, rfl, rfl, fun _ => rfl, fun _ => rfl, rfl,
      rfl, rfl, rfl, rfl, rfl⟩
  · obtain ⟨hfailed, hlen', hinp, -⟩ := tookError_takeError (s.withTurns rest).accept.initCall .capacityExceeded
    exact ⟨_, hstep.trans (runOp_of_err (command_tooLong _ body (s := s.withTurns rest) (Nat.not_le.2 hlen))), hfailed,
      hinp, hlen'⟩

-- The window ------------------------------------------------------------------------------------------------------------

/-- The place of a byte `d` back is one put earlier than that of the byte `d + 1` back after the put. -/
theorem windowPut_back {pos d : Nat} (hp : pos < 4096) (h1 : 1 ≤ d) (hd : d < 4096) :
    ((pos + 1) % 4096 + 4096 - (d + 1)) % 4096 = (pos + 4096 - d) % 4096 := by omega

/-- `WIN_PUT` makes the byte the latest of those produced (R41, R121). -/
theorem windowHolds_put {s : State} {p : List Byte} (h : s.windowHolds p) (b : Byte) :
    (s.setWin (windowPut s.win b)).windowHolds (p ++ [b]) := by
  obtain ⟨hpos, hfill, hbytes⟩ := h
  have hlt : s.win.pos < 4096 := by omega
  refine ⟨?_, ?_, fun d h1 hd => ?_⟩
  · simp only [State.setWin_fields, windowPut_pos, List.length_append, List.length_singleton]
    omega
  · simp only [State.setWin_fields, windowPut_fill, List.length_append, List.length_singleton]
    omega
  · simp only [State.setWin_fields, windowPut_pos, windowPut_fill] at hd ⊢
    obtain ⟨e, rfl⟩ : ∃ e, d = e + 1 := ⟨d - 1, by omega⟩
    show readByte s.env.epoch .win (tableSet s.win.mem s.win.pos b) _ = _
    rcases Nat.eq_zero_or_pos e with rfl | he
    · rw [show ((s.win.pos + 1) % 4096 + 4096 - (0 + 1)) % 4096 = s.win.pos by omega, readByte_tableSet_self]
      simp [byteAt]
    · rw [windowPut_back hlt he (by omega), readByte_tableSet_of_ne _ _ _ _ (by omega)]
      refine (hbytes e he (by omega)).trans ?_
      have hlen : e ≤ p.length := by omega
      simp only [byteAt, List.length_append, List.length_singleton, List.getD_eq_getElem?_getD]
      rw [show p.length + 1 - (e + 1) = p.length - e by omega, List.getElem?_append_left (by omega)]

/-- `WIN_INIT` gives the window of no bytes (R120). -/
theorem windowHolds_init {s : State} : (s.setWin { s.win with pos := 0, fill := 0 }).windowHolds [] :=
  ⟨rfl, rfl, fun d h1 hd => absurd (show d ≤ 0 from hd) (by omega)⟩

/-- Settles O28, by the updates of the window and `winGet_apply`. -/
theorem windowHoldsTheLatestBytes : Obligations.WindowHoldsTheLatestBytes := by
  unfold Obligations.WindowHoldsTheLatestBytes
  intro s
  have hget : ∀ d, 1 ≤ d → d ≤ s.win.fill → exec (.winGet d) s = .next (s.withResult (.byte (s.winBack d))) :=
    fun d h1 hd => runRes_of_ok (x := winGet d) (by rw [winGet_apply, if_pos ⟨h1, hd⟩])
  refine ⟨fun b => ?_, fun t ht => ?_, hget, fun p d hp h1 hd => ?_, fun d hd => ?_⟩
  · exact ⟨_, rfl, rfl, rfl, rfl, readByte_tableSet_self _ _ _ _ _, fun a ha => readByte_tableSet_of_ne _ _ _ _ ha,
      fun p hp => windowHolds_put hp b⟩
  · cases ht
    exact windowHolds_init
  · obtain ⟨hpos, hfill, hbytes⟩ := hp
    rw [hget d h1 (by omega), ← hbytes d h1 (by omega)]
    rfl
  · have hx : winGet d s = .error (.refuse (.precondition "WIN_GET")) s := by
      rw [winGet_apply, if_neg (by omega)]
    show runRes (winGet d) .byte s = _
    simp only [runRes, hx]

end Sys2Proof.Machine

/-! The bit writer (R38, R102 to R105): what an appended bit and an appended string of bits do to the bits written. -/

namespace Sys2Proof.Machine

-- Bits of a byte --------------------------------------------------------------------------------------------------------

/-- The first bits of a number's low bits are its high part's. -/
theorem take_natBits (k n v : Nat) : (natBits (k + n) v).take k = natBits k (v / 2 ^ n) := by
  induction k with
  | zero => simp [natBits]
  | succ k ih =>
    rw [Nat.succ_add, natBits, List.take_succ_cons, ih, natBits, Nat.testBit_div_two_pow]

theorem take_byteBits (x : Byte) {k n : Nat} (h : 8 = k + n) : (byteBits x).take k = natBits k (x.toNat / 2 ^ n) := by
  rw [← take_natBits, ← h]
  rfl

theorem natBits_concat (k v : Nat) : natBits (k + 1) v = natBits k (v / 2) ++ [v.testBit 0] := by
  induction k with
  | zero => simp [natBits]
  | succ k ih =>
    rw [natBits, ih, natBits, List.cons_append, Nat.testBit_succ]

/-- Below the pending bits `BW_ACC` is 0, so the next bit is added there (R38, R102). -/
theorem bitInto_toNat {acc : Byte} {cnt : Nat} (hc : cnt < 8) (ha : acc.toNat % 2 ^ (8 - cnt) = 0) (b : Bool) :
    (bitInto acc cnt b).toNat = acc.toNat + b.toNat * 2 ^ (7 - cnt) := by
  have hbit : ((BitVec.ofBool b).setWidth 8 <<< (7 - cnt)).toNat = b.toNat * 2 ^ (7 - cnt) := by
    have hp : (2 : Nat) ^ (7 - cnt) ≤ 2 ^ 7 := Nat.pow_le_pow_right (by decide) (by omega)
    rw [BitVec.toNat_shiftLeft, BitVec.toNat_setWidth, BitVec.toNat_ofBool, Nat.shiftLeft_eq]
    cases b <;> simp
    exact Nat.lt_of_le_of_lt hp (by decide)
  have hsum : acc.toNat = (acc.toNat / 2 ^ (8 - cnt)) <<< (8 - cnt) := by
    rw [Nat.shiftLeft_eq, Nat.div_mul_cancel (Nat.dvd_of_mod_eq_zero ha)]
  have hlt : b.toNat * 2 ^ (7 - cnt) < 2 ^ (8 - cnt) := by
    rw [show 8 - cnt = 7 - cnt + 1 by omega, Nat.pow_succ]
    have := Nat.two_pow_pos (7 - cnt)
    cases b <;> simp
  rw [bitInto, BitVec.toNat_or, hbit, hsum, ← Nat.shiftLeft_add_eq_or_of_lt hlt]

/-- The pending bits with one more. -/
theorem take_bitInto {acc : Byte} {cnt : Nat} (hc : cnt < 8) (ha : acc.toNat % 2 ^ (8 - cnt) = 0) (b : Bool) :
    (byteBits (bitInto acc cnt b)).take (cnt + 1) = (byteBits acc).take cnt ++ [b] := by
  obtain ⟨n, hn⟩ : ∃ n, 8 = cnt + 1 + n := ⟨7 - cnt, by omega⟩
  have h7 : 7 - cnt = n := by omega
  have h8 : 8 - cnt = n + 1 := by omega
  have hval := bitInto_toNat hc ha b
  rw [h7] at hval
  rw [h8] at ha
  have hdiv : (acc.toNat + b.toNat * 2 ^ n) / 2 ^ n = acc.toNat / 2 ^ n + b.toNat :=
    Nat.add_mul_div_right _ _ (Nat.two_pow_pos n)
  obtain ⟨m, hm⟩ := Nat.dvd_of_mod_eq_zero ha
  have hacc : acc.toNat / 2 ^ n = 2 * m := by
    rw [hm, Nat.pow_succ, Nat.mul_assoc, Nat.mul_div_cancel_left _ (Nat.two_pow_pos n)]
  have hacc' : acc.toNat / 2 ^ (n + 1) = m := by rw [hm, Nat.mul_div_cancel_left _ (Nat.two_pow_pos _)]
  rw [take_byteBits _ (k := cnt + 1) (n := n) (by omega), take_byteBits acc (k := cnt) (n := n + 1) (by omega), hval, hdiv,
    hacc, hacc', natBits_concat]
  cases b
  · rw [show (2 * m + Bool.toNat false) / 2 = m by simp]
    simp [Nat.testBit_zero]
  · rw [show (2 * m + Bool.toNat true) / 2 = m by simp; omega]
    simp [Nat.testBit_zero]

/-- With one more bit `BW_ACC` is 0 below it again. -/
theorem bitInto_mod {acc : Byte} {cnt : Nat} (hc : cnt < 7) (ha : acc.toNat % 2 ^ (8 - cnt) = 0) (b : Bool) :
    (bitInto acc cnt b).toNat % 2 ^ (8 - (cnt + 1)) = 0 := by
  rw [bitInto_toNat (by omega) ha, show 8 - (cnt + 1) = 7 - cnt by omega]
  have hd : 2 ^ (7 - cnt) ∣ acc.toNat :=
    Nat.dvd_trans (Nat.pow_dvd_pow 2 (by omega)) (Nat.dvd_of_mod_eq_zero ha)
  exact Nat.mod_eq_zero_of_dvd (Nat.dvd_add hd (Nat.dvd_mul_left _ _))

-- Bytes and bits ----------------------------------------------------------------------------------------------------------

theorem bytesBits_append (xs ys : List Byte) : bytesBits (xs ++ ys) = bytesBits xs ++ bytesBits ys := by
  induction xs with
  | nil => rfl
  | cons x xs ih => simp [bytesBits, ih]

theorem bytesFrom_add (f : Nat → Byte) (a m n : Nat) : bytesFrom f a (m + n) = bytesFrom f a m ++ bytesFrom f (a + m) n := by
  induction m generalizing a with
  | zero => simp [bytesFrom]
  | succ m ih => rw [Nat.succ_add, bytesFrom, ih, bytesFrom, List.cons_append]; congr 3; omega

theorem bytesFrom_congr {f g : Nat → Byte} {a n : Nat} (h : ∀ k, a ≤ k → k < a + n → f k = g k) :
    bytesFrom f a n = bytesFrom g a n := by
  induction n generalizing a with
  | zero => rfl
  | succ n ih =>
    rw [bytesFrom, bytesFrom, h a (Nat.le_refl _) (by omega), ih fun k hk hk' => h k (by omega) (by omega)]

@[simp] theorem bytesFrom_length (f : Nat → Byte) (a n : Nat) : (bytesFrom f a n).length = n := by
  induction n generalizing a with
  | zero => rfl
  | succ n ih => simp [bytesFrom, ih]

-- Appended bits -----------------------------------------------------------------------------------------------------------

/-- `t` is `s` with these bits appended to those written, and nothing else changed (R105). -/
structure State.Wrote (s t : State) (bits : Bits) : Prop where
  frame : t = (s.setOut t.out).setBw t.bw
  writer : t.writerOk
  ptr : t.out.ptr = s.out.ptr + (s.bw.cnt + bits.length) / 8
  cnt : t.bw.cnt = (s.bw.cnt + bits.length) % 8
  appended : ∀ p, p ≤ s.out.ptr → t.bitsFrom p = s.bitsFrom p ++ bits
  kept : ∀ a, a < s.out.ptr ∨ t.out.ptr ≤ a → t.outByte a = s.outByte a

theorem State.Wrote.nil {s : State} (h : s.writerOk) : s.Wrote s [] := by
  refine ⟨rfl, h, ?_, ?_, fun p _ => (List.append_nil _).symm, fun _ _ => rfl⟩
  · have := h.1; simp only [List.length_nil]; omega
  · have := h.1; simp only [List.length_nil]; omega

theorem State.Wrote.append {s t u : State} {xs ys : Bits} (hx : s.Wrote t xs) (hy : t.Wrote u ys) :
    s.Wrote u (xs ++ ys) := by
  have hptr := hy.ptr
  rw [hx.ptr, hx.cnt] at hptr
  have hcnt := hy.cnt
  rw [hx.cnt] at hcnt
  refine ⟨?_, hy.writer, ?_, ?_, fun p hp => ?_, fun a ha => ?_⟩
  · rw [hy.frame, hx.frame]; rfl
  · rw [List.length_append]; omega
  · rw [List.length_append]; omega
  · rw [hy.appended p (by rw [hx.ptr]; omega), hx.appended p hp, List.append_assoc]
  · have := hx.ptr
    rw [hy.kept a (by omega), hx.kept a (by omega)]

theorem bwPutBit_wrote {s : State} (hw : s.writerOk) (b : Bool) (hroom : s.bw.cnt = 7 → s.out.ptr < s.caps.outCap) :
    ∃ t, bwPutBit b s = .ok () t ∧ s.Wrote t [b] := by
  obtain ⟨hc, ha⟩ := hw
  rw [bwPutBit_apply]
  by_cases h7 : s.bw.cnt = 7
  · rw [if_pos h7, if_pos (hroom h7)]
    have htake := take_bitInto hc ha b
    rw [h7, List.take_of_length_le (by simp)] at htake
    refine ⟨_, rfl, rfl, ⟨by simp, by simp⟩, by simp [h7], by simp [h7], fun p hp => ?_, fun a ha => ?_⟩
    · simp only [State.bitsFrom, State.setBw_fields, State.setOut_fields, List.take_zero, List.append_nil, h7]
      rw [show s.out.ptr + 1 - p = s.out.ptr - p + 1 by omega, bytesFrom_add, bytesBits_append, List.append_assoc,
        ← htake, show p + (s.out.ptr - p) = s.out.ptr by omega]
      congr 1
      · refine congrArg bytesBits (bytesFrom_congr fun k _ hk => ?_)
        exact readByte_tableSet_of_ne _ _ _ _ (by omega)
      · refine (List.append_nil _).trans (congrArg byteBits ?_)
        exact readByte_tableSet_self _ _ _ _ _
    · simp only [State.setBw_fields, State.setOut_fields] at ha
      exact readByte_tableSet_of_ne _ _ _ _ (by omega)
  · rw [if_neg h7]
    refine ⟨_, rfl, rfl, ⟨?_, ?_⟩, ?_, ?_, fun p hp => ?_, fun _ _ => rfl⟩
    · show s.bw.cnt + 1 < 8; omega
    · exact bitInto_mod (by omega) ha b
    · simp; omega
    · simp; omega
    · simp only [State.bitsFrom, State.setBw_fields, take_bitInto hc ha, ← List.append_assoc]
      rfl

theorem bwPutAll_singleton (b : Bool) (s : State) : bwPutAll [b] s = bwPutBit b s := by
  rw [bwPutAll_cons]
  cases hx : bwPutBit b s with
  | ok a t => rw [bind_ok hx]; rfl
  | error e t => rw [bind_error hx]

/-- A string of bits whose completed bytes fit. -/
theorem bwPutAll_wrote (bits : Bits) {s : State} (hw : s.writerOk)
    (hroom : (s.bw.cnt + bits.length) / 8 ≠ 0 → s.out.ptr + (s.bw.cnt + bits.length) / 8 ≤ s.caps.outCap) :
    ∃ t, bwPutAll bits s = .ok () t ∧ s.Wrote t bits := by
  induction bits generalizing s with
  | nil => exact ⟨s, rfl, .nil hw⟩
  | cons b bits ih =>
    simp only [List.length_cons] at hroom
    obtain ⟨t, ht, hb⟩ := bwPutBit_wrote hw b (fun h7 => by omega)
    have hptr := hb.ptr
    have hcnt := hb.cnt
    have hcap : t.caps.outCap = s.caps.outCap := by rw [hb.frame]; rfl
    simp only [List.length_singleton] at hptr hcnt
    obtain ⟨u, hu, hbs⟩ := ih hb.writer (fun _ => by rw [hcap]; have := hw.1; omega)
    exact ⟨u, by rw [bwPutAll_cons, bind_ok ht, hu], hb.append hbs⟩

-- The operations that write bits ------------------------------------------------------------------------------------------

/-- `BW_PUT_CODE` writes the code word (R96). -/
theorem bwPutCode_apply (v : Byte) (s : State) : bwPutCode v s = bwPutAll (s.codeOf v) s := by
  simp only [bwPutCode, look_bind, id_eq, State.codeOf, codeBits]
  cases tableGet s.code v.toNat <;> rfl

/-- The stream and the codes stay as they are while the bit writer writes. -/
theorem bwPutAll_source {bs : Bits} {s t : State} (h : bwPutAll bs s = .ok () t) :
    t.tbByte = s.tbByte ∧ t.codeOf = s.codeOf :=
  (bwPutAll_keeps (P := fun t => t.tbByte = s.tbByte ∧ t.codeOf = s.codeOf) (fun _ _ h => h) (fun _ _ h => h) bs).ok
    ⟨rfl, rfl⟩ h

/-- The payload is written as the one string of its code words (R90, R191). -/
theorem encodeFrom_apply (i n : Nat) (s : State) :
    encodeFrom i n s = bwPutAll ((bytesFrom s.tbByte i n).flatMap s.codeOf) s := by
  induction n generalizing i s with
  | zero => rfl
  | succ n ih =>
    simp only [encodeFrom, look_bind, id_eq, bytesFrom, List.flatMap_cons]
    rw [bwPutAll_append]
    cases hx : bwPutAll (s.codeOf (s.tbByte i)) s with
    | ok a t =>
      obtain ⟨hbytes, hcode⟩ := bwPutAll_source hx
      rw [bind_ok hx, bind_ok (by rw [bwPutCode_apply, hx]), ih, hbytes, hcode]
    | error e t => rw [bind_error hx, bind_error (by rw [bwPutCode_apply, hx])]

theorem hfEncode_apply (s : State) : hfEncode s = bwPutAll (s.stream.flatMap s.codeOf) s := by
  simp only [hfEncode, look_bind, id_eq, encodeFrom_apply]
  rfl

/-- The instructions of `State.bitsWritten` write those bits. -/
theorem exec_bitsWritten {i : Instr} {s : State} {bits : Bits} (h : s.bitsWritten i = some bits) :
    exec i s = runOp (bwPutAll bits) s := by
  have writes : ∀ {xs : Bits} {y : Op Unit}, (if s.seq.phase.writes = true then some xs else none) = some bits →
      runOp (writeOrRead (bwPutAll xs) y) s = runOp (bwPutAll bits) s := by
    intro xs y hx
    split at hx
    · next hw => cases hx; exact runOp_writeOrRead_writes hw _ _
    · cases hx
  cases i with
  | bwPutBit b =>
    cases h
    exact runOp_congr (bwPutAll_singleton b s).symm
  | bwPutBits v n => cases h; rfl
  | bwPutByte v => cases h; rfl
  | bwPutU32 v => cases h; rfl
  | bwPutCode v => cases h; exact runOp_congr (bwPutCode_apply v s)
  | hfEncode => cases h; exact runOp_congr (hfEncode_apply s)
  | nodeInternal =>
    show runOp (writeOrRead (bwPutBit false) acceptInternal) s = _
    rw [← funext (bwPutAll_singleton false)]
    exact writes h
  | nodeLeaf v => exact writes h
  | codeword path => exact writes h
  | magic => exact writes h
  | tokenLen n => exact writes h
  | treeBitLen n => exact writes h
  | _ => cases h

/-- Settles O22: each of the instructions writes its bits as one string (`exec_bitsWritten`, `bwPutAll_wrote`). -/
theorem bitWritersAppendTheirBits : Obligations.BitWritersAppendTheirBits := by
  unfold Obligations.BitWritersAppendTheirBits
  intro i s bits hw hbits hroom
  obtain ⟨t, ht, h⟩ := bwPutAll_wrote bits hw hroom
  exact ⟨t, (exec_bitsWritten hbits).trans (runOp_of_ok ht), h.frame, h.writer, h.ptr, h.cnt, h.appended, h.kept⟩

end Sys2Proof.Machine

/-! The ranges of the registers and tables (R21, R32 to R39), block by block: what `State.InRange` says apart from the place of the
sequencer, and what it says for each place. -/

namespace Sys2Proof.Machine

-- Blocks ----------------------------------------------------------------------------------------------------------------

/-- `WPOS`, `WFILL` and the listed cells of `WIN`. -/
def Window.InRange (w : Window) : Prop := w.pos < 4096 ∧ w.fill ≤ 4096 ∧ tableBelow 4096 w.mem

/-- `GC`, `GPLEN`, `FLG` and the listed cells of `GP`. -/
def TokenEncoder.InRange (e : TokenEncoder) : Prop :=
  e.gc ≤ 8 ∧ e.gplen ≤ 2 * e.gc ∧ e.flg.toNat < 2 ^ e.gc ∧ tableBelow 16 e.gp

/-- `TLEN` and the listed cells of `TB`. -/
def TokenBuffer.InRange (cap : Nat) (b : TokenBuffer) : Prop := b.len < 2 ^ 32 ∧ tableBelow cap b.mem

/-- `OPTR` and the listed cells of `OUT`. -/
def OutBuffer.InRange (cap : Nat) (o : OutBuffer) : Prop := o.ptr ≤ cap ∧ tableBelow cap o.mem

/-- The entries of `FREQ` and their sum (R32). -/
def FreqInRange (f : Table Nat) : Prop := ((List.range 256).map (freqAt f)).sum < 2 ^ 32 ∧ tableBelow 256 f

/-- The codes (R35). -/
def CodeInRange (c : Table Bits) : Prop := (∀ v path, tableGet c v = some path → path.length ≤ 255) ∧ tableBelow 256 c

/-- The node store, its registers and the entries of `DSTK`. -/
structure TreeStore.InRange (t : TreeStore) : Prop where
  nodes : t.Fits (2 ^ 32)
  ncnt : t.ncnt ≤ 511
  root : ∀ r, t.root = some r → r < 511
  live : ∀ i ∈ t.live, i < 511
  dstk : ∀ e ∈ t.dstk, e.1 < 511 ∧ (e.2 = true → e.1 + 1 < 511)

/-- Every register and table within its range, wherever the sequencer stands. -/
structure State.Ranged (s : State) : Prop where
  inp : tableBelow s.caps.inCap s.inp
  tb : s.tb.InRange s.tCap
  out : s.out.InRange s.caps.outCap
  win : s.win.InRange
  finder : s.finder.bestLen ≤ 18 ∧ s.finder.bestOff ≤ 4096
  enc : s.enc.InRange
  dec : s.dec.tp < 2 ^ 32
  freq : FreqInRange s.freq
  tree : s.tree.InRange
  code : CodeInRange s.code
  tbl : s.tbl < 2 ^ 32
  walker : s.walker.walk < 511 ∧ s.walker.symcnt < 2 ^ 32
  bw : s.bw.cnt < 8
  br : s.br.pos ≤ s.br.limit

/-- While a tree is read the open nodes are those allotted last, innermost first. -/
def TreeStore.Stacked (t : TreeStore) : Prop := (t.ncnt :: t.dstk.map Prod.fst).Pairwise (· > ·)

/-- A tree in the store has at most 256 leaves (R168). -/
def TreeStore.Built (t : TreeStore) : Prop := ∀ tr, t.shape = some tr → treeLeaves tr ≤ 256

/-- What the ranges ask for besides where the sequencer stands at `q`. -/
structure State.AtPlace (s : State) (q : Sequencer) : Prop where
  openGroup : q.phase ≠ .idle → s.enc.gc < 8
  writerOpen : q.phase ≠ .idle → s.writerOk
  input : q.phase ≠ .idle → s.finder.cur ≤ s.host.inLen
  streamFits : q.phase ≠ .idle → q.phase ≠ .dUnpack → s.tb.len ≤ s.tCap
  built : q.phase = .cPack ∨ q = ⟨.cBuild, .codegen⟩ → s.tree.Built
  stack : q.phase = .dUnpack → s.tree.Stacked
  treeRegion : q = ⟨.dUnpack, .nodes⟩ → s.br.limit ≤ 8 * s.host.inLen ∧ s.br.err = .malformedArchive
  payloadRegion : q.phase = .dHuff → s.br.limit = 8 * s.host.inLen ∧ s.br.err = .unexpectedEndOfStream
  symbols : q.phase = .dHuff → s.walker.symcnt ≤ s.tb.len
  tokens : q.phase = .dTokens → s.dec.tp ≤ s.tb.len

theorem inRange_iff (s : State) : s.InRange ↔ s.Ranged ∧ s.AtPlace s.seq := by
  constructor
  · intro h
    obtain ⟨hgc, hgp, hflg⟩ := h.group
    obtain ⟨hlen, htp, hsym, htbl⟩ := h.lengths
    obtain ⟨hncnt, hroot, hwalk, hlive⟩ := h.nodes
    exact ⟨{ inp := h.inListed, tb := ⟨hlen, h.tbListed⟩, out := ⟨h.outputFits, h.outListed⟩
             win := ⟨h.window.1, h.window.2, h.winListed⟩, finder := h.finder, enc := ⟨hgc, hgp, hflg, h.gpListed⟩
             dec := htp, freq := ⟨h.frequencies, h.freqListed⟩
             tree := ⟨⟨h.nodeListed, h.nodeFields⟩, hncnt, hroot, hlive, h.openNodes⟩
             code := ⟨h.codes, h.codeListed⟩, tbl := htbl, walker := ⟨hwalk, hsym⟩, bw := h.writer, br := h.reader },
      { openGroup := h.openGroup, writerOpen := h.writerOpen, input := h.input, streamFits := h.streamFits
        built := h.built, stack := h.stack, treeRegion := h.treeRegion, payloadRegion := h.payloadRegion
        symbols := h.symbols, tokens := h.tokens }⟩
  · rintro ⟨h, p⟩
    obtain ⟨hgc, hgp, hflg, hgpl⟩ := h.enc
    exact { window := ⟨h.win.1, h.win.2.1⟩, finder := h.finder, group := ⟨hgc, hgp, hflg⟩, openGroup := p.openGroup
            lengths := ⟨h.tb.1, h.dec, h.walker.2, h.tbl⟩
            nodes := ⟨h.tree.ncnt, h.tree.root, h.walker.1, h.tree.live⟩, nodeFields := h.tree.nodes.2
            frequencies := h.freq.1, codes := h.code.1, openNodes := h.tree.dstk, stack := p.stack, built := p.built
            writer := h.bw, writerOpen := p.writerOpen, reader := h.br, treeRegion := p.treeRegion
            payloadRegion := p.payloadRegion, input := p.input, symbols := p.symbols, tokens := p.tokens
            streamFits := p.streamFits, outputFits := h.out.1, inListed := h.inp, tbListed := h.tb.2
            outListed := h.out.2, winListed := h.win.2.2, gpListed := hgpl, freqListed := h.freq.2
            codeListed := h.code.2, nodeListed := h.tree.nodes.1 }

-- Writes ----------------------------------------------------------------------------------------------------------------

namespace State.Ranged

variable {s : State} (h : s.Ranged)
include h

theorem setTb {x : TokenBuffer} (hx : x.InRange s.tCap) : (s.setTb x).Ranged := { h with tb := hx }
theorem setOut {x : OutBuffer} (hx : x.InRange s.caps.outCap) : (s.setOut x).Ranged := { h with out := hx }
theorem setWin {x : Window} (hx : x.InRange) : (s.setWin x).Ranged := { h with win := hx }
theorem setFinder {x : MatchFinder} (hx : x.bestLen ≤ 18 ∧ x.bestOff ≤ 4096) : (s.setFinder x).Ranged :=
  { h with finder := hx }
theorem setEnc {x : TokenEncoder} (hx : x.InRange) : (s.setEnc x).Ranged := { h with enc := hx }
theorem setDec {x : TokenDecoder} (hx : x.tp < 2 ^ 32) : (s.setDec x).Ranged := { h with dec := hx }
theorem setFreq {x : Table Nat} (hx : FreqInRange x) : (s.setFreq x).Ranged := { h with freq := hx }
theorem setTree {x : TreeStore} (hx : x.InRange) : (s.setTree x).Ranged := { h with tree := hx }
theorem setCode {x : Table Bits} (hx : CodeInRange x) : (s.setCode x).Ranged := { h with code := hx }
theorem setTbl {x : Nat} (hx : x < 2 ^ 32) : (s.setTbl x).Ranged := { h with tbl := hx }
theorem setWalker {x : Walker} (hx : x.walk < 511 ∧ x.symcnt < 2 ^ 32) : (s.setWalker x).Ranged := { h with walker := hx }
theorem setBw {x : BitWriter} (hx : x.cnt < 8) : (s.setBw x).Ranged := { h with bw := hx }
theorem setBr {x : BitReader} (hx : x.pos ≤ x.limit) : (s.setBr x).Ranged := { h with br := hx }
theorem setSeq (q : Sequencer) : (s.setSeq q).Ranged := { h with }
theorem setHost (x : HostRegs) : (s.setHost x).Ranged := { h with }
theorem setEnv (x : Environment) : (s.setEnv x).Ranged := { h with }
theorem setInp {x : Mem} (hx : tableBelow s.caps.inCap x) : (s.setInp x).Ranged := { h with inp := hx }

/-- In `IDLE` no more is asked for. -/
theorem inRange (hq : s.seq.phase = .idle) : s.InRange := by
  refine (inRange_iff s).2 ⟨h, ?_⟩
  have hq' : ∀ l, s.seq = ⟨.idle, l⟩ → s.AtPlace s.seq := by
    intro l hl
    rw [hl]
    constructor <;> simp
  exact hq' s.seq.line (by rw [← hq])

theorem takeError (e : ErrKind) : (s.takeError e).InRange := ((h.setHost _).setSeq _).inRange rfl

theorem endOk : s.endOk.InRange := ((h.setHost _).setSeq _).inRange rfl

end State.Ranged

theorem windowPut_inRange {w : Window} (h : w.InRange) (b : Byte) : (windowPut w b).InRange := by
  obtain ⟨hpos, -, hmem⟩ := h
  exact ⟨Nat.mod_lt _ (by decide), Nat.min_le_right _ _, tableBelow_tableSet b hmem hpos⟩

theorem windowInit_inRange {w : Window} (h : w.InRange) : Window.InRange { w with pos := 0, fill := 0 } :=
  ⟨Nat.zero_lt_succ _, Nat.zero_le _, h.2.2⟩

/-- Nothing is listed and nothing counted. -/
theorem emptyTree_inRange {t : TreeStore} (h : t.InRange) :
    TreeStore.InRange { t with ncnt := 0, root := none, live := [], dstk := [] } :=
  ⟨h.nodes, Nat.zero_le _, fun _ hr => (nomatch hr), fun _ hi => (nomatch hi), fun _ he => (nomatch he)⟩

theorem cleared_inRange {t : TreeStore} (h : t.InRange) : t.cleared.InRange :=
  ⟨h.nodes, Nat.zero_le _, fun _ hr => (nomatch hr), h.live, fun _ he => (nomatch he)⟩

theorem cleared_stacked (t : TreeStore) : t.cleared.Stacked := List.pairwise_singleton _ _

theorem sum_freqAt_nil (l : List Nat) : (l.map (freqAt [])).sum = 0 := by
  rw [List.sum_eq_zero_iff]
  simp [freqAt, tableGet]

theorem freq_nil_inRange : FreqInRange [] := ⟨by rw [sum_freqAt_nil]; exact Nat.two_pow_pos 32, trivial⟩

theorem code_nil_inRange : CodeInRange [] := ⟨fun _ _ h => (nomatch h), trivial⟩

/-- The state right after the per-call initialisation (R44), field by field. -/
@[simp] theorem initCall_fields (s : State) :
    s.initCall.host = s.host ∧ s.initCall.caps = s.caps ∧ s.initCall.seq = s.seq ∧ s.initCall.inp = s.inp ∧
    s.initCall.tb = { s.tb with len := 0 } ∧ s.initCall.out = { s.out with ptr := 0 } ∧
    s.initCall.win = { s.win with pos := 0, fill := 0 } ∧ s.initCall.finder = { s.finder with cur := 0 } ∧
    s.initCall.enc = { s.enc with flg := 0, gc := 0, gplen := 0 } ∧ s.initCall.dec = { s.dec with tp := 0 } ∧
    s.initCall.freq = [] ∧ s.initCall.tree = { s.tree with ncnt := 0, root := none, live := [], dstk := [] } ∧
    s.initCall.code = [] ∧ s.initCall.tbl = s.tbl ∧ s.initCall.walker = { s.walker with symcnt := 0 } ∧
    s.initCall.bw = { acc := 0, cnt := 0 } ∧ s.initCall.br = s.br ∧ s.initCall.env = s.env := by
  simp [State.initCall]

/-- The per-call initialisation keeps the ranges. -/
theorem State.Ranged.initCall {s : State} (h : s.Ranged) : s.initCall.Ranged := by
  constructor <;> simp only [initCall_fields, State.tCap]
  · exact h.inp
  · exact ⟨Nat.two_pow_pos 32, h.tb.2⟩
  · exact ⟨Nat.zero_le _, h.out.2⟩
  · exact windowInit_inRange h.win
  · exact h.finder
  · exact ⟨Nat.zero_le _, Nat.zero_le _, Nat.zero_lt_one, h.enc.2.2.2⟩
  · exact Nat.two_pow_pos 32
  · exact freq_nil_inRange
  · exact emptyTree_inRange h.tree
  · exact code_nil_inRange
  · exact h.tbl
  · exact ⟨h.walker.1, Nat.two_pow_pos 32⟩
  · exact Nat.zero_lt_succ 7
  · exact h.br

theorem resetTree_inRange : State.reset.tree.InRange where
  nodes := ⟨trivial, fun _ => ⟨fun _ _ _ hk => (nomatch hk), Nat.two_pow_pos 32, Nat.zero_lt_succ 255⟩⟩
  ncnt := Nat.zero_le _
  root := fun _ hr => (nomatch hr)
  live := fun _ hi => (nomatch hi)
  dstk := fun _ he => (nomatch he)

theorem reset_ranged : State.reset.Ranged where
  inp := trivial
  tb := ⟨Nat.two_pow_pos 32, trivial⟩
  out := ⟨Nat.zero_le _, trivial⟩
  win := ⟨Nat.zero_lt_succ _, Nat.zero_le _, trivial⟩
  finder := ⟨Nat.zero_le _, Nat.zero_le _⟩
  enc := ⟨Nat.zero_le _, Nat.zero_le _, Nat.zero_lt_one, trivial⟩
  dec := Nat.two_pow_pos 32
  freq := freq_nil_inRange
  tree := resetTree_inRange
  code := code_nil_inRange
  tbl := Nat.two_pow_pos 32
  walker := ⟨Nat.zero_lt_succ _, Nat.two_pow_pos 32⟩
  bw := Nat.zero_lt_succ 7
  br := Nat.le_refl _

/-- Settles O9: the reset state evaluated, and `reset_ranged`. -/
theorem resetIsIdleAndSound : Obligations.ResetIsIdleAndSound := by
  unfold Obligations.ResetIsIdleAndSound
  refine ⟨rfl, rfl, rfl, rfl, rfl, ⟨rfl, rfl, rfl, rfl, rfl, rfl, rfl, rfl⟩, ?_, reset_ranged.inRange rfl⟩
  exact ⟨by decide, by decide, by decide, by decide, by decide⟩

end Sys2Proof.Machine

/-! The operations of a compression keep the ranges (R120 to R129, R140 to R147, R161 to R174, R191, R201). -/

namespace Sys2Proof.Machine

variable {α β : Type} {P Q : State → Prop}

/-- From `P` the operation ends in `Q`; where it stops, every register is still in its range. -/
abbrev Op.Takes (P : State → Prop) (x : Op α) (Q : State → Prop) : Prop :=
  Op.Triple P x (fun _ => Q) fun _ => State.Ranged

/-- Where the state was read, what holds of it may be used. -/
theorem Op.Triple.read {x : Op α} {Q : α → State → Prop} {E : Stop → State → Prop} (h : Op.Triple P x Q E) {v : State}
    (hv : P v) : Op.Triple (fun s => s = v) x Q E := fun _ hs => hs ▸ h v hv

/-- What a call in progress asks for in every phase. -/
structure State.Open (s : State) : Prop where
  ranged : s.Ranged
  group : s.enc.gc < 8
  writer : s.writerOk
  cursor : s.finder.cur ≤ s.host.inLen

/-- What it asks for where the stream is written or complete. -/
structure State.Encoding (s : State) : Prop extends s.Open where
  fits : s.tb.len ≤ s.tCap

/-- What it asks for where the tree is built. -/
structure State.Packing (s : State) : Prop extends s.Encoding where
  built : s.tree.Built

theorem State.Encoding.setWin {s : State} {x : Window} (h : s.Encoding) (hx : x.InRange) : (s.setWin x).Encoding :=
  { h with ranged := h.ranged.setWin hx }

theorem State.Encoding.setTb {s : State} {x : TokenBuffer} (h : s.Encoding) (hx : x.InRange s.tCap) (hf : x.len ≤ s.tCap) :
    (s.setTb x).Encoding :=
  { h with ranged := h.ranged.setTb hx, fits := hf }

theorem State.Encoding.setSeq {s : State} (h : s.Encoding) (q : Sequencer) : (s.setSeq q).Encoding :=
  { h with ranged := h.ranged.setSeq q }

-- Match finder ------------------------------------------------------------------------------------------------------------

theorem runFrom_le (s : State) (d k n : Nat) : s.runFrom d k n ≤ n := by
  induction n generalizing k with
  | zero => exact Nat.le_refl _
  | succ n ih =>
    simp only [State.runFrom]
    split
    · exact Nat.succ_le_succ (ih _)
    · exact Nat.zero_le _

theorem searchFrom_bounds (s : State) {B : Nat} (n d : Nat) {best : Nat × Nat} (h1 : best.1 ≤ s.maxLen) (h2 : best.2 ≤ B)
    (hd : d + n ≤ B + 1) : (s.searchFrom d n best).1 ≤ s.maxLen ∧ (s.searchFrom d n best).2 ≤ B := by
  induction n generalizing d best with
  | zero => exact ⟨h1, h2⟩
  | succ n ih =>
    simp only [State.searchFrom]
    split
    · exact ih (d + 1) (runFrom_le s d 0 _) (by show d ≤ B; omega) (by omega)
    · exact ih (d + 1) h1 h2 (by omega)

/-- A match lies in the window, and neither it nor the input left is shorter than it says (R126). -/
theorem bestMatch_bounds (s : State) : s.bestMatch.1 ≤ 18 ∧ s.bestMatch.1 ≤ s.host.inLen - s.finder.cur ∧
    s.bestMatch.2 ≤ s.win.fill := by
  obtain ⟨h1, h2⟩ := searchFrom_bounds s (B := s.win.fill) s.win.fill 1 (best := (0, 0)) (Nat.zero_le _) (Nat.zero_le _)
    (by omega)
  exact ⟨Nat.le_trans h1 (Nat.min_le_left _ _), Nat.le_trans h1 (Nat.min_le_right _ _), h2⟩

theorem winInput_inRange (s : State) {w : Window} (h : w.InRange) (k n : Nat) : (s.winInput w k n).InRange := by
  induction n generalizing w k with
  | zero => exact h
  | succ n ih => exact ih (windowPut_inRange h _) _

theorem winInit_takes : Op.Takes State.Encoding winInit State.Encoding :=
  .upd fun _ h => h.setWin (windowInit_inRange h.ranged.win)

/-- The search writes no cursor and no window. -/
theorem winInput_setFinder (s : State) (l o : Nat) (w : Window) (k n : Nat) :
    (s.setFinder { s.finder with bestLen := l, bestOff := o }).winInput w k n = s.winInput w k n := by
  induction n generalizing w k with
  | zero => rfl
  | succ n ih => exact ih _ _

/-- `MF_STEP` with input left: a Match of the best length, or a Literal (R127, R128). -/
theorem mfStep_apply {s : State} (h : s.finder.cur < s.host.inLen) : mfStep s =
    if s.bestMatch.1 ≥ Config.minMatch then
      .ok (.mat s.bestMatch.2 s.bestMatch.1)
        (((s.setFinder { s.finder with bestLen := s.bestMatch.1, bestOff := s.bestMatch.2 }).setWin
          (s.winInput s.win 0 s.bestMatch.1)).setFinder
            { cur := s.finder.cur + s.bestMatch.1, bestLen := s.bestMatch.1, bestOff := s.bestMatch.2 })
    else
      .ok (.lit (s.inByte s.finder.cur))
        (((s.setFinder { s.finder with bestLen := s.bestMatch.1, bestOff := s.bestMatch.2 }).setWin
          (windowPut s.win (s.inByte s.finder.cur))).setFinder
            { cur := s.finder.cur + 1, bestLen := s.bestMatch.1, bestOff := s.bestMatch.2 }) := by
  simp only [mfStep, look_bind, need_bind, id_eq, if_pos h]
  rw [bind_ok (mfSearch_apply s)]
  simp only [look_bind, id_eq, State.setFinder_fields]
  by_cases hm : s.bestMatch.1 ≥ Config.minMatch
  · rw [if_pos hm, if_pos hm, bind_ok (appendInput_apply _ _ _), winInput_setFinder]
    rfl
  · rw [if_neg hm, if_neg hm]
    rfl

theorem mfStep_takes : Op.Takes State.Encoding mfStep State.Encoding := by
  intro s h
  by_cases hlt : s.finder.cur < s.host.inLen
  · obtain ⟨h18, hleft, hfill⟩ := bestMatch_bounds s
    have hoff : s.bestMatch.2 ≤ 4096 := Nat.le_trans hfill h.ranged.win.2.1
    have hstep : ∀ n, s.finder.cur + n ≤ s.host.inLen → ∀ w : Window, w.InRange →
        (((s.setFinder { s.finder with bestLen := s.bestMatch.1, bestOff := s.bestMatch.2 }).setWin w).setFinder
          { cur := s.finder.cur + n, bestLen := s.bestMatch.1, bestOff := s.bestMatch.2 }).Encoding := fun n hn w hw =>
      { h with ranged := ((h.ranged.setFinder ⟨h18, hoff⟩).setWin hw).setFinder ⟨h18, hoff⟩, cursor := hn }
    rw [mfStep_apply hlt]
    by_cases hm : s.bestMatch.1 ≥ Config.minMatch
    · rw [if_pos hm]
      exact hstep _ (by omega) _ (winInput_inRange _ h.ranged.win _ _)
    · rw [if_neg hm]
      exact hstep 1 hlt _ (windowPut_inRange h.ranged.win _)
  · simp only [mfStep, look_bind, need_bind, id_eq, if_neg hlt]
    exact h.ranged

-- Token encoder -----------------------------------------------------------------------------------------------------------

theorem teInit_takes : Op.Takes State.Encoding teInit State.Encoding :=
  .upd fun s h => { h with
    ranged := (h.ranged.setEnc (x := { s.enc with flg := 0, gc := 0, gplen := 0 })
      ⟨Nat.zero_le _, Nat.zero_le _, Nat.zero_lt_one, h.ranged.enc.2.2.2⟩).setTb (x := { s.tb with len := 0 })
      ⟨Nat.two_pow_pos 32, h.ranged.tb.2⟩
    group := Nat.zero_lt_succ 7
    fits := Nat.zero_le _ }

/-- What a flush asks for: the group may be full. -/
structure State.Flushing (s : State) : Prop where
  ranged : s.Ranged
  writer : s.writerOk
  cursor : s.finder.cur ≤ s.host.inLen
  fits : s.tb.len ≤ s.tCap

theorem tbAppend_flushing (v : Byte) : Op.Takes State.Flushing (tbAppend v) State.Flushing := by
  intro s h
  rw [tbAppend_apply]
  by_cases hlt : s.tb.len < s.tCap
  · have hcap := tCap_lt s
    rw [if_pos hlt]
    exact { h with
      ranged := h.ranged.setTb (x := { mem := tableSet s.tb.mem s.tb.len v, len := s.tb.len + 1 })
        ⟨by show s.tb.len + 1 < 2 ^ 32; omega, tableBelow_tableSet _ h.ranged.tb.2 hlt⟩
      fits := hlt }
  · rw [if_neg hlt]
    exact h.ranged

theorem appendStaged_flushing (i n : Nat) : Op.Takes State.Flushing (appendStaged i n) State.Flushing := by
  induction n generalizing i with
  | zero => exact .pure fun _ h => h
  | succ n ih =>
    exact .looked fun v hv => .bind ((tbAppend_flushing _).read hv)
      fun _ => ih _

/-- A flush leaves no token in the group. -/
theorem teFlush_takes : Op.Takes State.Flushing teFlush State.Encoding := by
  refine .looked fun v hv => .ite (fun _ => ?_) fun h0 => ?_
  · refine .bind ((tbAppend_flushing _).read hv) fun _ =>
      .bind (appendStaged_flushing _ _) fun _ => .upd fun s h => ?_
    exact { h with
      ranged := h.ranged.setEnc ⟨Nat.zero_le _, Nat.zero_le _, Nat.zero_lt_one, h.ranged.enc.2.2.2⟩
      group := Nat.zero_lt_succ 7 }
  · refine .pure fun s hs => ?_
    subst hs
    exact { hv with group := by omega }

theorem State.Encoding.flushing {s : State} (h : s.Encoding) : s.Flushing := { h with }

/-- A group with one token more. -/
theorem teCount_takes {s : State} (h : s.Encoding) {e : TokenEncoder} (hgc : e.gc = s.enc.gc)
    (he : TokenEncoder.InRange { e with gc := e.gc + 1 }) : Op.Takes (· = s.setEnc e) teCount State.Encoding := by
  have hr : ((s.setEnc e).setEnc { e with gc := e.gc + 1 }).Ranged := h.ranged.setEnc he
  rintro _ rfl
  rw [teCount_apply]
  by_cases h7 : e.gc = 7
  · rw [if_pos (show (s.setEnc e).enc.gc = 7 from h7)]
    exact teFlush_takes _ { h with ranged := hr }
  · rw [if_neg (show ¬ (s.setEnc e).enc.gc = 7 from h7)]
    have := h.group
    exact { h with ranged := hr, group := by show e.gc + 1 < 8; omega }

theorem flagged_lt {flg : Byte} {gc : Nat} (h : flg.toNat < 2 ^ gc) :
    (flg ||| (1 : Byte) <<< gc).toNat < 2 ^ (gc + 1) := by
  rw [BitVec.toNat_or]
  refine Nat.or_lt_two_pow (Nat.lt_trans h (Nat.pow_lt_pow_right (by decide) (Nat.lt_succ_self _))) ?_
  rw [BitVec.toNat_shiftLeft, Nat.shiftLeft_eq]
  refine Nat.lt_of_le_of_lt (Nat.mod_le _ _) ?_
  show 1 * 2 ^ gc < _
  rw [Nat.one_mul]
  exact Nat.pow_lt_pow_right (by decide) (Nat.lt_succ_self _)

theorem tePutLiteral_takes (b : Byte) : Op.Takes State.Encoding (tePutLiteral b) State.Encoding := by
  intro s h
  obtain ⟨-, hgp, hflg, hlist⟩ := h.ranged.enc
  have hgc := h.group
  have hcount := teCount_takes h (e := TokenEncoder.stage { s.enc with flg := s.enc.flg ||| 1 <<< s.enc.gc } b) rfl
    ⟨hgc, by show s.enc.gplen + 1 ≤ 2 * (s.enc.gc + 1); omega, flagged_lt hflg,
      tableBelow_tableSet b hlist (by show s.enc.gplen < 16; omega)⟩
  simp only [tePutLiteral, upd_bind]
  exact hcount _ rfl

theorem tePutMatch_takes (offset length : Nat) : Op.Takes State.Encoding (tePutMatch offset length) State.Encoding := by
  intro s h
  obtain ⟨-, hgp, hflg, hlist⟩ := h.ranged.enc
  have hgc := h.group
  have hcount := teCount_takes h (e := (s.enc.stage (matchByte0 (offsetField offset))).stage
      (matchByte1 (offsetField offset) (lengthField length))) rfl
    ⟨hgc, by show s.enc.gplen + 1 + 1 ≤ 2 * (s.enc.gc + 1); omega,
      Nat.lt_trans hflg (Nat.pow_lt_pow_right (by decide) (Nat.lt_succ_self _)),
      tableBelow_tableSet _ (tableBelow_tableSet _ hlist (by show s.enc.gplen < 16; omega))
        (by show s.enc.gplen + 1 < 16; omega)⟩
  simp only [tePutMatch, upd_bind]
  exact hcount _ rfl

theorem tePutToken_takes (t : Token) : Op.Takes State.Encoding (tePutToken t) State.Encoding := by
  cases t with
  | lit b => exact tePutLiteral_takes b
  | mat o l => exact tePutMatch_takes o l

theorem tokenLoop_takes (n : Nat) : Op.Takes State.Encoding (tokenLoop n) State.Encoding := by
  induction n with
  | zero => exact .pure fun _ h => h
  | succ n ih =>
    refine .looked fun v hv => .ite (fun _ => ?_) fun _ => .pure fun _ he => he ▸ hv
    exact .bind (mfStep_takes.read hv) fun t =>
      .bind (tePutToken_takes t) fun _ => ih

-- Frequencies, tree, codes ------------------------------------------------------------------------------------------------

/-- Counting one more of a value adds one to the sum. -/
theorem sum_freqAt_count (f : Table Nat) (v n : Nat) :
    ((List.range n).map (freqAt (tableSet f v (freqAt f v + 1)))).sum =
      ((List.range n).map (freqAt f)).sum + if v < n then 1 else 0 := by
  have hat : ∀ x, freqAt (tableSet f v (freqAt f v + 1)) x = if x = v then freqAt f v + 1 else freqAt f x := by
    intro x
    simp only [freqAt, tableGet_tableSet]
    by_cases h : x = v <;> simp [h]
  induction n with
  | zero => rfl
  | succ n ih =>
    simp only [List.range_succ, List.map_append, List.sum_append, ih, List.map_cons, List.map_nil, List.sum_cons,
      List.sum_nil, hat]
    by_cases h : n = v
    · subst h; simp; omega
    · by_cases hv : v < n
      · simp [h, hv, Nat.lt_succ_of_lt hv]; omega
      · simp [h, hv, show ¬ v < n + 1 by omega]

theorem sum_countFrom (s : State) (i n : Nat) (f : Table Nat) :
    ((List.range 256).map (freqAt (s.countFrom i n f))).sum = ((List.range 256).map (freqAt f)).sum + n := by
  induction n generalizing i f with
  | zero => exact (Nat.add_zero _).symm
  | succ n ih =>
    rw [State.countFrom, ih, sum_freqAt_count, if_pos (s.tbByte i).isLt, Nat.add_assoc, Nat.add_comm 1 n]

theorem countFrom_below (s : State) (i n : Nat) {f : Table Nat} (h : tableBelow 256 f) :
    tableBelow 256 (s.countFrom i n f) := by
  induction n generalizing i f with
  | zero => exact h
  | succ n ih => exact ih _ (tableBelow_tableSet _ h (s.tbByte i).isLt)

theorem hfCount_takes : Op.Takes State.Encoding hfCount State.Encoding := by
  have hsum : ∀ s : State, ((List.range 256).map (freqAt (s.countFrom 0 s.tb.len []))).sum = s.tb.len := fun s => by
    rw [sum_countFrom, sum_freqAt_nil, Nat.zero_add]
  exact .upd fun s h => { h with
    ranged := h.ranged.setFreq ⟨Nat.lt_of_le_of_lt (Nat.le_of_eq (hsum s)) h.ranged.tb.1, countFrom_below s _ _ trivial⟩ }

theorem mergeOnce_dstk (t : TreeStore) : t.mergeOnce.dstk = t.dstk := by
  unfold TreeStore.mergeOnce
  split
  · rfl
  · dsimp only
    split <;> rfl

theorem mergeAll_dstk (n : Nat) (t : TreeStore) : (TreeStore.mergeAll n t).dstk = t.dstk := by
  induction n generalizing t with
  | zero => rfl
  | succ n ih => exact (ih _).trans (mergeOnce_dstk t)

theorem addLeaves_dstk (f : Table Nat) (l : List Nat) (t : TreeStore) :
    (l.foldl (TreeStore.addLeaf f) t).dstk = t.dstk := by
  induction l generalizing t with
  | nil => rfl
  | cons v l ih =>
    refine (ih _).trans ?_
    unfold TreeStore.addLeaf
    split <;> rfl

theorem build_dstk (f : Table Nat) (t : TreeStore) : (t.build f).dstk = t.dstk :=
  (mergeAll_dstk _ _).trans (addLeaves_dstk _ _ _)

theorem built_of_isTree {t : TreeStore} {o : Option Tree} (h : t.isTree o) : t.Built := by
  intro tr htr
  rw [shape_of_isTree h] at htr
  subst htr
  exact h.choose_spec.2.2

theorem hfBuild_takes : Op.Takes State.Encoding hfBuild State.Packing := by
  refine .upd fun s h => ?_
  obtain ⟨hncnt, hlive, hroot, o, ho⟩ := build_bounds s.freq s.tree
  have hfits := build_fits s.freq h.ranged.freq.1 h.ranged.tree.nodes
  exact { h with
    ranged := h.ranged.setTree ⟨hfits, hncnt, hroot, hlive, by rw [build_dstk]; exact h.ranged.tree.dstk⟩
    built := built_of_isTree ho }

theorem codesInto_below (t : Tree) (path : Bits) {c : Table Bits} (h : tableBelow 256 c) :
    tableBelow 256 (Tree.codesInto t path c) := by
  induction t generalizing path c with
  | leaf v => exact tableBelow_tableSet _ h v.isLt
  | node l r hl hr => exact hr _ (hl _ h)

theorem codeTable_below (o : Option Tree) : tableBelow 256 (codeTable o) := by
  match o with
  | none => exact trivial
  | some (.leaf v) => exact ⟨v.isLt, trivial⟩
  | some (.node l r) => exact codesInto_below _ _ trivial

theorem hfCodegen_takes : Op.Takes State.Packing hfCodegen State.Packing :=
  .upd fun _ h => { h with ranged := h.ranged.setCode ⟨codeTable_length h.built, codeTable_below _⟩ }

/-- A tree of `m` leaves takes `10 m - 1` bits (R84). -/
theorem ser_length (t : Tree) : (Tree.ser t).length + 1 = 10 * treeLeaves t := by
  induction t with
  | leaf v => simp [Tree.ser, treeLeaves]
  | node l r hl hr => simp only [Tree.ser, treeLeaves, List.length_cons, List.length_append]; omega

theorem serTree_length_lt {o : Option Tree} (h : ∀ t, o = some t → treeLeaves t ≤ 256) : (serTree o).length < 2 ^ 32 := by
  cases o with
  | none => exact Nat.two_pow_pos 32
  | some t =>
    have := ser_length t
    have := h t rfl
    simp only [serTree]
    omega

theorem hfSerTree_takes : Op.Takes State.Packing hfSerTree State.Packing :=
  fun _ h => { h with ranged := h.ranged.setTbl (serTree_length_lt h.built) }

-- The bit writer ----------------------------------------------------------------------------------------------------------

theorem bwInit_takes : Op.Takes State.Packing bwInit State.Packing :=
  .upd fun _ h => { h with ranged := h.ranged.setBw (Nat.zero_lt_succ 7), writer := ⟨Nat.zero_lt_succ 7, rfl⟩ }

/-- A completed byte written. -/
theorem State.Packing.flushed {s : State} (h : s.Packing) (hp : s.out.ptr < s.caps.outCap) (v : Byte) :
    ((s.setOut { mem := tableSet s.out.mem s.out.ptr v, ptr := s.out.ptr + 1 }).setBw { acc := 0, cnt := 0 }).Packing :=
  { h with
    ranged := (h.ranged.setOut (x := { mem := tableSet s.out.mem s.out.ptr v, ptr := s.out.ptr + 1 })
      ⟨hp, tableBelow_tableSet _ h.ranged.out.2 hp⟩).setBw (Nat.zero_lt_succ 7)
    writer := ⟨Nat.zero_lt_succ 7, rfl⟩ }

theorem bwPutBit_takes (b : Bool) : Op.Takes State.Packing (bwPutBit b) State.Packing := by
  intro s h
  obtain ⟨hc, ha⟩ := h.writer
  rw [bwPutBit_apply]
  by_cases h7 : s.bw.cnt = 7
  · rw [if_pos h7]
    by_cases hp : s.out.ptr < s.caps.outCap
    · rw [if_pos hp]
      exact h.flushed hp _
    · rw [if_neg hp]
      exact h.ranged.setBw hc
  · rw [if_neg h7]
    have hc' : s.bw.cnt + 1 < 8 := by omega
    exact { h with ranged := h.ranged.setBw hc', writer := ⟨hc', bitInto_mod (by omega) ha b⟩ }

theorem bwPutAll_takes (bs : Bits) : Op.Takes State.Packing (bwPutAll bs) State.Packing := by
  induction bs with
  | nil => exact .pure fun _ h => h
  | cons b bs ih => exact .bind (bwPutBit_takes b) fun _ => ih

theorem bwAlign_takes : Op.Takes State.Packing bwAlign State.Packing := by
  intro s h
  rw [bwAlign_apply, bwFlushByte_apply]
  by_cases h0 : s.bw.cnt ≠ 0
  · rw [if_pos h0]
    by_cases hp : s.out.ptr < s.caps.outCap
    · rw [if_pos hp]
      exact h.flushed hp _
    · rw [if_neg hp]
      exact h.ranged
  · rw [if_neg h0]
    exact h

theorem hfEncode_takes : Op.Takes State.Packing hfEncode State.Packing := by
  intro s h
  rw [hfEncode_apply]
  exact bwPutAll_takes _ s h

theorem arPack_takes : Op.Takes State.Packing arPack State.Packing :=
  .bind hfSerTree_takes fun _ => .bind bwInit_takes fun _ => .bind (bwPutAll_takes _) fun _ =>
    .bind (bwPutAll_takes _) fun _ => .looked fun _ hv => .read (.bind (bwPutAll_takes _) fun _ =>
      .bind (bwPutAll_takes _) fun _ => .bind (bwPutAll_takes _) fun _ => .bind bwAlign_takes fun _ =>
        .bind hfEncode_takes fun _ => bwAlign_takes) hv

theorem compressWork_takes : Op.Takes State.Encoding compressWork State.Ranged := by
  refine .bind winInit_takes fun _ => .bind teInit_takes fun _ => .bind (R := fun _ => State.Encoding) (.upd fun s h =>
    ⟨⟨h.ranged.setFinder (x := { s.finder with cur := 0 }) h.ranged.finder, h.group, h.writer, Nat.zero_le _⟩, h.fits⟩)
      fun _ => ?_
  refine .looked fun v hv => .read ?_ hv
  exact .bind (tokenLoop_takes _) fun _ => .bind (.imp teFlush_takes (fun _ h => h.flushing) (fun _ _ h => h) fun _ _ h => h)
    fun _ => .bind (.upd fun s h => h.setSeq _) fun _ => .bind hfCount_takes fun _ => .bind (.upd fun s h => h.setSeq _)
      fun _ => .bind hfBuild_takes fun _ => .bind hfCodegen_takes fun _ =>
        .bind (R := fun _ => State.Packing) (.upd fun s h => { h with ranged := h.ranged.setSeq _ }) fun _ =>
          .imp arPack_takes (fun _ h => h) (fun _ _ h => h.ranged) fun _ _ h => h

end Sys2Proof.Machine

/-! The operations of a decompression keep the ranges (R108 to R111, R131, R150 to R153, R176, R193, R205). -/

namespace Sys2Proof.Machine

variable {α : Type} {P Q : State → Prop}

-- The bit reader ----------------------------------------------------------------------------------------------------------

/-- Reading a bit keeps `P`, which holds only within the ranges. -/
structure Reads (P : State → Prop) : Prop where
  ranged : ∀ s, P s → s.Ranged
  bit : ∀ s, P s → s.br.pos < s.br.limit → P (s.setBr { s.br with pos := s.br.pos + 1 })

namespace Reads

variable (R : Reads P)
include R

theorem brGetBit : Op.Takes P brGetBit P := by
  intro s h
  rw [brGetBit_apply]
  by_cases hlt : s.br.pos < s.br.limit
  · rw [if_pos hlt]
    exact R.bit s h hlt
  · rw [if_neg hlt]
    exact R.ranged s h

theorem brGetBitsFrom (n v : Nat) : Op.Takes P (brGetBitsFrom n v) P := by
  induction n generalizing v with
  | zero => exact .pure fun _ h => h
  | succ n ih => exact .bind R.brGetBit fun b => ih _

theorem brSkip (n : Nat) : Op.Takes P (brSkip n) P := by
  induction n with
  | zero => exact .pure fun _ h => h
  | succ n ih => exact .bind R.brGetBit fun _ => ih

end Reads

/-- A reader one bit further on. -/
theorem State.Ranged.advanced {s : State} (h : s.Ranged) (hlt : s.br.pos < s.br.limit) :
    (s.setBr { s.br with pos := s.br.pos + 1 }).Ranged := h.setBr (x := { s.br with pos := s.br.pos + 1 }) hlt

-- Reading a tree ----------------------------------------------------------------------------------------------------------

/-- What a call in progress asks for in D_UNPACK. -/
structure State.Unpacking (s : State) : Prop extends s.Open where
  stacked : s.tree.Stacked

/-- The reader stands in the tree region. -/
def State.InTreeRegion (s : State) : Prop := s.br.limit ≤ 8 * s.host.inLen ∧ s.br.err = .malformedArchive

/-- The next entry of the store, `i`, is allotted and not yet in use. -/
structure State.Allotted (i : Nat) (s : State) : Prop extends s.Open where
  entry : s.tree.ncnt = i + 1
  bound : i < 511
  opened : (i :: s.tree.dstk.map Prod.fst).Pairwise (· > ·)
  region : s.InTreeRegion

theorem put_inRange {t : TreeStore} (h : t.InRange) {i : Nat} {n : Node} (hi : i < 511) (hn : n.Fits (2 ^ 32)) :
    (t.put i n).InRange := by
  refine { h with nodes := ⟨tableBelow_tableSet n h.nodes.1 hi, fun j => ?_⟩ }
  rw [put_at]
  split
  · exact hn
  · exact h.nodes.2 j

/-- The end of a subtree whose root was allotted after every open node. -/
theorem close_inRange {t : TreeStore} {i : Nat} {st : List (Nat × Bool)} (h : t.InRange) (hi : i < t.ncnt)
    (hst : (i :: st.map Prod.fst).Pairwise (· > ·)) : (t.close i st).InRange ∧ (t.close i st).Stacked := by
  induction st generalizing t i with
  | nil =>
    have hncnt := h.ncnt
    exact ⟨{ h with root := fun r hr => by cases hr; omega, dstk := fun _ he => (nomatch he) }, List.pairwise_singleton _ _⟩
  | cons e st ih =>
    obtain ⟨j, b⟩ := e
    obtain ⟨hbelow, hrest⟩ := List.pairwise_cons.1 hst
    have hji : j < i := hbelow j List.mem_cons_self
    have hncnt := h.ncnt
    cases b with
    | false =>
      refine ⟨{ h with dstk := fun e he => ?_ }, List.pairwise_cons.2 ⟨fun k hk => ?_, hrest⟩⟩
      · rcases List.mem_cons.1 he with rfl | he
        · exact ⟨by show j < 511; omega, fun _ => by show j + 1 < 511; omega⟩
        · have hlt : e.1 < i := hbelow e.1 (List.mem_cons_of_mem _ (List.mem_map_of_mem he))
          exact ⟨by omega, fun _ => by omega⟩
      · have hlt : k < i := hbelow k hk
        show k < t.ncnt
        omega
    | true =>
      refine ih (put_inRange h (by omega) ⟨fun l r k hn => ?_, Nat.two_pow_pos 32, Nat.zero_lt_succ 255⟩)
        (by show j < t.ncnt; omega) hrest
      cases hn
      exact ⟨by omega, by omega⟩

theorem allotted_reads (i : Nat) : Reads (State.Allotted i) :=
  ⟨fun _ h => h.ranged, fun _ h hlt => { h with ranged := h.ranged.advanced hlt }⟩

/-- The states in which a node of the tree may be read. -/
def State.AtNode (s : State) : Prop := s.Unpacking ∧ s.InTreeRegion

theorem allocNode_takes : Op.Triple State.AtNode allocNode State.Allotted fun _ => State.Ranged := by
  rintro s ⟨h, hreg⟩
  rw [allocNode_apply]
  by_cases hlt : s.tree.ncnt < 511
  · rw [if_pos hlt]
    have htree : TreeStore.InRange { s.tree with ncnt := s.tree.ncnt + 1 } := { h.ranged.tree with ncnt := hlt }
    exact { h with ranged := h.ranged.setTree htree, entry := rfl, bound := hlt, opened := h.stacked, region := hreg }
  · rw [if_neg hlt]
    exact h.ranged

theorem openNode_takes (i : Nat) : Op.Takes (State.Allotted i) (openNode i) State.AtNode := by
  refine .upd fun s h => ?_
  have htree : TreeStore.InRange { s.tree with dstk := (i, false) :: s.tree.dstk } :=
    { h.ranged.tree with
      dstk := fun e he => by
        rcases List.mem_cons.1 he with rfl | he
        · exact ⟨h.bound, fun hb => by cases hb⟩
        · exact h.ranged.tree.dstk e he }
  refine ⟨{ h with ranged := h.ranged.setTree htree, stacked := List.pairwise_cons.2 ⟨fun k hk => ?_, h.opened⟩ }, h.region⟩
  have hncnt : s.tree.ncnt = i + 1 := h.entry
  have hk : k ≤ i := by
    rcases List.mem_cons.1 hk with rfl | hk
    · exact Nat.le_refl _
    · exact Nat.le_of_lt ((List.pairwise_cons.1 h.opened).1 k hk)
  show k < s.tree.ncnt
  omega

theorem leafNode_takes (i : Nat) (v : Byte) : Op.Takes (State.Allotted i) (leafNode i v) State.AtNode := by
  refine .upd fun s h => ?_
  have hput : (s.tree.put i (.leaf v none)).InRange :=
    put_inRange h.ranged.tree h.bound ⟨fun _ _ _ hn => (nomatch hn), Nat.two_pow_pos 32, Nat.zero_lt_succ 255⟩
  obtain ⟨htree, hst⟩ := close_inRange hput (i := i) (st := s.tree.dstk)
    (by have := h.entry; show i < s.tree.ncnt; omega) h.opened
  exact ⟨{ h with ranged := h.ranged.setTree htree, stacked := hst }, h.region⟩

theorem acceptInternal_takes : Op.Takes State.AtNode acceptInternal State.AtNode :=
  .bind allocNode_takes fun i => .bind ((allotted_reads i).brSkip 1) fun _ => openNode_takes i

theorem acceptLeaf_takes (v : Byte) : Op.Takes State.AtNode (acceptLeaf v) State.AtNode :=
  .bind allocNode_takes fun i => .bind ((allotted_reads i).brSkip 9) fun _ => leafNode_takes i v

theorem readNode_takes : Op.Takes State.AtNode readNode State.AtNode :=
  .bind allocNode_takes fun i => .bind (allotted_reads i).brGetBit fun _ =>
    .ite (fun _ => .bind ((allotted_reads i).brGetBitsFrom 8 0) fun _ => leafNode_takes i _) fun _ => openNode_takes i

theorem readNodes_takes (n : Nat) : Op.Takes State.AtNode (readNodes n) State.AtNode := by
  induction n with
  | zero => exact .pure fun _ h => h
  | succ n ih =>
    exact .bind readNode_takes fun _ => .looked fun _ hv => .read (.ite (fun _ => .pure fun _ h => h) fun _ => ih) hv

theorem unpacking_clear {s : State} (h : s.Open) : (s.setTree s.tree.cleared).Unpacking :=
  { h with ranged := h.ranged.setTree (cleared_inRange h.ranged.tree), stacked := cleared_stacked _ }

/-- The region of a tree field: `BR_INIT` refuses one past the input (R109). -/
theorem treeRegion_takes (start limit : Nat) :
    Op.Takes State.Unpacking (brInit start limit .malformedArchive) State.AtNode := by
  intro s h
  rw [brInit_apply]
  by_cases hr : start ≤ limit ∧ limit ≤ 8 * s.host.inLen
  · rw [if_pos hr]
    exact ⟨{ h with ranged := h.ranged.setBr (x := ⟨start, limit, .malformedArchive⟩) hr.1 }, hr.2, rfl⟩
  · rw [if_neg hr]
    exact h.ranged

theorem hfDeserTree_takes : Op.Takes State.Open hfDeserTree State.Unpacking := by
  refine .bind (R := fun _ => State.Unpacking) (.upd fun s h => unpacking_clear h) fun _ => .looked fun v hv => .read ?_ hv
  refine .ite (fun _ => .pure fun _ h => h) fun _ => .bind (treeRegion_takes _ _) fun _ =>
    .bind (readNodes_takes _) fun _ => .looked fun v hv =>
      .read (.check (fun _ h _ => h.1) fun _ h _ => h.1.ranged) hv

-- The archive header ------------------------------------------------------------------------------------------------------

theorem check_takes (c : Prop) [Decidable c] (e : ErrKind) (hP : ∀ s, P s → s.Ranged) : Op.Takes P (check c e) P :=
  .check (fun _ h _ => h) fun s h _ => hP s h

theorem acceptTokenLen_takes {n : Nat} (hn : n < 2 ^ 32) : Op.Takes State.Unpacking (acceptTokenLen n) State.Unpacking :=
  .upd fun s h => { h with ranged := h.ranged.setTb (x := { s.tb with len := n }) ⟨hn, h.ranged.tb.2⟩ }

theorem acceptTreeBitLen_takes {n : Nat} (hn : n < 2 ^ 32) :
    Op.Takes State.Unpacking (acceptTreeBitLen n) State.Unpacking :=
  .bind (R := fun _ => State.Unpacking) (.upd fun _ h => { h with ranged := h.ranged.setTbl hn }) fun _ =>
    .looked fun _ hv => .read (check_takes _ _ fun _ h => h.ranged) hv

/-- What a call in progress asks for where the payload is read. -/
structure State.Payload (s : State) : Prop extends s.Encoding where
  region : s.br.limit = 8 * s.host.inLen ∧ s.br.err = .unexpectedEndOfStream

/-- The payload region of a stream that fits. -/
theorem payloadRegion_takes {v : State} (hv : v.Open) (hfit : v.tb.len ≤ v.tCap) :
    Op.Takes (fun s => s = v) (brInit v.payloadStart (8 * v.host.inLen) .unexpectedEndOfStream) State.Payload := by
  intro s hs
  rw [hs, brInit_apply]
  by_cases hr : v.payloadStart ≤ 8 * v.host.inLen ∧ 8 * v.host.inLen ≤ 8 * v.host.inLen
  · rw [if_pos hr]
    exact { hv with
      ranged := hv.ranged.setBr (x := ⟨v.payloadStart, 8 * v.host.inLen, .unexpectedEndOfStream⟩) hr.1
      fits := hfit, region := ⟨rfl, rfl⟩ }
  · rw [if_neg hr]
    exact hv.ranged

theorem checkStream_takes : Op.Takes State.Unpacking checkStream fun s => s.Unpacking ∧ s.tb.len ≤ s.tCap := by
  intro s h
  rw [checkStream_apply]
  by_cases htree : s.tb.len = 0 ∨ s.tree.root.isSome
  · rw [if_pos htree]
    by_cases hfit : s.tb.len ≤ s.tCap
    · rw [if_pos hfit]
      exact ⟨h, hfit⟩
    · rw [if_neg hfit]
      exact h.ranged
  · rw [if_neg htree]
    exact h.ranged

theorem arUnpack_takes : Op.Takes State.Unpacking arUnpack State.Payload := by
  refine .bind (.looked fun v hv => .read (check_takes _ _ fun _ h => h.ranged) hv) fun _ =>
    .bind (.looked fun v hv => .read (check_takes _ _ fun _ h => h.ranged) hv) fun _ => .looked fun v hv => .read ?_ hv
  exact .bind (acceptTokenLen_takes (be32_lt v 2)) fun _ => .bind (acceptTreeBitLen_takes (be32_lt v 6)) fun _ =>
    .bind (hfDeserTree_takes.imp (fun _ h => h.toOpen) (fun _ _ h => h) fun _ _ h => h) fun _ =>
      .bind checkStream_takes fun _ => .looked fun v hv => payloadRegion_takes hv.1.toOpen hv.2

-- Symbols -----------------------------------------------------------------------------------------------------------------

/-- What a call in progress asks for in D_HUFF with `k` symbols still to come. -/
structure State.Decoding (k : Nat) (s : State) : Prop extends s.Payload where
  symbols : s.walker.symcnt + k ≤ s.tb.len

theorem decoding_reads (k : Nat) : Reads (State.Decoding k) :=
  ⟨fun _ h => h.ranged, fun _ h hlt => { h with ranged := h.ranged.advanced hlt }⟩

theorem setWalk_takes {k i : Nat} (hi : i < 511) : Op.Takes (State.Decoding k) (setWalk i) (State.Decoding k) :=
  .upd fun s h => { h with ranged := h.ranged.setWalker (x := { s.walker with walk := i }) ⟨hi, h.ranged.walker.2⟩ }

theorem putSymbol_takes (k : Nat) (v : Byte) : Op.Takes (State.Decoding (k + 1)) (putSymbol v) (State.Decoding k) := by
  refine .upd fun s h => ?_
  have hsym : s.walker.symcnt + (k + 1) ≤ s.tb.len := h.symbols
  have hfit : s.tb.len ≤ s.tCap := h.fits
  have hlen : s.tb.len < 2 ^ 32 := h.ranged.tb.1
  exact { h with
    ranged := (h.ranged.setTb (x := { s.tb with mem := tableSet s.tb.mem s.walker.symcnt v })
      ⟨hlen, tableBelow_tableSet v h.ranged.tb.2 (by omega)⟩).setWalker
        (x := { s.walker with symcnt := s.walker.symcnt + 1 })
        ⟨h.ranged.walker.1, by show s.walker.symcnt + 1 < 2 ^ 32; omega⟩
    symbols := by show s.walker.symcnt + 1 + k ≤ s.tb.len; omega }

theorem childOf_lt {t : TreeStore} (h : t.InRange) {i l r : Nat} {k : Option Key} (hi : t.at i = .internal l r k) (b : Bool) :
    childOf l r b < 511 := by
  obtain ⟨hl, hr⟩ := (h.nodes.2 i).1 l r k hi
  cases b
  · exact hl
  · exact hr

theorem walkDown_takes (k n : Nat) : Op.Takes (State.Decoding k) (walkDown n) (State.Decoding k) := by
  induction n with
  | zero => exact .pure fun _ h => h
  | succ n ih =>
    refine .looked fun v hv => .read ?_ hv
    split
    · exact .pure fun _ h => h
    · next l r key hat =>
      exact .bind (decoding_reads k).brGetBit fun b => .bind (setWalk_takes (childOf_lt hv.ranged.tree hat b)) fun _ => ih

theorem readSymbol_takes (k : Nat) {root : Nat} (hroot : root < 511) :
    Op.Takes (State.Decoding (k + 1)) (readSymbol root) (State.Decoding k) := by
  refine .looked fun v hv => .read ?_ hv
  split
  · exact .bind (decoding_reads _).brGetBit fun _ => putSymbol_takes k _
  · exact .bind (setWalk_takes hroot) fun _ => .bind (walkDown_takes _ _) fun _ =>
      .looked fun _ hu => .read (putSymbol_takes k _) hu

theorem readSymbols_takes (n : Nat) {root : Nat} (hroot : root < 511) :
    Op.Takes (State.Decoding n) (readSymbols root n) (State.Decoding 0) := by
  induction n with
  | zero => exact .pure fun _ h => h
  | succ n ih => exact .bind (readSymbol_takes n hroot) fun _ => ih

theorem hfDecode_takes : Op.Takes State.Payload hfDecode (State.Decoding 0) := by
  refine .looked fun v hv => .bind (R := fun _ s => s = v) (.need (fun _ hs _ => hs) fun s hs _ => ?_) fun _ =>
    .bind (R := fun _ => State.Decoding v.tb.len) (.upd fun s hs => ?_) fun _ => ?_
  · show s.Ranged
    rw [hs]
    exact hv.ranged
  · subst hs
    exact { hv with
      ranged := hv.ranged.setWalker (x := { s.walker with symcnt := 0 }) ⟨hv.ranged.walker.1, Nat.two_pow_pos 32⟩
      symbols := by show 0 + s.tb.len ≤ s.tb.len; omega }
  · split
    · exact .need (fun s hs h0 => h0 ▸ hs) fun s hs _ => hs.ranged
    · next root hroot => exact readSymbols_takes _ (hv.ranged.tree.root root hroot)

theorem follow_lt {t : TreeStore} (h : t.InRange) {i j : Nat} {path : Bits} (hi : i < 511)
    (hj : t.follow i path = some j) : j < 511 := by
  induction path generalizing i with
  | nil =>
    cases hj
    exact hi
  | cons b path ih =>
    simp only [TreeStore.follow] at hj
    split at hj
    · cases hj
    · next l r k hat => exact ih (childOf_lt h hat b) hj

theorem codewordLeaf_lt {t : TreeStore} (h : t.InRange) {root leaf : Nat} {path : Bits} (hroot : root < 511)
    (hl : t.codewordLeaf root path = some leaf) : leaf < 511 := by
  simp only [TreeStore.codewordLeaf] at hl
  split at hl
  · split at hl
    · cases hl
      exact hroot
    · cases hl
  · split at hl
    · cases hl
    · next i hi =>
      split at hl
      · cases hl
        exact follow_lt h hroot hi
      · cases hl

theorem walkedTo_takes (t : TreeStore) (root : Nat) {k leaf : Nat} (hl : leaf < 511) :
    Op.Takes (State.Decoding k) (walkedTo t root leaf) (State.Decoding k) := by
  unfold walkedTo
  split
  · exact .pure fun _ h => h
  · exact setWalk_takes hl

theorem acceptCodeword_takes (path : Bits) : Op.Takes (State.Decoding 0) (acceptCodeword path) (State.Decoding 0) := by
  refine .looked fun v hv => .bind (R := fun _ => State.Decoding 1) (.need (fun s hs hlt => ?_) fun s hs _ => ?_) fun _ => ?_
  · subst hs
    exact { hv with symbols := hlt.1 }
  · show s.Ranged
    rw [hs]
    exact hv.ranged
  · split
    · exact .need (fun _ _ hf => hf.elim) fun _ hs _ => hs.ranged
    · next root hroot =>
      split
      · exact .refuse fun _ hs => hs.ranged
      · next leaf hl =>
        have hlt := codewordLeaf_lt hv.ranged.tree (hv.ranged.tree.root root hroot) hl
        exact .bind ((decoding_reads 1).brSkip _) fun _ => .bind (walkedTo_takes _ _ hlt) fun _ => putSymbol_takes 0 _

-- The token decoder -------------------------------------------------------------------------------------------------------

/-- What a call in progress asks for in D_TOKENS with `k` bytes of the stream at `TP`. -/
structure State.Replaying (k : Nat) (s : State) : Prop extends s.Encoding where
  tokens : s.dec.tp + k ≤ s.tb.len

/-- `TP` moved past `k` of the bytes. -/
theorem replaying_advance {k : Nat} {s : State} (h : s.Replaying k) (flg : Byte) :
    (s.setDec { tp := s.dec.tp + k, dflg := flg }).Replaying 0 := by
  have htp : s.dec.tp + k ≤ s.tb.len := h.tokens
  have hlen : s.tb.len < 2 ^ 32 := h.ranged.tb.1
  exact { h with
    ranged := h.ranged.setDec (x := { tp := s.dec.tp + k, dflg := flg }) (by show s.dec.tp + k < 2 ^ 32; omega)
    tokens := htp }

theorem outAppend_takes (v : Byte) : Op.Takes (State.Replaying 0) (outAppend v) (State.Replaying 0) := by
  intro s h
  rw [outAppend_apply]
  by_cases hp : s.out.ptr < s.caps.outCap
  · rw [if_pos hp]
    exact { h with
      ranged := h.ranged.setOut (x := { mem := tableSet s.out.mem s.out.ptr v, ptr := s.out.ptr + 1 })
        ⟨hp, tableBelow_tableSet v h.ranged.out.2 hp⟩ }
  · rw [if_neg hp]
    exact h.ranged

theorem winPut_takes (b : Byte) : Op.Takes (State.Replaying 0) (winPut b) (State.Replaying 0) :=
  .upd fun _ h => { h with ranged := h.ranged.setWin (windowPut_inRange h.ranged.win b) }

theorem replayLiteral_takes (b : Byte) : Op.Takes (State.Replaying 0) (replayLiteral b) (State.Replaying 0) :=
  .bind (outAppend_takes b) fun _ => winPut_takes b

theorem need_takes (c : Prop) [Decidable c] (op : String) (hP : ∀ s, P s → s.Ranged) : Op.Takes P (need c op) P :=
  .need (fun _ h _ => h) fun s h _ => hP s h

theorem winGet_takes (d : Nat) : Op.Takes (State.Replaying 0) (winGet d) (State.Replaying 0) :=
  .looked fun _ hv => .read (.bind (need_takes _ _ fun _ h => h.ranged) fun _ => .pure fun _ h => h) hv

theorem replayLoop_takes (offset n : Nat) : Op.Takes (State.Replaying 0) (replayLoop offset n) (State.Replaying 0) := by
  induction n with
  | zero => exact .pure fun _ h => h
  | succ n ih =>
    exact .bind (winGet_takes offset) fun b => .bind (outAppend_takes b) fun _ => .bind (winPut_takes b) fun _ => ih

theorem replayMatch_takes (offset length : Nat) :
    Op.Takes (State.Replaying 0) (replayMatch offset length) (State.Replaying 0) :=
  .looked fun _ hv => .read (.bind (need_takes _ _ fun _ h => h.ranged) fun _ => replayLoop_takes offset length) hv

theorem acceptFlag_takes (v : Byte) : Op.Takes (State.Replaying 1) (acceptFlag v) (State.Replaying 0) :=
  .bind (R := fun _ => State.Replaying 0) (.upd fun _ h => replaying_advance h v) fun _ =>
    .looked fun _ hv => .read (check_takes _ _ fun _ h => h.ranged) hv

theorem acceptLiteral_takes (b : Byte) : Op.Takes (State.Replaying 1) (acceptLiteral b) (State.Replaying 0) :=
  .bind (R := fun _ => State.Replaying 0) (.upd fun s h => replaying_advance h s.dec.dflg) fun _ => replayLiteral_takes b

theorem acceptMatch_takes (o : BitVec 12) (l : BitVec 4) :
    Op.Takes (State.Replaying 2) (acceptMatch o l) (State.Replaying 0) :=
  .bind (R := fun _ => State.Replaying 0) (.upd fun s h => replaying_advance h s.dec.dflg) fun _ =>
    .looked fun _ hv => .read (.bind (check_takes _ _ fun _ h => h.ranged) fun _ => replayMatch_takes _ _) hv

/-- The need of one byte at `TP` (R151 to R153). -/
theorem needByte_takes {v : State} (hv : v.Replaying 0) (op : String) :
    Op.Takes (· = v) (need (v.dec.tp < v.tb.len) op) (fun s => s = v ∧ s.Replaying 1) := by
  refine .need (fun s hs hlt => ⟨hs, ?_⟩) fun s hs _ => ?_
  · subst hs
    exact { hv with tokens := hlt }
  · show s.Ranged
    rw [hs]
    exact hv.ranged

/-- The check for the two bytes of a Match at `TP` (R153). -/
theorem checkRoom_takes (v : State) :
    Op.Takes (fun s => s = v ∧ s.Replaying 1) (check (2 ≤ v.tb.len - v.dec.tp) .invalidToken) (State.Replaying 2) := by
  refine .check ?_ fun _ hs _ => hs.2.ranged
  rintro s ⟨rfl, hs⟩ hlt
  exact { hs with tokens := by omega }

theorem needToken_takes (op : String) : Op.Takes (State.Replaying 0) (needToken op) (State.Replaying 1) :=
  .looked fun _ hv => (needByte_takes hv op).imp (fun _ h => h) (fun _ _ h => h.2) fun _ _ h => h

theorem checkMatchRoom_takes : Op.Takes (State.Replaying 1) checkMatchRoom (State.Replaying 2) :=
  .looked fun v hv => (checkRoom_takes v).imp (fun _ hs => ⟨hs, hs ▸ hv⟩) (fun _ _ h => h) fun _ _ h => h

theorem tdFlag_takes : Op.Takes (State.Replaying 0) tdFlag (State.Replaying 0) :=
  .looked fun _ hv => .bind (needByte_takes hv _) fun _ =>
    (acceptFlag_takes _).imp (fun _ h => h.2) (fun _ _ h => h) fun _ _ h => h

theorem tdToken_takes (i : Nat) : Op.Takes (State.Replaying 0) (tdToken i) (State.Replaying 0) := by
  refine .looked fun v hv => .read (.ite (fun _ => ?_) fun _ => ?_) hv
  · exact .looked fun _ hv => .bind (needByte_takes hv _) fun _ =>
      (acceptLiteral_takes _).imp (fun _ h => h.2) (fun _ _ h => h) fun _ _ h => h
  · exact .looked fun v hv => .bind (needByte_takes hv _) fun _ => .bind (checkRoom_takes v) fun _ => acceptMatch_takes _ _

theorem tdTokens_takes (n : Nat) : Op.Takes (State.Replaying 0) (tdTokens n) (State.Replaying 0) := by
  induction n with
  | zero => exact .pure fun _ h => h
  | succ n ih =>
    refine .looked fun _ hv => .read (.ite (fun _ => ?_) fun _ => ?_) hv
    · exact .pure fun _ h => h
    · exact .bind (tdToken_takes _) fun _ => ih

theorem tdGroups_takes (n : Nat) : Op.Takes (State.Replaying 0) (tdGroups n) (State.Replaying 0) := by
  induction n with
  | zero => exact .pure fun _ h => h
  | succ n ih =>
    refine .looked fun _ hv => .read (.ite (fun _ => ?_) fun _ => ?_) hv
    · exact .bind tdFlag_takes fun _ => .bind (tdTokens_takes _) fun _ => ih
    · exact .pure fun _ h => h

/-- The token decoder at the first byte of the stream, nothing written. -/
theorem replaying_start {s : State} (h : s.Encoding) :
    ((s.setDec { s.dec with tp := 0 }).setOut { s.out with ptr := 0 }).Replaying 0 :=
  { h with
    ranged := (h.ranged.setDec (x := { s.dec with tp := 0 }) (Nat.two_pow_pos 32)).setOut (x := { s.out with ptr := 0 })
      ⟨Nat.zero_le _, h.ranged.out.2⟩
    tokens := Nat.zero_le _ }

theorem tdDecode_takes : Op.Takes State.Encoding tdDecode (State.Replaying 0) :=
  .bind winInit_takes fun _ => .bind (R := fun _ => State.Replaying 0) (.upd fun _ h => replaying_start h) fun _ =>
    .looked fun _ hv => .read (tdGroups_takes _) hv

theorem decompressWork_takes : Op.Takes State.Unpacking decompressWork State.Ranged :=
  .bind arUnpack_takes fun _ => .bind (R := fun _ => State.Payload) (.upd fun _ h => { h with ranged := h.ranged.setSeq _ })
    fun _ => .bind hfDecode_takes fun _ => .bind (R := fun _ => State.Encoding)
      (.upd fun _ h => h.toEncoding.setSeq _) fun _ =>
        tdDecode_takes.imp (fun _ h => h) (fun _ _ h => h.ranged) fun _ _ h => h

end Sys2Proof.Machine

/-! Every step keeps the ranges: for each place of the sequencer, the operation it runs there and the place it goes on at (R22,
R220 to R224), and the turns of the host. -/

namespace Sys2Proof.Machine

variable {P Q : State → Prop}

-- Places ------------------------------------------------------------------------------------------------------------------

theorem State.Open.atPlace {s : State} (h : s.Open) {q : Sequencer} (hfits : q.phase ≠ .dUnpack → s.tb.len ≤ s.tCap)
    (hbuilt : q.phase = .cPack ∨ q = ⟨.cBuild, .codegen⟩ → s.tree.Built) (hstack : q.phase = .dUnpack → s.tree.Stacked)
    (hnodes : q = ⟨.dUnpack, .nodes⟩ → s.InTreeRegion) (hsym : q.phase = .dHuff → s.Decoding 0)
    (htok : q.phase = .dTokens → s.Replaying 0) : s.AtPlace q where
  openGroup _ := h.group
  writerOpen _ := h.writer
  input _ := h.cursor
  streamFits _ := hfits
  built := hbuilt
  stack := hstack
  treeRegion := hnodes
  payloadRegion hq := (hsym hq).region
  symbols hq := (hsym hq).symbols
  tokens hq := (htok hq).tokens

theorem State.InRange.open {s : State} (h : s.InRange) (hq : s.seq.phase ≠ .idle) : s.Open := by
  obtain ⟨hr, hp⟩ := (inRange_iff s).1 h
  exact ⟨hr, hp.openGroup hq, hp.writerOpen hq, hp.input hq⟩

theorem State.InRange.encoding {s : State} (h : s.InRange) (hq : s.seq.phase ≠ .idle) (hd : s.seq.phase ≠ .dUnpack) :
    s.Encoding := ⟨h.open hq, ((inRange_iff s).1 h).2.streamFits hq hd⟩

theorem State.InRange.packing {s : State} (h : s.InRange) (hq : s.seq.phase = .cPack ∨ s.seq = ⟨.cBuild, .codegen⟩) :
    s.Packing := by
  have hphase : s.seq.phase ≠ .idle ∧ s.seq.phase ≠ .dUnpack := by
    rcases hq with hq | hq <;> rw [hq] <;> simp
  exact ⟨h.encoding hphase.1 hphase.2, ((inRange_iff s).1 h).2.built hq⟩

theorem State.InRange.unpacking {s : State} (h : s.InRange) (hq : s.seq.phase = .dUnpack) : s.Unpacking :=
  ⟨h.open (by rw [hq]; simp), ((inRange_iff s).1 h).2.stack hq⟩

theorem State.InRange.atNode {s : State} (h : s.InRange) (hq : s.seq = ⟨.dUnpack, .nodes⟩) : s.AtNode :=
  ⟨h.unpacking (by rw [hq]), ((inRange_iff s).1 h).2.treeRegion hq⟩

theorem State.InRange.decoding {s : State} (h : s.InRange) (hq : s.seq.phase = .dHuff) : s.Decoding 0 :=
  ⟨⟨h.encoding (by rw [hq]; simp) (by rw [hq]; simp), ((inRange_iff s).1 h).2.payloadRegion hq⟩,
    ((inRange_iff s).1 h).2.symbols hq⟩

theorem State.InRange.replaying {s : State} (h : s.InRange) (hq : s.seq.phase = .dTokens) : s.Replaying 0 :=
  ⟨h.encoding (by rw [hq]; simp) (by rw [hq]; simp), ((inRange_iff s).1 h).2.tokens hq⟩

-- Going on ----------------------------------------------------------------------------------------------------------------

theorem State.Open.goTo {s : State} (h : s.Open) (p : Phase) (l : Line) : (s.goTo p l).Open := by
  rcases goTo_cases s p l with he | ⟨-, he⟩ | ⟨-, he⟩ | ⟨-, he⟩ | ⟨-, he⟩ <;> rw [he]
  · exact { h with ranged := h.ranged.setSeq _ }
  · exact { h with
      ranged := (h.ranged.setSeq _).setFinder (x := { s.finder with cur := 0 }) h.ranged.finder, cursor := Nat.zero_le _ }
  · exact { h with ranged := (h.ranged.setSeq _).setTree (cleared_inRange h.ranged.tree) }
  · exact { h with
      ranged := (h.ranged.setSeq _).setWalker (x := { s.walker with symcnt := 0 })
        ⟨h.ranged.walker.1, Nat.two_pow_pos 32⟩ }
  · exact { h with
      ranged := ((h.ranged.setSeq _).setDec (x := { s.dec with tp := 0 }) (Nat.two_pow_pos 32)).setOut
        (x := { s.out with ptr := 0 }) ⟨Nat.zero_le _, h.ranged.out.2⟩ }

/-- What going on leaves unchanged. -/
@[simp] theorem goTo_kept (s : State) (p : Phase) (l : Line) :
    (s.goTo p l).tb = s.tb ∧ (s.goTo p l).caps = s.caps ∧ (s.goTo p l).br = s.br := by
  rcases goTo_cases s p l with he | ⟨-, he⟩ | ⟨-, he⟩ | ⟨-, he⟩ | ⟨-, he⟩ <;> rw [he] <;> exact ⟨rfl, rfl, rfl⟩

theorem goTo_tree (s : State) (p : Phase) (l : Line) :
    (s.goTo p l).tree = s.tree ∨ p = .dUnpack ∧ (s.goTo p l).tree = s.tree.cleared := by
  rcases goTo_cases s p l with he | ⟨-, he⟩ | ⟨hp, he⟩ | ⟨-, he⟩ | ⟨-, he⟩ <;> rw [he]
  · exact .inl rfl
  · exact .inl rfl
  · exact .inr ⟨hp, rfl⟩
  · exact .inl rfl
  · exact .inl rfl

theorem State.Encoding.goTo {s : State} (h : s.Encoding) (p : Phase) (l : Line) : (s.goTo p l).Encoding :=
  ⟨h.toOpen.goTo p l, by simpa [State.tCap] using h.fits⟩

/-- A place reached whose demands are met. -/
theorem goTo_inRange {s : State} {p : Phase} {l : Line} (h : s.Open) (ha : (s.goTo p l).AtPlace ⟨p, l⟩) :
    (s.goTo p l).InRange := (inRange_iff _).2 ⟨(h.goTo p l).ranged, by rw [goTo_seq]; exact ha⟩

theorem State.Encoding.goTo_inRange {s : State} (h : s.Encoding) {p : Phase} {l : Line}
    (hp : p = .cTokens ∨ p = .cCount ∨ p = .cBuild ∧ l = .start) : (s.goTo p l).InRange := by
  refine Machine.goTo_inRange h.toOpen ((h.goTo p l).toOpen.atPlace (fun _ => (h.goTo p l).fits) ?_ ?_ ?_ ?_ ?_) <;>
    rcases hp with rfl | rfl | ⟨rfl, rfl⟩ <;> simp

theorem State.Packing.goTo_inRange {s : State} (h : s.Packing) {p : Phase} {l : Line} (hp : p = .cBuild ∨ p = .cPack) :
    (s.goTo p l).InRange := by
  have htree : (s.goTo p l).tree = s.tree := by
    rcases goTo_tree s p l with ht | ⟨rfl, -⟩
    · exact ht
    · simp at hp
  refine Machine.goTo_inRange h.toOpen ((h.toOpen.goTo p l).atPlace (fun _ => (h.goTo p l).fits)
    (fun _ => htree ▸ h.built) ?_ ?_ ?_ ?_) <;> rcases hp with rfl | rfl <;> simp

theorem State.Unpacking.goTo_inRange {s : State} (h : s.Unpacking) {l : Line} (hl : l = .nodes → s.InTreeRegion) :
    (s.goTo .dUnpack l).InRange := by
  have hstack : (s.goTo .dUnpack l).tree.Stacked := by
    rcases goTo_tree s .dUnpack l with ht | ⟨-, ht⟩ <;> rw [ht]
    · exact h.stacked
    · exact cleared_stacked _
  refine Machine.goTo_inRange h.toOpen ((h.toOpen.goTo _ l).atPlace ?_ ?_ (fun _ => hstack) (fun hq => ?_) ?_ ?_)
  case refine_3 =>
    cases hq
    simpa [State.InTreeRegion] using hl rfl
  all_goals simp

theorem State.Decoding.goTo_inRange {s : State} (h : s.Decoding 0) (l : Line) : (s.goTo .dHuff l).InRange := by
  have hd : (s.goTo .dHuff l).Decoding 0 := by
    refine ⟨⟨h.toEncoding.goTo _ l, by simpa using h.region⟩, ?_⟩
    rcases goTo_cases s .dHuff l with he | ⟨hp, -⟩ | ⟨hp, -⟩ | ⟨-, he⟩ | ⟨hp, -⟩
    · rw [he]; exact h.symbols
    · cases hp
    · cases hp
    · rw [he]; exact Nat.zero_le _
    · cases hp
  exact Machine.goTo_inRange h.toOpen (hd.toOpen.atPlace (fun _ => hd.fits) (by simp) (by simp) (by simp) (fun _ => hd)
    (by simp))

/-- Entering D_HUFF. -/
theorem State.Payload.goTo_inRange {s : State} (h : s.Payload) (hq : s.seq.phase ≠ .dHuff) :
    (s.goTo .dHuff .start).InRange := by
  have hd : (s.goTo .dHuff .start).Decoding 0 := by
    refine ⟨⟨h.toEncoding.goTo _ _, by simpa using h.region⟩, ?_⟩
    simp [State.goTo, hq]
  exact Machine.goTo_inRange h.toOpen (hd.toOpen.atPlace (fun _ => hd.fits) (by simp) (by simp) (by simp) (fun _ => hd)
    (by simp))

theorem goTo_dTokens_inRange {s : State} {l : Line} (h : (s.goTo .dTokens l).Replaying 0) (hs : s.Open) :
    (s.goTo .dTokens l).InRange :=
  Machine.goTo_inRange hs (h.toOpen.atPlace (fun _ => h.fits) (by simp) (by simp) (by simp) (by simp) (fun _ => h))

theorem State.Replaying.goTo_inRange {s : State} (h : s.Replaying 0) (l : Line) : (s.goTo .dTokens l).InRange := by
  refine goTo_dTokens_inRange ⟨h.toEncoding.goTo _ l, ?_⟩ h.toOpen
  rcases goTo_cases s .dTokens l with he | ⟨hp, -⟩ | ⟨hp, -⟩ | ⟨hp, -⟩ | ⟨-, he⟩
  · rw [he]; exact h.tokens
  · cases hp
  · cases hp
  · cases hp
  · rw [he]; exact Nat.zero_le _

/-- Entering D_TOKENS. -/
theorem State.Encoding.goTo_dTokens {s : State} (h : s.Encoding) : (s.goTo .dTokens .start).InRange :=
  goTo_dTokens_inRange ⟨h.goTo _ _, Nat.zero_le _⟩ h.toOpen

-- What the sequencer runs -------------------------------------------------------------------------------------------------

/-- What the sequencer does next keeps the ranges: it moves to a place whose demands are met, or it runs an operation that ends
within the demands of the place it goes on at, or stops within the ranges. -/
def Fetched.KeepsRange (s : State) : Fetched → Prop
  | .move p l => (s.goTo p l).InRange
  | .run i p l => ∀ u, exec i s = .next u →
      (u.Ranged ∧ (u.seq = s.seq → (u.goTo p l).InRange)) ∨ ∃ v e, v.Ranged ∧ u = State.takeError v e
  | _ => True

theorem keepsRange_run {s : State} {i : Instr} {p : Phase} {l : Line} {x : Op Unit} (hi : exec i s = runOp x s)
    (hx : Op.Takes P x Q) (hs : P s) (hr : ∀ u, Q u → u.Ranged) (hg : ∀ u, Q u → u.seq = s.seq → (u.goTo p l).InRange) :
    (Fetched.run i p l).KeepsRange s := by
  intro u hu
  rw [hi] at hu
  rcases runOp_eq_next.1 hu with hok | ⟨e, v, herr, rfl⟩
  · exact .inl ⟨hr u (hx.ok hs hok), hg u (hx.ok hs hok)⟩
  · exact .inr ⟨v, e, hx.error hs herr, rfl⟩

theorem keepsRange_runRes {α : Type} {s : State} {i : Instr} {p : Phase} {l : Line} {x : Op α} {f : α → OpResult}
    (hi : exec i s = runRes x f s) (hx : Op.Takes P x Q) (hs : P s) (hres : ∀ u r, Q u → Q (u.withResult r))
    (hr : ∀ u, Q u → u.Ranged) (hg : ∀ u, Q u → (u.goTo p l).InRange) : (Fetched.run i p l).KeepsRange s := by
  intro u hu
  rw [hi] at hu
  rcases runRes_eq_next.1 hu with ⟨a, v, hok, rfl⟩ | ⟨e, v, herr, rfl⟩
  · have hq := hres v (f a) (hx.ok hs hok)
    exact .inl ⟨hr _ hq, fun _ => hg _ hq⟩
  · exact .inr ⟨v, e, hx.error hs herr, rfl⟩

theorem State.Encoding.withResult {s : State} (h : s.Encoding) (r : OpResult) : (s.withResult r).Encoding :=
  { h with ranged := h.ranged.setEnv _ }

theorem State.Packing.withResult {s : State} (h : s.Packing) (r : OpResult) : (s.withResult r).Packing :=
  { h with ranged := h.ranged.setEnv _ }

theorem fetchTokens_keepsRange {s : State} (h : s.Encoding) (l : Line) : (fetchTokens s l).KeepsRange s := by
  have hgo : ∀ u : State, u.Encoding → ∀ l, (u.goTo .cTokens l).InRange := fun u hu l => hu.goTo_inRange (.inl rfl)
  unfold fetchTokens
  split
  · exact keepsRange_run rfl winInit_takes h (fun _ hu => hu.ranged) fun u hu _ => hgo u hu _
  · exact keepsRange_run rfl teInit_takes h (fun _ hu => hu.ranged) fun u hu _ => hgo u hu _
  · split
    · exact keepsRange_run rfl (tePutLiteral_takes _) h (fun _ hu => hu.ranged) fun u hu _ => hgo u hu _
    · exact keepsRange_run rfl (tePutMatch_takes _ _) h (fun _ hu => hu.ranged) fun u hu _ => hgo u hu _
    all_goals exact trivial
  · split
    · exact keepsRange_runRes rfl mfStep_takes h (fun _ r hu => hu.withResult r) (fun _ hu => hu.ranged) fun u hu => hgo u hu _
    · exact keepsRange_run rfl teFlush_takes h.flushing (fun _ hu => hu.ranged)
        fun u hu _ => hu.goTo_inRange (.inr (.inl rfl))

theorem fetchBuild_keepsRange {s : State} (h : s.InRange) {l : Line} (hq : s.seq = ⟨.cBuild, l⟩) :
    (fetchBuild l).KeepsRange s := by
  unfold fetchBuild
  split
  · exact keepsRange_run rfl hfCodegen_takes (h.packing (.inr hq)) (fun _ hu => hu.ranged)
      fun u hu _ => hu.goTo_inRange (.inr rfl)
  · exact keepsRange_run rfl hfBuild_takes (h.encoding (by rw [hq]; simp) (by rw [hq]; simp)) (fun _ hu => hu.ranged)
      fun u hu _ => hu.goTo_inRange (.inl rfl)

theorem fetchPack_keepsRange {s : State} (h : s.Packing) (hq : s.seq.phase = .cPack) (l : Line) :
    (fetchPack s l).KeepsRange s := by
  have hwrites : s.seq.phase.writes = true := by rw [hq]; rfl
  have hgo : ∀ u : State, u.Packing → ∀ l, (u.goTo .cPack l).InRange := fun u hu l => hu.goTo_inRange (.inr rfl)
  have hrun : ∀ {i : Instr} {x : Op Unit} (l : Line), exec i s = runOp x s → Op.Takes State.Packing x State.Packing →
      (Fetched.run i .cPack l).KeepsRange s := fun l hi hx =>
    keepsRange_run hi hx h (fun _ hu => hu.ranged) fun u hu _ => hgo u hu l
  unfold fetchPack
  split
  · exact hrun _ rfl bwInit_takes
  · exact hrun _ (runOp_writeOrRead_writes hwrites _ _) (bwPutAll_takes _)
  · exact hrun _ (runOp_writeOrRead_writes hwrites _ _) (bwPutAll_takes _)
  · exact hrun _ (runOp_writeOrRead_writes hwrites _ _) (bwPutAll_takes _)
  · exact hrun _ (runOp_writeOrRead_writes hwrites _ _) (.bind (bwPutAll_takes _) fun _ => bwAlign_takes)
  · exact hrun _ rfl hfEncode_takes
  · exact hrun _ rfl bwAlign_takes
  · exact trivial
  · exact keepsRange_runRes rfl hfSerTree_takes h (fun _ r hu => hu.withResult r) (fun _ hu => hu.ranged)
      fun u hu => hgo u hu _

/-- An element decoded keeps the ranges if its execution does. -/
theorem element_keepsRange {s : State} {sl : Slot} {bs : Bits} {e : ErrKind} {p : Phase} {l : Line}
    (h : ∀ i rest, decode sl bs = .ok (i, rest) → (Fetched.run i p l).KeepsRange s) :
    (element (decode sl bs) e p l).KeepsRange s := by
  cases hd : decode sl bs with
  | error x => exact trivial
  | ok r => exact h r.1 r.2 hd

theorem fetchNode_keepsRange {s : State} (h : s.AtNode) (hq : s.seq.phase = .dUnpack) : (fetchNode s).KeepsRange s := by
  have hreads : s.seq.phase.writes = false := by rw [hq]; rfl
  have hrun : ∀ {i : Instr} {x : Op Unit}, exec i s = runOp x s → Op.Takes State.AtNode x State.AtNode →
      (Fetched.run i .dUnpack .nodes).KeepsRange s := fun hi hx =>
    keepsRange_run hi hx h (fun _ hu => hu.1.ranged) fun u hu _ => hu.1.goTo_inRange fun _ => hu.2
  unfold fetchNode
  split
  · split
    · exact h.1.goTo_inRange (by simp)
    · exact trivial
  · split
    · refine element_keepsRange fun i rest hd => ?_
      match s.inBits s.br.pos (min 9 (s.br.limit - s.br.pos)), hd with
      | [], hd => cases hd
      | false :: _, hd =>
        cases hd
        exact hrun (runOp_writeOrRead_reads hreads _ _) acceptInternal_takes
      | true :: _, hd =>
        simp only [decode] at hd
        obtain ⟨v, ⟨⟩⟩ := fixedWidth_eq_ok hd
        exact hrun (runOp_writeOrRead_reads hreads _ _) (acceptLeaf_takes _)
    · exact trivial

theorem fetchPayload_keepsRange {s : State} (h : s.Unpacking) (hq : s.seq.phase = .dUnpack) :
    (fetchPayload s).KeepsRange s := by
  unfold fetchPayload
  split
  · exact trivial
  · split
    · exact trivial
    · next hfit =>
      refine keepsRange_run rfl (payloadRegion_takes h.toOpen (by simpa using hfit)) rfl (fun _ hu => hu.ranged)
        fun u hu hseq => hu.goTo_inRange ?_
      rw [hseq, hq]
      simp

theorem fetchUnpack_keepsRange {s : State} (h : s.InRange) {l : Line} (hq : s.seq = ⟨.dUnpack, l⟩) :
    (fetchUnpack s l).KeepsRange s := by
  have hphase : s.seq.phase = .dUnpack := by rw [hq]
  have hreads : s.seq.phase.writes = false := by rw [hq]; rfl
  have hu := h.unpacking hphase
  have hrun : ∀ {i : Instr} {x : Op Unit} {l : Line}, l ≠ .nodes → exec i s = runOp x s →
      Op.Takes State.Unpacking x State.Unpacking → (Fetched.run i .dUnpack l).KeepsRange s := fun hl hi hx =>
    keepsRange_run hi hx hu (fun _ hu => hu.ranged) fun u hu _ => hu.goTo_inRange fun hn => absurd hn hl
  unfold fetchUnpack
  split
  · refine element_keepsRange fun i rest hd => ?_
    simp only [decode] at hd
    obtain ⟨v, ⟨⟩⟩ := fixedWidth_eq_ok hd
    exact hrun (by simp) (runOp_writeOrRead_reads hreads _ _) (acceptTokenLen_takes (BitVec.isLt _))
  · refine element_keepsRange fun i rest hd => ?_
    simp only [decode] at hd
    obtain ⟨v, ⟨⟩⟩ := fixedWidth_eq_ok hd
    exact hrun (by simp) (runOp_writeOrRead_reads hreads _ _) (acceptTreeBitLen_takes (BitVec.isLt _))
  · split
    · exact hu.goTo_inRange (by simp)
    · exact keepsRange_run rfl (treeRegion_takes _ _) hu (fun _ hv => hv.1.ranged) fun v hv _ => hv.1.goTo_inRange fun _ => hv.2
  · exact fetchNode_keepsRange (h.atNode hq) hphase
  · exact fetchPayload_keepsRange hu hphase
  · split
    · exact trivial
    · refine element_keepsRange fun i rest hd => ?_
      simp only [decode] at hd
      obtain ⟨v, hv⟩ := fixedWidth_eq_ok hd
      split at hv <;> cases hv
      exact hrun (by simp) (runOp_writeOrRead_reads hreads _ _)
        (.looked fun _ hv => .read (check_takes _ _ fun _ h => h.ranged) hv)

theorem fetchSymbol_keepsRange {s : State} (h : s.Decoding 0) (hq : s.seq.phase = .dHuff) : (fetchSymbol s).KeepsRange s := by
  unfold fetchSymbol
  split
  · split
    · exact trivial
    · refine element_keepsRange fun i rest hd => ?_
      simp only [decode] at hd
      split at hd <;> cases hd
      exact keepsRange_run (runOp_writeOrRead_reads (by rw [hq]; rfl) _ _) (acceptCodeword_takes _) h
        (fun _ hu => hu.ranged) fun u hu _ => hu.goTo_inRange _
  · exact h.toEncoding.goTo_dTokens

theorem fetchToken_keepsRange {s : State} (h : s.Replaying 0) (hq : s.seq.phase = .dTokens) (i : Nat) :
    (fetchToken s i).KeepsRange s := by
  have hreads : s.seq.phase.writes = false := by rw [hq]; rfl
  unfold fetchToken
  split
  · exact trivial
  · split
    · exact h.goTo_inRange _
    · refine element_keepsRange fun j rest hd => ?_
      generalize s.dec.dflg.getLsbD i = literal at hd
      cases literal with
      | true =>
        simp only [decode] at hd
        obtain ⟨v, ⟨⟩⟩ := fixedWidth_eq_ok hd
        exact keepsRange_run (runOp_writeOrRead_reads hreads _ _)
          (.bind (needToken_takes _) fun _ => acceptLiteral_takes _) h (fun _ hu => hu.ranged) fun u hu _ => hu.goTo_inRange _
      | false =>
        simp only [decode] at hd
        obtain ⟨v, ⟨⟩⟩ := fixedWidth_eq_ok hd
        exact keepsRange_run (runOp_writeOrRead_reads hreads _ _)
          (.bind (needToken_takes _) fun _ => .bind checkMatchRoom_takes fun _ => acceptMatch_takes _ _) h
          (fun _ hu => hu.ranged) fun u hu _ => hu.goTo_inRange _

theorem fetchDecode_keepsRange {s : State} (h : s.Replaying 0) (hq : s.seq.phase = .dTokens) (l : Line) :
    (fetchDecode s l).KeepsRange s := by
  unfold fetchDecode
  split
  · split
    · refine element_keepsRange fun j rest hd => ?_
      simp only [decode] at hd
      obtain ⟨v, ⟨⟩⟩ := fixedWidth_eq_ok hd
      exact keepsRange_run (runOp_writeOrRead_reads (by rw [hq]; rfl) _ _)
        (.bind (needToken_takes _) fun _ => acceptFlag_takes _) h (fun _ hu => hu.ranged) fun u hu _ => hu.goTo_inRange _
    · exact trivial
  · exact fetchToken_keepsRange h hq _
  · have hinit : Op.Takes (State.Replaying 0) winInit (State.Replaying 0) :=
      .upd fun _ h => { h with ranged := h.ranged.setWin (windowInit_inRange h.ranged.win) }
    exact keepsRange_run rfl hinit h (fun _ hu => hu.ranged) fun u hu _ => hu.goTo_inRange _

theorem fetch_keepsRange {s : State} (h : s.InRange) : (fetch s).KeepsRange s := by
  have hseq : s.seq = ⟨s.seq.phase, s.seq.line⟩ := rfl
  cases hq : s.seq.phase <;> rw [hq] at hseq <;> simp only [fetch, hq]
  case idle => exact trivial
  case cTokens => exact fetchTokens_keepsRange (h.encoding (by rw [hq]; simp) (by rw [hq]; simp)) _
  case cCount =>
    exact keepsRange_run rfl hfCount_takes (h.encoding (by rw [hq]; simp) (by rw [hq]; simp)) (fun _ hu => hu.ranged)
      fun u hu _ => hu.goTo_inRange (.inr (.inr ⟨rfl, rfl⟩))
  case cBuild => exact fetchBuild_keepsRange h hseq
  case cPack => exact fetchPack_keepsRange (h.packing (.inl hq)) hq _
  case dUnpack => exact fetchUnpack_keepsRange h hseq
  case dHuff => exact fetchSymbol_keepsRange (h.decoding hq) hq
  case dTokens => exact fetchDecode_keepsRange (h.replaying hq) hq _

-- The turns ---------------------------------------------------------------------------------------------------------------

theorem engineTurn_inRange {s t : State} (h : s.InRange) (ht : engineTurn exec s = .next t) : t.InRange := by
  have hk := fetch_keepsRange h
  have hr := ((inRange_iff s).1 h).1
  have hfits := fetch_fits s
  unfold engineTurn at ht
  cases hf : fetch s with
  | wait => rw [hf] at ht; cases ht; exact h
  | move p l => rw [hf] at ht hk; cases ht; exact hk
  | raise e => rw [hf] at ht; cases ht; exact hr.takeError e
  | done => rw [hf] at ht; cases ht; exact hr.endOk
  | refuse r => rw [hf] at ht; cases ht
  | run i p l =>
    rw [hf] at ht hk hfits
    obtain ⟨⟨hc, hd⟩, -⟩ := hfits
    cases hx : exec i s with
    | fault r => simp only [hx, afterRun] at ht; cases ht
    | refused r => simp only [hx, afterRun] at ht; cases ht
    | next u =>
      simp only [hx, afterRun] at ht
      by_cases hidle : u.seq.phase = .idle
      · rw [if_pos hidle] at ht
        cases ht
        rcases hk _ hx with ⟨hu, -⟩ | ⟨v, e, hv, rfl⟩
        · exact hu.inRange hidle
        · exact hv.takeError e
      · rw [if_neg hidle] at ht
        cases ht
        rcases hk _ hx with ⟨-, hgo⟩ | ⟨v, e, -, rfl⟩
        · rcases exec_cases (outside_closed s) hc hd ⟨rfl, rfl, rfl, rfl, rfl⟩ hx with
            ⟨-, hseq, -⟩ | ⟨v, r, ⟨-, hseq, -⟩, rfl⟩ | ⟨v, e, -, rfl⟩
          · exact hgo hseq
          · exact hgo hseq
          · exact absurd rfl hidle
        · exact absurd rfl hidle

/-- A call just started: everything of the call is cleared (R44). -/
theorem started_open {s : State} (h : s.Ranged) (q : Sequencer) : (s.accept.initCall.setSeq q).Open := by
  have hr : (s.accept.initCall.setSeq q).Ranged := State.Ranged.setSeq (State.Ranged.initCall ((h.setHost _).setEnv _)) q
  constructor
  · exact hr
  · simp
  · simp [State.writerOk]
  · simp

/-- A command accepted: its call has begun, or has ended within the ranges. -/
theorem runOp_command_inRange {first : Phase} {work : Op Unit} {s t : State} (h : s.Ranged)
    (hwork : Op.Takes (fun u => u = s.accept.initCall.setSeq ⟨first, .start⟩) work State.Ranged)
    (hstart : (s.accept.initCall.setSeq ⟨first, .start⟩).InRange)
    (ht : runOp (command first (work >>= fun _ => endCall)) s = .next t) : t.InRange := by
  by_cases hlen : s.host.inLen ≤ s.caps.inCap
  · by_cases hturns : s.env.turns = []
    · have hc := command_whole first (work >>= fun _ => endCall) hlen hturns
      rcases runOp_eq_next.1 ht with hx | ⟨e, u, hx, rfl⟩ <;> rw [hc] at hx
      · obtain ⟨_, u, hu, he⟩ := bind_eq_ok.1 hx
        cases he
        exact State.Ranged.endOk (hwork.ok rfl hu)
      · rcases bind_eq_error.1 hx with hu | ⟨_, v, -, hv⟩
        · exact State.Ranged.takeError (hwork.error rfl hu) e
        · cases hv
    · rw [runOp_of_ok (command_stepwise first _ hlen hturns)] at ht
      cases ht
      exact hstart
  · rw [runOp_of_err (command_tooLong first _ hlen)] at ht
    cases ht
    exact State.Ranged.takeError (State.Ranged.initCall ((h.setHost _).setEnv _)) _

theorem started_encoding {s : State} (h : s.Ranged) (q : Sequencer) : (s.accept.initCall.setSeq q).Encoding :=
  ⟨started_open h q, by simp⟩

theorem started_unpacking {s : State} (h : s.Ranged) (q : Sequencer) : (s.accept.initCall.setSeq q).Unpacking :=
  ⟨started_open h q, by simp [TreeStore.Stacked]⟩

theorem exec_command_inRange {c : Instr} (hc : c = .compress ∨ c = .decompress) {s t : State} (hbusy : s.busy = false)
    (h : s.Ranged) (ht : exec c s = .next t) : t.InRange := by
  rcases hc with rfl | rfl
  · simp only [exec, execCompress, hbusy, compressBody_eq] at ht
    have hs := started_encoding h ⟨.cTokens, .start⟩
    refine runOp_command_inRange h (compressWork_takes.read hs) ((inRange_iff _).2 ⟨hs.ranged, ?_⟩) ht
    exact hs.toOpen.atPlace (fun _ => hs.fits) (by simp) (by simp) (by simp) (by simp) (by simp)
  · simp only [exec, execDecompress, hbusy, decompressBody_eq] at ht
    have hs := started_unpacking h ⟨.dUnpack, .start⟩
    refine runOp_command_inRange h (decompressWork_takes.read hs) ((inRange_iff _).2 ⟨hs.ranged, ?_⟩) ht
    exact hs.toOpen.atPlace (by simp) (by simp) (fun _ => hs.stacked) (by simp) (by simp) (by simp)

theorem inRange_setInLen {s : State} (h : s.InRange) (hq : s.seq.phase = .idle) (v : Nat) :
    (s.setHost { s.host with inLen := v }).InRange := (((inRange_iff s).1 h).1.setHost _).inRange hq

theorem setInp_inRange {s : State} (h : s.InRange) {m : Mem} (hm : tableBelow s.caps.inCap m) : (s.setInp m).InRange := by
  obtain ⟨hr, hp⟩ := (inRange_iff s).1 h
  exact (inRange_iff _).2 ⟨hr.setInp hm, { hp with }⟩

theorem setEnv_inRange {s : State} (h : s.InRange) (x : Environment) : (s.setEnv x).InRange := by
  obtain ⟨hr, hp⟩ := (inRange_iff s).1 h
  exact (inRange_iff _).2 ⟨hr.setEnv x, { hp with }⟩

/-- The reset state is in range whatever the capacities are. -/
theorem hardReset_inRange (s : State) : s.hardReset.InRange := by
  have hr : s.hardReset.Ranged :=
    { reset_ranged with inp := trivial, tb := ⟨Nat.two_pow_pos 32, trivial⟩, out := ⟨Nat.zero_le _, trivial⟩ }
  exact hr.inRange rfl

/-- Settles O12: with the agreement of the host registers (`stepKeepsStatusAgreement`), the ranges are kept by the engine's turn
(`engineTurn_inRange`), by a command (`exec_command_inRange`) and by what else the host does. -/
theorem stepKeepsRangesAndCapacities : Obligations.StepKeepsRangesAndCapacities := by
  unfold Obligations.StepKeepsRangesAndCapacities
  rintro s t ⟨hagree, hrange⟩ h
  refine ⟨stepKeepsStatusAgreement s t hagree h, ?_⟩
  obtain ⟨ts, h⟩ := step_cases h
  replace hrange : (s.withTurns ts).InRange := setEnv_inRange hrange _
  replace hagree : (s.withTurns ts).StatusAgrees := statusAgrees_congr (s := s) rfl rfl hagree
  generalize s.withTurns ts = s at hrange hagree h
  rcases h with h | h
  · exact engineTurn_inRange hrange h
  · cases h with
    | command hc hbusy h => exact exec_command_inRange hc hbusy ((inRange_iff s).1 hrange).1 h
    | ignored => exact hrange
    | length v hbusy => exact inRange_setInLen hrange (idle_of_agrees hagree hbusy) v
    | data v => exact setEnv_inRange hrange _
    | input a b hbusy ha => exact setInp_inRange hrange (tableBelow_tableSet b hrange.inListed ha)
    | reset => exact hardReset_inRange s

end Sys2Proof.Machine

/-! Two runs side by side: from states that agree on what a call has produced so far, every operation of a call ends alike or
raises the same error, and never stops otherwise (R20, R226, R229, R233). -/

namespace Sys2Proof.Machine

variable {α β : Type} {E : ErrKind → Prop}

-- Alike -------------------------------------------------------------------------------------------------------------------

/-- Two answers of operations are alike: both ended with the same value, in states that `Q` relates, or both raised the same
error, one that `E` allows. -/
inductive Alike (E : ErrKind → Prop) (Q : α → State → State → Prop) :
    EStateM.Result Stop State α → EStateM.Result Stop State α → Prop
  | ok {a : α} {t t' : State} (h : Q a t t') : Alike E Q (.ok a t) (.ok a t')
  | error {e : ErrKind} {t t' : State} (h : E e) : Alike E Q (.error (.err e) t) (.error (.err e) t')

namespace Alike

variable {s s' : State}

theorem bind {x y : Op α} {f g : α → Op β} {Q : α → State → State → Prop} {R : β → State → State → Prop}
    (h : Alike E Q (x s) (y s')) (hf : ∀ a t t', Q a t t' → Alike E R (f a t) (g a t')) :
    Alike E R ((x >>= f) s) ((y >>= g) s') := by
  generalize hx : x s = r at h
  generalize hy : y s' = r' at h
  cases h with
  | ok h => rw [bind_ok hx, bind_ok hy]; exact hf _ _ _ h
  | error h => rw [bind_error hx, bind_error hy]; exact .error h

/-- A read of the state on both sides. -/
theorem look {f g : State → Op β} {R : β → State → State → Prop} (h : Alike E R (f s s) (g s' s')) :
    Alike E R ((look id >>= f) s) ((look id >>= g) s') := h

theorem ite {Q : α → State → State → Prop} {c c' : Prop} [Decidable c] [Decidable c']
    {a a' b b' : EStateM.Result Stop State α} (hc : c ↔ c') (ha : c → Alike E Q a a') (hb : ¬ c → Alike E Q b b') :
    Alike E Q (if c then a else b) (if c' then a' else b') := by
  by_cases h : c
  · rw [if_pos h, if_pos (hc.1 h)]; exact ha h
  · rw [if_neg h, if_neg (fun h' => h (hc.2 h'))]; exact hb h

/-- The same branch of an operation on both sides. -/
theorem branch {Q : α → State → State → Prop} {c c' : Prop} [Decidable c] [Decidable c'] {x y z w : Op α} (hc : c ↔ c')
    (hx : c → Alike E Q (x s) (z s')) (hy : ¬ c → Alike E Q (y s) (w s')) :
    Alike E Q ((if c then x else y) s) ((if c' then z else w) s') := by
  by_cases h : c
  · rw [if_pos h, if_pos (hc.1 h)]; exact hx h
  · rw [if_neg h, if_neg (fun h' => h (hc.2 h'))]; exact hy h

theorem imp {Q R : α → State → State → Prop} {r r' : EStateM.Result Stop State α} (h : Alike E Q r r')
    (hQ : ∀ a t t', Q a t t' → R a t t') : Alike E R r r' := by
  cases h with
  | ok h => exact .ok (hQ _ _ _ h)
  | error h => exact .error h

theorem allow {E' : ErrKind → Prop} {Q : α → State → State → Prop} {r r' : EStateM.Result Stop State α}
    (h : Alike E Q r r') (hE : ∀ e, E e → E' e) : Alike E' Q r r' := by
  cases h with
  | ok h => exact .ok h
  | error h => exact .error (hE _ h)

end Alike

-- What two runs agree on --------------------------------------------------------------------------------------------------

/-- The input and the capacities. -/
structure SameInput (s s' : State) : Prop where
  inLen : s.host.inLen = s'.host.inLen
  caps : s.caps = s'.caps
  bytes : ∀ a, a < s.host.inLen → s.inByte a = s'.inByte a

/-- The window, as the bytes produced so far. -/
def SameWindow (s s' : State) : Prop := ∃ p, s.windowHolds p ∧ s'.windowHolds p

/-- The intermediate stream. -/
def SameStream (s s' : State) : Prop := s.tb.len = s'.tb.len ∧ ∀ a, a < s.tb.len → s.tbByte a = s'.tbByte a

/-- The bytes written to `OUT`. -/
def SameOutput (s s' : State) : Prop := s.out.ptr = s'.out.ptr ∧ ∀ a, a < s.out.ptr → s.outByte a = s'.outByte a

/-- The open group of the token encoder. -/
structure SameGroup (e e' : TokenEncoder) : Prop where
  flg : e.flg = e'.flg
  gc : e.gc = e'.gc
  gplen : e.gplen = e'.gplen
  staged : ∀ i, i < e.gplen → e.staged i = e'.staged i

theorem SameInput.tCap {s s' : State} (h : SameInput s s') : s.tCap = s'.tCap := by simp only [State.tCap, h.caps]

section Projections

variable {s s' : State}

theorem SameStream.len (h : SameStream s s') : s.tb.len = s'.tb.len := h.1
theorem SameStream.bytes (h : SameStream s s') : ∀ a, a < s.tb.len → s.tbByte a = s'.tbByte a := h.2
theorem SameOutput.ptr (h : SameOutput s s') : s.out.ptr = s'.out.ptr := h.1
theorem SameOutput.bytes (h : SameOutput s s') : ∀ a, a < s.out.ptr → s.outByte a = s'.outByte a := h.2

end Projections

theorem SameWindow.fill {s s' : State} (h : SameWindow s s') : s.win.fill = s'.win.fill := by
  obtain ⟨p, ⟨-, h₁, -⟩, -, h₂, -⟩ := h
  rw [h₁, h₂]

theorem SameWindow.back {s s' : State} (h : SameWindow s s') {d : Nat} (h1 : 1 ≤ d) (hd : d ≤ s.win.fill) :
    s.winBack d = s'.winBack d := by
  obtain ⟨p, ⟨-, hf, h₁⟩, -, hf', h₂⟩ := h
  exact (h₁ d h1 hd).trans (h₂ d h1 (by omega)).symm

theorem SameWindow.put {s s' : State} (h : SameWindow s s') (b : Byte) :
    SameWindow (s.setWin (windowPut s.win b)) (s'.setWin (windowPut s'.win b)) := by
  obtain ⟨p, h₁, h₂⟩ := h
  exact ⟨p ++ [b], windowHolds_put h₁ b, windowHolds_put h₂ b⟩

theorem sameWindow_init (s s' : State) :
    SameWindow (s.setWin { s.win with pos := 0, fill := 0 }) (s'.setWin { s'.win with pos := 0, fill := 0 }) :=
  ⟨[], windowHolds_init, windowHolds_init⟩

/-- The same byte put after bytes that agree. -/
theorem readByte_put_agree {e e' n : Nat} {sp : Space} {m m' : Mem} (v : Byte)
    (h : ∀ a, a < n → readByte e sp m a = readByte e' sp m' a) :
    ∀ a, a < n + 1 → readByte e sp (tableSet m n v) a = readByte e' sp (tableSet m' n v) a := by
  intro a ha
  rcases Nat.lt_succ_iff_lt_or_eq.1 ha with hlt | rfl
  · rw [readByte_tableSet_of_ne _ _ _ _ (Nat.ne_of_lt hlt), readByte_tableSet_of_ne _ _ _ _ (Nat.ne_of_lt hlt), h a hlt]
  · rw [readByte_tableSet_self, readByte_tableSet_self]

theorem SameStream.append {s s' : State} (h : SameStream s s') (v : Byte) :
    SameStream (s.setTb { mem := tableSet s.tb.mem s.tb.len v, len := s.tb.len + 1 })
      (s'.setTb { mem := tableSet s'.tb.mem s'.tb.len v, len := s'.tb.len + 1 }) := by
  obtain ⟨hlen, hbytes⟩ := h
  rw [← hlen]
  exact ⟨rfl, readByte_put_agree v hbytes⟩

theorem SameOutput.append {s s' : State} (h : SameOutput s s') (v : Byte) :
    SameOutput (s.setOut { mem := tableSet s.out.mem s.out.ptr v, ptr := s.out.ptr + 1 })
      (s'.setOut { mem := tableSet s'.out.mem s'.out.ptr v, ptr := s'.out.ptr + 1 }) := by
  obtain ⟨hptr, hbytes⟩ := h
  rw [← hptr]
  exact ⟨rfl, readByte_put_agree v hbytes⟩

theorem SameGroup.stage {e e' : TokenEncoder} (h : SameGroup e e') (b : Byte) : SameGroup (e.stage b) (e'.stage b) := by
  obtain ⟨hflg, hgc, hgp, hstaged⟩ := h
  refine ⟨hflg, hgc, congrArg (· + 1) hgp, fun i hi => ?_⟩
  rw [staged_stage, staged_stage, ← hgp]
  split
  · rfl
  · exact hstaged i (Nat.lt_of_le_of_ne (Nat.le_of_lt_succ hi) (by assumption))

theorem SameStream.stream {s s' : State} (h : SameStream s s') : s.stream = s'.stream := by
  rw [State.stream, State.stream, ← h.len]
  exact bytesFrom_congr fun k _ hk => h.bytes k (by omega)

-- The match finder --------------------------------------------------------------------------------------------------------

theorem runFrom_agree {s s' : State} (hi : SameInput s s') (hw : SameWindow s s') (hcur : s.finder.cur = s'.finder.cur)
    {d : Nat} (h1 : 1 ≤ d) (hd : d ≤ s.win.fill) {k n : Nat} (hk : s.finder.cur + k + n ≤ s.host.inLen) :
    s.runFrom d k n = s'.runFrom d k n := by
  induction n generalizing k with
  | zero => rfl
  | succ n ih =>
    have hmod : k % d < d := Nat.mod_lt _ h1
    have hsrc : s.src d k = s'.src d k := hw.back (by omega) (by omega)
    simp only [State.runFrom]
    rw [ih (by omega), hsrc, hi.bytes _ (by omega), hcur]

theorem candidate_agree {s s' : State} (hi : SameInput s s') (hw : SameWindow s s') (hcur : s.finder.cur = s'.finder.cur)
    (hle : s.finder.cur ≤ s.host.inLen) {d : Nat} (h1 : 1 ≤ d) (hd : d ≤ s.win.fill) : s.candidate d = s'.candidate d := by
  have hmax : s.maxLen = s'.maxLen := by simp only [State.maxLen, hi.inLen, hcur]
  have hle' : s.maxLen ≤ s.host.inLen - s.finder.cur := Nat.min_le_right _ _
  rw [State.candidate, State.candidate, ← hmax]
  exact runFrom_agree hi hw hcur h1 hd (by omega)

theorem bestMatch_agree {s s' : State} (hi : SameInput s s') (hw : SameWindow s s') (hcur : s.finder.cur = s'.finder.cur)
    (hle : s.finder.cur ≤ s.host.inLen) : s.bestMatch = s'.bestMatch := by
  have hsearch : ∀ n d best, 1 ≤ d → d + n ≤ s.win.fill + 1 → s.searchFrom d n best = s'.searchFrom d n best := by
    intro n
    induction n with
    | zero => exact fun _ _ _ _ => rfl
    | succ n ih =>
      intro d best h1 hd
      simp only [State.searchFrom]
      rw [candidate_agree hi hw hcur hle h1 (by omega), ih _ _ (by omega) (by omega)]
  rw [State.bestMatch, State.bestMatch, ← hw.fill]
  exact hsearch _ _ _ (Nat.le_refl _) (by omega)

/-- The window after input bytes that agree. -/
theorem winInput_agree {s s' : State} (hi : SameInput s s') (hcur : s.finder.cur = s'.finder.cur) {w w' : Window}
    (hw : SameWindow (s.setWin w) (s'.setWin w')) {k n : Nat} (hk : s.finder.cur + k + n ≤ s.host.inLen) :
    SameWindow (s.setWin (s.winInput w k n)) (s'.setWin (s'.winInput w' k n)) := by
  induction n generalizing w w' k with
  | zero => exact hw
  | succ n ih =>
    simp only [State.winInput]
    rw [← hcur, ← hi.bytes _ (show s.finder.cur + k < s.host.inLen by omega)]
    exact ih (hw.put _) (by omega)

end Sys2Proof.Machine

/-! A compression depends on its input and the capacities alone, and raises nothing but `CapacityExceeded` (R20, R229, R251). -/

namespace Sys2Proof.Machine

variable {s s' : State}

/-- The one error of a compression (R251). -/
abbrev OnlyCapacity (e : ErrKind) : Prop := e = .capacityExceeded

-- Tokens ------------------------------------------------------------------------------------------------------------------

/-- Two compressions that have taken the same input and produced the same of the stream. -/
structure SameTokens (s s' : State) : Prop extends SameInput s s' where
  window : SameWindow s s'
  cursor : s.finder.cur = s'.finder.cur
  group : SameGroup s.enc s'.enc
  stream : SameStream s s'
  output : SameOutput s s'
  writer : s.bw = s'.bw

theorem mfStep_alike (h : SameTokens s s') (hlt : s.finder.cur < s.host.inLen) :
    Alike OnlyCapacity (fun _ => SameTokens) (mfStep s) (mfStep s') := by
  have hlt' : s'.finder.cur < s'.host.inLen := by rw [← h.cursor, ← h.inLen]; exact hlt
  have hbest := bestMatch_agree h.toSameInput h.window h.cursor (Nat.le_of_lt hlt)
  have hleft := (bestMatch_bounds s).2.1
  rw [mfStep_apply hlt, mfStep_apply hlt', ← hbest]
  refine .ite Iff.rfl (fun _ => .ok ?_) fun _ => ?_
  · exact { h with
      window := winInput_agree (w := s.win) (w' := s'.win) h.toSameInput h.cursor h.window (by omega)
      cursor := congrArg (· + s.bestMatch.1) h.cursor }
  · rw [← h.cursor, ← h.bytes _ hlt]
    exact .ok { h with window := h.window.put _, cursor := rfl }

theorem tbAppend_alike (h : SameTokens s s') (v : Byte) :
    Alike OnlyCapacity (fun _ t t' => SameTokens t t' ∧ t.enc = s.enc) (tbAppend v s) (tbAppend v s') := by
  rw [tbAppend_apply, tbAppend_apply]
  refine .ite (by rw [h.stream.len, h.tCap]) (fun _ => .ok ⟨?_, rfl⟩) fun _ => .error rfl
  exact { h with stream := h.stream.append v }

theorem appendStaged_alike (h : SameTokens s s') {i n : Nat} (hn : i + n ≤ s.enc.gplen) :
    Alike OnlyCapacity (fun _ => SameTokens) (appendStaged i n s) (appendStaged i n s') := by
  induction n generalizing i s s' with
  | zero => exact .ok h
  | succ n ih =>
    simp only [appendStaged, look_bind, id_eq]
    rw [← h.group.staged i (by omega)]
    refine .bind (tbAppend_alike h _) fun _ t t' ht => ih ht.1 ?_
    rw [ht.2]
    omega

theorem sameGroup_clear (e e' : TokenEncoder) :
    SameGroup { e with flg := 0, gc := 0, gplen := 0 } { e' with flg := 0, gc := 0, gplen := 0 } :=
  ⟨rfl, rfl, rfl, fun _ hi => absurd hi (Nat.not_lt_zero _)⟩

theorem teFlush_alike (h : SameTokens s s') : Alike OnlyCapacity (fun _ => SameTokens) (teFlush s) (teFlush s') := by
  simp only [teFlush, look_bind, id_eq]
  rw [← h.group.flg, ← h.group.gplen]
  refine .branch (by rw [h.group.gc]) (fun _ => ?_) fun _ => .ok h
  refine .bind (tbAppend_alike h _) fun _ t t' ht => .bind (appendStaged_alike ht.1 (by rw [ht.2]; omega)) fun _ u u' hu => ?_
  exact .ok { hu with group := sameGroup_clear _ _ }

theorem teCount_alike (h : SameTokens s s') : Alike OnlyCapacity (fun _ => SameTokens) (teCount s) (teCount s') := by
  have hcount : SameTokens (s.setEnc { s.enc with gc := s.enc.gc + 1 }) (s'.setEnc { s'.enc with gc := s'.enc.gc + 1 }) :=
    { h with group := ⟨h.group.flg, congrArg (· + 1) h.group.gc, h.group.gplen, h.group.staged⟩ }
  rw [teCount_apply, teCount_apply]
  exact .ite (by rw [h.group.gc]) (fun _ => teFlush_alike hcount) fun _ => .ok hcount

theorem tePutToken_alike (h : SameTokens s s') (t : Token) :
    Alike OnlyCapacity (fun _ => SameTokens) (tePutToken t s) (tePutToken t s') := by
  cases t with
  | lit b =>
    have hflag : SameGroup { s.enc with flg := s.enc.flg ||| 1 <<< s.enc.gc }
        { s'.enc with flg := s'.enc.flg ||| 1 <<< s'.enc.gc } :=
      ⟨by rw [h.group.flg, h.group.gc], h.group.gc, h.group.gplen, h.group.staged⟩
    simp only [tePutToken, tePutLiteral, upd_bind]
    exact teCount_alike { h with group := hflag.stage b }
  | mat o l =>
    simp only [tePutToken, tePutMatch, upd_bind]
    exact teCount_alike { h with group := (h.group.stage _).stage _ }

theorem tokenLoop_alike (h : SameTokens s s') (n : Nat) :
    Alike OnlyCapacity (fun _ => SameTokens) (tokenLoop n s) (tokenLoop n s') := by
  induction n generalizing s s' with
  | zero => exact .ok h
  | succ n ih =>
    refine .look (.branch (by rw [h.cursor, h.inLen]) (fun hlt => ?_) fun _ => .ok h)
    exact .bind (mfStep_alike h hlt) fun t u u' hu => .bind (tePutToken_alike hu t) fun _ v v' hv => ih hv

-- The tree ----------------------------------------------------------------------------------------------------------------

/-- Two node stores with the same live nodes and the same entries allotted. -/
structure SameForest (t t' : TreeStore) : Prop where
  ncnt : t.ncnt = t'.ncnt
  live : t.live = t'.live
  entries : ∀ i, i < t.ncnt → t.at i = t'.at i

theorem SameForest.addLive {t t' : TreeStore} (h : SameForest t t') (n : Node) : SameForest (t.addLive n) (t'.addLive n) := by
  obtain ⟨hncnt, hlive, hat⟩ := h
  refine ⟨congrArg (· + 1) hncnt, by simp only [addLive_live, hlive, hncnt], fun i hi => ?_⟩
  rw [addLive_at, addLive_at, ← hncnt]
  split
  · rfl
  · next hne => exact hat i (Nat.lt_of_le_of_ne (Nat.le_of_lt_succ hi) hne)

theorem SameForest.addLeaves {t t' : TreeStore} (h : SameForest t t') (f : Table Nat) (l : List Nat) :
    SameForest (l.foldl (TreeStore.addLeaf f) t) (l.foldl (TreeStore.addLeaf f) t') := by
  induction l generalizing t t' with
  | nil => exact h
  | cons v l ih =>
    refine ih ?_
    unfold TreeStore.addLeaf
    split
    · exact h.addLive _
    · exact h

theorem SameForest.firstOf {t t' : TreeStore} (h : SameForest t t') {x : Nat} {xs : List Nat}
    (hlt : ∀ i ∈ x :: xs, i < t.ncnt) : t.firstOf x xs = t'.firstOf x xs := by
  induction xs generalizing x with
  | nil => rfl
  | cons y ys ih =>
    have hx := hlt x List.mem_cons_self
    have hy := hlt y (List.mem_cons_of_mem _ List.mem_cons_self)
    simp only [TreeStore.firstOf]
    rw [h.entries x hx, h.entries y hy]
    refine ih fun i hi => ?_
    rcases List.mem_cons.1 hi with rfl | hi
    · split
      · exact hy
      · exact hx
    · exact hlt i (List.mem_cons_of_mem _ (List.mem_cons_of_mem _ hi))

theorem SameForest.mergeOnce {t t' : TreeStore} (h : SameForest t t') (hlive : ∀ i ∈ t.live, i < t.ncnt) :
    SameForest t.mergeOnce t'.mergeOnce := by
  unfold TreeStore.mergeOnce
  rw [← h.live]
  cases hl : t.live with
  | nil => exact h
  | cons x xs =>
    rw [hl] at hlive
    have hfirst := h.firstOf hlive
    have hmem := firstOf_mem t x xs
    dsimp only
    rw [← hfirst]
    cases he : (x :: xs).erase (t.firstOf x xs) with
    | nil => exact h
    | cons y ys =>
      have hlive' : ∀ i ∈ y :: ys, i < t.ncnt := fun i hi => hlive i (List.mem_of_mem_erase (he ▸ hi))
      have hmerged : t.merged (t.firstOf x xs) (t.firstOf y ys) = t'.merged (t.firstOf x xs) (t.firstOf y ys) := by
        simp only [TreeStore.merged, h.entries _ (hlive _ hmem), h.entries _ (hlive' _ (firstOf_mem t y ys))]
      dsimp only
      rw [← h.firstOf hlive', ← hmerged]
      exact SameForest.addLive (t := { t with live := (y :: ys).erase (t.firstOf y ys) })
        (t' := { t' with live := (y :: ys).erase (t.firstOf y ys) }) ⟨h.ncnt, rfl, h.entries⟩ _

theorem SameForest.mergeAll {t t' : TreeStore} (h : SameForest t t') {L S : Nat} (hb : Building t L S) (n : Nat) :
    SameForest (TreeStore.mergeAll n t) (TreeStore.mergeAll n t') := by
  induction n generalizing t t' with
  | zero => exact h
  | succ n ih => exact ih (h.mergeOnce fun _ hi => hb.live_lt hi) (mergeOnce_building hb)

/-- What `HF_BUILD` makes does not depend on the store it starts from. -/
theorem build_sameForest (f : Table Nat) (t t' : TreeStore) :
    SameForest (t.build f) (t'.build f) ∧ (t.build f).root = (t'.build f).root := by
  have h0 : SameForest { t with ncnt := 0, live := [], root := none } { t' with ncnt := 0, live := [], root := none } :=
    ⟨rfl, rfl, fun _ hi => absurd hi (Nat.not_lt_zero _)⟩
  have hempty : Building { t with ncnt := 0, live := [], root := none } 0 0 :=
    ⟨⟨fun _ => .leaf 0, fun _ h => (nomatch h), rfl⟩, rfl, fun h => absurd h (by decide), rfl, fun _ h => (nomatch h)⟩
  obtain ⟨m, -, hb⟩ := addLeaves_building f (List.range 256) (fun v hv => List.mem_range.1 hv) hempty
  have hleaves := h0.addLeaves f (List.range 256)
  have hforest := hleaves.mergeAll hb
    ((List.range 256).foldl (TreeStore.addLeaf f) { t with ncnt := 0, live := [], root := none }).live.length
  simp only [TreeStore.build]
  rw [show Config.symbols = 256 from rfl, ← hleaves.live]
  exact ⟨⟨hforest.ncnt, hforest.live, hforest.entries⟩, congrArg List.head? hforest.live⟩

/-- The tree of a built store lies within the entries allotted. -/
theorem build_within (f : Table Nat) (t : TreeStore) {r : Nat} (hr : (t.build f).root = some r) :
    ∃ tr, (t.build f).within (t.build f).ncnt r tr ∧ treeLeaves tr ≤ 256 := by
  obtain ⟨u, L, hL, hb, he⟩ := build_forest f t
  rw [he] at hr ⊢
  have hmem : r ∈ u.live := List.mem_of_mem_head? hr
  obtain ⟨g, hg, hs⟩ := hb.trees
  have hle : treeLeaves (g r) ≤ (u.live.map fun i => treeLeaves (g i)).sum :=
    List.single_le_sum (fun _ _ => Nat.zero_le _) _ (List.mem_map_of_mem hmem)
  exact ⟨g r, within_mono (t := u) (u := { u with root := u.live.head? }) (fun _ _ => rfl) (Nat.le_refl _) (hg r hmem),
    by omega⟩

theorem build_shape_agree (f : Table Nat) (t t' : TreeStore) : (t.build f).shape = (t'.build f).shape := by
  obtain ⟨hforest, hroot⟩ := build_sameForest f t t'
  cases hr : (t.build f).root with
  | none => simp only [TreeStore.shape, hr, ← hroot]
  | some r =>
    obtain ⟨tr, hw, hle⟩ := build_within f t hr
    have hw' := within_mono (u := t'.build f) (fun i hi => (hforest.entries i hi).symm) (Nat.le_refl _) hw
    have hle' : treeLeaves tr ≤ Config.nodeCap := Nat.le_trans hle (by decide)
    simp only [TreeStore.shape, hr, ← hroot, treeAt_of_holds (holds_of_within hw) hle',
      treeAt_of_holds (holds_of_within hw') hle']

-- The archive -------------------------------------------------------------------------------------------------------------

/-- Two compressions with the same stream complete. -/
structure SameComplete (s s' : State) : Prop extends SameInput s s' where
  stream : SameStream s s'
  output : SameOutput s s'
  writer : s.bw = s'.bw

/-- Two compressions that write the same archive. -/
structure SameArchive (s s' : State) : Prop extends SameComplete s s' where
  shape : s.tree.shape = s'.tree.shape
  code : s.code = s'.code

theorem countFrom_agree (h : SameStream s s') {i n : Nat} (hn : i + n ≤ s.tb.len) (f : Table Nat) :
    s.countFrom i n f = s'.countFrom i n f := by
  induction n generalizing i f with
  | zero => rfl
  | succ n ih => simp only [State.countFrom, h.bytes i (by omega), ih (show i + 1 + n ≤ s.tb.len by omega)]

theorem bwPutBit_alike (h : SameArchive s s') (b : Bool) :
    Alike OnlyCapacity (fun _ t t' => SameArchive t t' ∧ (s.tbl = s'.tbl → t.tbl = t'.tbl))
      (bwPutBit b s) (bwPutBit b s') := by
  rw [bwPutBit_apply, bwPutBit_apply, ← h.writer]
  refine .ite Iff.rfl (fun _ => .ite (by rw [h.output.ptr, h.caps]) (fun _ => .ok ?_) fun _ => .error rfl) fun _ => .ok ?_
  · exact ⟨{ h with output := h.output.append _, writer := rfl }, id⟩
  · exact ⟨{ h with writer := rfl }, id⟩

theorem bwPutAll_alike (h : SameArchive s s') (bs : Bits) :
    Alike OnlyCapacity (fun _ t t' => SameArchive t t' ∧ (s.tbl = s'.tbl → t.tbl = t'.tbl))
      (bwPutAll bs s) (bwPutAll bs s') := by
  induction bs generalizing s s' with
  | nil => exact .ok ⟨h, id⟩
  | cons b bs ih =>
    exact .bind (bwPutBit_alike h b) fun _ t t' ht => (ih ht.1).imp fun _ u u' hu => ⟨hu.1, fun he => hu.2 (ht.2 he)⟩

theorem bwAlign_alike (h : SameArchive s s') : Alike OnlyCapacity (fun _ => SameArchive) (bwAlign s) (bwAlign s') := by
  rw [bwAlign_apply, bwAlign_apply, bwFlushByte_apply, bwFlushByte_apply, ← h.writer]
  refine .ite Iff.rfl (fun _ => .ite (by rw [h.output.ptr, h.caps]) (fun _ => .ok ?_) fun _ => .error rfl) fun _ => .ok h
  exact { h with output := h.output.append _, writer := rfl }

theorem hfEncode_alike (h : SameArchive s s') : Alike OnlyCapacity (fun _ => SameArchive) (hfEncode s) (hfEncode s') := by
  have hbits : s.stream.flatMap s.codeOf = s'.stream.flatMap s'.codeOf := by
    have hcode : s.codeOf = s'.codeOf := by funext v; simp only [State.codeOf, h.code]
    rw [h.stream.stream, hcode]
  rw [hfEncode_apply, hfEncode_apply, ← hbits]
  exact (bwPutAll_alike h _).imp fun _ _ _ ht => ht.1

theorem arPack_alike (h : SameArchive s s') : Alike OnlyCapacity (fun _ => SameArchive) (arPack s) (arPack s') := by
  have hser : Alike OnlyCapacity (fun a t t' => SameArchive t t' ∧ t.tbl = t'.tbl) (hfSerTree s) (hfSerTree s') := by
    rw [hfSerTree_apply, hfSerTree_apply, ← h.shape]
    exact .ok ⟨{ h with }, rfl⟩
  refine .bind hser fun bits t t' ⟨ht, htbl⟩ => ?_
  refine .bind (Q := fun _ t t' => SameArchive t t' ∧ t.tbl = t'.tbl)
    (.ok ⟨{ ht with writer := rfl }, htbl⟩) fun _ t t' ⟨ht, htbl⟩ => ?_
  refine .bind (bwPutAll_alike ht _) fun _ u u' ⟨hu, hutbl⟩ => .bind (bwPutAll_alike hu _) fun _ v v' ⟨hv, hvtbl⟩ => ?_
  simp only [look_bind, id_eq]
  rw [← hv.stream.len, ← hvtbl (hutbl htbl)]
  exact .bind (bwPutAll_alike hv _) fun _ _ _ h₁ => .bind (bwPutAll_alike h₁.1 _) fun _ _ _ h₂ =>
    .bind (bwPutAll_alike h₂.1 _) fun _ _ _ h₃ => .bind (bwAlign_alike h₃.1) fun _ _ _ h₄ =>
      .bind (hfEncode_alike h₄) fun _ _ _ h₅ => bwAlign_alike h₅

-- The call ----------------------------------------------------------------------------------------------------------------

/-- Two calls just started on the same input. -/
structure SameStart (s s' : State) : Prop extends SameInput s s' where
  output : SameOutput s s'
  writer : s.bw = s'.bw

theorem compressWork_alike (h : SameStart s s') :
    Alike OnlyCapacity (fun _ => SameOutput) (compressWork s) (compressWork s') := by
  refine .bind (Q := fun _ t t' => SameStart t t' ∧ SameWindow t t') (.ok ⟨{ h with }, sameWindow_init s s'⟩)
    fun _ t t' ⟨ht, hwin⟩ => ?_
  refine .bind (Q := fun _ t t' => SameStart t t' ∧ SameWindow t t' ∧ SameGroup t.enc t'.enc ∧ SameStream t t')
    (.ok ⟨{ ht with }, hwin, sameGroup_clear _ _, rfl, fun _ ha => absurd ha (Nat.not_lt_zero _)⟩)
    fun _ u u' ⟨hu, hwin, hgroup, hstream⟩ => ?_
  refine .bind (Q := fun _ => SameTokens)
    (.ok { hu with window := hwin, cursor := rfl, group := hgroup, stream := hstream }) fun _ v v' hv => ?_
  simp only [look_bind, id_eq]
  rw [← hv.inLen]
  refine .bind (tokenLoop_alike hv _) fun _ a a' ha => .bind (teFlush_alike ha) fun _ b b' hb => ?_
  refine .bind (Q := fun _ => SameComplete) (.ok { hb with }) fun _ c c' hc => ?_
  refine .bind (Q := fun _ t t' => SameComplete t t' ∧ t.freq = t'.freq) (.ok ⟨{ hc with }, ?_⟩) fun _ d d' ⟨hd, hfreq⟩ => ?_
  · show c.countFrom 0 c.tb.len [] = c'.countFrom 0 c'.tb.len []
    rw [← hc.stream.len]
    exact countFrom_agree hc.stream (by omega) []
  refine .bind (Q := fun _ t t' => SameComplete t t' ∧ t.freq = t'.freq) (.ok ⟨{ hd with }, hfreq⟩)
    fun _ e e' ⟨he, hfreq⟩ => ?_
  refine .bind (Q := fun _ t t' => SameComplete t t' ∧ t.tree.shape = t'.tree.shape) (.ok ⟨{ he with }, ?_⟩)
    fun _ f f' ⟨hf, hshape⟩ => ?_
  · show (e.tree.build e.freq).shape = (e'.tree.build e'.freq).shape
    rw [← hfreq]
    exact build_shape_agree _ _ _
  refine .bind (Q := fun _ => SameArchive) (.ok { hf with shape := hshape, code := congrArg codeTable hshape })
    fun _ g g' hg => ?_
  refine .bind (Q := fun _ => SameArchive) (.ok { hg with }) fun _ k k' hk => ?_
  exact (arPack_alike hk).imp fun _ _ _ ht => ht.output

end Sys2Proof.Machine

/-! A decompression depends on its input and the capacities alone, and stops only for errors (R20, R229, R233, R250): the tree, the
symbols. -/

namespace Sys2Proof.Machine

variable {s s' : State}

/-- Every error may end a decompression (R250). -/
abbrev AnyError (_ : ErrKind) : Prop := True

-- The bit reader ----------------------------------------------------------------------------------------------------------

/-- Two states that `R` relates read the same bits, inside the input, and are related after each. -/
structure ReadsAlike (R : State → State → Prop) : Prop where
  input : ∀ {s s'}, R s s' → SameInput s s'
  reader : ∀ {s s'}, R s s' → s.br = s'.br ∧ s.br.limit ≤ 8 * s.host.inLen
  bit : ∀ {s s'}, R s s' → R (s.setBr { s.br with pos := s.br.pos + 1 }) (s'.setBr { s'.br with pos := s'.br.pos + 1 })

theorem SameInput.inBit (h : SameInput s s') {q : Nat} (hq : q < 8 * s.host.inLen) : s.inBit q = s'.inBit q := by
  rw [State.inBit, State.inBit, h.bytes (q / 8) (by omega)]

namespace ReadsAlike

variable {R : State → State → Prop} (A : ReadsAlike R)
include A

theorem brGetBit (h : R s s') : Alike AnyError (fun _ => R) (brGetBit s) (brGetBit s') := by
  obtain ⟨hbr, hlim⟩ := A.reader h
  have hnext := A.bit h
  rw [brGetBit_apply, brGetBit_apply, ← hbr]
  rw [← hbr] at hnext
  refine .ite Iff.rfl (fun hlt => ?_) fun _ => .error trivial
  rw [(A.input h).inBit (show s.br.pos < 8 * s.host.inLen by omega)]
  exact .ok hnext

theorem brGetBitsFrom (h : R s s') (n v : Nat) :
    Alike AnyError (fun _ => R) (brGetBitsFrom n v s) (brGetBitsFrom n v s') := by
  induction n generalizing v s s' with
  | zero => exact .ok h
  | succ n ih => exact .bind (A.brGetBit h) fun b t t' ht => ih ht _

end ReadsAlike

-- The tree of an archive --------------------------------------------------------------------------------------------------

/-- Two stores with the same complete entries, whose children are allotted too; the open ones hold anything yet. -/
structure SameEntries (opened : List (Nat × Bool)) (t t' : TreeStore) : Prop where
  ncnt : t.ncnt = t'.ncnt
  entries : ∀ i, i < t.ncnt → i ∉ opened.map Prod.fst → t.at i = t'.at i
  children : ∀ i, i < t.ncnt → i ∉ opened.map Prod.fst → ∀ l r k, t.at i = .internal l r k → l < t.ncnt ∧ r < t.ncnt

/-- Two stores into which the same part of a tree was read, or the whole of it. -/
structure SameTree (t t' : TreeStore) : Prop where
  nodes : SameEntries t.dstk t t'
  root : t.root = t'.root
  dstk : t.dstk = t'.dstk
  stacked : t.Stacked
  complete : ∀ r, t.root = some r → r < t.ncnt ∧ t.dstk = []

theorem sameTree_cleared (t t' : TreeStore) : SameTree t.cleared t'.cleared where
  nodes := ⟨rfl, fun _ hi => absurd hi (Nat.not_lt_zero _), fun _ hi => absurd hi (Nat.not_lt_zero _)⟩
  root := rfl
  dstk := rfl
  stacked := cleared_stacked t
  complete := fun _ hr => (nomatch hr)

theorem SameEntries.put {opened : List (Nat × Bool)} {t t' : TreeStore} {j : Nat} {b : Bool} {n : Node}
    (h : SameEntries ((j, b) :: opened) t t') (hn : ∀ l r k, n = .internal l r k → l < t.ncnt ∧ r < t.ncnt) :
    SameEntries opened (t.put j n) (t'.put j n) := by
  have hopen : ∀ i, i ≠ j → i ∉ opened.map Prod.fst → i ∉ ((j, b) :: opened).map Prod.fst := by
    intro i hne hi
    simp only [List.map_cons, List.mem_cons, not_or]
    exact ⟨hne, hi⟩
  refine ⟨h.ncnt, fun i hi ho => ?_, fun i hi ho l r k => ?_⟩
  · rw [put_at, put_at]
    split
    · rfl
    · next hne => exact h.entries i hi (hopen i hne ho)
  · rw [put_at]
    split
    · exact hn l r k
    · next hne => exact h.children i hi (hopen i hne ho) l r k

/-- The end of a subtree, in both stores. -/
theorem close_sameTree {opened : List (Nat × Bool)} {t t' : TreeStore} {i : Nat} (h : SameEntries opened t t')
    (hroot : t.root = none ∧ t'.root = none) (hi : i < t.ncnt) (hst : (i :: opened.map Prod.fst).Pairwise (· > ·)) :
    SameTree (t.close i opened) (t'.close i opened) := by
  induction opened generalizing t t' i with
  | nil =>
    exact ⟨⟨h.ncnt, h.entries, h.children⟩, rfl, rfl, List.pairwise_singleton _ _, fun r hr => by cases hr; exact ⟨hi, rfl⟩⟩
  | cons e opened ih =>
    obtain ⟨j, b⟩ := e
    obtain ⟨hbelow, hrest⟩ := List.pairwise_cons.1 hst
    have hji : j < i := hbelow j List.mem_cons_self
    cases b with
    | false =>
      refine ⟨⟨h.ncnt, h.entries, h.children⟩, hroot.1.trans hroot.2.symm, rfl,
        List.pairwise_cons.2 ⟨fun k hk => ?_, hrest⟩, fun r hr => ?_⟩
      · have hki : k < i := hbelow k hk
        show k < t.ncnt
        omega
      · rw [show (t.close i ((j, false) :: opened)).root = t.root from rfl, hroot.1] at hr
        cases hr
    | true =>
      refine ih (h.put fun l r k hn => ?_) hroot (by show j < t.ncnt; omega) hrest
      cases hn
      exact ⟨by omega, hi⟩

-- The header --------------------------------------------------------------------------------------------------------------

/-- Two decompressions that have read the same header. -/
structure SameHeader (s s' : State) : Prop extends SameInput s s' where
  room : 10 ≤ s.host.inLen ∧ ceil8 s.tbl ≤ s.host.inLen - 10
  len : s.tb.len = s'.tb.len
  tbl : s.tbl = s'.tbl

/-- Two decompressions inside the tree field. -/
structure SameReading (T : TreeStore → TreeStore → Prop) (s s' : State) : Prop extends SameHeader s s' where
  reader : s.br = s'.br
  region : s.br.limit ≤ 8 * s.host.inLen
  tree : T s.tree s'.tree

/-- Two stores with the next entry, `i`, allotted and not yet in use. -/
structure SameAllotted (i : Nat) (t t' : TreeStore) : Prop where
  ncnt : t.ncnt = i + 1
  nodes : SameEntries ((i, false) :: t.dstk) t t'
  root : t.root = none ∧ t'.root = none
  dstk : t.dstk = t'.dstk
  stacked : (i :: t.dstk.map Prod.fst).Pairwise (· > ·)

theorem sameReading_reads (T : TreeStore → TreeStore → Prop) : ReadsAlike (SameReading T) where
  input h := h.toSameInput
  reader h := ⟨h.reader, h.region⟩
  bit h := { h with reader := by simp only [State.setBr_fields, h.reader] }

/-- A tree of which the root is still to come. -/
def SameRootless (t t' : TreeStore) : Prop := SameTree t t' ∧ t.root = none

theorem allocNode_alike (h : SameReading SameRootless s s') :
    Alike AnyError (fun i => SameReading (SameAllotted i)) (allocNode s) (allocNode s') := by
  obtain ⟨ht, hroot⟩ := h.tree
  have hncnt := ht.nodes.ncnt
  rw [allocNode_apply, allocNode_apply, ← hncnt]
  refine .ite Iff.rfl (fun _ => .ok ?_) fun _ => .error trivial
  have hold : ∀ i, i < s.tree.ncnt + 1 → i ∉ ((s.tree.ncnt, false) :: s.tree.dstk).map Prod.fst →
      i < s.tree.ncnt ∧ i ∉ s.tree.dstk.map Prod.fst := by
    intro i hi ho
    simp only [List.map_cons, List.mem_cons, not_or] at ho
    exact ⟨by omega, ho.2⟩
  have hnodes : SameEntries ((s.tree.ncnt, false) :: s.tree.dstk) { s.tree with ncnt := s.tree.ncnt + 1 }
      { s'.tree with ncnt := s.tree.ncnt + 1 } :=
    ⟨rfl, fun i hi ho => ht.nodes.entries i (hold i hi ho).1 (hold i hi ho).2, fun i hi ho l r k hat => by
      obtain ⟨hl, hr⟩ := ht.nodes.children i (hold i hi ho).1 (hold i hi ho).2 l r k hat
      exact ⟨Nat.lt_succ_of_lt hl, Nat.lt_succ_of_lt hr⟩⟩
  exact { h with tree := ⟨rfl, hnodes, ⟨hroot, ht.root ▸ hroot⟩, ht.dstk, ht.stacked⟩ }

theorem openNode_alike {i : Nat} (h : SameReading (SameAllotted i) s s') :
    Alike AnyError (fun _ => SameReading SameTree) (openNode i s) (openNode i s') := by
  obtain ⟨hncnt, hnodes, hroot, hdstk, hst⟩ := h.tree
  rw [openNode_apply, openNode_apply, ← hdstk]
  refine .ok { h with tree := ⟨⟨hnodes.ncnt, hnodes.entries, hnodes.children⟩, hroot.1.trans hroot.2.symm, rfl, ?_, ?_⟩ }
  · refine List.pairwise_cons.2 ⟨fun k hk => ?_, hst⟩
    rcases List.mem_cons.1 hk with hk | hk
    · show k < s.tree.ncnt
      omega
    · have hki : k < i := (List.pairwise_cons.1 hst).1 k hk
      show k < s.tree.ncnt
      omega
  · intro r hr
    have hsome : s.tree.root = some r := hr
    rw [hroot.1] at hsome
    cases hsome

theorem leafNode_alike {i : Nat} (v : Byte) (h : SameReading (SameAllotted i) s s') :
    Alike AnyError (fun _ => SameReading SameTree) (leafNode i v s) (leafNode i v s') := by
  obtain ⟨hncnt, hnodes, hroot, hdstk, hst⟩ := h.tree
  rw [leafNode_apply, leafNode_apply, ← hdstk]
  have hput := hnodes.put (n := .leaf v none) fun _ _ _ hn => (nomatch hn)
  exact .ok { h with tree := close_sameTree hput hroot (by show i < s.tree.ncnt; omega) hst }

theorem readNode_alike (h : SameReading SameRootless s s') :
    Alike AnyError (fun _ => SameReading SameTree) (readNode s) (readNode s') := by
  refine .bind (allocNode_alike h) fun i t t' ht =>
    .bind ((sameReading_reads _).brGetBit ht) fun mk u u' hu => ?_
  refine .branch Iff.rfl (fun _ => ?_) fun _ => openNode_alike hu
  exact .bind ((sameReading_reads _).brGetBitsFrom hu 8 0) fun v w w' hw => leafNode_alike _ hw

theorem readNodes_alike (h : SameReading SameRootless s s') (n : Nat) :
    Alike AnyError (fun _ => SameReading SameTree) (readNodes n s) (readNodes n s') := by
  induction n generalizing s s' with
  | zero => exact .ok { h with tree := h.tree.1 }
  | succ n ih =>
    refine .bind (readNode_alike h) fun _ t t' ht => .look (.branch (by rw [ht.tree.root]) (fun _ => .ok ht) fun hroot => ?_)
    exact ih { ht with tree := ⟨ht.tree, by simpa using hroot⟩ }

/-- Two decompressions that have read the same tree. -/
structure SameUnpacked (s s' : State) : Prop extends SameHeader s s' where
  tree : SameTree s.tree s'.tree

theorem hfDeserTree_alike (h : SameHeader s s') :
    Alike AnyError (fun _ => SameUnpacked) (hfDeserTree s) (hfDeserTree s') := by
  have hclear := sameTree_cleared s.tree s'.tree
  obtain ⟨h10, hroom⟩ := h.room
  unfold ceil8 at hroom
  by_cases h0 : s.tbl = 0
  · rw [hfDeserTree_empty s h0, hfDeserTree_empty s' (h.tbl ▸ h0)]
    exact .ok { h with tree := hclear }
  · have hregion : 80 + s.tbl ≤ 8 * s.host.inLen := by omega
    have hregion' : 80 + s'.tbl ≤ 8 * s'.host.inLen := by rw [← h.tbl, ← h.inLen]; exact hregion
    rw [hfDeserTree_region s h0 hregion, hfDeserTree_region s' (h.tbl ▸ h0) hregion', ← h.tbl]
    refine .bind (readNodes_alike (h := ?_) 512) fun _ t t' ht => ?_
    · exact { h with reader := rfl, region := hregion, tree := ⟨hclear, rfl⟩ }
    · rw [closeTree_apply, closeTree_apply, ← ht.reader]
      exact .ite Iff.rfl (fun _ => .ok { ht with tree := ht.tree }) fun _ => .error trivial

/-- Two decompressions at the start of the payload. -/
structure SamePayload (s s' : State) : Prop extends SameInput s s' where
  len : s.tb.len = s'.tb.len
  fits : s.tb.len ≤ s.tCap
  tree : SameTree s.tree s'.tree
  rooted : s.tb.len = 0 ∨ s.tree.root.isSome
  reader : s.br = s'.br
  region : s.br.limit ≤ 8 * s.host.inLen

theorem SameInput.be32 (h : SameInput s s') {a : Nat} (ha : a + 4 ≤ s.host.inLen) : s.be32 a = s'.be32 a := by
  simp only [State.be32, h.bytes a (by omega), h.bytes (a + 1) (by omega), h.bytes (a + 2) (by omega),
    h.bytes (a + 3) (by omega)]

theorem checkStream_alike (h : SameUnpacked s s') :
    Alike AnyError (fun _ t t' => SameUnpacked t t' ∧ (t.tb.len = 0 ∨ t.tree.root.isSome) ∧ t.tb.len ≤ t.tCap)
      (checkStream s) (checkStream s') := by
  rw [checkStream_apply, checkStream_apply]
  refine .ite (by rw [h.len, h.tree.root]) (fun hroot => ?_) fun _ => .error trivial
  exact .ite (by rw [h.len, h.tCap]) (fun hfit => .ok ⟨h, hroot, hfit⟩) fun _ => .error trivial

theorem arUnpack_alike (h : SameInput s s') : Alike AnyError (fun _ => SamePayload) (arUnpack s) (arUnpack s') := by
  have hheader : Alike AnyError (fun _ t t' => SameInput t t' ∧ 10 ≤ t.host.inLen) (checkHeader s) (checkHeader s') := by
    rw [checkHeader_apply, checkHeader_apply]
    exact .ite (by rw [h.inLen]) (fun h10 => .ok ⟨h, h10⟩) fun _ => .error trivial
  refine .bind hheader fun _ s s' ⟨h, h10⟩ => ?_
  have hmagic : Alike AnyError (fun _ t t' => SameInput t t' ∧ 10 ≤ t.host.inLen) (checkMagic s) (checkMagic s') := by
    rw [checkMagic_apply, checkMagic_apply, h.bytes 0 (by omega), h.bytes 1 (by omega)]
    exact .ite Iff.rfl (fun _ => .ok ⟨h, h10⟩) fun _ => .error trivial
  refine .bind hmagic fun _ s s' ⟨h, h10⟩ => .look ?_
  rw [← h.be32 (show 2 + 4 ≤ _ by omega), ← h.be32 (show 6 + 4 ≤ _ by omega)]
  generalize s.be32 2 = n
  generalize s.be32 6 = b
  refine .bind (Q := fun _ t t' => SameInput t t' ∧ 10 ≤ t.host.inLen ∧ t.tb.len = t'.tb.len)
    (.ok ⟨{ h with }, h10, rfl⟩) fun _ s s' ⟨h, h10, hlen⟩ => ?_
  have htbl : Alike AnyError (fun _ => SameHeader) (acceptTreeBitLen b s) (acceptTreeBitLen b s') := by
    rw [acceptTreeBitLen_apply, acceptTreeBitLen_apply, ← h.inLen]
    exact .ite Iff.rfl (fun hb => .ok { h with room := ⟨h10, hb⟩, len := hlen, tbl := rfl }) fun _ => .error trivial
  refine .bind htbl fun _ s s' h => .bind (hfDeserTree_alike h) fun _ s s' h => .bind (checkStream_alike h)
    fun _ s s' ⟨h, hroot, hfit⟩ => ?_
  simp only [look_bind, id_eq]
  obtain ⟨h10, hroom⟩ := h.room
  have hstart : s.payloadStart ≤ 8 * s.host.inLen := by unfold State.payloadStart Config.headerBytes; omega
  have hpay : s'.payloadStart = s.payloadStart := by unfold State.payloadStart; rw [h.tbl]
  rw [brInit_apply, brInit_apply, hpay, ← h.inLen, if_pos ⟨hstart, Nat.le_refl _⟩, if_pos ⟨hstart, Nat.le_refl _⟩]
  exact .ok { h with fits := hfit, rooted := hroot, reader := rfl, region := Nat.le_refl _ }

-- Symbols -----------------------------------------------------------------------------------------------------------------

/-- Two decompressions with the same symbols emitted and `k` to come, over the same tree in `n` entries. -/
structure SameSymbols (n k : Nat) (s s' : State) : Prop extends SameInput s s' where
  size : s.tree.ncnt = n
  len : s.tb.len = s'.tb.len
  nodes : SameEntries [] s.tree s'.tree
  symcnt : s.walker.symcnt = s'.walker.symcnt
  left : s.walker.symcnt + k = s.tb.len
  emitted : ∀ a, a < s.walker.symcnt → s.tbByte a = s'.tbByte a
  reader : s.br = s'.br
  region : s.br.limit ≤ 8 * s.host.inLen

/-- The same with the walks at the same entry. -/
structure SameWalk (n k : Nat) (s s' : State) : Prop extends SameSymbols n k s s' where
  walk : s.walker.walk = s'.walker.walk
  inside : s.walker.walk < n

theorem sameSymbols_reads (n k : Nat) : ReadsAlike (SameSymbols n k) where
  input h := h.toSameInput
  reader h := ⟨h.reader, h.region⟩
  bit h := { h with reader := by simp only [State.setBr_fields, h.reader] }

theorem sameWalk_reads (n k : Nat) : ReadsAlike (SameWalk n k) where
  input h := h.toSameInput
  reader h := ⟨h.reader, h.region⟩
  bit h := { h with reader := by simp only [State.setBr_fields, h.reader] }

/-- An entry is the same in both stores, and its children are entries. -/
theorem SameSymbols.entry {n k : Nat} (h : SameSymbols n k s s') {i : Nat} (hi : i < n) :
    s.tree.at i = s'.tree.at i ∧ ∀ l r key, s.tree.at i = .internal l r key → l < n ∧ r < n := by
  have hi' : i < s.tree.ncnt := by rw [h.size]; exact hi
  refine ⟨h.nodes.entries i hi' List.not_mem_nil, fun l r key hat => ?_⟩
  rw [← h.size]
  exact h.nodes.children i hi' List.not_mem_nil l r key hat

theorem putSymbol_alike {n k : Nat} (h : SameSymbols n (k + 1) s s') (v : Byte) :
    Alike AnyError (fun _ => SameSymbols n k) (putSymbol v s) (putSymbol v s') := by
  rw [putSymbol_apply, putSymbol_apply, ← h.symcnt]
  have hleft : s.walker.symcnt + (k + 1) = s.tb.len := h.left
  exact .ok { h with
    symcnt := rfl
    left := by show s.walker.symcnt + 1 + k = s.tb.len; omega
    emitted := readByte_put_agree v h.emitted }

theorem setWalk_alike {n k i : Nat} (h : SameSymbols n k s s') (hi : i < n) :
    Alike AnyError (fun _ => SameWalk n k) (setWalk i s) (setWalk i s') := .ok { h with walk := rfl, inside := hi }

theorem walkDown_alike {n k : Nat} (h : SameWalk n k s s') (fuel : Nat) :
    Alike AnyError (fun _ => SameWalk n k) (walkDown fuel s) (walkDown fuel s') := by
  induction fuel generalizing s s' with
  | zero => exact .ok h
  | succ fuel ih =>
    obtain ⟨hat, hchildren⟩ := h.entry h.inside
    simp only [walkDown, look_bind, id_eq]
    rw [← h.walk, ← hat]
    cases hnode : s.tree.at s.walker.walk with
    | leaf v key => exact .ok h
    | internal l r key =>
      obtain ⟨hl, hr⟩ := hchildren l r key hnode
      refine .bind ((sameWalk_reads n k).brGetBit h) fun b t t' ht =>
        .bind (setWalk_alike ht.toSameSymbols ?_) fun _ u u' hu => ih hu
      cases b
      · exact hl
      · exact hr

theorem readSymbol_alike {n k root : Nat} (h : SameSymbols n (k + 1) s s') (hroot : root < n) :
    Alike AnyError (fun _ => SameSymbols n k) (readSymbol root s) (readSymbol root s') := by
  simp only [readSymbol, look_bind, id_eq]
  rw [← (h.entry hroot).1]
  cases s.tree.at root with
  | leaf v key => exact .bind ((sameSymbols_reads n _).brGetBit h) fun _ t t' ht => putSymbol_alike ht v
  | internal l r key =>
    refine .bind (setWalk_alike h hroot) fun _ t t' ht => ?_
    rw [← h.reader]
    refine .bind (walkDown_alike ht _) fun _ u u' hu => .look ?_
    rw [← hu.walk, ← (hu.entry hu.inside).1]
    exact putSymbol_alike hu.toSameSymbols _

theorem readSymbols_alike {n k root : Nat} (h : SameSymbols n k s s') (hroot : root < n) :
    Alike AnyError (fun _ => SameSymbols n 0) (readSymbols root k s) (readSymbols root k s') := by
  induction k generalizing s s' with
  | zero => exact .ok h
  | succ k ih => exact .bind (readSymbol_alike h hroot) fun _ t t' ht => ih ht

/-- Two decompressions with the same stream complete. -/
structure SameDecoded (s s' : State) : Prop extends SameInput s s' where
  stream : SameStream s s'

theorem hfDecode_alike (h : SamePayload s s') : Alike AnyError (fun _ => SameDecoded) (hfDecode s) (hfDecode s') := by
  have hfit : s'.tb.len ≤ s'.tCap := by rw [← h.len, ← h.tCap]; exact h.fits
  simp only [hfDecode, look_bind, need_bind, upd_bind, id_eq, if_pos h.fits, if_pos hfit]
  rw [← h.tree.root]
  cases hroot : s.tree.root with
  | none =>
    have h0 : s.tb.len = 0 := by simpa [hroot] using h.rooted
    dsimp only
    rw [need_pos h0, need_pos (h.len ▸ h0)]
    exact .ok { h with stream := ⟨h.len, fun a ha => absurd ha (by simp [h0])⟩ }
  | some root =>
    obtain ⟨hlt, hdstk⟩ := h.tree.complete root hroot
    have hnodes : SameEntries [] s.tree s'.tree := hdstk ▸ h.tree.nodes
    dsimp only
    rw [← h.len]
    refine (readSymbols_alike (n := s.tree.ncnt) ?_ hlt).imp fun _ t t' ht => ?_
    · exact { h with
        size := rfl, nodes := hnodes, symcnt := rfl, left := Nat.zero_add _
        emitted := fun a ha => absurd ha (Nat.not_lt_zero _) }
    · exact { ht with stream := ⟨ht.len, fun a ha => ht.emitted a (by have := ht.left; omega)⟩ }

end Sys2Proof.Machine

/-! Every call ends, and alike for the same input and capacities: the replay of a decompression, the two commands (R20, R226, R229,
R233, R246, R251). -/

namespace Sys2Proof.Machine

variable {s s' : State}

-- The replay --------------------------------------------------------------------------------------------------------------

/-- Two decompressions that have consumed the same of the stream and produced the same bytes. -/
structure SameReplay (s s' : State) : Prop extends SameInput s s' where
  stream : SameStream s s'
  window : SameWindow s s'
  output : SameOutput s s'
  tp : s.dec.tp = s'.dec.tp
  inside : s.dec.tp ≤ s.tb.len

/-- The same inside a group, with its flag byte. -/
structure SameTokensLeft (s s' : State) : Prop extends SameReplay s s' where
  dflg : s.dec.dflg = s'.dec.dflg

theorem fill_le (h : SameWindow s s') : s.win.fill ≤ 4096 := by
  obtain ⟨p, ⟨-, hf, -⟩, -⟩ := h
  omega

theorem replayLiteral_alike (h : SameTokensLeft s s') (b : Byte) :
    Alike AnyError (fun _ => SameTokensLeft) (replayLiteral b s) (replayLiteral b s') := by
  rw [replayLiteral_apply, replayLiteral_apply]
  refine .ite (by rw [h.output.ptr, h.caps]) (fun _ => .ok ?_) fun _ => .error trivial
  exact { h with window := h.window.put b, output := h.output.append b }

theorem replayLoop_alike (h : SameTokensLeft s s') {offset : Nat} (h1 : 1 ≤ offset) (hf : offset ≤ s.win.fill) (n : Nat) :
    Alike AnyError (fun _ => SameTokensLeft) (replayLoop offset n s) (replayLoop offset n s') := by
  induction n generalizing s s' with
  | zero => exact .ok h
  | succ n ih =>
    have hle := fill_le h.window
    have hf' : offset ≤ s'.win.fill := by rw [← h.window.fill]; exact hf
    rw [replayLoop_succ _ _ _ h1 hf, replayLoop_succ _ _ _ h1 hf', ← h.window.back h1 hf]
    refine .ite (by rw [h.output.ptr, h.caps]) (fun _ => ih ?_ ?_) fun _ => .error trivial
    · exact { h with window := h.window.put _, output := h.output.append _ }
    · show offset ≤ min (s.win.fill + 1) 4096
      omega

theorem one_le_fieldOffset (o : BitVec 12) : 1 ≤ fieldOffset o := by
  unfold fieldOffset
  split
  · decide
  · next h =>
    rw [Nat.one_le_iff_ne_zero]
    exact fun h0 => h (BitVec.eq_of_toNat_eq h0)

/-- `TP` moved on. -/
theorem SameTokensLeft.advance (h : SameTokensLeft s s') {k : Nat} (hk : s.dec.tp + k ≤ s.tb.len) :
    SameTokensLeft (s.setDec { s.dec with tp := s.dec.tp + k }) (s'.setDec { s'.dec with tp := s'.dec.tp + k }) :=
  { h with tp := congrArg (· + k) h.tp, inside := hk }

theorem acceptMatch_alike (h : SameTokensLeft s s') (hk : s.dec.tp + 2 ≤ s.tb.len) (o : BitVec 12) (l : BitVec 4) :
    Alike AnyError (fun _ => SameTokensLeft) (acceptMatch o l s) (acceptMatch o l s') := by
  rw [acceptMatch_apply, acceptMatch_apply]
  refine .ite (by rw [h.window.fill]) (fun hf => ?_) fun _ => .error trivial
  have hf' : fieldOffset o ≤ s'.win.fill := by rw [← h.window.fill]; exact hf
  have h1 := one_le_fieldOffset o
  rw [replayMatch_apply, replayMatch_apply, if_pos ⟨h1, hf⟩, if_pos ⟨h1, hf'⟩]
  exact replayLoop_alike (h.advance hk) h1 hf _

theorem tdToken_alike (h : SameTokensLeft s s') (hlt : s.dec.tp < s.tb.len) (i : Nat) :
    Alike AnyError (fun _ => SameTokensLeft) (tdToken i s) (tdToken i s') := by
  have hlt' : s'.dec.tp < s'.tb.len := by rw [← h.tp, ← h.stream.len]; exact hlt
  refine .look (.branch (by rw [h.dflg]) (fun _ => ?_) fun _ => ?_)
  · rw [tdLiteral_apply, tdLiteral_apply, if_pos hlt, if_pos hlt', ← h.tp, ← h.stream.bytes _ hlt, acceptLiteral_apply,
      acceptLiteral_apply]
    exact replayLiteral_alike (h.advance hlt) _
  · rw [tdMatch_apply, tdMatch_apply, if_pos hlt, if_pos hlt', ← h.stream.len, ← h.tp]
    refine .ite Iff.rfl (fun hroom => ?_) fun _ => .error trivial
    rw [← h.stream.bytes _ hlt, ← h.stream.bytes (s.dec.tp + 1) (by omega)]
    exact acceptMatch_alike h (by omega) _ _

theorem tdTokens_alike (h : SameTokensLeft s s') (n : Nat) :
    Alike AnyError (fun _ => SameTokensLeft) (tdTokens n s) (tdTokens n s') := by
  induction n generalizing s s' with
  | zero => exact .ok h
  | succ n ih =>
    refine .look (.branch (by rw [h.tp, h.stream.len]) (fun _ => .ok h) fun hne => ?_)
    exact .bind (tdToken_alike h (Nat.lt_of_le_of_ne h.inside hne) _) fun _ t t' ht => ih ht

theorem tdFlag_alike (h : SameReplay s s') (hlt : s.dec.tp < s.tb.len) :
    Alike AnyError (fun _ => SameTokensLeft) (tdFlag s) (tdFlag s') := by
  have hlt' : s'.dec.tp < s'.tb.len := by rw [← h.tp, ← h.stream.len]; exact hlt
  rw [tdFlag_apply, tdFlag_apply, if_pos hlt, if_pos hlt', ← h.tp, ← h.stream.bytes _ hlt, acceptFlag_apply,
    acceptFlag_apply, ← h.tp, ← h.stream.len]
  exact .ite Iff.rfl (fun _ => .ok { h with tp := rfl, inside := hlt, dflg := rfl }) fun _ => .error trivial

theorem tdGroups_alike (h : SameReplay s s') (n : Nat) :
    Alike AnyError (fun _ => SameReplay) (tdGroups n s) (tdGroups n s') := by
  induction n generalizing s s' with
  | zero => exact .ok h
  | succ n ih =>
    refine .look (.branch (by rw [h.tp, h.stream.len]) (fun hlt => ?_) fun _ => .ok h)
    exact .bind (tdFlag_alike h hlt) fun _ t t' ht => .bind (tdTokens_alike ht _) fun _ u u' hu => ih hu.toSameReplay

theorem tdDecode_alike (h : SameDecoded s s') : Alike AnyError (fun _ => SameReplay) (tdDecode s) (tdDecode s') := by
  refine .bind (Q := fun _ t t' => SameDecoded t t' ∧ SameWindow t t') (.ok ⟨{ h with }, sameWindow_init s s'⟩)
    fun _ t t' ⟨ht, hwin⟩ => ?_
  refine .bind (Q := fun _ => SameReplay) (.ok ?_) fun _ u u' hu => ?_
  · exact { ht with
      window := hwin, output := ⟨rfl, fun a ha => absurd ha (Nat.not_lt_zero _)⟩, tp := rfl, inside := Nat.zero_le _ }
  · simp only [look_bind, id_eq]
    rw [← hu.stream.len]
    exact tdGroups_alike hu _

theorem decompressWork_alike (h : SameInput s s') :
    Alike AnyError (fun _ => SameOutput) (decompressWork s) (decompressWork s') := by
  refine .bind (arUnpack_alike h) fun _ t t' ht => .bind (Q := fun _ => SamePayload) (.ok { ht with }) fun _ u u' hu => ?_
  refine .bind (hfDecode_alike hu) fun _ v v' hv => .bind (Q := fun _ => SameDecoded) (.ok { hv with }) fun _ w w' hw => ?_
  exact (tdDecode_alike hw).imp fun _ _ _ h => h.output

-- The commands ------------------------------------------------------------------------------------------------------------

/-- Two calls ended alike: both with `Ok` and the same output, or both with the same error. -/
inductive EndedAlike (E : ErrKind → Prop) : State → State → Prop
  | ok {u u' : State} (h : SameOutput u u') : EndedAlike E u.endOk u'.endOk
  | error {u u' : State} {e : ErrKind} (h : E e) : EndedAlike E (u.takeError e) (u'.takeError e)

/-- Equal byte sequences are equal byte by byte. -/
theorem bytesFrom_inj {f g : Nat → Byte} {a n : Nat} (h : bytesFrom f a n = bytesFrom g a n) :
    ∀ k, a ≤ k → k < a + n → f k = g k := by
  induction n generalizing a with
  | zero => exact fun k h₁ h₂ => absurd h₂ (by omega)
  | succ n ih =>
    obtain ⟨hhead, htail⟩ := List.cons.inj h
    intro k h₁ h₂
    rcases Nat.eq_or_lt_of_le h₁ with rfl | hlt
    · exact hhead
    · exact ih htail k hlt (by omega)

theorem sameInput_of_sameCall (h : s.sameCall s') : SameInput s s' := by
  obtain ⟨hin, hcaps⟩ := h
  have hlen : s.host.inLen = s'.host.inLen := by
    have := congrArg List.length hin
    simpa [State.input] using this
  unfold State.input at hin
  rw [← hlen] at hin
  exact ⟨hlen, hcaps, fun a ha => bytesFrom_inj hin a (Nat.zero_le _) (by omega)⟩

/-- The start of a call keeps the input and clears what the call writes. -/
theorem sameStart_started (h : SameInput s s') (p : Phase) :
    SameStart (s.accept.initCall.setSeq ⟨p, .start⟩) (s'.accept.initCall.setSeq ⟨p, .start⟩) where
  inLen := h.inLen
  caps := h.caps
  bytes := h.bytes
  output := ⟨rfl, fun _ ha => absurd ha (Nat.not_lt_zero _)⟩
  writer := rfl

/-- A command whose work runs alike on both sides ends alike on both. -/
theorem runOp_command_alike {E : ErrKind → Prop} {first : Phase} {work : Op Unit} (hE : E .capacityExceeded)
    (hwork : ∀ {t t'}, SameStart t t' → Alike E (fun _ => SameOutput) (work t) (work t')) (h : SameInput s s')
    (hturns : s.env.turns = []) (hturns' : s'.env.turns = []) :
    ∃ t t', runOp (command first (work >>= fun _ => endCall)) s = .next t ∧
      runOp (command first (work >>= fun _ => endCall)) s' = .next t' ∧ EndedAlike E t t' := by
  by_cases hlen : s.host.inLen ≤ s.caps.inCap
  · have hlen' : s'.host.inLen ≤ s'.caps.inCap := by rw [← h.inLen, ← h.caps]; exact hlen
    have hc := command_whole first (work >>= fun _ => endCall) hlen hturns
    have hc' := command_whole first (work >>= fun _ => endCall) hlen' hturns'
    have hw := hwork (sameStart_started h first)
    generalize hx : work (s.accept.initCall.setSeq ⟨first, .start⟩) = r at hw
    generalize hx' : work (s'.accept.initCall.setSeq ⟨first, .start⟩) = r' at hw
    cases hw with
    | ok ho => exact ⟨_, _, runOp_of_ok (hc.trans (bind_ok hx)), runOp_of_ok (hc'.trans (bind_ok hx')), .ok ho⟩
    | error he => exact ⟨_, _, runOp_of_err (hc.trans (bind_error hx)), runOp_of_err (hc'.trans (bind_error hx')), .error he⟩
  · have hlen' : ¬ s'.host.inLen ≤ s'.caps.inCap := by rw [← h.inLen, ← h.caps]; exact hlen
    exact ⟨_, _, runOp_of_err (command_tooLong first _ hlen), runOp_of_err (command_tooLong first _ hlen'), .error hE⟩

/-- A call from two ready states with the same input and capacities (R20). -/
theorem exec_command_alike {c : Instr} (hc : c = .compress ∨ c = .decompress) (hs : s.ready) (hs' : s'.ready)
    (h : SameInput s s') : ∃ t t', exec c s = .next t ∧ exec c s' = .next t' ∧
      EndedAlike (fun e => c = .compress → e = .capacityExceeded) t t' := by
  obtain ⟨hbusy, hturns⟩ := hs
  obtain ⟨hbusy', hturns'⟩ := hs'
  rcases hc with rfl | rfl
  · simp only [exec, execCompress, hbusy, hbusy', compressBody_eq]
    refine runOp_command_alike (fun _ => rfl) (fun ht => ?_) h hturns hturns'
    exact (compressWork_alike ht).allow fun e he _ => he
  · simp only [exec, execDecompress, hbusy, hbusy', decompressBody_eq]
    refine runOp_command_alike (fun _ => rfl) (fun ht => ?_) h hturns hturns'
    exact (decompressWork_alike ht.toSameInput).allow fun _ _ hd => (nomatch hd)

/-- Settles O58: both calls end alike (`exec_command_alike`), so what the host can see of them is the same. -/
theorem callsDependOnTheirInputAlone : Obligations.CallsDependOnTheirInputAlone := by
  unfold Obligations.CallsDependOnTheirInputAlone
  intro s s' c hc hs hs' hcall
  obtain ⟨t, t', ht, ht', hend⟩ := exec_command_alike hc hs hs' (sameInput_of_sameCall hcall)
  refine ⟨t, t', ht, ht', ?_⟩
  cases hend with
  | ok ho =>
    refine ⟨rfl, rfl, ho.ptr, ?_⟩
    simp only [State.result, endOk_fields]
    rw [← ho.ptr]
    exact bytesFrom_congr fun k _ hk => ho.bytes k (by omega)
  | error he => exact ⟨rfl, rfl, rfl, rfl⟩

/-- Settles O54: a call ends alike with itself (`exec_command_alike`), so it ends; what it leaves of the host's side is
`noOperationWritesTheInput`. -/
theorem everyCallEnds : Obligations.EveryCallEnds := by
  unfold Obligations.EveryCallEnds
  intro s c hc
  refine ⟨exec_command_busy hc, fun hs => ?_⟩
  obtain ⟨t, t', ht, -, hend⟩ := exec_command_alike hc hs hs ⟨rfl, rfl, fun _ _ => rfl⟩
  obtain ⟨-, -, -, hturns, -⟩ := noOperationWritesTheInput c s t ht
  refine ⟨t, ht, ?_⟩
  rw [hturns]
  cases hend with
  | ok ho => exact ⟨by simp [State.busy], by simp [State.done], hs.2, .inl ⟨_, rfl, rfl, rfl, rfl⟩⟩
  | error he => exact ⟨by simp [State.busy], by simp [State.done], hs.2, .inr ⟨_, (tookError_takeError _ _).1, he⟩⟩

end Sys2Proof.Machine

/-! Where the bits do not fit in `OUT` (R59, R102, R104, R244): a writer fills `OUT` up to its capacity and stops there. -/

namespace Sys2Proof.Machine

/-- `t` is `s` after a bit writer has come to the end of `OUT`: no byte past it is written, and none before `OPTR` is changed. -/
structure State.Filled (s t : State) : Prop where
  frame : t = (s.setOut t.out).setBw t.bw
  ptr : t.out.ptr = max s.out.ptr s.caps.outCap
  kept : ∀ a, a < s.out.ptr ∨ s.caps.outCap ≤ a → t.outByte a = s.outByte a

/-- With `OPTR` at the capacity nothing but the writer's own registers can change. -/
theorem State.Filled.of_full {s : State} (h : s.caps.outCap ≤ s.out.ptr) (w : BitWriter) : s.Filled (s.setBw w) :=
  ⟨rfl, (Nat.max_eq_left h).symm, fun _ _ => rfl⟩

/-- Bits that fit, and then the end of `OUT`. -/
theorem State.Wrote.filled {s t u : State} {bits : Bits} (hx : s.Wrote t bits) (hy : t.Filled u)
    (hp : t.out.ptr ≤ max s.out.ptr s.caps.outCap) : s.Filled u := by
  have hcap : t.caps.outCap = s.caps.outCap := by rw [hx.frame]; rfl
  have hle := hx.ptr
  have hptr := hy.ptr
  rw [hcap] at hptr
  refine ⟨by rw [hy.frame, hx.frame]; rfl, by omega, fun a ha => ?_⟩
  rw [hy.kept a (by omega), hx.kept a (by omega)]

theorem bwPutBit_full {s : State} (b : Bool) (h7 : s.bw.cnt = 7) (hfull : s.caps.outCap ≤ s.out.ptr) :
    ∃ t, bwPutBit b s = .error (.err .capacityExceeded) t ∧ s.Filled t :=
  ⟨_, by rw [bwPutBit_apply, if_pos h7, if_neg (Nat.not_lt.2 hfull)], .of_full hfull _⟩

theorem bwAlign_full {s : State} (hc : s.bw.cnt ≠ 0) (hfull : s.caps.outCap ≤ s.out.ptr) :
    bwAlign s = .error (.err .capacityExceeded) s := by
  rw [bwAlign_apply, if_pos hc, bwFlushByte_apply, if_neg (Nat.not_lt.2 hfull)]

/-- A string of bits whose completed bytes do not all fit. -/
theorem bwPutAll_full (bits : Bits) {s : State} (hw : s.writerOk) (hbyte : (s.bw.cnt + bits.length) / 8 ≠ 0)
    (hcap : s.caps.outCap < s.out.ptr + (s.bw.cnt + bits.length) / 8) :
    ∃ t, bwPutAll bits s = .error (.err .capacityExceeded) t ∧ s.Filled t := by
  have hlt := hw.1
  induction bits generalizing s with
  | nil => simp only [List.length_nil] at hbyte; omega
  | cons b bits ih =>
    simp only [List.length_cons] at hbyte hcap
    by_cases hstop : s.bw.cnt = 7 ∧ s.caps.outCap ≤ s.out.ptr
    · obtain ⟨t, ht, hfilled⟩ := bwPutBit_full b hstop.1 hstop.2
      exact ⟨t, by rw [bwPutAll_cons, bind_error ht], hfilled⟩
    · obtain ⟨t, ht, hb⟩ := bwPutBit_wrote hw b (fun h7 => by omega)
      have hptr := hb.ptr
      have hcnt := hb.cnt
      have hcap' : t.caps.outCap = s.caps.outCap := by rw [hb.frame]; rfl
      simp only [List.length_singleton] at hptr hcnt
      obtain ⟨u, hu, hfilled⟩ := ih hb.writer (by omega) (by omega) hb.writer.1
      exact ⟨u, by rw [bwPutAll_cons, bind_ok ht, hu], hb.filled hfilled (by omega)⟩

/-- A padded string of bits that does not fit: its completed bytes do not, or the last one, begun, does not. -/
theorem putPadded_full (bits : Bits) {s : State} (hw : s.writerOk) (hn : s.bw.cnt + bits.length ≠ 0)
    (hcap : s.caps.outCap < s.out.ptr + ceil8 (s.bw.cnt + bits.length)) :
    ∃ t, putPadded bits s = .error (.err .capacityExceeded) t ∧ s.Filled t := by
  unfold ceil8 at hcap
  by_cases hroom : (s.bw.cnt + bits.length) / 8 ≠ 0 → s.out.ptr + (s.bw.cnt + bits.length) / 8 ≤ s.caps.outCap
  · obtain ⟨t, ht, hx⟩ := bwPutAll_wrote bits hw hroom
    have hptr := hx.ptr
    have hcnt := hx.cnt
    have hcap' : t.caps.outCap = s.caps.outCap := by rw [hx.frame]; rfl
    have hfull : t.caps.outCap ≤ t.out.ptr := by omega
    exact ⟨t, (bind_ok ht).trans (bwAlign_full (by omega) hfull), hx.filled (.of_full hfull t.bw) (by omega)⟩
  · obtain ⟨t, ht, hfilled⟩ := bwPutAll_full bits hw (by omega) (by omega)
    exact ⟨t, bind_error ht, hfilled⟩

/-- The instructions of `State.bitsPadded` write those bits and then align. -/
theorem exec_bitsPadded {i : Instr} {s : State} {bits : Bits} (h : s.bitsPadded i = some bits) :
    exec i s = runOp (putPadded bits) s := by
  cases i with
  | bwAlign => cases h; rfl
  | treeBits xs =>
    obtain ⟨hwrites, hbits⟩ := Option.ite_none_right_eq_some.1 h
    cases hbits
    exact runOp_writeOrRead_writes hwrites _ _
  | payloadBits xs =>
    obtain ⟨hwrites, hbits⟩ := Option.ite_none_right_eq_some.1 h
    cases hbits
    exact runOp_writeOrRead_writes hwrites _ _
  | _ => cases h

/-- The error of an operation that has changed only `OUT` and the bit writer. -/
theorem State.Filled.tookError {s t : State} (h : s.Filled t) (e : ErrKind) : s.tookError (t.takeError e) e := by
  rw [h.frame]
  exact tookError_takeError ((s.setOut t.out).setBw t.bw) e

/-- Settles O24: each of the instructions writes one string of bits, padded or not, which stops at the capacity
(`bwPutAll_full`, `putPadded_full`). -/
theorem bitWritersStopAtTheCapacity : Obligations.BitWritersStopAtTheCapacity := by
  unfold Obligations.BitWritersStopAtTheCapacity
  intro i s bits hw hbits
  obtain ⟨t, ht, hfilled⟩ : ∃ t, exec i s = .next (t.takeError .capacityExceeded) ∧ s.Filled t := by
    rcases hbits with ⟨hbits, hbyte, hcap⟩ | ⟨hbits, hn, hcap⟩
    · obtain ⟨t, ht, hfilled⟩ := bwPutAll_full bits hw hbyte hcap
      exact ⟨t, (exec_bitsWritten hbits).trans (runOp_of_err ht), hfilled⟩
    · obtain ⟨t, ht, hfilled⟩ := putPadded_full bits hw hn hcap
      exact ⟨t, (exec_bitsPadded hbits).trans (runOp_of_err ht), hfilled⟩
  exact ⟨_, ht, hfilled.tookError _, hfilled.ptr, hfilled.kept⟩

end Sys2Proof.Machine

/-! The replay of a token (R96, R131, R132, R275): what it appends to `OUT` and to the window. -/

namespace Sys2Proof.Machine

-- Literals ----------------------------------------------------------------------------------------------------------------

/-- `OUT` and the window with one more byte: what a replayed literal does. -/
def State.emitted (s : State) (b : Byte) : State :=
  (s.setOut { mem := tableSet s.out.mem s.out.ptr b, ptr := s.out.ptr + 1 }).setWin (windowPut s.win b)

@[simp] theorem State.emitted_fields (s : State) (b : Byte) :
    (s.emitted b).out.ptr = s.out.ptr + 1 ∧ (s.emitted b).caps = s.caps ∧ (s.emitted b).win = windowPut s.win b :=
  ⟨rfl, rfl, rfl⟩

@[simp] theorem outByte_emitted_self (s : State) (b : Byte) : (s.emitted b).outByte s.out.ptr = b :=
  readByte_tableSet_self _ _ _ _ _

theorem outByte_emitted_of_ne (s : State) (b : Byte) {a : Nat} (h : a ≠ s.out.ptr) :
    (s.emitted b).outByte a = s.outByte a := readByte_tableSet_of_ne _ _ _ _ h

/-- With room the order of the two writes does not matter. -/
theorem exec_emits {s : State} {b : Byte} {i : Instr} (hi : i = .replayLiteral b ∨ i = .winEmit b)
    (hroom : s.out.ptr < s.caps.outCap) : exec i s = .next (s.emitted b) := by
  rcases hi with rfl | rfl
  · exact runOp_of_ok (x := replayLiteral b) (by rw [replayLiteral_apply, if_pos hroom]; rfl)
  · exact runOp_of_ok (x := winEmit b) (by rw [winEmit_apply, if_pos hroom]; rfl)

/-- Without room only `WIN_EMIT` has changed anything by then: it has put its byte into the window. -/
theorem exec_emits_full {s : State} {b : Byte} {i : Instr} (hi : i = .replayLiteral b ∨ i = .winEmit b)
    (hfull : s.caps.outCap ≤ s.out.ptr) : ∃ w, exec i s = .next ((s.setWin w).takeError .capacityExceeded) := by
  rcases hi with rfl | rfl
  · exact ⟨s.win, runOp_of_err (x := replayLiteral b) (by rw [replayLiteral_apply, if_neg (Nat.not_lt.2 hfull)]; rfl)⟩
  · exact ⟨windowPut s.win b, runOp_of_err (x := winEmit b) (by rw [winEmit_apply, if_neg (Nat.not_lt.2 hfull)])⟩

/-- Settles O32, by whether `OUT` has room for the byte. -/
theorem replayedLiteralGoesToOutputAndWindow : Obligations.ReplayedLiteralGoesToOutputAndWindow := by
  unfold Obligations.ReplayedLiteralGoesToOutputAndWindow
  refine fun s b i hi => ⟨fun hroom => ?_, fun hfull => ?_⟩
  · exact ⟨s.emitted b, _, exec_emits hi hroom, rfl, rfl, rfl, outByte_emitted_self s b,
      fun _ => outByte_emitted_of_ne s b⟩
  · obtain ⟨w, hw⟩ := exec_emits_full hi hfull
    exact ⟨_, hw, tookError_takeError (s.setWin w) _, rfl⟩

-- Matches -----------------------------------------------------------------------------------------------------------------

/-- A copy only appends. -/
theorem byteAt_copied_of_lt (d n : Nat) {p : List Byte} {k : Nat} (hk : k < p.length) :
    byteAt (copied d n p) k = byteAt p k := by
  induction n generalizing p with
  | zero => rfl
  | succ n ih =>
    rw [copied, ih (by simp; omega)]
    simp only [byteAt, List.getD_eq_getElem?_getD, List.getElem?_append_left hk]

/-- The first copied byte is the one `d` back. -/
theorem byteAt_copied_length (d n : Nat) (p : List Byte) :
    byteAt (copied d (n + 1) p) p.length = byteAt p (p.length - d) := by
  rw [copied, byteAt_copied_of_lt _ _ (by simp)]
  simp [byteAt]

/-- The byte `d` back in the window is the one `d` back in the bytes produced (R41, R61). -/
theorem winBack_of_windowHolds {s : State} {p : List Byte} (h : s.windowHolds p) {d : Nat} (h1 : 1 ≤ d)
    (hd : d ≤ s.win.fill) : s.winBack d = byteAt p (p.length - d) := h.2.2 d h1 hd

theorem fill_le_of_windowHolds {s : State} {p : List Byte} (h : s.windowHolds p) : s.win.fill ≤ 4096 :=
  h.2.1 ▸ Nat.min_le_right _ _

/-- One round of the copy loop with room, in terms of the bytes produced: each is read before it is written (R275). -/
theorem replayLoop_emits {s : State} {p : List Byte} {offset : Nat} (n : Nat) (hp : s.windowHolds p) (h1 : 1 ≤ offset)
    (hf : offset ≤ s.win.fill) (hroom : s.out.ptr < s.caps.outCap) :
    replayLoop offset (n + 1) s = replayLoop offset n (s.emitted (byteAt p (p.length - offset))) := by
  rw [replayLoop_succ _ _ _ h1 hf, if_pos hroom, winBack_of_windowHolds hp h1 hf]
  rfl

/-- The copy loop puts the copy into the window and into `OUT` (R131). -/
theorem replayLoop_copied (offset n : Nat) {s : State} {p : List Byte} (hp : s.windowHolds p) (h1 : 1 ≤ offset)
    (hf : offset ≤ s.win.fill) (hc : s.out.ptr + n ≤ s.caps.outCap) :
    ∃ t, replayLoop offset n s = .ok () t ∧ t = (s.setOut t.out).setWin t.win ∧ t.windowHolds (copied offset n p) ∧
      t.out.ptr = s.out.ptr + n ∧
      (∀ k, k < n → t.outByte (s.out.ptr + k) = byteAt (copied offset n p) (p.length + k)) ∧
      ∀ a, a < s.out.ptr ∨ t.out.ptr ≤ a → t.outByte a = s.outByte a := by
  induction n generalizing s p with
  | zero => exact ⟨s, rfl, rfl, hp, rfl, fun _ hk => absurd hk (Nat.not_lt_zero _), fun _ _ => rfl⟩
  | succ n ih =>
    have hfill := fill_le_of_windowHolds hp
    obtain ⟨t, ht, hframe, hholds, hptr, hcopy, hkept⟩ :=
      ih (s := s.emitted (byteAt p (p.length - offset))) (windowHolds_put hp _)
        (by simp only [State.emitted_fields, windowPut_fill]; omega) (by simp only [State.emitted_fields]; omega)
    simp only [State.emitted_fields, List.length_append, List.length_singleton] at hptr hcopy hkept
    refine ⟨t, (replayLoop_emits n hp h1 hf (by omega)).trans ht, hframe, hholds, by omega, fun k hk => ?_,
      fun a ha => ?_⟩
    · cases k with
      | zero =>
        rw [Nat.add_zero, hkept _ (by omega), outByte_emitted_self]
        exact (byteAt_copied_length offset n p).symm
      | succ k =>
        rw [Nat.add_comm k 1, ← Nat.add_assoc, ← Nat.add_assoc]
        exact hcopy k (by omega)
    · rw [hkept a (by omega), outByte_emitted_of_ne s _ (by omega)]

/-- Settles O33: with a permitted offset by the copy loop (`replayLoop_copied`, `replayLoop_full`), else by the refusal. -/
theorem replayedMatchCopiesByteByByte : Obligations.ReplayedMatchCopiesByteByByte := by
  unfold Obligations.ReplayedMatchCopiesByteByByte
  intro s p offset length hp
  refine ⟨fun h1 hf hc => ?_, fun h1 hf hl hc => ?_, fun hbad => ?_⟩
  · obtain ⟨t, ht, hrest⟩ := replayLoop_copied offset length hp h1 hf hc
    exact ⟨t, runOp_of_ok ((replayMatch_apply _ _ _).trans ((if_pos ⟨h1, hf⟩).trans ht)), hrest⟩
  · obtain ⟨t, ht, hframe, hkept⟩ := replayLoop_full offset length s h1 hf (fill_le_of_windowHolds hp) hl hc
    refine ⟨_, runOp_of_err ((replayMatch_apply _ _ _).trans ((if_pos ⟨h1, hf⟩).trans ht)), ?_, hkept⟩
    rw [hframe]
    exact tookError_takeError ((s.setOut t.out).setWin t.win) _
  · have hx : replayMatch offset length s = .error (.refuse (.precondition "REPLAY_MATCH")) s := by
      rw [replayMatch_apply, if_neg (by omega)]
    show runOp (replayMatch offset length) s = _
    simp only [runOp, hx]

end Sys2Proof.Machine

/-! The flush of a token group (R145, R146), and a step of a platform (R69, R259). -/

namespace Sys2Proof.Machine

/-- Settles O36, by the three things `TE_FLUSH` can do: `teFlush_empty`, `teFlush_ok`, `teFlush_full`. -/
theorem flushWritesTheGroup : Obligations.FlushWritesTheGroup := by
  unfold Obligations.FlushWritesTheGroup
  refine fun s => ⟨fun h0 => runOp_of_ok (teFlush_empty s h0), fun h hroom => ?_, fun h hfull => ?_⟩
  · obtain ⟨m, hm, hflag, hstaged, hkept⟩ := teFlush_ok s h hroom
    exact ⟨_, runOp_of_ok hm, rfl, rfl, hflag, hstaged, hkept⟩
  · obtain ⟨t, ht, hframe, hkept⟩ := teFlush_full s h hfull
    refine ⟨_, runOp_of_err ht, ?_, hkept⟩
    rw [hframe]
    exact tookError_takeError (s.setTb t.tb) _

/-- A step of engine `k` writes the next state of that engine. -/
theorem platformStep_of_next {p : Platform} {k : Nat} {s t : State} (hs : p[k]? = some s) (ht : step s = .next t) :
    platformStep p k = p.set k t := by
  simp only [platformStep, hs, ht]

/-- All a step of a platform can do: nothing, or write the state of one engine. -/
theorem platformStep_cases (p : Platform) (k : Nat) : platformStep p k = p ∨ ∃ t, platformStep p k = p.set k t := by
  unfold platformStep
  split
  · exact .inl rfl
  · split
    · exact .inr ⟨_, rfl⟩
    · exact .inl rfl
    · exact .inl rfl

/-- Settles O60, by `platformStep_cases` and `platformStep_of_next`. -/
theorem enginesShareNothing : Obligations.EnginesShareNothing := by
  unfold Obligations.EnginesShareNothing
  refine fun p k => ⟨?_, fun j hj => ?_, fun s t hs ht => ?_⟩
  · rcases platformStep_cases p k with h | ⟨t, h⟩ <;> simp [h]
  · rcases platformStep_cases p k with h | ⟨t, h⟩
    · rw [h]
    · rw [h, List.getElem?_set_ne hj.symm]
  · have hk : k < p.length := (List.getElem?_eq_some_iff.1 hs).1
    rw [platformStep_of_next hs ht, List.getElem?_set_self hk]

end Sys2Proof.Machine

/-! Encodings (R70 to R93): which bits stand for an element at a position, and that the decoder reads exactly those. -/

namespace Sys2Proof.Machine

-- Bits and numbers -----------------------------------------------------------------------------------------------------

/-- A string is the bits of the number it spells. -/
theorem natBits_bitsNat (bs : Bits) : natBits bs.length (bitsNat bs) = bs := by
  induction bs using List.reverseRecOn with
  | nil => rfl
  | append_singleton bs b ih =>
    have hv : bitsNat (bs ++ [b]) = 2 * bitsNat bs + b.toNat := by
      rw [bitsNat_append, List.length_singleton, pow_one, Nat.mul_comm]
      simp [bitsNat, bitsNatFrom]
    have hdiv : (2 * bitsNat bs + b.toNat) / 2 = bitsNat bs := by cases b <;> simp; omega
    have hbit : (2 * bitsNat bs + b.toNat).testBit 0 = b := by cases b <;> simp [Nat.testBit_zero]
    rw [List.length_append, List.length_singleton, natBits_concat, hv, hdiv, hbit, ih]

theorem bitsNat_lt (bs : Bits) : bitsNat bs < 2 ^ bs.length := by
  rw [← natBits_bitsNat bs, bitsNat_natBits, natBits_length]
  exact Nat.mod_lt _ (Nat.two_pow_pos _)

/-- The bits of a word whose number a string of its width spells are that string. -/
theorem natBits_ofNat_bitsNat {n : Nat} {bs : Bits} (h : bs.length = n) :
    natBits n (BitVec.ofNat n (bitsNat bs)).toNat = bs := by
  subst h
  rw [BitVec.toNat_ofNat, Nat.mod_eq_of_lt (bitsNat_lt bs), natBits_bitsNat]

theorem byteBits_ofNat_bitsNat {bs : Bits} (h : bs.length = 8) : byteBits (BitVec.ofNat 8 (bitsNat bs)) = bs :=
  natBits_ofNat_bitsNat h

@[simp] theorem ofNat_bitsNat_natBits {n : Nat} (v : BitVec n) : BitVec.ofNat n (bitsNat (natBits n v.toNat)) = v := by
  rw [bitsNat_natBits, Nat.mod_eq_of_lt v.isLt, BitVec.ofNat_toNat, BitVec.setWidth_eq]

/-- The number the 16 bits of a Match spell: its offset field above its length field (R78). -/
theorem bitsNat_matchBits (o : BitVec 12) (l : BitVec 4) :
    bitsNat (natBits 12 o.toNat ++ natBits 4 l.toNat) = o.toNat * 16 + l.toNat := by
  rw [bitsNat_append, bitsNat_natBits, bitsNat_natBits, natBits_length, Nat.mod_eq_of_lt o.isLt, Nat.mod_eq_of_lt l.isLt]
  rfl

/-- The fields of the number 16 bits spell, written out again, are those bits. -/
theorem matchBits_of_bitsNat {bs : Bits} (h : bs.length = 16) :
    natBits 12 (BitVec.ofNat 12 (bitsNat bs / 16)).toNat ++ natBits 4 (BitVec.ofNat 4 (bitsNat bs)).toNat = bs := by
  have hlt := bitsNat_lt bs
  have hsum := bitsNat_matchBits (BitVec.ofNat 12 (bitsNat bs / 16)) (BitVec.ofNat 4 (bitsNat bs))
  rw [h] at hlt
  have hval : (BitVec.ofNat 12 (bitsNat bs / 16)).toNat * 16 + (BitVec.ofNat 4 (bitsNat bs)).toNat = bitsNat bs := by
    simp only [BitVec.toNat_ofNat]
    omega
  rw [hval] at hsum
  rw [← natBits_bitsNat (natBits 12 _ ++ natBits 4 _), hsum, List.length_append, natBits_length, natBits_length]
  exact (congrArg (natBits · (bitsNat bs)) h.symm).trans (natBits_bitsNat bs)

-- What the decoder's readers take --------------------------------------------------------------------------------------

theorem takeBits_append (xs ys : Bits) : takeBits xs.length (xs ++ ys) = some (xs, ys) := by
  simp [takeBits_eq]

theorem takeBits_eq_some {n : Nat} {bs pre rest : Bits} (h : takeBits n bs = some (pre, rest)) :
    bs = pre ++ rest ∧ pre.length = n := by
  rw [takeBits_eq] at h
  split at h
  · next hn =>
    cases h
    exact ⟨(List.take_append_drop n bs).symm, List.length_take_of_le hn⟩
  · cases h

/-- An element of a fixed width, with any bits after it. -/
theorem fixedWidth_append {n : Nat} {f : Nat → Except Reject Instr} {pre : Bits} {i : Instr} (hn : pre.length = n)
    (hf : f (bitsNat pre) = .ok i) (rest : Bits) : fixedWidth n f (pre ++ rest) = .ok (i, rest) := by
  subst hn
  simp only [fixedWidth, takeBits_append, hf]

/-- What an element of a fixed width was read from. -/
theorem fixedWidth_consumes {n : Nat} {f : Nat → Except Reject Instr} {bs rest : Bits} {i : Instr}
    (h : fixedWidth n f bs = .ok (i, rest)) : ∃ pre, bs = pre ++ rest ∧ pre.length = n ∧ f (bitsNat pre) = .ok i := by
  unfold fixedWidth at h
  cases htake : takeBits n bs with
  | none => rw [htake] at h; cases h
  | some x =>
    obtain ⟨pre, rest'⟩ := x
    obtain ⟨hbs, hlen⟩ := takeBits_eq_some htake
    rw [htake] at h
    cases hf : f (bitsNat pre) with
    | error e => simp only [hf] at h; cases h
    | ok j =>
      simp only [hf] at h
      cases h
      exact ⟨pre, hbs, hlen, hf⟩

theorem codePath_leaf (v : Byte) (bs : Bits) : codePath (.leaf v) bs = some ([], bs) := by cases bs <;> rfl

theorem codePath_append {t : Tree} {bs path rest : Bits} (h : codePath t bs = some (path, rest)) (more : Bits) :
    codePath t (bs ++ more) = some (path, rest ++ more) := by
  induction bs generalizing t path with
  | nil =>
    cases t with
    | leaf v => cases h; exact codePath_leaf v _
    | node l r => cases h
  | cons b bs ih =>
    cases t with
    | leaf v => cases h; rfl
    | node l r =>
      rw [codePath_node, Option.map_eq_some_iff] at h
      obtain ⟨⟨p, q⟩, hp, hpq⟩ := h
      cases hpq
      rw [List.cons_append, codePath_node, ih hp]
      rfl

theorem codewordBits_append {t : Tree} {bs path rest : Bits} (h : codewordBits t bs = some (path, rest)) (more : Bits) :
    codewordBits t (bs ++ more) = some (path, rest ++ more) := by
  cases t with
  | node l r => exact codePath_append h more
  | leaf v =>
    obtain ⟨rfl, hlen⟩ := takeBits_eq_some h
    show takeBits 1 _ = _
    rw [List.append_assoc, ← hlen, takeBits_append]

/-- A path is read from its own bits alone (R93). -/
theorem codePath_consumes {t : Tree} {bs path rest : Bits} (h : codePath t bs = some (path, rest)) :
    bs = path ++ rest ∧ codePath t path = some (path, []) := by
  induction bs generalizing t path with
  | nil =>
    cases t with
    | leaf v => cases h; exact ⟨rfl, rfl⟩
    | node l r => cases h
  | cons b bs ih =>
    cases t with
    | leaf v => cases h; exact ⟨rfl, rfl⟩
    | node l r =>
      rw [codePath_node, Option.map_eq_some_iff] at h
      obtain ⟨⟨p, q⟩, hp, hpq⟩ := h
      cases hpq
      obtain ⟨hbs, hself⟩ := ih hp
      exact ⟨congrArg (b :: ·) hbs, by rw [codePath_node, hself]; rfl⟩

theorem codewordBits_consumes {t : Tree} {bs path rest : Bits} (h : codewordBits t bs = some (path, rest)) :
    bs = path ++ rest ∧ codewordBits t path = some (path, []) := by
  cases t with
  | node l r => exact codePath_consumes h
  | leaf v =>
    obtain ⟨hbs, hlen⟩ := takeBits_eq_some h
    refine ⟨hbs, ?_⟩
    have := takeBits_append path []
    rwa [hlen, List.append_nil] at this

-- Elements at their positions ------------------------------------------------------------------------------------------

/-- At position `sl` the bits `e` are the encoding of the element `i`: the rows of R70 that have an encoding. -/
inductive EncodesAt : Slot → Instr → Bits → Prop
  | compress : EncodesAt .cmd .compress (natBits 8 0x01)
  | decompress : EncodesAt .cmd .decompress (natBits 8 0x02)
  | flag (v : Byte) : EncodesAt .flag (.flag v) (byteBits v)
  | literal (v : Byte) : EncodesAt (.token true) (.literal v) (byteBits v)
  | matchTok (o : BitVec 12) (l : BitVec 4) :
      EncodesAt (.token false) (.matchTok o l) (natBits 12 o.toNat ++ natBits 4 l.toNat)
  | nodeInternal : EncodesAt .node .nodeInternal [false]
  | nodeLeaf (v : Byte) : EncodesAt .node (.nodeLeaf v) (true :: byteBits v)
  | codeword {t : Tree} {path : Bits} (h : codewordBits t path = some (path, [])) :
      EncodesAt (.codeword t) (.codeword path) path
  | magic : EncodesAt .magic .magic (byteBits Config.magic0 ++ byteBits Config.magic1)
  | tokenLen (n : BitVec 32) : EncodesAt .tokenLen (.tokenLen n) (natBits 32 n.toNat)
  | treeBitLen (n : BitVec 32) : EncodesAt .treeBitLen (.treeBitLen n) (natBits 32 n.toNat)
  | treeBits (bits : Bits) : EncodesAt (.treeBits bits.length) (.treeBits bits) (padded bits)
  | payload (bits : Bits) : EncodesAt .payload (.payloadBits bits) (padded bits)

theorem encodesAt_of_fits {sl : Slot} {i : Instr} {e : Bits} (hs : slotFits sl i = true) (he : encode i = some e) :
    EncodesAt sl i e := by
  cases sl with
  | cmd =>
    cases i with
    | compress => cases he; exact .compress
    | decompress => cases he; exact .decompress
    | _ => cases hs
  | flag =>
    cases i with
    | flag v => cases he; exact .flag v
    | _ => cases hs
  | token isLiteral =>
    cases isLiteral with
    | true =>
      cases i with
      | literal v => cases he; exact .literal v
      | _ => cases hs
    | false =>
      cases i with
      | matchTok o l => cases he; exact .matchTok o l
      | _ => cases hs
  | node =>
    cases i with
    | nodeInternal => cases he; exact .nodeInternal
    | nodeLeaf v => cases he; exact .nodeLeaf v
    | _ => cases hs
  | codeword t =>
    cases i with
    | codeword path => cases he; exact .codeword ((Laws.slotFits_codeword t _).1 hs)
    | _ => cases hs
  | magic =>
    cases i with
    | magic => cases he; exact .magic
    | _ => cases hs
  | tokenLen =>
    cases i with
    | tokenLen n => cases he; exact .tokenLen n
    | _ => cases hs
  | treeBitLen =>
    cases i with
    | treeBitLen n => cases he; exact .treeBitLen n
    | _ => cases hs
  | treeBits n =>
    cases i with
    | treeBits bits => cases he; cases (Laws.slotFits_treeBits n bits).1 hs; exact .treeBits bits
    | _ => cases hs
  | payload =>
    cases i with
    | payloadBits bits => cases he; exact .payload bits
    | _ => cases hs

theorem EncodesAt.fits {sl : Slot} {i : Instr} {e : Bits} (h : EncodesAt sl i e) :
    slotFits sl i = true ∧ encode i = some e := by
  cases h with
  | codeword h => exact ⟨(Laws.slotFits_codeword _ _).2 h, rfl⟩
  | treeBits bits => exact ⟨(Laws.slotFits_treeBits _ _).2 rfl, rfl⟩
  | _ => exact ⟨rfl, rfl⟩

theorem padded_length (bs : Bits) : (padded bs).length = bs.length + padCount bs.length := by
  simp [padded]

/-- A string of whole bytes needs no pad bits (R90). -/
theorem padded_eq_self {bs : Bits} (h : bs.length % 8 = 0) : padded bs = bs := by
  have : padCount bs.length = 0 := by unfold padCount ceil8; omega
  simp [padded, this]

/-- The decoder reads an element back from its encoding and leaves what follows (R93). -/
theorem EncodesAt.decode_append {sl : Slot} {i : Instr} {e : Bits} (h : EncodesAt sl i e) (hsl : sl ≠ .payload)
    (rest : Bits) : decode sl (e ++ rest) = .ok (i, rest) := by
  cases h with
  | compress => rw [decode]; exact fixedWidth_append (natBits_length 8 1) rfl rest
  | decompress => rw [decode]; exact fixedWidth_append (natBits_length 8 2) rfl rest
  | flag v => rw [decode]; exact fixedWidth_append (byteBits_length v) (by simp) rest
  | literal v => rw [decode]; exact fixedWidth_append (byteBits_length v) (by simp) rest
  | matchTok o l =>
    have ho : BitVec.ofNat 12 ((o.toNat * 16 + l.toNat) / 16) = o := by bv_omega
    have hl : BitVec.ofNat 4 (o.toNat * 16 + l.toNat) = l := by bv_omega
    rw [decode]
    exact fixedWidth_append (by simp [natBits_length]) (by rw [bitsNat_matchBits, ho, hl]) rest
  | nodeInternal => rfl
  | nodeLeaf v => rw [List.cons_append, decode]; exact fixedWidth_append (byteBits_length v) (by simp) rest
  | codeword h => simp only [decode, codewordBits_append h, List.nil_append]
  | magic => rw [decode]; exact fixedWidth_append (n := 16) rfl rfl rest
  | tokenLen n => rw [decode]; exact fixedWidth_append (natBits_length _ _) (by simp) rest
  | treeBitLen n => rw [decode]; exact fixedWidth_append (natBits_length _ _) (by simp) rest
  | treeBits bits =>
    have hpad := takeBits_append (List.replicate (padCount bits.length) false) rest
    rw [List.length_replicate] at hpad
    simp only [decode, padded, List.append_assoc, takeBits_append, hpad]
  | payload bits => exact absurd rfl hsl

/-- Settles O1: an element of any position but the payload is read back by `EncodesAt.decode_append`; a payload field is whole
bytes, so it has no pad bits. -/
theorem encodedElementsDecodeBack : Obligations.EncodedElementsDecodeBack := by
  unfold Obligations.EncodedElementsDecodeBack
  intro i sl e hwf hs he
  have h := encodesAt_of_fits hs he
  refine ⟨?_, h.decode_append⟩
  by_cases hsl : sl = .payload
  · subst hsl
    cases h with
    | payload bits =>
      have hlen : bits.length % 8 = 0 := beq_iff_eq.1 hwf
      simp only [padded_eq_self hlen, decode, if_pos hlen]
  · simpa using h.decode_append hsl []

/-- An element of a fixed width is read from its encoding if its reader inverts the encoding. -/
theorem encodesAt_of_fixedWidth {sl : Slot} {n : Nat} {f : Nat → Except Reject Instr} {bs rest : Bits} {i : Instr}
    (hf : ∀ e j, e.length = n → f (bitsNat e) = .ok j → EncodesAt sl j e) (h : fixedWidth n f bs = .ok (i, rest)) :
    ∃ e, bs = e ++ rest ∧ EncodesAt sl i e := by
  obtain ⟨e, hbs, hlen, hi⟩ := fixedWidth_consumes h
  exact ⟨e, hbs, hf e i hlen hi⟩

theorem encodesAt_cmd {e : Bits} {j : Instr} (hlen : e.length = 8) (h : decodeCmd (bitsNat e) = .ok j) :
    EncodesAt .cmd j e := by
  rw [← natBits_bitsNat e, hlen]
  unfold decodeCmd at h
  split at h
  · next hv => cases h; rw [hv]; exact .compress
  · split at h
    · next hv => cases h; rw [hv]; exact .decompress
    · cases h

theorem encodesAt_magic {e : Bits} {j : Instr} (hlen : e.length = 16)
    (h : (if bitsNat e = Config.magicWord then .ok .magic else .error .badMagic : Except Reject Instr) = .ok j) :
    EncodesAt .magic j e := by
  split at h
  · next hv => cases h; rw [← natBits_bitsNat e, hlen, hv]; exact .magic
  · cases h

/-- What the decoder reads, but for a tree field, it reads from the encoding of an element of its position. -/
theorem encodesAt_of_decode {sl : Slot} {bs rest : Bits} {i : Instr} (hsl : ∀ n, sl ≠ .treeBits n)
    (h : decode sl bs = .ok (i, rest)) : ∃ e, bs = e ++ rest ∧ EncodesAt sl i e := by
  cases sl with
  | cmd => exact encodesAt_of_fixedWidth (fun _ _ => encodesAt_cmd) h
  | flag =>
    rw [decode] at h
    refine encodesAt_of_fixedWidth (fun e j hlen hj => ?_) h
    cases hj
    simpa only [byteBits_ofNat_bitsNat hlen] using EncodesAt.flag (BitVec.ofNat 8 (bitsNat e))
  | token isLiteral =>
    cases isLiteral with
    | true =>
      rw [decode] at h
      refine encodesAt_of_fixedWidth (fun e j hlen hj => ?_) h
      cases hj
      simpa only [byteBits_ofNat_bitsNat hlen] using EncodesAt.literal (BitVec.ofNat 8 (bitsNat e))
    | false =>
      rw [decode] at h
      refine encodesAt_of_fixedWidth (fun e j hlen hj => ?_) h
      cases hj
      simpa only [matchBits_of_bitsNat hlen] using
        EncodesAt.matchTok (BitVec.ofNat 12 (bitsNat e / 16)) (BitVec.ofNat 4 (bitsNat e))
  | node =>
    cases bs with
    | nil => cases h
    | cons marker bs =>
      cases marker with
      | false => cases h; exact ⟨[false], rfl, .nodeInternal⟩
      | true =>
        rw [decode] at h
        obtain ⟨e, rfl, hlen, hi⟩ := fixedWidth_consumes h
        cases hi
        exact ⟨true :: e, rfl, by
          simpa only [byteBits_ofNat_bitsNat hlen] using EncodesAt.nodeLeaf (BitVec.ofNat 8 (bitsNat e))⟩
  | codeword t =>
    rw [decode] at h
    split at h
    · next path rest' hpath =>
      cases h
      obtain ⟨hbs, hself⟩ := codewordBits_consumes hpath
      exact ⟨path, hbs, .codeword hself⟩
    · cases h
  | magic => rw [decode] at h; exact encodesAt_of_fixedWidth (fun _ _ => encodesAt_magic) h
  | tokenLen =>
    rw [decode] at h
    refine encodesAt_of_fixedWidth (fun e j hlen hj => ?_) h
    cases hj
    simpa only [natBits_ofNat_bitsNat hlen] using EncodesAt.tokenLen (BitVec.ofNat 32 (bitsNat e))
  | treeBitLen =>
    rw [decode] at h
    refine encodesAt_of_fixedWidth (fun e j hlen hj => ?_) h
    cases hj
    simpa only [natBits_ofNat_bitsNat hlen] using EncodesAt.treeBitLen (BitVec.ofNat 32 (bitsNat e))
  | treeBits n => exact absurd rfl (hsl n)
  | payload =>
    rw [decode] at h
    split at h
    · next hlen =>
      cases h
      exact ⟨bs, (List.append_nil bs).symm, by simpa only [padded_eq_self hlen] using EncodesAt.payload bs⟩
    · cases h

/-- A tree field is read from its bits and as many pad bits as its encoding has, whatever they are (R89). -/
theorem treeBits_of_decode {n : Nat} {bs rest : Bits} {i : Instr} (h : decode (.treeBits n) bs = .ok (i, rest)) :
    ∃ tree pad, bs = tree ++ pad ++ rest ∧ i = .treeBits tree ∧ tree.length = n ∧ pad.length = padCount n := by
  rw [decode] at h
  split at h
  · cases h
  · next tree mid htree =>
    split at h
    · cases h
    · next pad rest' hpad =>
      cases h
      obtain ⟨rfl, hn⟩ := takeBits_eq_some htree
      obtain ⟨rfl, hp⟩ := takeBits_eq_some hpad
      exact ⟨tree, pad, (List.append_assoc _ _ _).symm, rfl, hn, hp⟩

/-- Settles O2: `treeBits_of_decode` for a tree field, `encodesAt_of_decode` for every other position. -/
theorem decodedElementsEncodeBack : Obligations.DecodedElementsEncodeBack := by
  unfold Obligations.DecodedElementsEncodeBack
  intro sl bs rest i h
  by_cases hsl : ∃ n, sl = .treeBits n
  · obtain ⟨n, rfl⟩ := hsl
    obtain ⟨tree, pad, hbs, rfl, rfl, hpad⟩ := treeBits_of_decode h
    refine ⟨(Laws.slotFits_treeBits _ _).2 rfl, tree ++ pad, padded tree, hbs, rfl, ?_, fun hn => absurd rfl (hn _),
      fun n hn => ?_⟩
    · rw [padded_length, List.length_append, hpad]
    · cases hn
      rw [padded, List.take_left, List.take_left]
  · have hsl' : ∀ n, sl ≠ .treeBits n := fun n hn => hsl ⟨n, hn⟩
    obtain ⟨e, hbs, he⟩ := encodesAt_of_decode hsl' h
    exact ⟨he.fits.1, e, e, hbs, he.fits.2, rfl, fun _ => rfl, fun _ _ => rfl⟩

-- The words of the spec ------------------------------------------------------------------------------------------------

/-- A command code is read as R73 and R74 say. -/
theorem decode_cmd_byte (c : Byte) : decode .cmd (byteBits c) =
    if c = 0x01 then .ok (.compress, []) else if c = 0x02 then .ok (.decompress, []) else .error .reservedCommand := by
  have hval (n : Byte) : c.toNat = n.toNat ↔ c = n := BitVec.toNat_inj
  have h1 : c.toNat = 0x01 ↔ c = 0x01 := hval 0x01
  have h2 : c.toNat = 0x02 ↔ c = 0x02 := hval 0x02
  rw [decode, fixedWidth_exact _ (byteBits_length c), bitsNat_byteBits, decodeCmd]
  simp only [h1, h2]
  split
  · rfl
  · split <;> rfl

/-- Settles O3: the command codes by `decode_cmd_byte`, each other word by reading it. -/
theorem specWordsDecode : Obligations.SpecWordsDecode :=
  ⟨decode_cmd_byte, rfl, rfl, rfl, rfl, rfl, rfl, rfl, rfl, rfl⟩

-- Fields of a Match ----------------------------------------------------------------------------------------------------

theorem fieldOffset_offsetField {offset : Nat} (h1 : 1 ≤ offset) (h2 : offset ≤ 4096) :
    fieldOffset (offsetField offset) = offset := by
  have hval : (offsetField offset).toNat = offset % 4096 := BitVec.toNat_ofNat _ _
  have hzero : offsetField offset = 0 ↔ offset = 4096 := by
    rw [← BitVec.toNat_inj, hval]
    show offset % 4096 = 0 ↔ _
    omega
  unfold fieldOffset
  split
  · next h => exact (hzero.1 h).symm
  · next h => rw [hzero] at h; omega

theorem offsetField_fieldOffset (o : BitVec 12) : offsetField (fieldOffset o) = o := by
  unfold fieldOffset
  split
  · next h => rw [h]; rfl
  · show BitVec.ofNat 12 o.toNat = o
    rw [BitVec.ofNat_toNat, BitVec.setWidth_eq]

theorem fieldLength_lengthField {length : Nat} (h1 : 3 ≤ length) (h2 : length ≤ 18) :
    (lengthField length).toNat = length - 3 ∧ fieldLength (lengthField length) = length := by
  have hval : (lengthField length).toNat = length - 3 := by
    show (BitVec.ofNat 4 (length - 3)).toNat = _
    rw [BitVec.toNat_ofNat]
    omega
  refine ⟨hval, ?_⟩
  show (lengthField length).toNat + 3 = _
  omega

theorem lengthField_fieldLength (l : BitVec 4) : lengthField (fieldLength l) = l := by
  show BitVec.ofNat 4 (l.toNat + 3 - 3) = l
  rw [Nat.add_sub_cancel, BitVec.ofNat_toNat, BitVec.setWidth_eq]

/-- The two bytes of a Match as numbers: `o[11:4]`, and `o[3:0]` above `l` (R78). -/
theorem matchBytes_toNat (o : BitVec 12) (l : BitVec 4) :
    (matchByte0 o).toNat = o.toNat / 16 ∧ (matchByte1 o l).toNat = o.toNat % 16 * 16 + l.toNat := by
  constructor
  · rw [matchByte0, BitVec.extractLsb'_toNat, Nat.shiftRight_eq_div_pow]
    omega
  · rw [matchByte1, BitVec.toNat_append, BitVec.extractLsb'_toNat, Nat.shiftRight_zero,
      ← Nat.shiftLeft_add_eq_or_of_lt l.isLt, Nat.shiftLeft_eq]

/-- The two bytes of a Match give its fields back: their number is that of the fields (`matchFields`). -/
theorem fields_matchBytes (o : BitVec 12) (l : BitVec 4) :
    bytesOffsetField (matchByte0 o) (matchByte1 o l) = o ∧ byteLengthField (matchByte1 o l) = l := by
  obtain ⟨h0, h1⟩ := matchBytes_toNat o l
  obtain ⟨ho, hl⟩ := matchFields (matchByte0 o) (matchByte1 o l)
  rw [h0, h1] at ho hl
  refine ⟨ho.symm.trans ?_, hl.symm.trans ?_⟩
  · bv_omega
  · bv_omega

/-- Settles O5, field by field. -/
theorem matchFieldsRoundTrip : Obligations.MatchFieldsRoundTrip :=
  ⟨fun _ h1 h2 => ⟨BitVec.toNat_ofNat _ _, fieldOffset_offsetField h1 h2⟩,
    fun o => ⟨rfl, offsetField_fieldOffset o⟩, fun _ => fieldLength_lengthField, fun l => ⟨rfl, lengthField_fieldLength l⟩,
    fields_matchBytes⟩

-- Serialized trees -----------------------------------------------------------------------------------------------------

/-- A serialized tree is read back and what follows it is left (R83, R93). -/
theorem parseTree_ser (tr : Tree) (rest : Bits) {fuel : Nat} (hfuel : treeLeaves tr ≤ fuel) :
    parseTree fuel (Tree.ser tr ++ rest) = some (tr, rest) := by
  induction tr generalizing fuel rest with
  | leaf v =>
    obtain ⟨n, rfl⟩ : ∃ n, fuel = n + 1 := ⟨fuel - 1, by simp only [treeLeaves] at hfuel; omega⟩
    have htake := takeBits_append (byteBits v) rest
    rw [byteBits_length] at htake
    simp [Tree.ser, parseTree, htake]
  | node l r ihl ihr =>
    have hl := treeLeaves_pos l
    have hr := treeLeaves_pos r
    simp only [treeLeaves] at hfuel
    obtain ⟨n, rfl⟩ : ∃ n, fuel = n + 1 := ⟨fuel - 1, by omega⟩
    simp only [Tree.ser, List.cons_append, List.append_assoc, parseTree, ihl _ (show treeLeaves l ≤ n by omega),
      ihr _ (show treeLeaves r ≤ n by omega)]

theorem ser_length_eq (tr : Tree) : (Tree.ser tr).length = 10 * treeLeaves tr - 1 := by
  have := ser_length tr
  omega

/-- Settles O4. -/
theorem serializedTreesDelimitThemselves : Obligations.SerializedTreesDelimitThemselves :=
  fun tr rest _ hfuel => ⟨parseTree_ser tr rest hfuel, ser_length_eq tr⟩

/-- Settles O45: the tree of the store is the one serialised (`shape_of_isTree`). -/
theorem serialisationIsThePreOrderString : Obligations.SerialisationIsThePreOrderString := by
  unfold Obligations.SerialisationIsThePreOrderString
  intro s o ho
  have hser := hfSerTree_apply s
  rw [shape_of_isTree ho] at hser
  refine ⟨_, runRes_of_ok hser, rfl, ?_, ?_, ?_, ?_⟩
  · rintro rfl; rfl
  · rintro v rfl; rfl
  · rintro l r rfl; rfl
  · rintro tr rfl; exact ser_length_eq tr

end Sys2Proof.Machine

/-! The token encoder (R75 to R81, R141 to R147): what a token adds to the group, and what a whole sequence leaves in
`TB`. -/

namespace Sys2Proof.Machine

-- The group ------------------------------------------------------------------------------------------------------------

/-- The token encoder after a token is staged, its flag bit set and the token counted (R142, R143). -/
def TokenEncoder.put (e : TokenEncoder) : Token → TokenEncoder
  | .lit b => { TokenEncoder.stage { e with flg := e.flg ||| 1 <<< e.gc } b with gc := e.gc + 1 }
  | .mat o l => { (e.stage (matchByte0 (offsetField o))).stage (matchByte1 (offsetField o) (lengthField l)) with
      gc := e.gc + 1 }

theorem tePutToken_apply (t : Token) (s : State) : tePutToken t s =
    if s.enc.gc = 7 then teFlush (s.setEnc (s.enc.put t)) else .ok () (s.setEnc (s.enc.put t)) := by
  cases t with
  | lit b => exact teCount_apply _
  | mat o l => exact teCount_apply _

@[simp] theorem put_gc (e : TokenEncoder) (t : Token) : (e.put t).gc = e.gc + 1 := by cases t <;> rfl

@[simp] theorem put_gplen (e : TokenEncoder) (t : Token) : (e.put t).gplen = e.gplen + (tokenBytes t).length := by
  cases t <;> rfl

/-- A Literal sets its flag bit, a Match leaves it 0 (R76). -/
theorem put_flg (e : TokenEncoder) (t : Token) : (e.put t).flg = e.flg ||| flagByte e.gc [t] := by
  cases t <;> simp [TokenEncoder.put, TokenEncoder.stage, flagByte]

theorem staged_put_lit (e : TokenEncoder) (b : Byte) (j : Nat) :
    (e.put (.lit b)).staged j = if j = e.gplen then b else e.staged j :=
  staged_stage { e with flg := e.flg ||| 1 <<< e.gc } b j

theorem staged_put_mat (e : TokenEncoder) (o l j : Nat) : (e.put (.mat o l)).staged j =
    if j = e.gplen + 1 then matchByte1 (offsetField o) (lengthField l)
    else if j = e.gplen then matchByte0 (offsetField o) else e.staged j := by
  rw [← staged_stage e]
  exact staged_stage (e.stage (matchByte0 (offsetField o))) _ j

/-- The staged bytes of the group, in order. -/
def TokenEncoder.group (e : TokenEncoder) : List Byte := bytesFrom e.staged 0 e.gplen

theorem group_put (e : TokenEncoder) (t : Token) : (e.put t).group = e.group ++ tokenBytes t := by
  have hold : bytesFrom (e.put t).staged 0 e.gplen = e.group := by
    refine bytesFrom_congr fun j _ hj => ?_
    cases t with
    | lit b => rw [staged_put_lit, if_neg (by omega)]
    | mat o l => rw [staged_put_mat, if_neg (by omega), if_neg (by omega)]
  rw [TokenEncoder.group, put_gplen, bytesFrom_add, hold, Nat.zero_add]
  cases t with
  | lit b => simp [tokenBytes, bytesFrom, staged_put_lit]
  | mat o l => simp [tokenBytes, bytesFrom, staged_put_mat]

-- A flush --------------------------------------------------------------------------------------------------------------

theorem bytesFrom_shift {f g : Nat → Byte} {a b n : Nat} (h : ∀ j, j < n → f (a + j) = g (b + j)) :
    bytesFrom f a n = bytesFrom g b n := by
  induction n generalizing a b with
  | zero => rfl
  | succ n ih =>
    rw [bytesFrom, bytesFrom, show f a = g b from h 0 (Nat.succ_pos n)]
    refine congrArg (g b :: ·) (ih fun j hj => ?_)
    rw [Nat.add_assoc, Nat.add_assoc, Nat.add_comm 1 j]
    exact h (j + 1) (by omega)

/-- A flush with room appends the flag byte and the staged bytes to the stream and starts a new group (R146). -/
theorem teFlush_appends {s : State} (h : 0 < s.enc.gc) (hroom : s.tb.len + 1 + s.enc.gplen ≤ s.tCap) :
    ∃ t, teFlush s = .ok () t ∧ t = (s.setTb t.tb).setEnc { s.enc with flg := 0, gc := 0, gplen := 0 } ∧
      t.tb.len = s.tb.len + 1 + s.enc.gplen ∧ t.stream = s.stream ++ s.enc.flg :: s.enc.group := by
  obtain ⟨m, hm, hflag, hstaged, hkept⟩ := teFlush_ok s h hroom
  refine ⟨_, hm, rfl, rfl, ?_⟩
  show bytesFrom (readByte s.env.epoch .tb m) 0 (s.tb.len + 1 + s.enc.gplen) = _
  have hold : bytesFrom (readByte s.env.epoch .tb m) 0 s.tb.len = s.stream :=
    bytesFrom_congr fun a _ ha => hkept a (.inl (by omega))
  have hnew : bytesFrom (readByte s.env.epoch .tb m) (s.tb.len + 1) s.enc.gplen = s.enc.group :=
    bytesFrom_shift fun j hj => by rw [Nat.zero_add]; exact hstaged j hj
  rw [bytesFrom_add, bytesFrom_add, hold, Nat.zero_add, Nat.zero_add, hnew, List.append_assoc]
  simp only [bytesFrom, hflag, List.singleton_append]

-- One token ------------------------------------------------------------------------------------------------------------

/-- What an operation answers depends on where it ends or stops alone. -/
theorem runOp_eq_runOp {x y : Op Unit} {s t : State} (h : x s = y t) : runOp x s = runOp y t := by
  unfold runOp
  rw [h]

/-- The operation that encodes a token puts it (R129). -/
theorem exec_putToken (t : Token) (s : State) : exec (putToken t) s = runOp (tePutToken t) s := by cases t <;> rfl

/-- What putting a token does: the token joins the group, and a full group is flushed (R142, R143). -/
theorem runOp_tePutToken (t : Token) (s : State) :
    (s.enc.gc ≠ 7 → runOp (tePutToken t) s = .next (s.setEnc (s.enc.put t))) ∧
    (s.enc.gc = 7 → runOp (tePutToken t) s = exec .teFlush (s.setEnc (s.enc.put t))) ∧
    (s.enc.gc = 7 → s.tb.len + s.enc.gplen + (tokenBytes t).length + 1 ≤ s.tCap → ∃ u, runOp (tePutToken t) s = .next u ∧
      u.tb.len = s.tb.len + s.enc.gplen + (tokenBytes t).length + 1 ∧ u.host = s.host) := by
  have hput := tePutToken_apply t s
  refine ⟨fun h => ?_, fun h => ?_, fun h hroom => ?_⟩
  · exact runOp_of_ok (hput.trans (if_neg h))
  · rw [if_pos h] at hput
    exact runOp_eq_runOp hput
  · rw [if_pos h] at hput
    obtain ⟨u, hu, hframe, hlen, -⟩ := teFlush_appends (s := s.setEnc (s.enc.put t)) (by simp) (by
      simp only [State.setEnc_fields, put_gplen]
      show _ ≤ s.tCap
      omega)
    refine ⟨u, runOp_of_ok (hput.trans hu), ?_, ?_⟩
    · rw [hlen]
      simp only [State.setEnc_fields, put_gplen]
      omega
    · rw [hframe]
      rfl

theorem getLsbD_one_shiftLeft {k : Nat} (hk : k < 8) (g : Nat) : ((1 : Byte) <<< g).getLsbD k = (k == g) := by
  show (BitVec.twoPow 8 g).getLsbD k = _
  rw [BitVec.getLsbD_twoPow, Bool.eq_iff_iff, Bool.and_eq_true, decide_eq_true_eq, decide_eq_true_eq, beq_iff_eq]
  omega

/-- Settles O34, by what putting a token does (`runOp_tePutToken`) and what a Literal stages. -/
theorem putLiteralStagesItsByte : Obligations.PutLiteralStagesItsByte := by
  unfold Obligations.PutLiteralStagesItsByte
  intro s b i _ hi
  have hexec : exec i s = runOp (tePutToken (.lit b)) s := by
    rcases hi with rfl | ⟨hw, rfl⟩
    · rfl
    · exact runOp_writeOrRead_writes hw _ _
  obtain ⟨hstay, hflush, hroom⟩ := runOp_tePutToken (.lit b) s
  refine ⟨s.setEnc (s.enc.put (.lit b)), rfl, rfl, rfl, fun k hk => ?_, ?_, fun j hj => ?_, ?_⟩
  · show (s.enc.flg ||| (1 : Byte) <<< s.enc.gc).getLsbD k = _
    rw [BitVec.getLsbD_or, getLsbD_one_shiftLeft hk]
  · show (s.enc.put (.lit b)).staged _ = _
    rw [staged_put_lit, if_pos rfl]
  · show (s.enc.put (.lit b)).staged _ = _
    rw [staged_put_lit, if_neg hj]
  · rw [hexec]
    exact ⟨hstay, hflush, hroom⟩

/-- Settles O35, by what putting a token does (`runOp_tePutToken`) and the two bytes a Match stages (`matchBytes_toNat`). -/
theorem putMatchStagesItsTwoBytes : Obligations.PutMatchStagesItsTwoBytes := by
  unfold Obligations.PutMatchStagesItsTwoBytes
  intro s offset length i _ ho1 ho2 hl1 hl2 hi
  have hexec : exec i s = runOp (tePutToken (.mat offset length)) s := by
    rcases hi with rfl | ⟨hw, rfl⟩
    · rfl
    · refine (runOp_writeOrRead_writes hw _ _).trans ?_
      have ho : fieldOffset (BitVec.ofNat 12 offset) = offset := fieldOffset_offsetField ho1 ho2
      have hl : fieldLength (BitVec.ofNat 4 (length - 3)) = length := (fieldLength_lengthField hl1 hl2).2
      rw [ho, hl]
      rfl
  obtain ⟨hstay, hflush, hroom⟩ := runOp_tePutToken (.mat offset length) s
  obtain ⟨h0, h1⟩ := matchBytes_toNat (offsetField offset) (lengthField length)
  have hoff : (offsetField offset).toNat = offset % 4096 := BitVec.toNat_ofNat _ _
  refine ⟨s.setEnc (s.enc.put (.mat offset length)), rfl, rfl, rfl, rfl, ?_, ?_, fun j hj hj1 => ?_, ?_⟩
  · show ((s.enc.put (.mat offset length)).staged _).toNat = _
    rw [staged_put_mat, if_neg (by omega), if_pos rfl, h0, hoff]
  · show ((s.enc.put (.mat offset length)).staged _).toNat = _
    rw [staged_put_mat, if_pos rfl, h1, hoff, (fieldLength_lengthField hl1 hl2).1]
    omega
  · show (s.enc.put (.mat offset length)).staged _ = _
    rw [staged_put_mat, if_neg hj1, if_neg hj]
  · rw [hexec]
    exact ⟨hstay, hflush, hroom⟩

-- The stream of a sequence ---------------------------------------------------------------------------------------------

/-- The groups of a token sequence as an induction: the empty sequence, and one whose first group is followed by the others. -/
theorem groups_induction {P : List Token → Prop} (nil : P []) (group : ∀ ts, ts ≠ [] → P (ts.drop 8) → P ts)
    (ts : List Token) : P ts := by
  induction hn : ts.length using Nat.strong_induction_on generalizing ts with
  | _ n ih =>
    by_cases h : ts = []
    · rw [h]; exact nil
    · have hpos := List.length_pos_iff.2 h
      exact group ts h (ih (ts.drop 8).length (by rw [List.length_drop]; omega) _ rfl)

theorem streamFrom_nil (fuel : Nat) : streamFrom fuel [] = [] := by cases fuel <;> rfl

/-- Any two numbers of rounds that are at least the number of tokens give the same stream. -/
theorem streamFrom_congr {ts : List Token} {m n : Nat} (hm : ts.length ≤ m) (hn : ts.length ≤ n) :
    streamFrom m ts = streamFrom n ts := by
  induction ts using groups_induction generalizing m n with
  | nil => rw [streamFrom_nil, streamFrom_nil]
  | group ts h ih =>
    obtain ⟨t, ts, rfl⟩ := List.exists_cons_of_ne_nil h
    obtain ⟨m, rfl⟩ : ∃ m', m = m' + 1 := ⟨m - 1, by simp at hm; omega⟩
    obtain ⟨n, rfl⟩ : ∃ n', n = n' + 1 := ⟨n - 1, by simp at hn; omega⟩
    simp only [List.length_cons] at hm hn
    exact congrArg (groupBytes ((t :: ts).take 8) ++ ·) (ih (by simp; omega) (by simp; omega))

/-- The stream of a sequence is its first group and then the stream of the others (R75). -/
theorem streamOf_group {ts : List Token} (h : ts ≠ []) :
    streamOf ts = groupBytes (ts.take 8) ++ streamOf (ts.drop 8) := by
  obtain ⟨t, ts, rfl⟩ := List.exists_cons_of_ne_nil h
  exact congrArg (groupBytes ((t :: ts).take 8) ++ ·) (streamFrom_congr (by simp) (Nat.le_refl _))

theorem streamOf_single {ts : List Token} (h : ts ≠ []) (hlen : ts.length ≤ 8) : streamOf ts = groupBytes ts := by
  rw [streamOf_group h, List.take_of_length_le hlen, List.drop_eq_nil_of_le hlen]
  exact List.append_nil _

/-- After complete groups a new group begins. -/
theorem streamOf_append {done : List Token} (h : done.length % 8 = 0) (ts : List Token) :
    streamOf (done ++ ts) = streamOf done ++ streamOf ts := by
  induction done using groups_induction with
  | nil => rfl
  | group done hne ih =>
    have hlen : 8 ≤ done.length := by have := List.length_pos_iff.2 hne; omega
    rw [streamOf_group hne, streamOf_group (by simp [hne]), List.take_append_of_le_length hlen,
      List.drop_append_of_le_length hlen, ih (by rw [List.length_drop]; omega), List.append_assoc]

/-- A token is one byte, or two if it is a Match (R77, R78). -/
theorem tokenBytes_length (ts : List Token) :
    (ts.flatMap tokenBytes).length = ts.length + ts.countP (fun t => (tokenBytes t).length == 2) := by
  induction ts with
  | nil => rfl
  | cons t ts ih =>
    rw [List.flatMap_cons, List.length_append, ih, List.countP_cons, List.length_cons]
    cases t <;> simp [tokenBytes] <;> omega

/-- The length of a stream: a flag byte for each group, and its tokens (R75). -/
theorem streamOf_length (ts : List Token) : (streamOf ts).length =
    (ts.length + 7) / 8 + ts.length + ts.countP (fun t => (tokenBytes t).length == 2) := by
  induction ts using groups_induction with
  | nil => rfl
  | group ts h ih =>
    have hpos := List.length_pos_iff.2 h
    have hcount := List.countP_append (p := fun t => (tokenBytes t).length == 2) (l₁ := ts.take 8) (l₂ := ts.drop 8)
    rw [List.take_append_drop] at hcount
    rw [streamOf_group h, List.length_append, ih, groupBytes, List.length_cons, tokenBytes_length, hcount,
      List.length_take, List.length_drop]
    omega

/-- The flag byte of a group with one more token (R76). -/
theorem flagByte_concat (i : Nat) (ts : List Token) (t : Token) :
    flagByte i (ts ++ [t]) = flagByte i ts ||| flagByte (i + ts.length) [t] := by
  induction ts generalizing i with
  | nil => exact (BitVec.zero_or).symm
  | cons u ts ih =>
    have h := ih (i + 1)
    rw [Nat.add_assoc, Nat.add_comm 1] at h
    cases u with
    | lit b => rw [List.cons_append, flagByte, h, flagByte, BitVec.or_assoc]; rfl
    | mat o l => exact h

-- A run of the encoder -------------------------------------------------------------------------------------------------

/-- `u` is `s` after the encoder was given the tokens of `done`, complete groups all of them, and then those of `group`. -/
structure State.Encoded (s u : State) (done group : List Token) : Prop where
  frame : u = (s.setTb u.tb).setEnc u.enc
  whole : done.length % 8 = 0
  gc : u.enc.gc = group.length
  flg : u.enc.flg = flagByte 0 group
  staged : u.enc.group = group.flatMap tokenBytes
  stream : u.stream = streamOf done

section Run

variable {s u : State} {done group : List Token}

theorem State.Encoded.tCap (h : s.Encoded u done group) : u.tCap = s.tCap := by rw [h.frame]; rfl

theorem State.Encoded.len (h : s.Encoded u done group) : u.tb.len = (streamOf done).length := by
  rw [← h.stream]
  exact (bytesFrom_length _ _ _).symm

theorem State.Encoded.gplen (h : s.Encoded u done group) : u.enc.gplen = (group.flatMap tokenBytes).length := by
  rw [← h.staged]
  exact (bytesFrom_length _ _ _).symm

theorem teInit_encoded (s : State) : ∃ u, exec .teInit s = .next u ∧ s.Encoded u [] [] :=
  ⟨_, runOp_of_ok (x := teInit) rfl, rfl, rfl, rfl, rfl, rfl, rfl⟩

/-- A token that joins the group. -/
theorem State.Encoded.put (h : s.Encoded u done group) (t : Token) :
    s.Encoded (u.setEnc (u.enc.put t)) done (group ++ [t]) where
  frame := by rw [h.frame]; rfl
  whole := h.whole
  gc := by simp [h.gc]
  flg := by
    show (u.enc.put t).flg = _
    rw [put_flg, h.flg, h.gc, flagByte_concat, Nat.zero_add]
  staged := by
    show (u.enc.put t).group = _
    rw [group_put, h.staged, List.flatMap_append]
    simp
  stream := h.stream

/-- A flush writes the group, if there is one. -/
theorem State.Encoded.flush (h : s.Encoded u done group) (hgroup : group.length ≤ 8)
    (hroom : (streamOf (done ++ group)).length ≤ s.tCap) :
    ∃ t, teFlush u = .ok () t ∧ t = (s.setTb t.tb).setEnc t.enc ∧ t.stream = streamOf (done ++ group) ∧
      (group ≠ [] → t.enc = { u.enc with flg := 0, gc := 0, gplen := 0 }) := by
  by_cases hne : group = []
  · subst hne
    exact ⟨u, teFlush_empty u h.gc, h.frame, by rw [List.append_nil, h.stream], fun hn => absurd rfl hn⟩
  · have hbytes : streamOf (done ++ group) = streamOf done ++ u.enc.flg :: u.enc.group := by
      rw [streamOf_append h.whole, streamOf_single hne hgroup, groupBytes, h.flg, h.staged]
    have hpos : 0 < u.enc.gc := h.gc ▸ List.length_pos_iff.2 hne
    rw [hbytes, List.length_append, List.length_cons, h.staged, ← h.gplen, ← h.len, ← h.tCap] at hroom
    obtain ⟨t, ht, hframe, -, hstream⟩ := teFlush_appends hpos (by omega)
    refine ⟨t, ht, ?_, by rw [hstream, hbytes, h.stream], fun _ => by rw [hframe]; rfl⟩
    rw [hframe, h.frame]
    rfl

/-- One token is given to the encoder: it joins the group, or completes it (R142, R143). -/
theorem State.Encoded.token (h : s.Encoded u done group) (hgroup : group.length < 8) (t : Token)
    (hroom : (streamOf (done ++ (group ++ [t]))).length ≤ s.tCap) :
    ∃ v done' group', exec (putToken t) u = .next v ∧ s.Encoded v done' group' ∧ group'.length < 8 ∧
      done' ++ group' = done ++ (group ++ [t]) := by
  have hput := tePutToken_apply t u
  rw [h.gc] at hput
  by_cases h7 : group.length = 7
  · obtain ⟨v, hv, hframe, hstream, henc⟩ := (h.put t).flush (by simp [h7]) hroom
    have henc' := henc (by simp)
    refine ⟨v, done ++ (group ++ [t]), [], (exec_putToken t u).trans (runOp_of_ok (a := ()) ?_), ?_, by simp, by simp⟩
    · rw [hput, if_pos h7, hv]
    · refine ⟨hframe, ?_, by rw [henc']; rfl, by rw [henc']; rfl, by rw [henc']; rfl, hstream⟩
      have := h.whole
      simp only [List.length_append, List.length_singleton]
      omega
  · refine ⟨_, done, group ++ [t], (exec_putToken t u).trans (runOp_of_ok (hput.trans (if_neg h7))), h.put t, ?_, rfl⟩
    simp only [List.length_append, List.length_singleton]
    omega

theorem execAll_cons {i : Instr} {is : List Instr} {s t : State} (h : exec i s = .next t) :
    execAll (i :: is) s = execAll is t := by simp only [execAll, h]

/-- The rest of a sequence and the flush at its end (R129, R147). -/
theorem State.Encoded.run (ts : List Token) (h : s.Encoded u done group) (hgroup : group.length < 8)
    (hroom : (streamOf (done ++ (group ++ ts))).length ≤ s.tCap) :
    ∃ t, execAll (ts.map putToken ++ [.teFlush]) u = .next t ∧ t = (s.setTb t.tb).setEnc t.enc ∧
      t.stream = streamOf (done ++ (group ++ ts)) := by
  induction ts generalizing u done group with
  | nil =>
    rw [List.append_nil] at hroom ⊢
    obtain ⟨t, ht, hframe, hstream, -⟩ := h.flush (by omega) hroom
    exact ⟨t, execAll_cons (runOp_of_ok ht), hframe, hstream⟩
  | cons x ts ih =>
    have hmono : (streamOf (done ++ (group ++ [x]))).length ≤ (streamOf (done ++ (group ++ x :: ts))).length := by
      simp only [streamOf_length, List.length_append, List.countP_append, List.countP_cons, List.countP_nil,
        List.length_cons, List.length_nil]
      omega
    obtain ⟨v, done', group', hv, henc, hlt, hseq⟩ := h.token hgroup x (Nat.le_trans hmono hroom)
    have hsame : done' ++ (group' ++ ts) = done ++ (group ++ x :: ts) := by
      rw [← List.append_assoc, hseq]
      simp
    obtain ⟨t, ht, hframe, hstream⟩ := ih henc hlt (by rw [hsame]; exact hroom)
    refine ⟨t, ?_, hframe, by rw [hstream, hsame]⟩
    rw [List.map_cons, List.cons_append, execAll_cons hv, ht]

end Run

/-- Settles O38: the length by `streamOf_length`, the run by `State.Encoded.run` from the empty group. -/
theorem encoderWritesTheTokenStream : Obligations.EncoderWritesTheTokenStream := by
  unfold Obligations.EncoderWritesTheTokenStream
  refine fun s ts _ => ⟨streamOf_length ts, fun hroom => ?_⟩
  obtain ⟨u, hu, henc⟩ := teInit_encoded s
  obtain ⟨t, ht, hframe, hstream⟩ := henc.run ts (by simp) hroom
  refine ⟨t, (execAll_cons hu).trans ht, hframe, hstream, ?_⟩
  rw [← List.nil_append ts, ← List.nil_append ([] ++ ts), ← hstream]
  exact (bytesFrom_length _ _ _).symm

end Sys2Proof.Machine

/-! Padded fields (R89, R90, R104), and the archive that `AR_PACK` writes (R85, R201 to R204). -/

namespace Sys2Proof.Machine

-- Padded fields --------------------------------------------------------------------------------------------------------

/-- A bit 0 changes nothing in `BW_ACC` (R102). -/
theorem bitInto_false (acc : Byte) (cnt : Nat) : bitInto acc cnt false = acc := by
  have h0 : (BitVec.ofBool false).setWidth 8 <<< (7 - cnt) = (0 : Byte) := by
    show (0 : Byte) <<< (7 - cnt) = 0
    exact BitVec.zero_shiftLeft _
  rw [bitInto, h0]
  exact BitVec.or_zero

/-- Bits 0 up to the byte boundary write the assembled byte: they are what `BW_ALIGN` does (R104). -/
theorem bwPutAll_zeros (n : Nat) {s : State} (hn : s.bw.cnt + (n + 1) = 8) (hroom : s.out.ptr < s.caps.outCap) :
    bwPutAll (List.replicate (n + 1) false) s = bwFlushByte s := by
  induction n generalizing s with
  | zero =>
    rw [List.replicate_one, bwPutAll_singleton, bwPutBit_apply, if_pos (by omega), bwFlushByte_apply, bitInto_false,
      if_pos hroom, if_pos hroom]
  | succ n ih =>
    have hbit : bwPutBit false s = .ok () (s.setBw { acc := s.bw.acc, cnt := s.bw.cnt + 1 }) := by
      rw [bwPutBit_apply, if_neg (by omega), bitInto_false]
    rw [List.replicate_succ, bwPutAll_cons, bind_ok hbit,
      ih (s := s.setBw { acc := s.bw.acc, cnt := s.bw.cnt + 1 }) (by simp only [State.setBw_fields]; omega) hroom,
      bwFlushByte_apply, bwFlushByte_apply, if_pos hroom]
    exact if_pos hroom

/-- The zero bits that bring `n` bits to a byte boundary. -/
def padBits (n : Nat) : Bits := List.replicate (8 * ceil8 n - n) false

theorem padBits_length (n : Nat) : n + (padBits n).length = 8 * ceil8 n := by
  rw [padBits, List.length_replicate]
  unfold ceil8
  omega

/-- A padded field whose bytes fit is written as the one string of its bits and its pad bits. -/
theorem putPadded_eq_bwPutAll {bits : Bits} {s : State} (hw : s.writerOk)
    (hroom : s.bw.cnt + bits.length ≠ 0 → s.out.ptr + ceil8 (s.bw.cnt + bits.length) ≤ s.caps.outCap) :
    putPadded bits s = bwPutAll (bits ++ padBits (s.bw.cnt + bits.length)) s := by
  unfold ceil8 at hroom
  obtain ⟨t, ht, hx⟩ := bwPutAll_wrote bits hw (fun _ => by omega)
  have hcap : t.caps.outCap = s.caps.outCap := by rw [hx.frame]; rfl
  have hptr := hx.ptr
  have hcnt := hx.cnt
  rw [bwPutAll_append, bind_ok ht]
  refine (bind_ok ht).trans ?_
  rw [bwAlign_apply, padBits, ceil8]
  split
  · next hne =>
    rw [show 8 * ((s.bw.cnt + bits.length + 7) / 8) - (s.bw.cnt + bits.length) = 7 - t.bw.cnt + 1 by omega]
    exact (bwPutAll_zeros _ (by omega) (by omega)).symm
  · next hzero =>
    rw [show 8 * ((s.bw.cnt + bits.length + 7) / 8) - (s.bw.cnt + bits.length) = 0 by omega]
    rfl

/-- At a byte boundary the bit writer is empty (R38). -/
theorem bw_of_writerOk {s : State} (hw : s.writerOk) (hc : s.bw.cnt = 0) : s.bw = { acc := 0, cnt := 0 } := by
  obtain ⟨-, hacc⟩ := hw
  rw [hc] at hacc
  have hlt := s.bw.acc.isLt
  have hzero : s.bw.acc = 0 := BitVec.eq_of_toNat_eq (show s.bw.acc.toNat = 0 by omega)
  rw [← hzero, ← hc]

theorem putPadded_wrote {bits : Bits} {s : State} (hw : s.writerOk)
    (hroom : s.bw.cnt + bits.length ≠ 0 → s.out.ptr + ceil8 (s.bw.cnt + bits.length) ≤ s.caps.outCap) :
    ∃ t, putPadded bits s = .ok () t ∧ s.Wrote t (bits ++ padBits (s.bw.cnt + bits.length)) ∧
      t.bw = { acc := 0, cnt := 0 } ∧ t.out.ptr = s.out.ptr + ceil8 (s.bw.cnt + bits.length) := by
  have hlen : s.bw.cnt + (bits ++ padBits (s.bw.cnt + bits.length)).length = 8 * ceil8 (s.bw.cnt + bits.length) := by
    rw [List.length_append, ← Nat.add_assoc, padBits_length]
  obtain ⟨t, ht, hx⟩ := bwPutAll_wrote (bits ++ padBits (s.bw.cnt + bits.length)) hw fun hne => by
    rw [hlen] at hne ⊢
    have := hroom (fun h0 => hne (by rw [h0]; rfl))
    omega
  have hptr := hx.ptr
  have hcnt := hx.cnt
  rw [hlen] at hptr hcnt
  exact ⟨t, (putPadded_eq_bwPutAll hw hroom).trans ht, hx, bw_of_writerOk hx.writer (by omega), by omega⟩

/-- Settles O23: each of the instructions writes one padded string (`exec_bitsPadded`, `putPadded_wrote`). -/
theorem paddedFieldsEndOnAByteBoundary : Obligations.PaddedFieldsEndOnAByteBoundary := by
  unfold Obligations.PaddedFieldsEndOnAByteBoundary
  rintro i s bits n hw hbits rfl hroom
  obtain ⟨t, ht, hx, hbw, hptr⟩ := putPadded_wrote hw hroom
  refine ⟨t, (exec_bitsPadded hbits).trans (runOp_of_ok ht), ?_, hptr, fun p hp => ?_, hx.kept⟩
  · rw [← hbw]
    exact hx.frame
  · rw [hx.appended p hp, List.append_assoc]
    rfl

-- The archive ----------------------------------------------------------------------------------------------------------

/-- The header of an archive (R86 to R88). -/
def headerBits (n l : Nat) : Bits := byteBits 0x43 ++ byteBits 0x5A ++ natBits 32 n ++ natBits 32 l

theorem headerBits_length (n l : Nat) : (headerBits n l).length = 80 := by
  simp [headerBits, natBits_length]

/-- Strings written one after the other are one string. -/
theorem bwPutAll_bind_append {α : Type} (xs ys : Bits) (k : Unit → Op α) :
    (bwPutAll xs >>= fun _ => bwPutAll ys >>= k) = (bwPutAll (xs ++ ys) >>= k) := by
  rw [← bind_assoc]
  exact congrArg (· >>= k) (funext fun s => (bwPutAll_append xs ys s).symm)

/-- Before the payload is written: the tree is serialised and the writer is empty. -/
def State.packStart (s : State) : State :=
  (s.setTbl (serTree s.tree.shape).length).setBw { acc := 0, cnt := 0 }

/-- What is read from the state after a string was written, of what the writer keeps, can be read before. -/
theorem bwPutAll_look {α : Type} {bs : Bits} {s : State} (k : State → Op α)
    (hk : ∀ t, bwPutAll bs s = .ok () t → k t = k s) :
    (bwPutAll bs >>= fun _ => look id >>= k) s = (bwPutAll bs >>= fun _ => k s) s := by
  cases hx : bwPutAll bs s with
  | ok a t => rw [bind_ok hx, bind_ok hx, look_bind, id_eq, hk t hx]
  | error e t => rw [bind_error hx, bind_error hx]

/-- The lengths an archive states stay as they are while the bit writer writes. -/
theorem bwPutAll_lengths {bs : Bits} {s t : State} (h : bwPutAll bs s = .ok () t) : t.tb = s.tb ∧ t.tbl = s.tbl :=
  (bwPutAll_keeps (P := fun t => t.tb = s.tb ∧ t.tbl = s.tbl) (fun _ _ h => h) (fun _ _ h => h) bs).ok ⟨rfl, rfl⟩ h

/-- What `AR_PACK` does after `MAGIC`, where `u` tells the two lengths (R201). -/
def packFields (tree : Bits) (u : State) : Op Unit :=
  bwPutAll (natBits 32 u.tb.len) >>= fun _ => bwPutAll (natBits 32 u.tbl) >>= fun _ => bwPutAll tree >>= fun _ =>
    bwAlign >>= fun _ => hfEncode >>= fun _ => bwAlign

theorem packFields_congr {tree : Bits} {u v : State} (hlen : u.tb.len = v.tb.len) (htbl : u.tbl = v.tbl) :
    packFields tree u = packFields tree v := by rw [packFields, packFields, hlen, htbl]

/-- `AR_PACK` writes two padded fields: the header with the tree, and the payload (R201). -/
theorem arPack_apply (s : State) : arPack s =
    (putPadded (headerBits s.tb.len (serTree s.tree.shape).length ++ serTree s.tree.shape) >>= fun _ =>
      hfEncode >>= fun _ => bwAlign) s.packStart := by
  have hstart : arPack s = (bwPutAll (byteBits 0x43) >>= fun _ => bwPutAll (byteBits 0x5A) >>= fun _ =>
      look id >>= packFields (serTree s.tree.shape)) s.packStart := rfl
  rw [hstart, bwPutAll_bind_append, bwPutAll_look]
  · simp only [packFields, bwPutAll_bind_append, putPadded, bind_assoc]
    rfl
  · intro t ht
    obtain ⟨htb, htbl⟩ := bwPutAll_lengths ht
    exact packFields_congr (congrArg TokenBuffer.len htb) htbl

/-- The second of them after the first: it does not look at what the bit writer has written. -/
theorem payload_apply {s t : State} (hframe : t = (s.setOut t.out).setBw t.bw) :
    (hfEncode >>= fun _ => bwAlign) t = putPadded (s.stream.flatMap s.codeOf) t := by
  have hbits : t.stream.flatMap t.codeOf = s.stream.flatMap s.codeOf := by rw [hframe]; rfl
  have h := hfEncode_apply t
  rw [hbits] at h
  unfold putPadded
  cases hx : bwPutAll (s.stream.flatMap s.codeOf) t with
  | ok a u => rw [bind_ok hx, bind_ok (h.trans hx)]
  | error e u => rw [bind_error hx, bind_error (h.trans hx)]

/-- From an empty writer the bits written are those in `OUT`. -/
theorem bitsFrom_of_aligned {t : State} (hbw : t.bw = { acc := 0, cnt := 0 }) (p : Nat) :
    t.bitsFrom p = bytesBits (bytesFrom t.outByte p (t.out.ptr - p)) := by
  rw [State.bitsFrom, hbw, List.take_zero, List.append_nil]

/-- The header is whole bytes, so the pad bits of the first field are those of the tree (R89). -/
theorem padded_headerBits (n l : Nat) (tree : Bits) :
    padded (headerBits n l ++ tree) = headerBits n l ++ padded tree := by
  have hpad : padCount (headerBits n l ++ tree).length = padCount tree.length := by
    rw [List.length_append, headerBits_length]
    unfold padCount ceil8
    omega
  rw [padded, hpad, List.append_assoc]
  rfl

/-- The first field is the 10 bytes of the header and the padded tree. -/
theorem headerField_bytes (n : Nat) (tree : Bits) :
    ceil8 (headerBits n tree.length ++ tree).length = 10 + ceil8 tree.length := by
  rw [List.length_append, headerBits_length]
  unfold ceil8
  omega

theorem putPadded_wrote_aligned {bits : Bits} {s : State} (hbw : s.bw = { acc := 0, cnt := 0 })
    (hroom : s.out.ptr + ceil8 bits.length ≤ s.caps.outCap) :
    ∃ t, putPadded bits s = .ok () t ∧ s.Wrote t (padded bits) ∧ t.bw = { acc := 0, cnt := 0 } ∧
      t.out.ptr = s.out.ptr + ceil8 bits.length := by
  have hcnt : s.bw.cnt + bits.length = bits.length := by rw [hbw, Nat.zero_add]
  have h := putPadded_wrote (bits := bits) (s := s) ⟨by rw [hbw]; decide, by rw [hbw]; rfl⟩ (by
    rw [hcnt]
    exact fun _ => hroom)
  rwa [hcnt] at h

theorem putPadded_full_aligned {bits : Bits} {s : State} (hbw : s.bw = { acc := 0, cnt := 0 }) (hne : bits.length ≠ 0)
    (hfull : s.caps.outCap < s.out.ptr + ceil8 bits.length) :
    ∃ t, putPadded bits s = .error (.err .capacityExceeded) t ∧ s.Filled t := by
  have hcnt : s.bw.cnt + bits.length = bits.length := by rw [hbw, Nat.zero_add]
  refine putPadded_full bits ⟨by rw [hbw]; decide, by rw [hbw]; rfl⟩ ?_ ?_
  · rwa [hcnt]
  · rwa [hcnt]

/-- `AR_PACK` with room for the archive (R201): the bits from `OPTR` on are the header, the padded tree and the padded
payload. -/
theorem arPack_wrote {s : State} {o : Option Tree} (ho : s.tree.isTree o) {n1 n2 : Nat}
    (h1 : n1 = 10 + ceil8 (serTree o).length) (h2 : n2 = ceil8 (s.stream.flatMap s.codeOf).length)
    (hroom : s.out.ptr + (n1 + n2) ≤ s.caps.outCap) :
    ∃ t, arPack s = .ok () t ∧ s.packStart.Wrote t (headerBits s.tb.len (serTree o).length ++ padded (serTree o) ++
        padded (s.stream.flatMap s.codeOf)) ∧ t.bw = { acc := 0, cnt := 0 } ∧ t.out.ptr = s.out.ptr + (n1 + n2) := by
  have hn1 := headerField_bytes s.tb.len (serTree o)
  rw [← h1] at hn1
  obtain ⟨t, ht, hx, hbw, hptr⟩ := putPadded_wrote_aligned (s := s.packStart)
    (bits := headerBits s.tb.len (serTree o).length ++ serTree o) rfl (by
      rw [hn1]
      show s.out.ptr + n1 ≤ s.caps.outCap
      omega)
  have hcap : t.caps.outCap = s.caps.outCap := by rw [hx.frame]; rfl
  have hptr1 : t.out.ptr = s.out.ptr + n1 := hptr.trans (by rw [hn1]; rfl)
  obtain ⟨u, hu, hy, hbw', hptr'⟩ := putPadded_wrote_aligned (bits := s.stream.flatMap s.codeOf) hbw (by omega)
  refine ⟨u, ?_, ?_, hbw', by omega⟩
  · rw [arPack_apply, shape_of_isTree ho, bind_ok ht]
    exact (payload_apply (s := s.packStart) hx.frame).trans hu
  · rw [← padded_headerBits]
    exact hx.append hy

/-- `AR_PACK` without room for the archive (R204): one of its two padded fields does not fit. -/
theorem arPack_full {s : State} {o : Option Tree} (ho : s.tree.isTree o) {n1 n2 : Nat}
    (h1 : n1 = 10 + ceil8 (serTree o).length) (h2 : n2 = ceil8 (s.stream.flatMap s.codeOf).length)
    (hfull : s.caps.outCap < s.out.ptr + (n1 + n2)) :
    ∃ t, arPack s = .error (.err .capacityExceeded) t ∧ s.packStart.Filled t := by
  have hn1 := headerField_bytes s.tb.len (serTree o)
  rw [← h1] at hn1
  by_cases hroom : s.out.ptr + n1 ≤ s.caps.outCap
  · obtain ⟨t, ht, hx, hbw, hptr⟩ := putPadded_wrote_aligned (s := s.packStart)
      (bits := headerBits s.tb.len (serTree o).length ++ serTree o) rfl (by rw [hn1]; exact hroom)
    have hcap : t.caps.outCap = s.caps.outCap := by rw [hx.frame]; rfl
    have hptr1 : t.out.ptr = s.out.ptr + n1 := hptr.trans (by rw [hn1]; rfl)
    obtain ⟨u, hu, hfilled⟩ := putPadded_full_aligned (bits := s.stream.flatMap s.codeOf) hbw
      (fun h0 => by rw [h0] at h2; change n2 = 0 at h2; omega) (by omega)
    refine ⟨u, ?_, hx.filled hfilled ?_⟩
    · rw [arPack_apply, shape_of_isTree ho, bind_ok ht]
      exact (payload_apply (s := s.packStart) hx.frame).trans hu
    · show t.out.ptr ≤ max s.out.ptr s.caps.outCap
      omega
  · obtain ⟨t, ht, hfilled⟩ := putPadded_full_aligned (s := s.packStart)
      (bits := headerBits s.tb.len (serTree o).length ++ serTree o) rfl
      (by rw [List.length_append, headerBits_length]; omega) (by
        rw [hn1]
        show s.caps.outCap < s.out.ptr + n1
        omega)
    exact ⟨t, by rw [arPack_apply, shape_of_isTree ho, bind_error ht], hfilled⟩

/-- Settles O51, by `arPack_wrote` and `arPack_full`. -/
theorem packWritesTheArchiveFields : Obligations.PackWritesTheArchiveFields := by
  unfold Obligations.PackWritesTheArchiveFields
  rintro s o bits n ho rfl rfl
  refine ⟨fun hroom => ?_, fun hfull => ?_⟩
  · obtain ⟨t, ht, hx, hbw, hptr⟩ := arPack_wrote ho rfl rfl hroom
    refine ⟨t, runOp_of_ok ht, ?_, hptr, ?_, hx.kept⟩
    · rw [← hbw, ← shape_of_isTree ho]
      exact hx.frame
    · have hold : s.packStart.bitsFrom s.out.ptr = [] := by
        rw [bitsFrom_of_aligned rfl]
        show bytesBits (bytesFrom _ _ (s.out.ptr - s.out.ptr)) = []
        rw [Nat.sub_self]
        rfl
      have hbits := hx.appended s.out.ptr (Nat.le_refl _)
      rwa [hold, List.nil_append, bitsFrom_of_aligned hbw, hptr, Nat.add_sub_cancel_left] at hbits
  · obtain ⟨t, ht, hfilled⟩ := arPack_full ho rfl rfl hfull
    exact ⟨_, runOp_of_err ht, hfilled.tookError _, hfilled.kept⟩

end Sys2Proof.Machine

/-! Elements read back: the header fields (R205 to R209), the tokens of a stream (R151 to R153), the nodes of a tree (R176, R177) and
its code words (R193, R194). -/

namespace Sys2Proof.Machine

-- The header -----------------------------------------------------------------------------------------------------------

/-- Settles O53, by what the readers of the three fields do (`checkMagic_apply`, `acceptTreeBitLen_apply`). -/
theorem headerFieldsAreReadAndChecked : Obligations.HeaderFieldsAreReadAndChecked := by
  unfold Obligations.HeaderFieldsAreReadAndChecked
  intro s n hread
  have hmagic : exec .magic s = runOp checkMagic s := runOp_writeOrRead_reads hread _ _
  have hlen : exec (.treeBitLen n) s = runOp (acceptTreeBitLen n.toNat) s := runOp_writeOrRead_reads hread _ _
  rw [hmagic, hlen]
  refine ⟨fun h0 h1 => ?_, fun hbad => ⟨_, ?_, tookError_takeError s _⟩, ?_, fun hfit => ?_,
    fun hlong => ⟨_, ?_, tookError_takeError (s.setTbl n.toNat) _⟩⟩
  · exact runOp_of_ok ((checkMagic_apply s).trans (if_pos ⟨h0, h1⟩))
  · exact runOp_of_err ((checkMagic_apply s).trans (if_neg fun h => hbad.elim (· h.1) (· h.2)))
  · exact runOp_writeOrRead_reads hread _ _
  · exact runOp_of_ok ((acceptTreeBitLen_apply _ s).trans (if_pos hfit))
  · exact runOp_of_err ((acceptTreeBitLen_apply _ s).trans (if_neg (by omega)))

-- Tokens ---------------------------------------------------------------------------------------------------------------

/-- An operation with a precondition: where it holds, what follows it; else a refusal by name. -/
theorem runOp_needed {x y : Op Unit} {s : State} {c : Prop} [Decidable c] {op : String}
    (h : x s = if c then y s else .error (.refuse (.precondition op)) s) :
    (c → runOp x s = runOp y s) ∧ (¬ c → ∃ op, runOp x s = .refused (.precondition op)) := by
  refine ⟨fun hc => runOp_eq_runOp (h.trans (if_pos hc)), fun hc => ⟨op, ?_⟩⟩
  rw [if_neg hc] at h
  simp only [runOp, h]

theorem needToken_bind (op : String) (x : Op Unit) (s : State) : (needToken op >>= fun _ => x) s =
    if s.dec.tp < s.tb.len then x s else .error (.refuse (.precondition op)) s := by
  simp only [needToken, bind_assoc, look_bind, need_bind, id_eq]

/-- TD_FLAG and FLAG with a byte to read and without (R151). -/
theorem exec_readsFlag {s : State} {i : Instr} {v : Byte}
    (h : (i = .tdFlag ∧ v = s.tbByte s.dec.tp) ∨ (s.seq.phase.writes = false ∧ i = .flag v)) :
    (s.dec.tp < s.tb.len → exec i s = runOp (acceptFlag v) s) ∧
    (¬ s.dec.tp < s.tb.len → ∃ op, exec i s = .refused (.precondition op)) := by
  rcases h with ⟨rfl, rfl⟩ | ⟨hread, rfl⟩
  · exact runOp_needed (tdFlag_apply s)
  · rw [show exec (.flag v) s = _ from runOp_writeOrRead_reads hread _ _]
    exact runOp_needed (needToken_bind _ _ s)

/-- TD_LITERAL and LITERAL with a byte to read and without (R152). -/
theorem exec_readsLiteral {s : State} {i : Instr} {v : Byte}
    (h : (i = .tdLiteral ∧ v = s.tbByte s.dec.tp) ∨ (s.seq.phase.writes = false ∧ i = .literal v)) :
    (s.dec.tp < s.tb.len → exec i s = exec (.replayLiteral v) (s.setDec { tp := s.dec.tp + 1, dflg := s.dec.dflg })) ∧
    (¬ s.dec.tp < s.tb.len → ∃ op, exec i s = .refused (.precondition op)) := by
  rw [show exec (.replayLiteral v) _ = runOp (acceptLiteral v) s from runOp_eq_runOp (acceptLiteral_apply v s).symm]
  rcases h with ⟨rfl, rfl⟩ | ⟨hread, rfl⟩
  · exact runOp_needed (tdLiteral_apply s)
  · rw [show exec (.literal v) s = _ from runOp_writeOrRead_reads hread _ _]
    exact runOp_needed (needToken_bind _ _ s)

/-- What TD_MATCH and MATCH do with a byte to read: a Match needs two (R153). -/
def readMatch (o : BitVec 12) (l : BitVec 4) : Op Unit := do
  checkMatchRoom
  acceptMatch o l

theorem readMatch_apply (o : BitVec 12) (l : BitVec 4) (s : State) : readMatch o l s =
    if 2 ≤ s.tb.len - s.dec.tp then acceptMatch o l s else .error (.err .invalidToken) s := by
  simp only [readMatch, checkMatchRoom, bind_assoc, look_bind, check_bind, id_eq]

/-- TD_MATCH and MATCH with a byte to read and without (R153). -/
theorem exec_readsMatch {s : State} {i : Instr} {o : BitVec 12} {l : BitVec 4}
    (h : (i = .tdMatch ∧ o = bytesOffsetField (s.tbByte s.dec.tp) (s.tbByte (s.dec.tp + 1)) ∧
        l = byteLengthField (s.tbByte (s.dec.tp + 1))) ∨ (s.seq.phase.writes = false ∧ i = .matchTok o l)) :
    (s.dec.tp < s.tb.len → exec i s = runOp (readMatch o l) s) ∧
    (¬ s.dec.tp < s.tb.len → ∃ op, exec i s = .refused (.precondition op)) := by
  rcases h with ⟨rfl, rfl, rfl⟩ | ⟨hread, rfl⟩
  · exact runOp_needed ((tdMatch_apply s).trans (by rw [readMatch_apply]))
  · rw [show exec (.matchTok o l) s = _ from runOp_writeOrRead_reads hread _ _]
    exact runOp_needed (needToken_bind _ (readMatch o l) s)

theorem fieldOffset_le (o : BitVec 12) : fieldOffset o ≤ 4096 := by
  unfold fieldOffset
  split
  · exact Nat.le_refl _
  · exact Nat.le_of_lt o.isLt

/-- The copy loop with room, whatever `WFILL` is: after its first byte the window is no fuller than 4096 bytes (R121). -/
theorem replayLoop_room {offset n : Nat} {s : State} (h1 : 1 ≤ offset) (h2 : offset ≤ 4096) (hf : offset ≤ s.win.fill)
    (hc : s.out.ptr + n ≤ s.caps.outCap) :
    ∃ t, replayLoop offset n s = .ok () t ∧ t = (s.setOut t.out).setWin t.win ∧ t.out.ptr = s.out.ptr + n ∧
      ∀ a, a < s.out.ptr ∨ t.out.ptr ≤ a → t.outByte a = s.outByte a := by
  cases n with
  | zero => exact ⟨s, rfl, rfl, rfl, fun _ _ => rfl⟩
  | succ n =>
    obtain ⟨t, ht, hframe, hptr, -, hkept⟩ := replayLoop_ok offset n (s.emitted (s.winBack offset)) h1
      (by simp only [State.emitted_fields, windowPut_fill]; omega)
      (by simp only [State.emitted_fields, windowPut_fill]; omega) (by simp only [State.emitted_fields]; omega)
    simp only [State.emitted_fields] at hptr hkept
    refine ⟨t, ?_, hframe, by omega, fun a ha => ?_⟩
    · rw [replayLoop_succ _ _ _ h1 hf, if_pos (by omega)]
      exact ht
    · rw [hkept a (by omega), outByte_emitted_of_ne s _ (by omega)]

/-- A Match with two bytes and a good offset is replayed (R131, R153). -/
theorem readMatch_replays {o : BitVec 12} {l : BitVec 4} {s : State} (h2 : s.dec.tp + 2 ≤ s.tb.len)
    (hf : fieldOffset o ≤ s.win.fill) : readMatch o l s =
      replayMatch (fieldOffset o) (fieldLength l) (s.setDec { tp := s.dec.tp + 2, dflg := s.dec.dflg }) := by
  rw [readMatch_apply, if_pos (by omega), acceptMatch_apply, if_pos hf]

/-- Settles O39: each element with a byte to read and without (`exec_readsFlag`, `exec_readsLiteral`, `exec_readsMatch`). -/
theorem tokenElementsAreReadFromTheStream : Obligations.TokenElementsAreReadFromTheStream := by
  unfold Obligations.TokenElementsAreReadFromTheStream
  refine fun s i => ⟨fun v hi => ?_, fun v hi => ?_, fun o l hi => ?_⟩
  · obtain ⟨hread, hnone⟩ := exec_readsFlag hi
    have hflag := acceptFlag_apply v s
    refine ⟨fun hlt => ?_, fun hend => ?_, fun hge => hnone (by omega)⟩
    · rw [hread (by omega)]
      exact runOp_of_ok (hflag.trans (if_pos (by omega)))
    · rw [hread (by omega)]
      exact ⟨_, runOp_of_err (hflag.trans (if_neg (by omega))), tookError_takeError (s.setDec _) _⟩
  · obtain ⟨hread, hnone⟩ := exec_readsLiteral hi
    refine ⟨hread, fun hlt hroom => ?_, fun hge => hnone (by omega)⟩
    have hemit := exec_emits (s := s.setDec { tp := s.dec.tp + 1, dflg := s.dec.dflg }) (b := v) (.inl rfl) hroom
    exact ⟨_, (hread hlt).trans hemit, rfl, rfl, outByte_emitted_self (s.setDec _) v,
      fun a ha => outByte_emitted_of_ne (s.setDec _) v ha⟩
  · obtain ⟨hread, hnone⟩ := exec_readsMatch hi
    refine ⟨fun h2 hf => ?_, fun h2 hf hroom => ?_, fun h2 hf => ?_, fun hend => ?_, fun hge => hnone (by omega)⟩
    · rw [hread (by omega)]
      exact runOp_eq_runOp (readMatch_replays h2 hf)
    · obtain ⟨t, ht, hframe, hptr, hkept⟩ := replayLoop_room (n := fieldLength l)
        (s := s.setDec { tp := s.dec.tp + 2, dflg := s.dec.dflg }) (one_le_fieldOffset o) (fieldOffset_le o) hf hroom
      refine ⟨t, ?_, hframe, hptr, hkept⟩
      rw [hread (by omega)]
      exact runOp_of_ok ((readMatch_replays h2 hf).trans
        ((replayMatch_apply _ _ _).trans ((if_pos ⟨one_le_fieldOffset o, hf⟩).trans ht)))
    · refine ⟨_, ?_, tookError_takeError (s.setDec { tp := s.dec.tp + 2, dflg := s.dec.dflg }) _, rfl, rfl⟩
      rw [hread (by omega)]
      exact runOp_of_err (by rw [readMatch_apply, if_pos (by omega), acceptMatch_apply, if_neg (by omega)])
    · refine ⟨_, ?_, tookError_takeError s _⟩
      rw [hread (by omega)]
      exact runOp_of_err (by rw [readMatch_apply, if_neg (by omega)])

-- Nodes ----------------------------------------------------------------------------------------------------------------

/-- Bits that are not all there: the reader stops at the end of its region (R110). -/
theorem brSkip_short {n : Nat} {s : State} (hn : 0 < n) (h : s.br.limit < s.br.pos + n) :
    ∃ p, brSkip n s = .error (.err s.br.err) (s.setBr { s.br with pos := p }) := by
  induction n generalizing s with
  | zero => exact absurd hn (Nat.lt_irrefl 0)
  | succ n ih =>
    by_cases hp : s.br.pos < s.br.limit
    · have hb : brGetBit s = .ok (s.inBit s.br.pos) (s.setBr { s.br with pos := s.br.pos + 1 }) := by
        rw [brGetBit_apply, if_pos hp]
      obtain ⟨p, hp'⟩ := ih (s := s.setBr { s.br with pos := s.br.pos + 1 }) (by omega)
        (by simp only [State.setBr_fields]; omega)
      exact ⟨p, (bind_ok hb).trans hp'⟩
    · have hb : brGetBit s = .error (.err s.br.err) s := by rw [brGetBit_apply, if_neg hp]
      exact ⟨s.br.pos, bind_error hb⟩

/-- The store after a leaf is read into the next entry (R176). -/
def TreeStore.leafRead (t : TreeStore) (v : Byte) : TreeStore :=
  (TreeStore.put { t with ncnt := t.ncnt + 1 } t.ncnt (.leaf v none)).close t.ncnt t.dstk

/-- What reading `n` bits of a node does once an entry of the store is taken, and where it stops (R176, R180). -/
theorem allocNode_brSkip {s : State} (n : Nat) (k : Nat → Op Unit) :
    (s.tree.ncnt < 511 → s.br.pos + n ≤ s.br.limit → (allocNode >>= fun i => brSkip n >>= fun _ => k i) s =
      k s.tree.ncnt ((s.setTree { s.tree with ncnt := s.tree.ncnt + 1 }).setBr { s.br with pos := s.br.pos + n })) ∧
    (511 ≤ s.tree.ncnt → ∃ t, runOp (allocNode >>= fun i => brSkip n >>= fun _ => k i) s = .next t ∧
      s.tookError t .malformedArchive) ∧
    (s.tree.ncnt < 511 → s.br.limit < s.br.pos + n → 0 < n →
      ∃ t, runOp (allocNode >>= fun i => brSkip n >>= fun _ => k i) s = .next t ∧ s.tookError t s.br.err) := by
  refine ⟨fun hn hp => ?_, fun hn => ?_, fun hn hp h0 => ?_⟩
  · rw [bind_ok ((allocNode_apply s).trans (if_pos hn))]
    exact bind_ok (brSkip_apply n (s.setTree { s.tree with ncnt := s.tree.ncnt + 1 }) hp)
  · exact ⟨_, runOp_of_err (bind_error ((allocNode_apply s).trans (if_neg (by omega)))), tookError_takeError s _⟩
  · obtain ⟨p, hskip⟩ := brSkip_short (s := s.setTree { s.tree with ncnt := s.tree.ncnt + 1 }) h0 hp
    exact ⟨_, runOp_of_err ((bind_ok ((allocNode_apply s).trans (if_pos hn))).trans (bind_error hskip)),
      tookError_takeError ((s.setTree _).setBr _) _⟩

/-- The open nodes `js`, all on their right side, become internal nodes from the innermost on: the node `i` ends them (R176). -/
def TreeStore.closeRights (t : TreeStore) : Nat → List Nat → TreeStore
  | _, [] => t
  | i, j :: js => (t.put j (.internal (j + 1) i none)).closeRights j js

/-- Closing goes through the open right sides and on from the outermost of them. -/
theorem close_rights (t : TreeStore) (i : Nat) (js : List Nat) (rest : List (Nat × Bool)) :
    t.close i (js.map (fun j => (j, true)) ++ rest) = (t.closeRights i js).close (js.getLastD i) rest := by
  induction js generalizing t i with
  | nil => rfl
  | cons j js ih =>
    rw [List.getLastD_cons]
    exact ih _ j

@[simp] theorem closeRights_root (t : TreeStore) (i : Nat) (js : List Nat) : (t.closeRights i js).root = t.root := by
  induction js generalizing t i with
  | nil => rfl
  | cons j js ih => exact ih _ j

theorem closeRights_at_of_not_mem (t : TreeStore) (i : Nat) {js : List Nat} {a : Nat} (h : a ∉ js) :
    (t.closeRights i js).at a = t.at a := by
  induction js generalizing t i with
  | nil => rfl
  | cons j js ih =>
    obtain ⟨hj, hjs⟩ := not_or.1 (mt List.mem_cons.2 h)
    rw [TreeStore.closeRights, ih _ _ hjs, put_at, if_neg hj]

/-- Each of them has its left child next to it and the node closed before it as its right child (R177). -/
theorem closeRights_at (t : TreeStore) (i : Nat) {js : List Nat} (hjs : js.Nodup) {k j c : Nat} (hj : js[k]? = some j)
    (hc : (i :: js)[k]? = some c) : (t.closeRights i js).at j = .internal (j + 1) c none := by
  induction js generalizing t i k with
  | nil => cases hj
  | cons x js ih =>
    obtain ⟨hx, hjs⟩ := List.nodup_cons.1 hjs
    cases k with
    | zero =>
      cases hj
      cases hc
      rw [TreeStore.closeRights, closeRights_at_of_not_mem _ _ hx, put_at, if_pos rfl]
    | succ k => exact ih _ x hjs hj hc

theorem close_live (t : TreeStore) (i : Nat) (st : List (Nat × Bool)) : (t.close i st).live = t.live := by
  induction st generalizing t i with
  | nil => rfl
  | cons e st ih =>
    obtain ⟨j, side⟩ := e
    cases side with
    | false => rfl
    | true => exact ih _ j

/-- Where no open node ends, no entry of the store changes. -/
theorem close_at_of_left (t : TreeStore) (i : Nat) {rest : List (Nat × Bool)}
    (h : ∀ e, rest.head? = some e → e.2 = false) (a : Nat) : (t.close i rest).at a = t.at a := by
  cases rest with
  | nil => rfl
  | cons e rest =>
    obtain ⟨j, side⟩ := e
    cases side with
    | false => rfl
    | true => exact absurd (h _ rfl) Bool.noConfusion

/-- The entries after a leaf that ends the open nodes `js`: the leaf, the nodes it ends, and the others as they were. -/
theorem leafRead_at {t : TreeStore} (v : Byte) {js : List Nat} {rest : List (Nat × Bool)} (hnodup : (t.ncnt :: js).Nodup)
    (hdstk : t.dstk = js.map (fun j => (j, true)) ++ rest) (hrest : ∀ e, rest.head? = some e → e.2 = false) :
    (t.leafRead v).at t.ncnt = .leaf v none ∧
    (∀ k j c : Nat, js[k]? = some j → (t.ncnt :: js)[k]? = some c → (t.leafRead v).at j = .internal (j + 1) c none) ∧
    ∀ a, a ≠ t.ncnt → a ∉ js → (t.leafRead v).at a = t.at a := by
  obtain ⟨hnew, hjs⟩ := List.nodup_cons.1 hnodup
  have hat (a : Nat) : (t.leafRead v).at a =
      ((TreeStore.put { t with ncnt := t.ncnt + 1 } t.ncnt (.leaf v none)).closeRights t.ncnt js).at a := by
    rw [TreeStore.leafRead, hdstk, close_rights]
    exact close_at_of_left _ _ hrest a
  refine ⟨?_, fun k j c hj hc => ?_, fun a ha hajs => ?_⟩
  · rw [hat, closeRights_at_of_not_mem _ _ hnew, put_at, if_pos rfl]
  · rw [hat]
    exact closeRights_at _ _ hjs hj hc
  · rw [hat, closeRights_at_of_not_mem _ _ hajs, put_at, if_neg ha]
    rfl

/-- The root and the open nodes after it. -/
theorem leafRead_open {t : TreeStore} (v : Byte) {js : List Nat} {rest : List (Nat × Bool)}
    (hdstk : t.dstk = js.map (fun j => (j, true)) ++ rest) :
    (rest = [] → (t.leafRead v).root = some (js.getLastD t.ncnt) ∧ (t.leafRead v).dstk = []) ∧
    ∀ j outer, rest = (j, false) :: outer → (t.leafRead v).root = t.root ∧ (t.leafRead v).dstk = (j, true) :: outer := by
  rw [TreeStore.leafRead, hdstk, close_rights]
  refine ⟨?_, ?_⟩
  · rintro rfl
    exact ⟨rfl, rfl⟩
  · rintro j outer rfl
    exact ⟨closeRights_root _ _ _, rfl⟩

/-- Settles O48: where the reader goes on and stops by `allocNode_brSkip`, the store by `leafRead_at` and `leafRead_open`. -/
theorem nodesAreReadOneByOne : Obligations.NodesAreReadOneByOne := by
  unfold Obligations.NodesAreReadOneByOne
  intro s v hread
  have hinternal : exec .nodeInternal s = runOp acceptInternal s := runOp_writeOrRead_reads hread _ _
  have hleaf : exec (.nodeLeaf v) s = runOp (acceptLeaf v) s := runOp_writeOrRead_reads hread _ _
  obtain ⟨hopens, hfull, hshort⟩ := allocNode_brSkip (s := s) 1 openNode
  obtain ⟨hreads, hfull', hshort'⟩ := allocNode_brSkip (s := s) 9 (leafNode · v)
  rw [hinternal, hleaf]
  refine ⟨fun hn hp => ?_, fun hn hp => ?_, fun hn i hi => ?_, fun hn hp => hshort hn (by omega) Nat.one_pos,
    fun hn hp => hshort' hn hp (by decide)⟩
  · exact ⟨_, runOp_of_ok (hopens hn hp), rfl⟩
  · refine ⟨(s.setTree (s.tree.leafRead v)).setBr { s.br with pos := s.br.pos + 9 }, runOp_of_ok (hreads hn hp), rfl,
      close_ncnt _ _ _, close_live _ _ _, fun hd => ?_, fun j rest hd => ?_, fun js rest hnodup hd hrest => ?_⟩
    · obtain ⟨hat, -, -⟩ := leafRead_at v (t := s.tree) (js := []) (rest := []) (List.nodup_singleton _) hd (by simp)
      obtain ⟨hroot, hdstk⟩ := (leafRead_open v (t := s.tree) (js := []) (rest := []) hd).1 rfl
      exact ⟨hroot, ⟨none, hat⟩, hdstk⟩
    · obtain ⟨hat, -, -⟩ := leafRead_at v (t := s.tree) (js := []) (List.nodup_singleton _) hd (by simp)
      obtain ⟨hroot, hdstk⟩ := (leafRead_open v (t := s.tree) (js := []) hd).2 j rest rfl
      exact ⟨hroot, ⟨none, hat⟩, hdstk⟩
    · obtain ⟨hat, hjs, hother⟩ := leafRead_at v hnodup hd hrest
      obtain ⟨hdone, hopen⟩ := leafRead_open v hd
      exact ⟨⟨none, hat⟩, hjs, hother, hdone, hopen⟩
  · rcases hi with rfl | rfl
    · rw [hinternal]
      exact hfull hn
    · rw [hleaf]
      exact hfull' hn

-- Code words -----------------------------------------------------------------------------------------------------------

theorem leadsTo_leaf {w v : Byte} {path : Bits} : leadsTo (.leaf w) path v ↔ path = [] ∧ w = v := by
  cases path <;> exact Iff.rfl

/-- A path to a leaf of the tree, followed in the store (R193). -/
theorem follow_of_leadsTo {t : TreeStore} {tr : Tree} {i : Nat} {path : Bits} {v : Byte} (hs : t.holds i tr)
    (h : leadsTo tr path v) : ∃ leaf k, t.follow i path = some leaf ∧ t.at leaf = .leaf v k := by
  induction tr generalizing i path with
  | leaf w =>
    obtain ⟨rfl, rfl⟩ := leadsTo_leaf.1 h
    obtain ⟨k, hk⟩ := hs
    exact ⟨i, k, rfl, hk⟩
  | node l r ihl ihr =>
    obtain ⟨a, b, k, hat, ha, hb⟩ := hs
    cases path with
    | nil => exact h.elim
    | cons bit path =>
      rw [TreeStore.follow, hat]
      cases bit with
      | false => exact ihl ha h
      | true => exact ihr hb h

/-- A code word of the tree ends at a leaf of the store (R91, R194). -/
theorem codewordLeaf_of_isCodeword {t : TreeStore} {tr : Tree} {root : Nat} {path : Bits} {v : Byte} (hs : t.holds root tr)
    (h : isCodeword tr path v) : ∃ leaf k, t.codewordLeaf root path = some leaf ∧ t.at leaf = .leaf v k := by
  cases tr with
  | leaf w =>
    obtain ⟨hlen, rfl⟩ := h
    obtain ⟨k, hk⟩ := hs
    refine ⟨root, k, ?_, hk⟩
    rw [TreeStore.codewordLeaf, hk]
    exact if_pos hlen
  | node l r =>
    obtain ⟨leaf, k, hfollow, hat⟩ := follow_of_leadsTo hs h
    obtain ⟨a, b, k', hroot, -⟩ := hs
    refine ⟨leaf, k, ?_, hat⟩
    simp only [TreeStore.codewordLeaf, hroot, hfollow, hat]

/-- The walk to the leaf of a code word touches the tree walk alone (R193). -/
theorem walkedTo_apply (t : TreeStore) (root leaf : Nat) (s : State) :
    ∃ w, walkedTo t root leaf s = .ok () (s.setWalker { s.walker with walk := w }) := by
  unfold walkedTo
  cases t.at root with
  | leaf v k => exact ⟨s.walker.walk, rfl⟩
  | internal a b k => exact ⟨leaf, rfl⟩

/-- Settles O50: the leaf by `codewordLeaf_of_isCodeword`, the bits by `brSkip_apply` and `brSkip_short`. -/
theorem codewordsEmitTheirLeaf : Obligations.CodewordsEmitTheirLeaf := by
  unfold Obligations.CodewordsEmitTheirLeaf
  intro s tr path v hread htree hn hcap hpath
  obtain ⟨root, hroot, hs, -⟩ := htree
  have hne : path ≠ [] := by
    rcases hpath with ⟨-, hlen⟩ | ⟨hne, -⟩
    · rintro rfl
      cases hlen
    · exact hne
  have hword : isCodeword tr path v := by
    rcases hpath with ⟨rfl, hlen⟩ | ⟨-, hleads⟩
    · exact ⟨hlen, rfl⟩
    · cases tr with
      | leaf w => exact absurd (leadsTo_leaf.1 hleads).1 hne
      | node l r => exact hleads
  obtain ⟨leaf, k, hleaf, hat⟩ := codewordLeaf_of_isCodeword hs hword
  have hexec : exec (.codeword path) s = runOp (acceptCodeword path) s := runOp_writeOrRead_reads hread _ _
  have hacc := acceptCodeword_apply hroot ⟨hn, hcap⟩ hleaf
  rw [hexec]
  refine ⟨fun hroom => ?_, fun hshort => ?_⟩
  · obtain ⟨w, hw⟩ := walkedTo_apply s.tree root leaf (s.setBr { s.br with pos := s.br.pos + path.length })
    rw [bind_ok (brSkip_apply _ s hroom), bind_ok hw, putSymbol_apply, hat] at hacc
    exact ⟨_, runOp_of_ok hacc, rfl, rfl, rfl, readByte_tableSet_self _ _ _ _ _,
      fun a ha => readByte_tableSet_of_ne _ _ _ _ ha⟩
  · obtain ⟨p, hp⟩ := brSkip_short (List.length_pos_iff.2 hne) hshort
    exact ⟨_, runOp_of_err (hacc.trans (bind_error hp)), tookError_takeError (s.setBr _) _⟩

end Sys2Proof.Machine

/-! The code table (R91, R170 to R172): the code of a value is the path to its leaf. -/

namespace Sys2Proof.Machine

/-- A path of a tree leads to one of its values. -/
theorem mem_treeValues_of_leadsTo {tr : Tree} {path : Bits} {v : Byte} (h : leadsTo tr path v) : v ∈ treeValues tr := by
  induction tr generalizing path with
  | leaf w =>
    obtain ⟨-, rfl⟩ := leadsTo_leaf.1 h
    exact List.mem_singleton_self _
  | node l r ihl ihr =>
    cases path with
    | nil => exact h.elim
    | cons bit path =>
      cases bit with
      | false => exact List.mem_append_left _ (ihl h)
      | true => exact List.mem_append_right _ (ihr h)

/-- `path` is `stem` and then a path to the leaf of value `v`. -/
def leadsOn (tr : Tree) (stem path : Bits) (v : Byte) : Prop := ∃ q, path = stem ++ q ∧ leadsTo tr q v

theorem leadsOn_nil {tr : Tree} {path : Bits} {v : Byte} : leadsOn tr [] path v ↔ leadsTo tr path v :=
  ⟨fun ⟨_, hq, h⟩ => hq ▸ h, fun h => ⟨path, rfl, h⟩⟩

theorem leadsOn_leaf {w v : Byte} {stem path : Bits} : leadsOn (.leaf w) stem path v ↔ path = stem ∧ w = v := by
  constructor
  · rintro ⟨q, rfl, h⟩
    obtain ⟨rfl, rfl⟩ := leadsTo_leaf.1 h
    exact ⟨List.append_nil _, rfl⟩
  · rintro ⟨rfl, rfl⟩
    exact ⟨[], (List.append_nil _).symm, leadsTo_leaf.2 ⟨rfl, rfl⟩⟩

/-- A path through a node goes on to its left or to its right. -/
theorem leadsOn_node {l r : Tree} {stem path : Bits} {v : Byte} : leadsOn (.node l r) stem path v ↔
    leadsOn l (stem ++ [false]) path v ∨ leadsOn r (stem ++ [true]) path v := by
  constructor
  · rintro ⟨q, rfl, h⟩
    cases q with
    | nil => exact h.elim
    | cons bit q =>
      cases bit with
      | false => exact .inl ⟨q, by simp, h⟩
      | true => exact .inr ⟨q, by simp, h⟩
  · rintro (⟨q, rfl, h⟩ | ⟨q, rfl, h⟩)
    · exact ⟨false :: q, by simp, h⟩
    · exact ⟨true :: q, by simp, h⟩

/-- The table after the walk of R170 over a tree with distinct values: for its values the paths, for the others what was there. -/
theorem tableGet_codesInto {tr : Tree} (hnodup : (treeValues tr).Nodup) (stem : Bits) (c : Table Bits) (v : Byte)
    (path : Bits) : tableGet (Tree.codesInto tr stem c) v.toNat = some path ↔
      leadsOn tr stem path v ∨ (v ∉ treeValues tr ∧ tableGet c v.toNat = some path) := by
  induction tr generalizing stem c with
  | leaf w =>
    rw [Tree.codesInto, tableGet_tableSet, leadsOn_leaf, treeValues, List.mem_singleton]
    simp only [BitVec.toNat_inj]
    by_cases h : v = w
    · simp [h, eq_comm]
    · simp [h, Ne.symm h]
  | node l r ihl ihr =>
    obtain ⟨hl, hr, hdisjoint⟩ := List.nodup_append.1 hnodup
    have hnot (h : leadsOn l (stem ++ [false]) path v) : v ∉ treeValues r := by
      obtain ⟨q, -, hq⟩ := h
      exact fun hv => hdisjoint v (mem_treeValues_of_leadsTo hq) v hv rfl
    rw [Tree.codesInto, ihr hr, ihl hl, leadsOn_node, treeValues, List.mem_append, not_or]
    tauto

/-- Settles O44, by the code table of the tree the store holds (`shape_of_isTree`, `tableGet_codesInto`). -/
theorem codesAreThePathsOfTheTree : Obligations.CodesAreThePathsOfTheTree := by
  unfold Obligations.CodesAreThePathsOfTheTree
  refine fun s => ⟨s.setCode (codeTable s.tree.shape), rfl, rfl, fun hnone v => ?_, fun w hlone v path => ?_,
    fun l r htree hnodup v path => ?_⟩
  · show tableGet (codeTable s.tree.shape) v = none
    rw [shape_of_isTree hnone]
    rfl
  · show tableGet (codeTable s.tree.shape) v.toNat = some path ↔ _
    rw [shape_of_isTree hlone, codeTable, tableGet]
    simp only [BitVec.toNat_inj]
    by_cases h : v = w
    · simp [h, eq_comm]
    · simp [h, tableGet]
  · show tableGet (codeTable s.tree.shape) v.toNat = some path ↔ _
    rw [shape_of_isTree htree, codeTable, tableGet_codesInto hnodup, leadsOn_nil]
    exact or_iff_left fun h => nomatch h.2

end Sys2Proof.Machine

/-! The bit writer and the bit reader (R101, R102, R108 to R111, R120, R141): the single operations, and the law that one reads back
what the other has written (R113). -/

namespace Sys2Proof.Machine

-- One bit --------------------------------------------------------------------------------------------------------------

/-- Settles O20: each of the three is one update of registers. -/
theorem initialisationsSetTheirRegisters : Obligations.InitialisationsSetTheirRegisters := by
  unfold Obligations.InitialisationsSetTheirRegisters
  intro s
  have hbw : exec .bwInit s = runOp bwInit s := rfl
  have hwin : exec .winInit s = runOp winInit s := rfl
  have hte : exec .teInit s = runOp teInit s := rfl
  exact ⟨hbw.trans (runOp_of_ok (bwInit_apply s)), hwin.trans (runOp_of_ok (winInit_apply s)), hte.trans (runOp_of_ok rfl)⟩

/-- `BW_ACC | (b << (7 - BW_CNT))`, with the bit as a byte (R102). -/
theorem bitInto_eq (acc : Byte) (cnt : Nat) (b : Bool) :
    bitInto acc cnt b = acc ||| ((if b then 1 else 0 : Byte) <<< (7 - cnt)) := by
  cases b <;> rfl

/-- Settles O21, by the three cases of `bwPutBit_apply`. -/
theorem putBitFillsAByteFromBitSeven : Obligations.PutBitFillsAByteFromBitSeven := by
  unfold Obligations.PutBitFillsAByteFromBitSeven
  intro s b acc hacc
  rw [← bitInto_eq] at hacc
  have hput := bwPutBit_apply b s
  rw [← hacc] at hput
  refine ⟨fun hcnt => ?_, fun hcnt hroom => ?_, fun hcnt hfull => ?_⟩
  · exact runOp_of_ok (hput.trans (if_neg hcnt))
  · rw [if_pos hcnt, if_pos hroom] at hput
    exact ⟨_, runOp_of_ok hput, rfl, rfl, readByte_tableSet_self _ _ _ _ _, fun a ha => readByte_tableSet_of_ne _ _ _ _ ha⟩
  · rw [if_pos hcnt, if_neg (Nat.not_lt.2 hfull)] at hput
    exact ⟨_, runOp_of_err hput, tookError_takeError (s.setBw _) _, rfl⟩

theorem exec_brInit {start limit : Nat} {err : ErrKind} {s : State} (h : start ≤ limit ∧ limit ≤ 8 * s.host.inLen) :
    exec (.brInit start limit err) s = .next (s.setBr { pos := start, limit := limit, err := err }) :=
  runOp_of_ok ((brInit_apply start limit err s).trans (if_pos h))

/-- Below the limit the next bit is delivered (R108, R110). -/
theorem exec_brGetBit {s : State} (h : s.br.pos < s.br.limit) :
    exec .brGetBit s = .next ((s.setBr { s.br with pos := s.br.pos + 1 }).withResult (.bit (s.inBit s.br.pos))) :=
  runRes_of_ok ((brGetBit_apply s).trans (if_pos h))

/-- At the limit the reader stops where it stands (R110). -/
theorem exec_brGetBit_end {s : State} (h : s.br.limit ≤ s.br.pos) : exec .brGetBit s = .next (s.takeError s.br.err) :=
  runRes_of_err ((brGetBit_apply s).trans (if_neg (Nat.not_lt.2 h)))

/-- Settles O25, by the two cases of `brInit_apply` and those of `brGetBit_apply`. -/
theorem readerDeliversTheNextBit : Obligations.ReaderDeliversTheNextBit := by
  unfold Obligations.ReaderDeliversTheNextBit
  refine fun s start limit err => ⟨fun hstart hlimit => exec_brInit ⟨hstart, hlimit⟩, fun hbad => ?_, exec_brGetBit,
    fun hend => ⟨_, exec_brGetBit_end hend, tookError_takeError s _, rfl⟩⟩
  have hrun : brInit start limit err s = .error (.refuse (.precondition "BR_INIT")) s :=
    (brInit_apply start limit err s).trans (if_neg hbad)
  show runOp (brInit start limit err) s = _
  simp only [runOp, hrun]

-- Several bits ---------------------------------------------------------------------------------------------------------

theorem getElem?_natBits {n k : Nat} (v : Nat) (h : k < n) : (natBits n v)[k]? = some (v.testBit (n - 1 - k)) := by
  induction n generalizing k with
  | zero => exact absurd h (Nat.not_lt_zero k)
  | succ n ih =>
    cases k with
    | zero => rfl
    | succ k =>
      rw [natBits, List.getElem?_cons_succ, ih (by omega)]
      congr 2
      omega

theorem getElem?_inBits (s : State) {n k : Nat} (q : Nat) (h : k < n) : (s.inBits q n)[k]? = some (s.inBit (q + k)) := by
  induction n generalizing k q with
  | zero => exact absurd h (Nat.not_lt_zero k)
  | succ n ih =>
    cases k with
    | zero => rfl
    | succ k =>
      rw [State.inBits, List.getElem?_cons_succ, ih (q + 1) (by omega)]
      congr 2
      omega

/-- In the number that bits of `IN` spell the first bit is the highest (R111). -/
theorem testBit_bitsNat_inBits (s : State) {n k : Nat} (q : Nat) (h : k < n) :
    (bitsNat (s.inBits q n)).testBit (n - 1 - k) = s.inBit (q + k) := by
  have hbits := natBits_bitsNat (s.inBits q n)
  rw [inBits_length] at hbits
  exact Option.some.inj ((getElem?_natBits _ h).symm.trans ((congrArg (·[k]?) hbits).trans (getElem?_inBits s q h)))

/-- A value that is not all there: the reader stops, wherever it stood (R110, R111). -/
theorem brGetBitsFrom_short {n : Nat} (v : Nat) {s : State} (hn : n ≠ 0) (h : s.br.limit < s.br.pos + n) :
    ∃ p, brGetBitsFrom n v s = .error (.err s.br.err) (s.setBr { s.br with pos := p }) := by
  by_cases hp : s.br.pos ≤ s.br.limit
  · exact ⟨_, brGetBitsFrom_end n v s h hp⟩
  · obtain ⟨m, rfl⟩ := Nat.exists_eq_succ_of_ne_zero hn
    have hbit : brGetBit s = .error (.err s.br.err) s := (brGetBit_apply s).trans (if_neg (by omega))
    exact ⟨s.br.pos, bind_error hbit⟩

/-- Settles O26: the value is the number its bits spell (`brGetBitsFrom_ok`, `testBit_bitsNat_inBits`). -/
theorem readerDeliversValuesFirstBitHighest : Obligations.ReaderDeliversValuesFirstBitHighest := by
  unfold Obligations.ReaderDeliversValuesFirstBitHighest
  refine fun s n => ⟨fun hroom => ?_, fun hn hshort => ?_⟩
  · have hget : brGetBits n s = .ok (bitsNat (s.inBits s.br.pos n)) (s.setBr { s.br with pos := s.br.pos + n }) := by
      rcases hroom with rfl | hroom
      · rfl
      · exact brGetBitsFrom_ok n 0 s hroom
    have hlt := bitsNat_lt (s.inBits s.br.pos n)
    rw [inBits_length] at hlt
    exact ⟨_, hlt, fun k hk => testBit_bitsNat_inBits s _ hk, runRes_of_ok hget⟩
  · obtain ⟨p, hget⟩ := brGetBitsFrom_short 0 hn hshort
    exact ⟨_, runRes_of_err (x := brGetBits n) hget, tookError_takeError (s.setBr _) _⟩

-- Written and read back ------------------------------------------------------------------------------------------------

/-- One BW_PUT_BIT after the other is the one string of their bits, and what follows it goes on from there. -/
theorem execAll_bwPutBits {bits : Bits} {s t : State} (h : bwPutAll bits s = .ok () t) (is : List Instr) :
    execAll (bits.map Instr.bwPutBit ++ is) s = execAll is t := by
  induction bits generalizing s with
  | nil => cases h; rfl
  | cons b bits ih =>
    rw [bwPutAll_cons] at h
    obtain ⟨⟨⟩, u, hb, hbits⟩ := bind_eq_ok.1 h
    have hexec : exec (.bwPutBit b) s = .next u := runOp_of_ok hb
    rw [List.map_cons, List.cons_append, execAll_cons hexec, ih hbits]

/-- Bits written from an empty writer and aligned are the whole bytes of their padded string (R102, R104, R113). -/
theorem execAll_writeBits {bits : Bits} {s : State} (hroom : s.out.ptr + ceil8 bits.length ≤ s.caps.outCap) :
    ∃ t, execAll (.bwInit :: bits.map Instr.bwPutBit ++ [.bwAlign]) s = .next t ∧ t.host = s.host ∧
      t.out.ptr = s.out.ptr + ceil8 bits.length ∧
      bytesBits (bytesFrom t.outByte s.out.ptr (ceil8 bits.length)) = padded bits := by
  obtain ⟨t, ht, hx, hbw, hptr⟩ := putPadded_wrote_aligned (bits := bits) (s := s.setBw { acc := 0, cnt := 0 }) rfl hroom
  change t.out.ptr = s.out.ptr + ceil8 bits.length at hptr
  refine ⟨t, ?_, by rw [hx.frame]; rfl, hptr, ?_⟩
  · obtain ⟨⟨⟩, u, hu, halign⟩ := bind_eq_ok.1 ht
    have hinit : exec .bwInit s = .next (s.setBw { acc := 0, cnt := 0 }) := runOp_of_ok (bwInit_apply s)
    have hlast : exec .bwAlign u = .next t := runOp_of_ok halign
    rw [List.cons_append, execAll_cons hinit, execAll_bwPutBits hu, execAll_cons hlast]
    rfl
  · have hold : (s.setBw { acc := 0, cnt := 0 }).bitsFrom s.out.ptr = [] := by
      rw [bitsFrom_of_aligned rfl]
      show bytesBits (bytesFrom _ _ (s.out.ptr - s.out.ptr)) = []
      rw [Nat.sub_self]
      rfl
    have hbits := hx.appended s.out.ptr (Nat.le_refl _)
    rwa [hold, List.nil_append, bitsFrom_of_aligned hbw, hptr, Nat.add_sub_cancel_left] at hbits

/-- Whole bytes of `IN` as bits. -/
theorem inBits_bytes (s : State) (a n : Nat) : s.inBits (8 * a) (8 * n) = bytesBits (bytesFrom s.inByte a n) := by
  induction n generalizing a with
  | zero => rfl
  | succ n ih =>
    rw [show 8 * (n + 1) = 8 + 8 * n by ring, inBits_add, inBits_byte, show 8 * a + 8 = 8 * (a + 1) by ring, ih]
    rfl

/-- Bits whose padded string stands at a byte of `IN` stand there themselves. -/
theorem inBits_of_padded {s : State} {a : Nat} {bits : Bits}
    (h : bytesBits (bytesFrom s.inByte a (ceil8 bits.length)) = padded bits) : s.inBits (8 * a) bits.length = bits := by
  have hlen : 8 * ceil8 bits.length = bits.length + padCount bits.length := by
    unfold padCount ceil8
    omega
  rw [← inBits_bytes, hlen, inBits_add, padded] at h
  exact (List.append_inj h (inBits_length _ _ _)).1

/-- The bits of `IN` do not depend on the latest returned value. -/
@[simp] theorem inBits_withResult (s : State) (r : OpResult) (q n : Nat) : (s.withResult r).inBits q n = s.inBits q n :=
  inBits_congr (s := s.withResult r) (t := s) (fun _ => rfl) _ _

/-- A call of BR_GET_BIT that goes on with the call, and those after it. -/
theorem readBits_succ {n : Nat} {s t u : State} {b : Bool} {bs : Bits} (hbit : exec .brGetBit s = .next t)
    (hresult : t.env.result = .bit b) (hon : t.seq = s.seq ∧ t.host = s.host) (hrest : readBits n t = some (bs, u)) :
    readBits (n + 1) s = some (b :: bs, u) := by
  simp only [readBits, hbit, hresult, hrest]
  exact if_pos hon

/-- `n` calls of BR_GET_BIT with `n` bits left deliver the bits from the reader's position on. -/
theorem readBits_of_room {n : Nat} {s : State} (h : s.br.pos + n ≤ s.br.limit) :
    ∃ t, readBits n s = some (s.inBits s.br.pos n, t) ∧ t.br = { s.br with pos := s.br.pos + n } := by
  induction n generalizing s with
  | zero => exact ⟨s, rfl, rfl⟩
  | succ n ih =>
    obtain ⟨t, ht, hbr⟩ := ih (s := (s.setBr { s.br with pos := s.br.pos + 1 }).withResult (.bit (s.inBit s.br.pos)))
      (show s.br.pos + 1 + n ≤ s.br.limit by omega)
    rw [inBits_withResult, inBits_setBr] at ht
    refine ⟨t, readBits_succ (exec_brGetBit (by omega)) rfl ⟨rfl, rfl⟩ ht, hbr.trans ?_⟩
    rw [← Nat.add_assoc, Nat.add_right_comm]
    rfl

/-- Settles O27: the written bytes spell the padded string (`execAll_writeBits`), whose bits the reader delivers up to the end of its
region (`readBits_of_room`, `exec_brGetBit_end`). -/
theorem writtenBitsReadBack : Obligations.WrittenBitsReadBack := by
  unfold Obligations.WrittenBitsReadBack
  rintro bits e s p rfl hroom
  obtain ⟨t, ht, hhost, hptr, hbytes⟩ := execAll_writeBits hroom
  refine ⟨t, ht, hhost, fun u hsame hlen => ?_⟩
  have hgiven : bytesFrom u.inByte s.out.ptr (ceil8 bits.length) = bytesFrom t.outByte s.out.ptr (ceil8 bits.length) :=
    bytesFrom_congr fun a ha ha' => hsame a ha (by omega)
  have hbits : u.inBits (8 * s.out.ptr) bits.length = bits := inBits_of_padded (hgiven ▸ hbytes)
  have hregion : 8 * s.out.ptr + bits.length ≤ 8 * u.host.inLen := by
    unfold ceil8 at hptr
    omega
  obtain ⟨w, hread, hbr⟩ := readBits_of_room (n := bits.length)
    (s := u.setBr { pos := 8 * s.out.ptr, limit := 8 * s.out.ptr + bits.length, err := e }) (Nat.le_refl _)
  have hlimit : w.br.limit ≤ w.br.pos := by rw [hbr]; exact Nat.le_refl _
  have herr : w.br.err = e := by rw [hbr]; rfl
  refine ⟨_, w, _, exec_brInit ⟨Nat.le_add_right _ _, hregion⟩, hread.trans ?_, exec_brGetBit_end hlimit,
    herr ▸ tookError_takeError w _⟩
  rw [inBits_setBr]
  exact congrArg (fun bs => some (bs, w)) hbits

end Sys2Proof.Machine

/-! The match finder against the reference search (R124 to R126): the window gives the candidate lengths of the input, and the search
keeps the nearest of the longest. -/

namespace Sys2Proof.Machine

-- Candidate lengths -------------------------------------------------------------------------------------------------------

/-- A run stops at the first byte that differs, or after `n` bytes. -/
theorem refRun_spec (inp : List Byte) (c d k n : Nat) :
    refRun inp c d k n ≤ n ∧
    (∀ j, j < refRun inp c d k n → byteAt inp (c + (k + j)) = byteAt inp (c - d + (k + j))) ∧
    (refRun inp c d k n < n →
      byteAt inp (c + (k + refRun inp c d k n)) ≠ byteAt inp (c - d + (k + refRun inp c d k n))) := by
  induction n generalizing k with
  | zero => exact ⟨Nat.le_refl _, fun _ hj => absurd hj (Nat.not_lt_zero _), fun h => absurd h (Nat.lt_irrefl _)⟩
  | succ n ih =>
    simp only [refRun]
    split
    · next heq =>
      obtain ⟨hle, hrun, hstop⟩ := ih (k + 1)
      refine ⟨Nat.succ_le_succ hle, fun j hj => ?_, fun hlt => ?_⟩
      · cases j with
        | zero => exact heq
        | succ j =>
          rw [← Nat.add_assoc k, Nat.add_right_comm k]
          exact hrun j (Nat.lt_of_succ_lt_succ hj)
      · rw [← Nat.add_assoc k, Nat.add_right_comm k]
        exact hstop (Nat.lt_of_succ_lt_succ hlt)
    · next hne => exact ⟨Nat.zero_le _, fun _ hj => absurd hj (Nat.not_lt_zero _), fun _ => hne⟩

/-- `refL` is the candidate length of R124, in any space that holds the input. -/
theorem isCandidateLength_refL {f : Nat → Byte} {inp : List Byte} (hf : ∀ a, a < inp.length → f a = byteAt inp a)
    (c d : Nat) : isCandidateLength f inp.length c d (refL inp c d) := by
  obtain ⟨hle, hrun, hstop⟩ := refRun_spec inp c d 0 (min Config.maxMatch (inp.length - c))
  simp only [Nat.zero_add] at hrun hstop
  have hleft : refL inp c d ≤ inp.length - c := Nat.le_trans hle (Nat.min_le_right _ _)
  refine ⟨hle, fun k hk => ?_, fun hlt => ?_⟩
  · rw [hf _ (by omega), hf _ (by omega)]
    exact hrun k hk
  · rw [hf _ (by omega), hf _ (by omega)]
    exact hstop hlt

/-- R124 fixes the candidate length: of two, the shorter would end at a byte that agrees. -/
theorem isCandidateLength_unique {f : Nat → Byte} {n c d l l' : Nat} (h : isCandidateLength f n c d l)
    (h' : isCandidateLength f n c d l') : l = l' := by
  obtain ⟨hle, hrun, hstop⟩ := h
  obtain ⟨hle', hrun', hstop'⟩ := h'
  rcases Nat.lt_trichotomy l l' with hlt | heq | hgt
  · exact absurd (hrun' l hlt) (hstop (by omega))
  · exact heq
  · exact absurd (hrun l' hgt) (hstop' (by omega))

-- The nearest of the longest ----------------------------------------------------------------------------------------------

/-- `best` is the largest of the lengths `L 1 .. L m` with the smallest distance that attains it; 0 and 0 if all are 0 (R126). -/
structure NearestLongest (L : Nat → Nat) (m : Nat) (best : Nat × Nat) : Prop where
  longest : ∀ d, 1 ≤ d → d ≤ m → L d ≤ best.1
  nearest : ∀ d, 1 ≤ d → d ≤ m → L d = best.1 → 0 < best.1 → best.2 ≤ d
  attained : 0 < best.1 → 1 ≤ best.2 ∧ best.2 ≤ m ∧ L best.2 = best.1
  none : best.1 = 0 → best.2 = 0

theorem NearestLongest.zero (L : Nat → Nat) : NearestLongest L 0 (0, 0) where
  longest _ h1 hd := absurd hd (by omega)
  nearest _ h1 hd := absurd hd (by omega)
  attained h := absurd h (Nat.lt_irrefl 0)
  none _ := rfl

/-- The next distance replaces the best only if it is strictly longer. -/
theorem NearestLongest.next {L : Nat → Nat} {m : Nat} {best : Nat × Nat} (h : NearestLongest L m best) :
    NearestLongest L (m + 1) (if L (m + 1) > best.1 then (L (m + 1), m + 1) else best) := by
  have hlast : ∀ d, d ≤ m + 1 → d ≤ m ∨ d = m + 1 := fun d hd => by omega
  split
  · next hlonger =>
    refine ⟨fun d h1 hd => ?_, fun d h1 hd heq _ => ?_, fun _ => ⟨Nat.succ_pos m, Nat.le_refl _, rfl⟩, fun h0 => ?_⟩
    · rcases hlast d hd with hm | rfl
      · exact Nat.le_trans (h.longest d h1 hm) (Nat.le_of_lt hlonger)
      · exact Nat.le_refl _
    · rcases hlast d hd with hm | rfl
      · exact absurd heq (Nat.ne_of_lt (Nat.lt_of_le_of_lt (h.longest d h1 hm) hlonger))
      · exact Nat.le_refl _
    · exact absurd h0 (Nat.ne_of_gt (Nat.zero_lt_of_lt hlonger))
  · next hkept =>
    refine ⟨fun d h1 hd => ?_, fun d h1 hd heq hpos => ?_, fun hpos => ?_, h.none⟩
    · rcases hlast d hd with hm | rfl
      · exact h.longest d h1 hm
      · exact Nat.not_lt.1 hkept
    · rcases hlast d hd with hm | rfl
      · exact h.nearest d h1 hm heq hpos
      · exact Nat.le_succ_of_le (h.attained hpos).2.1
    · obtain ⟨h1, hm, heq⟩ := h.attained hpos
      exact ⟨h1, Nat.le_succ_of_le hm, heq⟩

theorem refSearch_nearestLongest (inp : List Byte) (c m n : Nat) {best : Nat × Nat}
    (h : NearestLongest (refL inp c) m best) :
    NearestLongest (refL inp c) (m + n) (refSearch inp c (m + 1) n best) := by
  induction n generalizing m best with
  | zero => exact h
  | succ n ih =>
    rw [Nat.add_comm n 1, ← Nat.add_assoc, Nat.add_comm 1 n]
    exact ih (m + 1) h.next

/-- The reference search finds the nearest of the longest candidates (R126). -/
theorem refBest_nearestLongest (inp : List Byte) (c : Nat) :
    NearestLongest (refL inp c) (min c 4096) (refBest inp c) := by
  have h := refSearch_nearestLongest inp c 0 (min c 4096) (.zero _)
  rwa [Nat.zero_add] at h

-- The machine's search ----------------------------------------------------------------------------------------------------

theorem byteAt_bytesFrom (f : Nat → Byte) (a : Nat) {n i : Nat} (h : i < n) : byteAt (bytesFrom f a n) i = f (a + i) := by
  induction n generalizing a i with
  | zero => exact absurd h (Nat.not_lt_zero _)
  | succ n ih =>
    cases i with
    | zero => rfl
    | succ i =>
      rw [← Nat.add_assoc, Nat.add_right_comm, ← ih (a + 1) (Nat.lt_of_succ_lt_succ h)]
      rfl

@[simp] theorem input_length (s : State) : s.input.length = s.host.inLen := bytesFrom_length _ _ _

@[simp] theorem consumed_length (s : State) : s.consumed.length = s.finder.cur := bytesFrom_length _ _ _

theorem byteAt_input {s : State} {i : Nat} (h : i < s.host.inLen) : byteAt s.input i = s.inByte i :=
  (byteAt_bytesFrom _ _ h).trans (by rw [Nat.zero_add])

theorem byteAt_consumed {s : State} {i : Nat} (h : i < s.finder.cur) : byteAt s.consumed i = s.inByte i :=
  (byteAt_bytesFrom _ _ h).trans (by rw [Nat.zero_add])

/-- Where `k` bytes repeat those `d` before them, the byte `k mod d` past `c - d` is the byte `k` past it (R125). -/
theorem byteAt_mod_of_repeats {inp : List Byte} {c d : Nat} (h1 : 1 ≤ d) (hd : d ≤ c) {k : Nat}
    (hrep : ∀ j, j < k → byteAt inp (c + j) = byteAt inp (c - d + j)) :
    byteAt inp (c - d + k % d) = byteAt inp (c - d + k) := by
  induction k using Nat.strong_induction_on with
  | _ k ih =>
    rcases Nat.lt_or_ge k d with hlt | hge
    · rw [Nat.mod_eq_of_lt hlt]
    · obtain ⟨j, rfl⟩ : ∃ j, k = d + j := ⟨k - d, by omega⟩
      calc byteAt inp (c - d + (d + j) % d)
          = byteAt inp (c - d + j % d) := by rw [Nat.add_mod_left]
        _ = byteAt inp (c - d + j) := ih j (by omega) fun i hi => hrep i (by omega)
        _ = byteAt inp (c + j) := (hrep j (by omega)).symm
        _ = byteAt inp (c - d + (d + j)) := by rw [show c - d + (d + j) = c + j by omega]

section Search

variable {s : State} (hw : s.windowHolds s.consumed)
include hw

theorem fill_of_windowHolds_consumed : s.win.fill = min s.finder.cur 4096 := by
  rw [hw.2.1, consumed_length]

/-- The candidate byte read from the window is the one `d` before in the input, as long as all before it agreed (R125). -/
theorem src_eq_byteAt (hle : s.finder.cur ≤ s.host.inLen) {d k : Nat} (h1 : 1 ≤ d) (hd : d ≤ min s.finder.cur 4096)
    (hrep : ∀ j, j < k → byteAt s.input (s.finder.cur + j) = byteAt s.input (s.finder.cur - d + j)) :
    s.src d k = byteAt s.input (s.finder.cur - d + k) := by
  have hmod : k % d < d := Nat.mod_lt _ h1
  have hfill := fill_of_windowHolds_consumed hw
  calc s.src d k
      = byteAt s.consumed (s.consumed.length - (d - k % d)) := winBack_of_windowHolds hw (by omega) (by omega)
    _ = s.inByte (s.finder.cur - d + k % d) := by
        rw [consumed_length, byteAt_consumed (by omega)]
        congr 1
        omega
    _ = byteAt s.input (s.finder.cur - d + k % d) := (byteAt_input (by omega)).symm
    _ = byteAt s.input (s.finder.cur - d + k) := byteAt_mod_of_repeats h1 (by omega) hrep

theorem runFrom_eq_refRun {d k n : Nat} (h1 : 1 ≤ d) (hd : d ≤ min s.finder.cur 4096)
    (hle : s.finder.cur + k + n ≤ s.host.inLen)
    (hrep : ∀ j, j < k → byteAt s.input (s.finder.cur + j) = byteAt s.input (s.finder.cur - d + j)) :
    s.runFrom d k n = refRun s.input s.finder.cur d k n := by
  induction n generalizing k with
  | zero => rfl
  | succ n ih =>
    simp only [State.runFrom, refRun]
    rw [src_eq_byteAt hw (by omega) h1 hd hrep, ← byteAt_input (show s.finder.cur + k < s.host.inLen by omega)]
    split
    · next heq =>
      rw [ih (by omega) fun j hj => ?_]
      rcases Nat.eq_or_lt_of_le (Nat.le_of_lt_succ hj) with rfl | hlt
      · exact heq
      · exact hrep j hlt
    · rfl

theorem candidate_eq_refL (hle : s.finder.cur ≤ s.host.inLen) {d : Nat} (h1 : 1 ≤ d) (hd : d ≤ min s.finder.cur 4096) :
    s.candidate d = refL s.input s.finder.cur d := by
  have hmax : s.maxLen ≤ s.host.inLen - s.finder.cur := Nat.min_le_right _ _
  rw [State.candidate, refL, input_length]
  exact runFrom_eq_refRun hw h1 hd (by omega) fun _ hj => absurd hj (Nat.not_lt_zero _)

theorem searchFrom_eq_refSearch (hle : s.finder.cur ≤ s.host.inLen) {d n : Nat} (h1 : 1 ≤ d)
    (hd : d + n ≤ min s.finder.cur 4096 + 1) (best : Nat × Nat) :
    s.searchFrom d n best = refSearch s.input s.finder.cur d n best := by
  induction n generalizing d best with
  | zero => rfl
  | succ n ih =>
    simp only [State.searchFrom, refSearch]
    rw [candidate_eq_refL hw hle h1 (by omega), ih (by omega) (by omega)]

/-- The machine's search through the window is the reference search through the input. -/
theorem bestMatch_eq_refBest (hle : s.finder.cur ≤ s.host.inLen) : s.bestMatch = refBest s.input s.finder.cur := by
  rw [State.bestMatch, fill_of_windowHolds_consumed hw]
  exact searchFrom_eq_refSearch hw hle (Nat.le_refl 1) (by omega) _

end Search

/-- Settles O29: the machine's search is the reference search (`bestMatch_eq_refBest`), which finds the nearest of the longest
(`refBest_nearestLongest`) of the lengths that R124 fixes (`isCandidateLength_unique`). -/
theorem searchFindsTheNearestLongestMatch : Obligations.SearchFindsTheNearestLongestMatch := by
  unfold Obligations.SearchFindsTheNearestLongestMatch
  refine fun s => ⟨_, runOp_of_ok (mfSearch_apply s), rfl, rfl, fun hw hle => ?_⟩
  have hbest : NearestLongest (refL s.input s.finder.cur) (min s.finder.cur 4096) s.bestMatch :=
    bestMatch_eq_refBest hw hle ▸ refBest_nearestLongest _ _
  have hL : ∀ d, isCandidateLength s.inByte s.host.inLen s.finder.cur d (refL s.input s.finder.cur d) := fun d =>
    input_length s ▸ isCandidateLength_refL (fun a ha => (byteAt_input (input_length s ▸ ha)).symm) _ d
  refine ⟨fun d l h1 hd hl => ?_, fun hpos => ?_, hbest.none⟩
  · obtain rfl := isCandidateLength_unique hl (hL d)
    exact ⟨hbest.longest d h1 hd, fun heq hpos => hbest.nearest d h1 hd heq (Nat.lt_of_lt_of_eq hpos heq)⟩
  · obtain ⟨h1, hd, heq⟩ := hbest.attained hpos
    exact ⟨h1, hd, heq ▸ hL _⟩

end Sys2Proof.Machine

/-! `MF_STEP` (R127, R128): the greedy token, its bytes into the window, the cursor over it. -/

namespace Sys2Proof.Machine

/-- How many bytes `MF_STEP` steps over (R127). -/
def State.stepLen (s : State) : Nat := if 3 ≤ s.bestMatch.1 then s.bestMatch.1 else 1

/-- The greedy token (R127). -/
def State.stepToken (s : State) : Token :=
  if 3 ≤ s.bestMatch.1 then .mat s.bestMatch.2 s.bestMatch.1 else .lit (s.inByte s.finder.cur)

/-- The state after `MF_STEP` (R128). -/
def State.overToken (s : State) : State :=
  (s.setFinder { cur := s.finder.cur + s.stepLen, bestLen := s.bestMatch.1, bestOff := s.bestMatch.2 }).setWin
    (s.winInput s.win 0 s.stepLen)

/-- The two ends of `mfStep_apply` in one: a Literal takes one input byte into the window as a Match takes its length. -/
theorem mfStep_ends {s : State} (h : s.finder.cur < s.host.inLen) : mfStep s = .ok s.stepToken s.overToken := by
  rw [mfStep_apply h, State.stepToken, State.overToken, State.stepLen]
  by_cases hm : 3 ≤ s.bestMatch.1
  · rw [if_pos hm, if_pos hm, if_pos hm]
    rfl
  · rw [if_neg hm, if_neg hm, if_neg hm]
    rfl

theorem mfStep_refuses {s : State} (h : s.host.inLen ≤ s.finder.cur) :
    mfStep s = .error (.refuse (.precondition "MF_STEP")) s := by
  simp only [mfStep, look_bind, need_bind, id_eq, if_neg (Nat.not_lt.2 h)]

theorem stepToken_eq_refToken {s : State} (hw : s.windowHolds s.consumed) (h : s.finder.cur < s.host.inLen) :
    s.stepToken = refToken s.input s.finder.cur := by
  rw [State.stepToken, refToken, ← bestMatch_eq_refBest hw (Nat.le_of_lt h), byteAt_input h]

/-- The token lies in the input: a match is no longer than what is left. -/
theorem stepLen_le {s : State} (h : s.finder.cur < s.host.inLen) : s.finder.cur + s.stepLen ≤ s.host.inLen := by
  obtain ⟨-, hleft, -⟩ := bestMatch_bounds s
  rw [State.stepLen]
  split <;> omega

/-- The window after input bytes holds them behind those it held (R41). -/
theorem windowHolds_winInput {s : State} {w : Window} {p : List Byte} (h : (s.setWin w).windowHolds p) (k n : Nat) :
    (s.setWin (s.winInput w k n)).windowHolds (p ++ bytesFrom s.inByte (s.finder.cur + k) n) := by
  induction n generalizing w p k with
  | zero => rwa [bytesFrom, List.append_nil]
  | succ n ih =>
    rw [bytesFrom, ← List.singleton_append, ← List.append_assoc]
    exact ih (windowHolds_put h _) (k + 1)

theorem overToken_windowHolds {s : State} (hw : s.windowHolds s.consumed) :
    s.overToken.windowHolds s.overToken.consumed := by
  have hconsumed : s.overToken.consumed = s.consumed ++ bytesFrom s.inByte s.finder.cur s.stepLen :=
    (bytesFrom_add s.inByte 0 s.finder.cur s.stepLen).trans (by rw [Nat.zero_add]; rfl)
  rw [hconsumed]
  exact windowHolds_winInput (w := s.win) hw 0 s.stepLen

/-- Settles O30, by where `MF_STEP` ends with input left (`mfStep_ends`), and by its refusal. -/
theorem finderStepsOverOneToken : Obligations.FinderStepsOverOneToken := by
  unfold Obligations.FinderStepsOverOneToken
  refine fun s => ⟨fun hw hlt => ?_, fun hend => ?_⟩
  · exact ⟨_, _, s.stepLen, runOp_of_ok (mfSearch_apply s), runRes_of_ok (x := mfStep) (mfStep_ends hlt), rfl, rfl,
      congrArg OpResult.token (stepToken_eq_refToken hw hlt), rfl, stepLen_le hlt, overToken_windowHolds hw, rfl⟩
  · show runRes mfStep .token s = _
    simp only [runRes, mfStep_refuses hend]

end Sys2Proof.Machine

/-! The tokens of an input (R129, R130): in range where they stand, and their replay is the input. -/

namespace Sys2Proof.Machine

/-- What the greedy choice can be (R127): the Literal at the cursor, or a candidate of 3 bytes or more. -/
theorem refToken_cases (inp : List Byte) (c : Nat) :
    refToken inp c = .lit (byteAt inp c) ∨
    ∃ o l, refToken inp c = .mat o l ∧ 1 ≤ o ∧ o ≤ min c 4096 ∧ 3 ≤ l ∧
      isCandidateLength (byteAt inp) inp.length c o l := by
  by_cases hm : (refBest inp c).1 ≥ Config.minMatch
  · have h3 : 3 ≤ (refBest inp c).1 := hm
    obtain ⟨h1, hd, heq⟩ := (refBest_nearestLongest inp c).attained (by omega)
    exact .inr ⟨_, _, if_pos hm, h1, hd, h3, heq ▸ isCandidateLength_refL (fun _ _ => rfl) _ _⟩
  · exact .inl (if_neg hm)

theorem byteAt_take (inp : List Byte) {c i : Nat} (h : i < c) : byteAt (inp.take c) i = byteAt inp i := by
  simp only [byteAt, List.getD_eq_getElem?_getD, List.getElem?_take_of_lt h]

theorem take_append_byteAt {inp : List Byte} {c : Nat} (h : c < inp.length) :
    inp.take c ++ [byteAt inp c] = inp.take (c + 1) := by
  rw [byteAt, List.getD_eq_getElem _ _ h, List.take_concat_get' _ _ h]

/-- A copy of bytes that repeat those `d` before them extends the replayed part of the input by them (R131). -/
theorem copied_take {inp : List Byte} {c d n : Nat} (h1 : 1 ≤ d) (hd : d ≤ c) (hlen : c + n ≤ inp.length)
    (hrep : ∀ k, k < n → byteAt inp (c + k) = byteAt inp (c - d + k)) : copied d n (inp.take c) = inp.take (c + n) := by
  induction n generalizing c with
  | zero => rfl
  | succ n ih =>
    have hback : byteAt (inp.take c) ((inp.take c).length - d) = byteAt inp c := by
      rw [List.length_take_of_le (by omega), byteAt_take _ (by omega)]
      exact (hrep 0 (Nat.succ_pos n)).symm
    rw [copied, hback, take_append_byteAt (by omega), ih (by omega) (by omega) fun k hk => ?_, Nat.add_right_comm]
    · rfl
    · rw [show c + 1 + k = c + (k + 1) by omega, show c + 1 - d + k = c - d + (k + 1) by omega]
      exact hrep (k + 1) (Nat.succ_lt_succ hk)

theorem replayed_cons (t : Token) (ts : List Token) (out : List Byte) :
    replayed (t :: ts) out = replayed ts (replayed [t] out) := by
  cases t <;> rfl

/-- The token at a cursor in the input fits there, spans bytes of the input, and replays them (R130, R131, R132). -/
theorem refToken_replays {inp : List Byte} {c : Nat} (h : c < inp.length) :
    tokenFits c (refToken inp c) ∧ 1 ≤ tokenSpan (refToken inp c) ∧ c + tokenSpan (refToken inp c) ≤ inp.length ∧
    replayed [refToken inp c] (inp.take c) = inp.take (c + tokenSpan (refToken inp c)) := by
  obtain hlit | ⟨o, l, hmat, h1, hd, h3, hle, hrep, -⟩ := refToken_cases inp c
  · rw [hlit]
    exact ⟨trivial, Nat.le_refl 1, h, take_append_byteAt h⟩
  · have hlen : c + l ≤ inp.length := by omega
    rw [hmat]
    exact ⟨⟨h1, hd, h3, by omega⟩, Nat.le_trans (by decide) h3, hlen, copied_take h1 (by omega) hlen hrep⟩

/-- The tokens from a cursor on, replayed after the input up to it. -/
theorem refTokens_replay (inp : List Byte) {fuel c : Nat} (hc : c ≤ inp.length) (hfuel : inp.length ≤ c + fuel) :
    tokensFit c (refTokens inp fuel c) ∧ replayed (refTokens inp fuel c) (inp.take c) = inp := by
  induction fuel generalizing c with
  | zero => exact ⟨trivial, List.take_of_length_le hfuel⟩
  | succ fuel ih =>
    rw [refTokens]
    split
    · next hlt =>
      obtain ⟨hfits, hspan, hlen, hreplay⟩ := refToken_replays hlt
      obtain ⟨hrest, hwhole⟩ := ih hlen (by omega)
      exact ⟨⟨hfits, hrest⟩, by rw [replayed_cons, hreplay, hwhole]⟩
    · next hend => exact ⟨trivial, List.take_of_length_le (Nat.not_lt.1 hend)⟩

/-- Settles O31: `refTokens_replay` from the start of the input. -/
theorem tokensReproduceTheInput : Obligations.TokensReproduceTheInput := by
  unfold Obligations.TokensReproduceTheInput
  exact fun inp => refTokens_replay inp (Nat.zero_le _) (Nat.le_add_left _ _)

end Sys2Proof.Machine

/-! Token streams as token sequences (R75 to R81, R150 to R156): which bytes a group is read from, which stream a sequence has, and
the reference decoder as a reading of tokens followed by their replay. -/

namespace Sys2Proof.Machine

-- Flag bytes --------------------------------------------------------------------------------------------------------------

/-- The flag bit of a token: 1 for a Literal, 0 for a Match (R76). -/
def flagBit : Token → Bool
  | .lit _ => true
  | .mat _ _ => false

/-- A flag byte has the flag bit of each token at the place of the token, and 0 everywhere else (R76, R81). -/
theorem getLsbD_flagByte (ts : List Token) (i : Nat) {k : Nat} (hk : k < 8) :
    (flagByte i ts).getLsbD k = (decide (i ≤ k) && ts[k - i]?.any flagBit) := by
  induction ts generalizing i with
  | nil => simp [flagByte]
  | cons t ts ih =>
    have hcons : (decide (i ≤ k) && (t :: ts)[k - i]?.any flagBit) =
        (k == i && flagBit t || (flagByte (i + 1) ts).getLsbD k) := by
      rw [ih]
      rcases Nat.lt_trichotomy k i with hlt | rfl | hgt
      · simp [Nat.not_le.2 hlt, Nat.ne_of_lt hlt, show ¬ i + 1 ≤ k by omega]
      · simp
      · rw [show k - i = k - (i + 1) + 1 by omega]
        simp [Nat.le_of_lt hgt, Nat.ne_of_gt hgt, Nat.succ_le_of_lt hgt]
    rw [hcons]
    cases t with
    | lit b =>
      rw [flagByte, BitVec.getLsbD_or, flagBit, Bool.and_true]
      exact congrArg (· || _) (getLsbD_one_shiftLeft hk i)
    | mat o l => rw [flagByte, flagBit, Bool.and_false, Bool.false_or]

/-- The flag byte of a group is fixed by the flag bits of its tokens and its unused bits being 0 (R81). -/
theorem eq_flagByte {flg : Byte} {ts : List Token} (hflags : ∀ k, k < ts.length → flg.getLsbD k = ts[k]?.any flagBit)
    (hclear : flg.toNat < 2 ^ ts.length) : flg = flagByte 0 ts := by
  refine BitVec.eq_of_getLsbD_eq fun k hk => ?_
  simp only [getLsbD_flagByte ts 0 hk, Nat.zero_le, decide_true, Bool.true_and, Nat.sub_zero]
  rcases Nat.lt_or_ge k ts.length with hlt | hge
  · exact hflags k hlt
  · rw [List.getElem?_eq_none hge]
    exact Nat.testBit_lt_two_pow (Nat.lt_of_lt_of_le hclear (Nat.pow_le_pow_right (by decide) hge))

-- Groups ------------------------------------------------------------------------------------------------------------------

/-- The two bytes of a Match from the fields they were read as (R78, R153). -/
theorem matchBytes_fields (b0 b1 : Byte) :
    matchByte0 (bytesOffsetField b0 b1) = b0 ∧ matchByte1 (bytesOffsetField b0 b1) (byteLengthField b1) = b1 := by
  obtain ⟨h0, h1⟩ := matchBytes_toNat (bytesOffsetField b0 b1) (byteLengthField b1)
  obtain ⟨ho, hl⟩ := matchFields b0 b1
  have hb0 := b0.isLt
  have hb1 := b1.isLt
  have hoff := congrArg BitVec.toNat ho
  have hlen := congrArg BitVec.toNat hl
  rw [BitVec.toNat_ofNat] at hoff hlen
  exact ⟨BitVec.eq_of_toNat_eq (by omega), BitVec.eq_of_toNat_eq (by omega)⟩

/-- The Match two bytes are read as (R153). -/
def readMat (b0 b1 : Byte) : Token := .mat (fieldOffset (bytesOffsetField b0 b1)) (fieldLength (byteLengthField b1))

theorem tokenBytes_readMat (b0 b1 : Byte) : tokenBytes (readMat b0 b1) = [b0, b1] := by
  obtain ⟨h0, h1⟩ := matchBytes_fields b0 b1
  simp only [readMat, tokenBytes, offsetField_fieldOffset, lengthField_fieldLength, h0, h1]

/-- The range of the operands of a Match (R79, R80). -/
theorem matchOperands_iff {o l : Nat} : matchOperands o l = true ↔ 1 ≤ o ∧ o ≤ 4096 ∧ 3 ≤ l ∧ l ≤ 18 := by
  simp only [matchOperands, Bool.and_eq_true, decide_eq_true_eq, and_assoc]

theorem fieldLength_bounds (l : BitVec 4) : 3 ≤ fieldLength l ∧ fieldLength l ≤ 18 := by
  have hl := l.isLt
  show 3 ≤ l.toNat + 3 ∧ l.toNat + 3 ≤ 18
  omega

theorem matchOperands_readMat (b0 b1 : Byte) :
    matchOperands (fieldOffset (bytesOffsetField b0 b1)) (fieldLength (byteLengthField b1)) = true :=
  matchOperands_iff.2 ⟨one_le_fieldOffset _, fieldOffset_le _, fieldLength_bounds _⟩

/-- The last `n` tokens of a group of 8 with flag byte `flg`, as the bytes `T` have them before `T'`: they are `ts`, fewer than `n`
only where the bytes end. -/
structure ReadsGroup (flg : Byte) (n : Nat) (T : List Byte) (ts : List Token) (T' : List Byte) : Prop where
  bytes : T = ts.flatMap tokenBytes ++ T'
  count : ts.length ≤ n
  ended : ts.length < n → T' = []
  flags : ∀ k, k < ts.length → flg.getLsbD (8 - n + k) = ts[k]?.any flagBit
  operands : ∀ o l, .mat o l ∈ ts → matchOperands o l = true

section Group

variable {flg : Byte} {n : Nat} {T T' : List Byte} {t : Token} {ts : List Token}

theorem ReadsGroup.nil (flg : Byte) {n : Nat} {T : List Byte} (h : 0 < n → T = []) : ReadsGroup flg n T [] T where
  bytes := rfl
  count := Nat.zero_le _
  ended := h
  flags _ hk := absurd hk (Nat.not_lt_zero _)
  operands _ _ h := absurd h List.not_mem_nil

/-- The next token of a group and the others. -/
theorem readsGroup_cons (hn : n < 8) : ReadsGroup flg (n + 1) (tokenBytes t ++ T) (t :: ts) T' ↔
    flg.getLsbD (8 - (n + 1)) = flagBit t ∧ (∀ o l, t = .mat o l → matchOperands o l = true) ∧
      ReadsGroup flg n T ts T' := by
  constructor
  · intro h
    refine ⟨h.flags 0 (Nat.succ_pos _), fun o l ht => h.operands o l (ht ▸ List.mem_cons_self), ?_, ?_, ?_, fun k hk => ?_,
      fun o l ht => h.operands o l (List.mem_cons_of_mem t ht)⟩
    · have hbytes := h.bytes
      rwa [List.flatMap_cons, List.append_assoc, List.append_cancel_left_eq] at hbytes
    · exact Nat.le_of_succ_le_succ h.count
    · exact fun hlt => h.ended (Nat.succ_lt_succ hlt)
    · have hflag := h.flags (k + 1) (Nat.succ_lt_succ hk)
      rwa [show 8 - (n + 1) + (k + 1) = 8 - n + k by omega] at hflag
  · rintro ⟨hflag, hoperands, h⟩
    refine ⟨?_, Nat.succ_le_succ h.count, fun hlt => h.ended (Nat.lt_of_succ_lt_succ hlt), fun k hk => ?_, fun o l ht => ?_⟩
    · rw [h.bytes, List.flatMap_cons, List.append_assoc]
    · cases k with
      | zero => exact hflag
      | succ k =>
        rw [show 8 - (n + 1) + (k + 1) = 8 - n + k by omega]
        exact h.flags k (Nat.lt_of_succ_lt_succ hk)
    · rcases List.mem_cons.1 ht with rfl | ht
      · exact hoperands o l rfl
      · exact h.operands o l ht

theorem groupTokens_nil (flg : Byte) (n : Nat) : groupTokens flg n [] = some ([], []) := by cases n <;> rfl

theorem groupTokens_lit (hflag : flg.getLsbD (8 - (n + 1)) = true) (b : Byte) (T : List Byte) :
    groupTokens flg (n + 1) (b :: T) = (groupTokens flg n T).map fun r => (.lit b :: r.1, r.2) := if_pos hflag

theorem groupTokens_mat (hflag : flg.getLsbD (8 - (n + 1)) = false) (b b1 : Byte) (T : List Byte) :
    groupTokens flg (n + 1) (b :: b1 :: T) = (groupTokens flg n T).map fun r => (readMat b b1 :: r.1, r.2) :=
  if_neg (Bool.eq_false_iff.1 hflag)

theorem groupTokens_cut (hflag : flg.getLsbD (8 - (n + 1)) = false) (b : Byte) : groupTokens flg (n + 1) [b] = none :=
  if_neg (Bool.eq_false_iff.1 hflag)

theorem readsGroup_of_groupTokens (hn : n ≤ 8) (h : groupTokens flg n T = some (ts, T')) : ReadsGroup flg n T ts T' := by
  induction n generalizing T ts with
  | zero =>
    cases h
    exact .nil flg fun h => absurd h (Nat.lt_irrefl 0)
  | succ n ih =>
    cases T with
    | nil =>
      cases h
      exact .nil flg fun _ => rfl
    | cons b T =>
      cases hflag : flg.getLsbD (8 - (n + 1)) with
      | true =>
        rw [groupTokens_lit hflag, Option.map_eq_some_iff] at h
        obtain ⟨⟨us, U⟩, hus, hcons⟩ := h
        cases hcons
        exact (readsGroup_cons (t := .lit b) hn).2 ⟨hflag, fun _ _ h => (nomatch h), ih (Nat.le_of_lt hn) hus⟩
      | false =>
        cases T with
        | nil => rw [groupTokens_cut hflag] at h; cases h
        | cons b1 T =>
          rw [groupTokens_mat hflag, Option.map_eq_some_iff] at h
          obtain ⟨⟨us, U⟩, hus, hcons⟩ := h
          cases hcons
          have hread := (readsGroup_cons (t := readMat b b1) hn).2
            ⟨hflag, fun o l h => by cases h; exact matchOperands_readMat b b1, ih (Nat.le_of_lt hn) hus⟩
          rwa [tokenBytes_readMat] at hread

/-- A Match in range is the one its two bytes are read as (R79, R80). -/
theorem readMat_matchBytes {o l : Nat} (h : matchOperands o l = true) :
    readMat (matchByte0 (offsetField o)) (matchByte1 (offsetField o) (lengthField l)) = .mat o l := by
  obtain ⟨ho1, ho2, hl1, hl2⟩ := matchOperands_iff.1 h
  obtain ⟨hoff, hlen⟩ := fields_matchBytes (offsetField o) (lengthField l)
  rw [readMat, hoff, hlen, fieldOffset_offsetField ho1 ho2, (fieldLength_lengthField hl1 hl2).2]

theorem groupTokens_of_readsGroup (hn : n ≤ 8) (h : ReadsGroup flg n T ts T') : groupTokens flg n T = some (ts, T') := by
  induction n generalizing T ts with
  | zero =>
    have hts : ts = [] := List.length_eq_zero_iff.1 (Nat.le_zero.1 h.count)
    rw [h.bytes, hts]
    rfl
  | succ n ih =>
    cases ts with
    | nil => rw [h.bytes, h.ended (Nat.succ_pos n)]; rfl
    | cons t ts =>
      obtain rfl : T = tokenBytes t ++ (ts.flatMap tokenBytes ++ T') := by
        rw [h.bytes, List.flatMap_cons, List.append_assoc]
      obtain ⟨hflag, hoperands, hrest⟩ := (readsGroup_cons hn).1 h
      have hnext := ih (Nat.le_of_lt hn) hrest
      cases t with
      | lit b => exact (groupTokens_lit hflag b _).trans (congrArg (Option.map _) hnext)
      | mat o l =>
        refine (groupTokens_mat hflag _ _ _).trans ((congrArg (Option.map _) hnext).trans ?_)
        rw [readMat_matchBytes (hoperands o l rfl)]
        rfl

/-- A group and what follows it is read as the tokens it was made from (R75, R76). -/
theorem readsGroup_flagByte (hlen : ts.length ≤ 8) (hended : ts.length < 8 → T' = [])
    (hoperands : ∀ o l, .mat o l ∈ ts → matchOperands o l = true) :
    ReadsGroup (flagByte 0 ts) 8 (ts.flatMap tokenBytes ++ T') ts T' where
  bytes := rfl
  count := hlen
  ended := hended
  flags k hk := by
    rw [Nat.sub_self, Nat.zero_add, getLsbD_flagByte ts 0 (by omega)]
    simp
  operands := hoperands

/-- The bytes of a group read whose unused flag bits are 0 (R81, R155). -/
theorem ReadsGroup.groupBytes (h : ReadsGroup flg 8 T ts T') (hclear : flg.toNat < 2 ^ ts.length) :
    flg :: T = groupBytes ts ++ T' := by
  have hflg : flg = flagByte 0 ts := eq_flagByte (fun k hk => by simpa using h.flags k hk) hclear
  rw [hflg, h.bytes]
  rfl

/-- A group of at least one byte has a token. -/
theorem ReadsGroup.ne_nil (h : ReadsGroup flg 8 T ts T') (hT : T ≠ []) : ts ≠ [] := by
  rintro rfl
  exact hT (h.bytes.trans (h.ended (by decide)))

end Group

-- Streams -----------------------------------------------------------------------------------------------------------------

theorem tokensFrom_nil (fuel : Nat) : tokensFrom fuel [] = some [] := by cases fuel <;> rfl

theorem flagsClearFrom_nil (fuel : Nat) : flagsClearFrom fuel [] = true := by cases fuel <;> rfl

/-- What a stream that reads as tokens begins with: a group, and the tokens of the rest. -/
theorem tokensFrom_cons {fuel : Nat} {flg : Byte} {T : List Byte} {ts : List Token} :
    tokensFrom (fuel + 1) (flg :: T) = some ts ↔ T ≠ [] ∧ ∃ g T' us, groupTokens flg 8 T = some (g, T') ∧
      tokensFrom fuel T' = some us ∧ ts = g ++ us := by
  rw [tokensFrom]
  by_cases hT : T = []
  · rw [if_pos hT]
    exact ⟨fun h => (nomatch h), fun h => absurd hT h.1⟩
  · rw [if_neg hT]
    cases hg : groupTokens flg Config.groupSize T with
    | none => exact ⟨fun h => (nomatch h), fun ⟨_, _, _, _, h, _⟩ => (nomatch h)⟩
    | some r =>
      obtain ⟨g, T'⟩ := r
      simp only [Option.map_eq_some_iff, hT, ne_eq, not_false_eq_true, true_and]
      constructor
      · rintro ⟨us, hus, rfl⟩
        exact ⟨g, T', us, rfl, hus, rfl⟩
      · rintro ⟨g', U, us, hg', hus, rfl⟩
        cases hg'
        exact ⟨us, hus, rfl⟩

/-- The stream of a sequence reads as that sequence (R155). -/
theorem tokensFrom_streamOf {ts : List Token} (hoperands : ∀ o l, .mat o l ∈ ts → matchOperands o l = true) {fuel : Nat}
    (hfuel : (streamOf ts).length ≤ fuel) : tokensFrom fuel (streamOf ts) = some ts := by
  induction ts using groups_induction generalizing fuel with
  | nil => exact tokensFrom_nil fuel
  | group ts hne ih =>
    have hsplit : ts.take 8 ++ ts.drop 8 = ts := List.take_append_drop 8 ts
    rw [streamOf_group hne, groupBytes, List.cons_append] at hfuel ⊢
    obtain ⟨fuel, rfl⟩ : ∃ m, fuel = m + 1 := ⟨fuel - 1, by simp only [List.length_cons] at hfuel; omega⟩
    have hgroup : ReadsGroup (flagByte 0 (ts.take 8)) 8 _ (ts.take 8) (streamOf (ts.drop 8)) :=
      readsGroup_flagByte (List.length_take_le 8 ts)
        (fun hlt => by rw [List.drop_eq_nil_of_le (by rw [List.length_take] at hlt; omega)]; rfl)
        fun o l h => hoperands o l (List.mem_of_mem_take h)
    refine tokensFrom_cons.2 ⟨fun hnil => ?_, _, _, _, groupTokens_of_readsGroup (Nat.le_refl 8) hgroup,
      ih (fun o l h => hoperands o l (List.mem_of_mem_drop h)) ?_, hsplit.symm⟩
    · have hbytes := congrArg List.length hnil
      have hpos := List.length_pos_iff.2 hne
      rw [List.length_append, tokenBytes_length, List.length_take, List.length_nil] at hbytes
      omega
    · simp only [List.length_cons, List.length_append] at hfuel
      omega

/-- The stream of a group and of the tokens after it, none if the group is not whole. -/
theorem streamOf_group_append {g us : List Token} (hne : g ≠ []) (hlen : g.length ≤ 8) (hended : g.length < 8 → us = []) :
    streamOf (g ++ us) = groupBytes g ++ streamOf us := by
  rcases Nat.lt_or_eq_of_le hlen with hlt | heq
  · rw [hended hlt, List.append_nil, streamOf_single hne hlen]
    exact (List.append_nil _).symm
  · rw [streamOf_append (by rw [heq]), streamOf_single hne hlen]

/-- A stream whose unused flag bits are 0 is the one of the tokens it reads as (R155). -/
theorem streamOf_tokensFrom {fuel : Nat} {T : List Byte} {ts : List Token} (h : tokensFrom fuel T = some ts)
    (hclear : flagsClearFrom fuel T = true) : streamOf ts = T := by
  induction fuel generalizing T ts with
  | zero =>
    cases T with
    | nil => cases h; rfl
    | cons flg T => cases h
  | succ fuel ih =>
    cases T with
    | nil => cases h; rfl
    | cons flg T =>
      obtain ⟨hT, g, T', us, hg, hus, rfl⟩ := tokensFrom_cons.1 h
      simp only [flagsClearFrom, hg, Bool.and_eq_true, decide_eq_true_eq] at hclear
      obtain ⟨hflg, hrest⟩ := hclear
      have hread := readsGroup_of_groupTokens (Nat.le_refl 8) hg
      have hended : g.length < 8 → us = [] := fun hlt => by
        rw [hread.ended hlt, tokensFrom_nil] at hus
        exact (Option.some.inj hus).symm
      rw [streamOf_group_append (hread.ne_nil hT) hread.count hended, ih hus hrest, hread.groupBytes hflg]

-- Replay ------------------------------------------------------------------------------------------------------------------

@[simp] theorem copied_length (d n : Nat) (out : List Byte) : (copied d n out).length = out.length + n := by
  induction n generalizing out with
  | zero => rfl
  | succ n ih => rw [copied, ih, List.length_append, List.length_singleton]; omega

theorem replayed_append (ts us : List Token) (out : List Byte) :
    replayed (ts ++ us) out = replayed us (replayed ts out) := by
  induction ts generalizing out with
  | nil => rfl
  | cons t ts ih => rw [List.cons_append, replayed_cons, ih, ← replayed_cons]

theorem replayed_singleton_length (t : Token) (out : List Byte) :
    (replayed [t] out).length = out.length + tokenSpan t := by
  cases t with
  | lit b => exact List.length_append
  | mat o l => exact copied_length o l out

/-- A replay only appends. -/
theorem length_le_replayed (ts : List Token) (out : List Byte) : out.length ≤ (replayed ts out).length := by
  induction ts generalizing out with
  | nil => exact Nat.le_refl _
  | cons t ts ih =>
    rw [replayed_cons]
    exact Nat.le_trans (by rw [replayed_singleton_length]; exact Nat.le_add_right _ _) (ih _)

theorem tokensFit_cons (t : Token) (ts : List Token) (out : List Byte) :
    tokensFit out.length (t :: ts) ↔ tokenFits out.length t ∧ tokensFit (replayed [t] out).length ts := by
  rw [replayed_singleton_length]
  exact Iff.rfl

/-- The tokens of a sequence fit where they stand if those of a first part do, and the others behind its replay. -/
theorem tokensFit_append (ts us : List Token) (out : List Byte) :
    tokensFit out.length (ts ++ us) ↔ tokensFit out.length ts ∧ tokensFit (replayed ts out).length us := by
  induction ts generalizing out with
  | nil => exact (iff_of_eq (true_and _)).symm
  | cons t ts ih => rw [List.cons_append, tokensFit_cons, tokensFit_cons, ih, ← replayed_cons, and_assoc]

/-- A Match that fits has operands in range (R130). -/
theorem matchOperands_of_tokensFit {p : Nat} {ts : List Token} (h : tokensFit p ts) :
    ∀ o l, .mat o l ∈ ts → matchOperands o l = true := by
  induction ts generalizing p with
  | nil => exact fun _ _ h => absurd h List.not_mem_nil
  | cons t ts ih =>
    intro o l ht
    rcases List.mem_cons.1 ht with rfl | ht
    · obtain ⟨h1, ho, hl⟩ := h.1
      exact matchOperands_iff.2 ⟨h1, by omega, hl⟩
    · exact ih h.2 o l ht

/-- A Match as read fits exactly where its offset reaches back into the bytes there (R153). -/
theorem tokenFits_readMat (p : Nat) (b0 b1 : Byte) :
    tokenFits p (readMat b0 b1) ↔ fieldOffset (bytesOffsetField b0 b1) ≤ min p 4096 :=
  ⟨fun h => h.2.1, fun h => ⟨one_le_fieldOffset _, h, fieldLength_bounds _⟩⟩

-- The reference decoder ---------------------------------------------------------------------------------------------------

theorem copyBack_succ (cap d n : Nat) (out : List Byte) :
    copyBack cap d (n + 1) out = (emit cap out (byteAt out (out.length - d))).bind (copyBack cap d n) := by
  rw [copyBack]
  cases emit cap out (byteAt out (out.length - d)) <;> rfl

section RefGroup

variable {flg : Byte} {n : Nat}

theorem refGroup_nil (cap : Nat) (flg : Byte) (n : Nat) (out : List Byte) : refGroup cap flg n [] out = .ok ([], out) := by
  cases n <;> rfl

theorem refGroup_lit (hflag : flg.getLsbD (8 - (n + 1)) = true) (cap : Nat) (b : Byte) (T out : List Byte) :
    refGroup cap flg (n + 1) (b :: T) out = (emit cap out b).bind (refGroup cap flg n T) := by
  refine (if_pos hflag).trans ?_
  cases emit cap out b <;> rfl

theorem refGroup_mat (hflag : flg.getLsbD (8 - (n + 1)) = false) (cap : Nat) (b b1 : Byte) (T out : List Byte) :
    refGroup cap flg (n + 1) (b :: b1 :: T) out =
      (if fieldOffset (bytesOffsetField b b1) ≤ min out.length 4096 then
        copyBack cap (fieldOffset (bytesOffsetField b b1)) (fieldLength (byteLengthField b1)) out
      else .error .invalidToken).bind (refGroup cap flg n T) := by
  refine (if_neg (Bool.eq_false_iff.1 hflag)).trans ?_
  by_cases hreach : fieldOffset (bytesOffsetField b b1) ≤ min out.length 4096
  · refine (if_pos hreach).trans ?_
    rw [if_pos hreach]
    cases copyBack cap (fieldOffset (bytesOffsetField b b1)) (fieldLength (byteLengthField b1)) out <;> rfl
  · rw [if_neg hreach]
    exact if_neg hreach

theorem refGroup_cut (hflag : flg.getLsbD (8 - (n + 1)) = false) (cap : Nat) (b : Byte) (out : List Byte) :
    refGroup cap flg (n + 1) [b] out = .error .invalidToken := if_neg (Bool.eq_false_iff.1 hflag)

end RefGroup

theorem refDecode_nil (cap fuel : Nat) (out : List Byte) : refDecode cap fuel [] out = .ok out := by cases fuel <;> rfl

theorem refDecode_cons (cap fuel : Nat) (flg : Byte) {T : List Byte} (hT : T ≠ []) (out : List Byte) :
    refDecode cap (fuel + 1) (flg :: T) out =
      (refGroup cap flg 8 T out).bind fun r => refDecode cap fuel r.1 r.2 := by
  refine (if_neg hT).trans ?_
  cases refGroup cap flg Config.groupSize T out <;> rfl

theorem refDecode_cut (cap fuel : Nat) (flg : Byte) (out : List Byte) :
    refDecode cap (fuel + 1) [flg] out = .error .invalidToken := rfl

theorem except_bind_eq_ok {α β : Type} {x : Except ErrKind α} {f : α → Except ErrKind β} {b : β} :
    x.bind f = .ok b ↔ ∃ a, x = .ok a ∧ f a = .ok b := by
  cases x with
  | error e => exact ⟨fun h => (nomatch h), fun ⟨_, h, _⟩ => (nomatch h)⟩
  | ok a => exact ⟨fun h => ⟨a, rfl, h⟩, fun ⟨_, h, hf⟩ => by cases h; exact hf⟩

theorem emit_eq_ok {cap : Nat} {out out' : List Byte} {b : Byte} :
    emit cap out b = .ok out' ↔ out.length < cap ∧ out' = out ++ [b] := by
  unfold emit
  split
  · next h => simp [h, eq_comm]
  · next h => simp [h]

/-- A copy that does not stop is the copy without a bound. -/
theorem copied_of_copyBack {cap d n : Nat} {out out' : List Byte} (h : copyBack cap d n out = .ok out') :
    out' = copied d n out := by
  induction n generalizing out with
  | zero => cases h; rfl
  | succ n ih =>
    rw [copyBack_succ, except_bind_eq_ok] at h
    obtain ⟨mid, hmid, hrest⟩ := h
    obtain ⟨-, rfl⟩ := emit_eq_ok.1 hmid
    exact ih hrest

/-- A copy with room does not stop. -/
theorem copyBack_of_room {cap d n : Nat} {out : List Byte} (h : out.length + n ≤ cap) :
    copyBack cap d n out = .ok (copied d n out) := by
  induction n generalizing out with
  | zero => rfl
  | succ n ih =>
    rw [copyBack_succ, except_bind_eq_ok]
    exact ⟨_, emit_eq_ok.2 ⟨by omega, rfl⟩, ih (by rw [List.length_append, List.length_singleton]; omega)⟩

/-- A group decoded without an error: its tokens fit, and the output is their replay. -/
theorem tokens_of_refGroup {cap : Nat} {flg : Byte} {n : Nat} {T T' out out' : List Byte}
    (h : refGroup cap flg n T out = .ok (T', out')) :
    ∃ ts, groupTokens flg n T = some (ts, T') ∧ tokensFit out.length ts ∧ out' = replayed ts out := by
  induction n generalizing T out with
  | zero =>
    cases h
    exact ⟨[], rfl, trivial, rfl⟩
  | succ n ih =>
    cases T with
    | nil =>
      cases h
      exact ⟨[], rfl, trivial, rfl⟩
    | cons b T =>
      cases hflag : flg.getLsbD (8 - (n + 1)) with
      | true =>
        rw [refGroup_lit hflag, except_bind_eq_ok] at h
        obtain ⟨mid, hmid, hrest⟩ := h
        obtain ⟨-, rfl⟩ := emit_eq_ok.1 hmid
        obtain ⟨ts, hts, hfits, hout⟩ := ih hrest
        exact ⟨.lit b :: ts, by rw [groupTokens_lit hflag, hts]; rfl,
          (tokensFit_cons (.lit b) ts out).2 ⟨trivial, hfits⟩, hout⟩
      | false =>
        cases T with
        | nil => rw [refGroup_cut hflag] at h; cases h
        | cons b1 T =>
          rw [refGroup_mat hflag, except_bind_eq_ok] at h
          obtain ⟨mid, hmid, hrest⟩ := h
          split at hmid
          · next hreach =>
            obtain rfl := copied_of_copyBack hmid
            obtain ⟨ts, hts, hfits, hout⟩ := ih hrest
            exact ⟨readMat b b1 :: ts, by rw [groupTokens_mat hflag, hts]; rfl,
              (tokensFit_cons (readMat b b1) ts out).2 ⟨(tokenFits_readMat _ b b1).2 hreach, hfits⟩, hout⟩
          · cases hmid

/-- A group whose tokens fit, with room for their replay, is decoded to it. -/
theorem refGroup_of_tokens {cap : Nat} {flg : Byte} {n : Nat} {T T' out : List Byte} {ts : List Token}
    (hts : groupTokens flg n T = some (ts, T')) (hfits : tokensFit out.length ts)
    (hroom : (replayed ts out).length ≤ cap) : refGroup cap flg n T out = .ok (T', replayed ts out) := by
  induction n generalizing T out ts with
  | zero => cases hts; rfl
  | succ n ih =>
    cases T with
    | nil => cases hts; rfl
    | cons b T =>
      cases hflag : flg.getLsbD (8 - (n + 1)) with
      | true =>
        rw [groupTokens_lit hflag, Option.map_eq_some_iff] at hts
        obtain ⟨⟨us, U⟩, hus, hcons⟩ := hts
        cases hcons
        rw [tokensFit_cons] at hfits
        rw [replayed_cons] at hroom ⊢
        have hlen := Nat.le_trans (length_le_replayed us _) hroom
        rw [replayed_singleton_length] at hlen
        rw [refGroup_lit hflag, except_bind_eq_ok]
        exact ⟨_, emit_eq_ok.2 ⟨hlen, rfl⟩, ih hus hfits.2 hroom⟩
      | false =>
        cases T with
        | nil => rw [groupTokens_cut hflag] at hts; cases hts
        | cons b1 T =>
          rw [groupTokens_mat hflag, Option.map_eq_some_iff] at hts
          obtain ⟨⟨us, U⟩, hus, hcons⟩ := hts
          cases hcons
          rw [tokensFit_cons] at hfits
          rw [replayed_cons] at hroom ⊢
          have hlen := Nat.le_trans (length_le_replayed us _) hroom
          rw [replayed_singleton_length] at hlen
          rw [refGroup_mat hflag, except_bind_eq_ok, if_pos ((tokenFits_readMat _ b b1).1 hfits.1)]
          exact ⟨_, copyBack_of_room hlen, ih hus hfits.2 hroom⟩

/-- A decoded group leaves no more of the stream than there was. -/
theorem length_of_refGroup {cap : Nat} {flg : Byte} {T T' out out' : List Byte}
    (h : refGroup cap flg 8 T out = .ok (T', out')) : T'.length ≤ T.length := by
  obtain ⟨ts, hts, -⟩ := tokens_of_refGroup h
  rw [(readsGroup_of_groupTokens (Nat.le_refl 8) hts).bytes, List.length_append]
  exact Nat.le_add_left _ _

/-- A stream decoded without an error reads as tokens that fit, whose replay is the output (R155). -/
theorem tokens_of_refDecode {cap fuel : Nat} {T out out' : List Byte} (hfuel : T.length ≤ fuel)
    (h : refDecode cap fuel T out = .ok out') :
    ∃ ts, tokensFrom fuel T = some ts ∧ tokensFit out.length ts ∧ out' = replayed ts out := by
  induction fuel generalizing T out with
  | zero =>
    obtain rfl := List.length_eq_zero_iff.1 (Nat.le_zero.1 hfuel)
    cases h
    exact ⟨[], rfl, trivial, rfl⟩
  | succ fuel ih =>
    cases T with
    | nil =>
      cases h
      exact ⟨[], rfl, trivial, rfl⟩
    | cons flg T =>
      by_cases hT : T = []
      · rw [hT, refDecode_cut] at h
        cases h
      · rw [refDecode_cons cap fuel flg hT, except_bind_eq_ok] at h
        obtain ⟨⟨T', mid⟩, hgroup, hrest⟩ := h
        have hshorter := length_of_refGroup hgroup
        obtain ⟨g, hg, hfits, rfl⟩ := tokens_of_refGroup hgroup
        obtain ⟨us, hus, hfits', hout⟩ := ih (Nat.le_trans hshorter (Nat.le_of_succ_le_succ hfuel)) hrest
        exact ⟨g ++ us, tokensFrom_cons.2 ⟨hT, g, T', us, hg, hus, rfl⟩, (tokensFit_append g us out).2 ⟨hfits, hfits'⟩,
          hout.trans (replayed_append g us out).symm⟩

/-- A stream that reads as tokens that fit, with room for their replay, is decoded to it (R155). -/
theorem refDecode_of_tokens {cap fuel : Nat} {T out : List Byte} {ts : List Token} (hts : tokensFrom fuel T = some ts)
    (hfits : tokensFit out.length ts) (hroom : (replayed ts out).length ≤ cap) :
    refDecode cap fuel T out = .ok (replayed ts out) := by
  induction fuel generalizing T out ts with
  | zero =>
    cases T with
    | nil => cases hts; rfl
    | cons flg T => cases hts
  | succ fuel ih =>
    cases T with
    | nil => cases hts; rfl
    | cons flg T =>
      obtain ⟨hT, g, T', us, hg, hus, rfl⟩ := tokensFrom_cons.1 hts
      rw [tokensFit_append] at hfits
      rw [replayed_append] at hroom ⊢
      rw [refDecode_cons cap fuel flg hT, except_bind_eq_ok]
      exact ⟨_, refGroup_of_tokens hg hfits.1 (Nat.le_trans (length_le_replayed us _) hroom), ih hus hfits.2 hroom⟩

end Sys2Proof.Machine

/-! `TD_DECODE` against the reference decoder (R150 to R156): the operations of the token decoder, as far as the stream and the
output go, do what the reference decoder does, and raise the errors it ends with. -/

namespace Sys2Proof.Machine

-- What has been decoded ---------------------------------------------------------------------------------------------------

/-- The bytes of the stream from `TP` on. -/
def State.unread (s : State) : List Byte := bytesFrom s.tbByte s.dec.tp (s.tb.len - s.dec.tp)

/-- `u` is `s` but for what a decoding writes: decoder, `OUT` and window. -/
def State.DecodesTo (s u : State) : Prop := u = ((s.setDec u.dec).setOut u.out).setWin u.win

theorem State.DecodesTo.fields {s u : State} (h : s.DecodesTo u) : u.host = s.host ∧ u.caps = s.caps ∧ u.tb = s.tb := by
  rw [h]
  exact ⟨rfl, rfl, rfl⟩

/-- An error taken there is an error of the decoding (R246). -/
theorem State.DecodesTo.tookError {s u : State} (h : s.DecodesTo u) (e : ErrKind) : s.tookError (u.takeError e) e := by
  rw [h]
  exact tookError_takeError (((s.setDec u.dec).setOut u.out).setWin u.win) e

/-- `u` is `s` after a decoding that has produced `out`, is inside a group with flag byte `flg`, and has `T` left to read. -/
structure State.Replayed (s u : State) (flg : Byte) (T out : List Byte) : Prop where
  frame : s.DecodesTo u
  dflg : u.dec.dflg = flg
  inside : u.dec.tp ≤ u.tb.len
  unread : u.unread = T
  output : u.output = out
  window : u.windowHolds out
  kept : ∀ a, u.out.ptr ≤ a → u.outByte a = s.outByte a

section Replayed

variable {s u : State} {flg b : Byte} {T out : List Byte}

theorem State.Replayed.ptr (h : s.Replayed u flg T out) : u.out.ptr = out.length := by
  rw [← h.output]
  exact (bytesFrom_length _ _ _).symm

theorem State.Replayed.caps (h : s.Replayed u flg T out) : u.caps = s.caps := h.frame.fields.2.1

theorem State.Replayed.length_unread (h : s.Replayed u flg T out) : T.length = u.tb.len - u.dec.tp := by
  rw [← h.unread]
  exact bytesFrom_length _ _ _

theorem State.Replayed.at_end (h : s.Replayed u flg [] out) : u.dec.tp = u.tb.len := by
  have hlen := h.length_unread
  have hin := h.inside
  simp only [List.length_nil] at hlen
  omega

/-- The byte at `TP`, and the decoder moved over it. -/
theorem State.Replayed.advance (h : s.Replayed u flg (b :: T) out) (flg' : Byte) :
    u.dec.tp < u.tb.len ∧ u.tbByte u.dec.tp = b ∧
      s.Replayed (u.setDec { tp := u.dec.tp + 1, dflg := flg' }) flg' T out := by
  have hlen := h.length_unread
  rw [List.length_cons] at hlen
  have hlt : u.dec.tp < u.tb.len := by omega
  have hunread : u.tbByte u.dec.tp :: bytesFrom u.tbByte (u.dec.tp + 1) (u.tb.len - (u.dec.tp + 1)) = b :: T := by
    rw [← h.unread, State.unread, show u.tb.len - u.dec.tp = u.tb.len - (u.dec.tp + 1) + 1 by omega]
    rfl
  obtain ⟨hbyte, hrest⟩ := List.cons.inj hunread
  exact ⟨hlt, hbyte, by rw [State.DecodesTo, h.frame]; rfl, rfl, hlt, hrest, h.output, h.window, h.kept⟩

/-- One more byte of output. -/
theorem State.Replayed.emitted (h : s.Replayed u flg T out) (b : Byte) :
    s.Replayed (u.emitted b) flg T (out ++ [b]) where
  frame := by rw [State.DecodesTo, h.frame]; rfl
  dflg := h.dflg
  inside := h.inside
  unread := h.unread
  output := by
    have hold : bytesFrom (u.emitted b).outByte 0 u.out.ptr = out :=
      (bytesFrom_congr fun a _ ha => outByte_emitted_of_ne u b (by omega)).trans h.output
    rw [State.output, (State.emitted_fields u b).1, bytesFrom_add, hold, Nat.zero_add]
    exact congrArg (out ++ [·]) (outByte_emitted_self u b)
  window := windowHolds_put h.window b
  kept a ha := by
    rw [(State.emitted_fields u b).1] at ha
    rw [outByte_emitted_of_ne u b (by omega), h.kept a (by omega)]

end Replayed

-- Refinement --------------------------------------------------------------------------------------------------------------

/-- The machine ends in a state that `Q` relates to what the reference computes, or stops for the error the reference ends with,
in a state with `F`. -/
inductive Refines {α : Type} (F : State → Prop) (Q : α → State → Prop) :
    Except ErrKind α → EStateM.Result Stop State Unit → Prop
  | ok {a : α} {t : State} (h : Q a t) : Refines F Q (.ok a) (.ok () t)
  | error {e : ErrKind} {t : State} (h : F t) : Refines F Q (.error e) (.error (.err e) t)

/-- The reference and the machine each go on where they ended. -/
theorem Refines.bind {α β : Type} {F : State → Prop} {Q : α → State → Prop} {R : β → State → Prop}
    {r : Except ErrKind α} {f : α → Except ErrKind β} {x y : Op Unit} {u : State} (h : Refines F Q r (x u))
    (hf : ∀ a t, r = .ok a → Q a t → Refines F R (f a) (y t)) : Refines F R (r.bind f) ((x >>= fun _ => y) u) := by
  generalize hx : x u = res at h
  cases h with
  | ok h => rw [bind_ok hx]; exact hf _ _ rfl h
  | error h => rw [bind_error hx]; exact .error h

/-- Both decide alike. -/
theorem Refines.ite {α : Type} {F : State → Prop} {Q : α → State → Prop} {c c' : Prop} [Decidable c] [Decidable c']
    {r r' : Except ErrKind α} {x x' : EStateM.Result Stop State Unit} (hc : c ↔ c') (h : c → Refines F Q r x)
    (h' : ¬ c → Refines F Q r' x') : Refines F Q (if c then r else r') (if c' then x else x') := by
  by_cases hp : c
  · rw [if_pos hp, if_pos (hc.1 hp)]; exact h hp
  · rw [if_neg hp, if_neg (mt hc.2 hp)]; exact h' hp

-- The operations ----------------------------------------------------------------------------------------------------------

section Operations

variable {s u : State} {flg : Byte} {T out : List Byte}

/-- `REPLAY_LITERAL` emits its byte (R132). -/
theorem replayLiteral_refines (h : s.Replayed u flg T out) (b : Byte) :
    Refines s.DecodesTo (fun out' t => s.Replayed t flg T out') (emit s.caps.outCap out b) (replayLiteral b u) := by
  rw [emit, replayLiteral_apply]
  exact .ite (by rw [h.ptr, h.caps]) (fun _ => .ok (h.emitted b)) fun _ => .error h.frame

/-- One round of the copy loop is a literal replay of the byte that far back (R131, R132). -/
theorem replayLoop_eq_bind {offset : Nat} (n : Nat) (h1 : 1 ≤ offset) (hf : offset ≤ u.win.fill) :
    replayLoop offset (n + 1) u = (replayLiteral (u.winBack offset) >>= fun _ => replayLoop offset n) u := by
  rw [replayLoop_succ _ _ _ h1 hf]
  split
  · next hroom => rw [bind_ok (by rw [replayLiteral_apply, if_pos hroom])]
  · next hfull => rw [bind_error (by rw [replayLiteral_apply, if_neg hfull])]

/-- The copy loop of `REPLAY_MATCH` (R131). -/
theorem replayLoop_refines (h : s.Replayed u flg T out) {offset : Nat} (h1 : 1 ≤ offset) (hf : offset ≤ min out.length 4096)
    (n : Nat) : Refines s.DecodesTo (fun out' t => s.Replayed t flg T out') (copyBack s.caps.outCap offset n out)
      (replayLoop offset n u) := by
  induction n generalizing u out with
  | zero => exact .ok h
  | succ n ih =>
    have hfill : offset ≤ u.win.fill := by rw [h.window.2.1]; exact hf
    rw [copyBack_succ, replayLoop_eq_bind n h1 hfill, winBack_of_windowHolds h.window h1 hfill]
    refine (replayLiteral_refines h _).bind fun out' t hemit ht => ih ht ?_
    obtain ⟨-, rfl⟩ := emit_eq_ok.1 hemit
    rw [List.length_append]
    omega

/-- `TD_LITERAL` (R152). -/
theorem tdLiteral_refines {b : Byte} (h : s.Replayed u flg (b :: T) out) :
    Refines s.DecodesTo (fun out' t => s.Replayed t flg T out') (emit s.caps.outCap out b) (tdLiteral u) := by
  obtain rfl := h.dflg
  obtain ⟨hlt, hbyte, hnext⟩ := h.advance u.dec.dflg
  rw [tdLiteral_apply, if_pos hlt, hbyte, acceptLiteral_apply]
  exact replayLiteral_refines hnext b

/-- `TD_MATCH` with two bytes left (R153, R277). -/
theorem tdMatch_refines {b b1 : Byte} (h : s.Replayed u flg (b :: b1 :: T) out) :
    Refines s.DecodesTo (fun out' t => s.Replayed t flg T out')
      (if fieldOffset (bytesOffsetField b b1) ≤ min out.length 4096 then
        copyBack s.caps.outCap (fieldOffset (bytesOffsetField b b1)) (fieldLength (byteLengthField b1)) out
      else .error .invalidToken) (tdMatch u) := by
  obtain rfl := h.dflg
  obtain ⟨hlt, hbyte, hmid⟩ := h.advance u.dec.dflg
  obtain ⟨hlt', hbyte', hnext⟩ := hmid.advance u.dec.dflg
  have hroom : 2 ≤ u.tb.len - u.dec.tp := by
    have : u.dec.tp + 1 < u.tb.len := hlt'
    omega
  have hb1 : u.tbByte (u.dec.tp + 1) = b1 := hbyte'
  rw [tdMatch_apply, if_pos hlt, if_pos hroom, hbyte, hb1, acceptMatch_apply]
  refine .ite (by rw [h.window.2.1]) (fun hreach => ?_) fun _ => .error hnext.frame
  have hfill : fieldOffset (bytesOffsetField b b1) ≤ u.win.fill := by rw [h.window.2.1]; exact hreach
  rw [replayMatch_apply, if_pos ⟨one_le_fieldOffset _, hfill⟩]
  exact replayLoop_refines hnext (one_le_fieldOffset _) hreach _

/-- `TD_MATCH` with one byte left (R153). -/
theorem tdMatch_cut {b : Byte} (h : s.Replayed u flg [b] out) : tdMatch u = .error (.err .invalidToken) u := by
  have hlen := h.length_unread
  rw [List.length_singleton] at hlen
  rw [tdMatch_apply, if_pos (by omega), if_neg (by omega)]

theorem tdTokens_end (n : Nat) (h : u.dec.tp = u.tb.len) : tdTokens n u = .ok () u := by
  cases n with
  | zero => rfl
  | succ n =>
    simp only [tdTokens, look_bind, id_eq, if_pos h]
    rfl

theorem tdTokens_next (n : Nat) (h : u.dec.tp ≠ u.tb.len) :
    tdTokens (n + 1) u = (tdToken (8 - (n + 1)) >>= fun _ => tdTokens n) u := by
  simp only [tdTokens, look_bind, id_eq, if_neg h]

/-- The tokens of a group (R150). -/
theorem tdTokens_refines (h : s.Replayed u flg T out) (n : Nat) :
    Refines s.DecodesTo (fun r t => s.Replayed t flg r.1 r.2) (refGroup s.caps.outCap flg n T out) (tdTokens n u) := by
  induction n generalizing u T out with
  | zero => exact .ok h
  | succ n ih =>
    cases T with
    | nil =>
      rw [refGroup_nil, tdTokens_end _ h.at_end]
      exact .ok h
    | cons b T =>
      obtain ⟨hlt, -, -⟩ := h.advance flg
      have htoken := tdToken_apply (8 - (n + 1)) u
      rw [tdTokens_next n (Nat.ne_of_lt hlt)]
      rw [h.dflg] at htoken
      cases hflag : flg.getLsbD (8 - (n + 1)) with
      | true =>
        rw [hflag, if_pos rfl] at htoken
        rw [refGroup_lit hflag]
        exact .bind (htoken ▸ tdLiteral_refines h) fun _ _ _ ht => ih ht
      | false =>
        rw [hflag, if_neg Bool.false_ne_true] at htoken
        cases T with
        | nil =>
          rw [refGroup_cut hflag, bind_error (htoken.trans (tdMatch_cut h))]
          exact .error h.frame
        | cons b1 T =>
          rw [refGroup_mat hflag]
          exact .bind (htoken ▸ tdMatch_refines h) fun _ _ _ ht => ih ht

/-- `TD_FLAG` with a byte after the flag byte (R151). -/
theorem tdFlag_next {flg' : Byte} (h : s.Replayed u flg (flg' :: T) out) (hT : T ≠ []) :
    ∃ t, tdFlag u = .ok () t ∧ s.Replayed t flg' T out := by
  obtain ⟨hlt, hbyte, hnext⟩ := h.advance flg'
  have hlen := h.length_unread
  have hpos := List.length_pos_iff.2 hT
  rw [List.length_cons] at hlen
  exact ⟨_, by rw [tdFlag_apply, if_pos hlt, hbyte, acceptFlag_apply, if_pos (by omega)], hnext⟩

/-- `TD_FLAG` at the last byte of the stream (R151). -/
theorem tdFlag_cut {flg' : Byte} (h : s.Replayed u flg [flg'] out) :
    ∃ t, tdFlag u = .error (.err .invalidToken) t ∧ s.DecodesTo t := by
  obtain ⟨hlt, hbyte, hnext⟩ := h.advance flg'
  have hlen := h.length_unread
  rw [List.length_singleton] at hlen
  exact ⟨_, by rw [tdFlag_apply, if_pos hlt, hbyte, acceptFlag_apply, if_neg (by omega)], hnext.frame⟩

theorem tdGroups_next (fuel : Nat) (h : u.dec.tp < u.tb.len) :
    tdGroups (fuel + 1) u = (tdFlag >>= fun _ => tdTokens 8 >>= fun _ => tdGroups fuel) u := by
  simp only [tdGroups, look_bind, id_eq, if_pos h]

/-- The groups of a stream (R150): every one takes at least its flag byte from it. -/
theorem tdGroups_refines (h : s.Replayed u flg T out) {fuel : Nat} (hfuel : T.length ≤ fuel) :
    Refines s.DecodesTo (fun out' t => ∃ flg', s.Replayed t flg' [] out') (refDecode s.caps.outCap fuel T out)
      (tdGroups fuel u) := by
  induction fuel generalizing u flg T out with
  | zero =>
    obtain rfl := List.length_eq_zero_iff.1 (Nat.le_zero.1 hfuel)
    exact .ok ⟨flg, h⟩
  | succ fuel ih =>
    cases T with
    | nil =>
      rw [refDecode_nil, tdGroups_end _ (Nat.not_lt.2 (Nat.le_of_eq h.at_end.symm))]
      exact .ok ⟨flg, h⟩
    | cons flg' T =>
      obtain ⟨hlt, -, -⟩ := h.advance flg'
      rw [tdGroups_next fuel hlt]
      by_cases hT : T = []
      · subst hT
        obtain ⟨t, ht, hframe⟩ := tdFlag_cut h
        rw [refDecode_cut, bind_error ht]
        exact .error hframe
      · obtain ⟨t, ht, hnext⟩ := tdFlag_next h hT
        rw [refDecode_cons _ _ _ hT, bind_ok ht]
        refine (tdTokens_refines hnext 8).bind fun r v hr hv => ih hv ?_
        exact Nat.le_trans (length_of_refGroup hr) (Nat.le_of_succ_le_succ hfuel)

end Operations

-- The whole stream --------------------------------------------------------------------------------------------------------

/-- What `TD_DECODE` starts from: nothing read, nothing written (R120, R150). -/
def State.decodeStart (s : State) : State :=
  ((s.setWin { s.win with pos := 0, fill := 0 }).setDec { s.dec with tp := 0 }).setOut { s.out with ptr := 0 }

theorem decodeStart_replayed (s : State) : s.Replayed s.decodeStart s.dec.dflg s.stream [] where
  frame := rfl
  dflg := rfl
  inside := Nat.zero_le _
  unread := rfl
  output := rfl
  window := windowHolds_init
  kept _ _ := rfl

/-- `TD_DECODE` computes the reference decoding of its stream (R150, R156). -/
theorem tdDecode_refines (s : State) :
    Refines s.DecodesTo (fun out t => ∃ flg, s.Replayed t flg [] out) (refDecode s.caps.outCap s.tb.len s.stream [])
      (tdDecode s) := by
  have hrun : tdDecode s = tdGroups s.tb.len s.decodeStart := rfl
  rw [hrun]
  exact tdGroups_refines (decodeStart_replayed s) (Nat.le_of_eq (bytesFrom_length _ _ _))

/-- Settles O40, by `tdDecode_refines`. -/
theorem decoderReplaysTheTokenStream : Obligations.DecoderReplaysTheTokenStream := by
  unfold Obligations.DecoderReplaysTheTokenStream
  intro s
  have h := tdDecode_refines s
  generalize hx : tdDecode s = res at h
  generalize refDecode s.caps.outCap s.tb.len s.stream [] = r at h
  cases h with
  | @ok out t h =>
    obtain ⟨flg, ht⟩ := h
    obtain ⟨-, -, htb⟩ := ht.frame.fields
    exact ⟨t, runOp_of_ok hx, ht.frame, ht.at_end.trans (by rw [htb]), ht.ptr, ht.output, ht.window, ht.kept⟩
  | error h => exact ⟨_, runOp_of_err hx, h.tookError _⟩

end Sys2Proof.Machine

/-! The token encoder and the token decoder are inverse to each other (R140, R155). -/

namespace Sys2Proof.Machine

/-- The stream an encoder made from tokens that fit, decoded: the replay of the tokens, with all bytes consumed (R155). -/
theorem tdDecode_of_streamOf {s : State} {ts : List Token} (hstream : s.stream = streamOf ts) (hfits : tokensFit 0 ts)
    (hroom : (replayed ts []).length ≤ s.caps.outCap) :
    tokensOf s.stream = some ts ∧
      ∃ u, exec .tdDecode s = .next u ∧ u.host = s.host ∧ u.dec.tp = u.tb.len ∧ u.output = replayed ts [] := by
  have htokens : tokensOf s.stream = some ts := by
    rw [tokensOf, hstream]
    exact tokensFrom_streamOf (matchOperands_of_tokensFit hfits) (Nat.le_refl _)
  have hdecode : refDecode s.caps.outCap s.tb.len s.stream [] = .ok (replayed ts []) := by
    rw [← bytesFrom_length s.tbByte 0 s.tb.len]
    exact refDecode_of_tokens htokens hfits hroom
  obtain ⟨u, hu, hend⟩ := decoderReplaysTheTokenStream s
  rw [hdecode] at hend
  obtain ⟨hframe, htp, -, hout, -⟩ := hend
  obtain ⟨hhost, -, htb⟩ := State.DecodesTo.fields hframe
  exact ⟨htokens, u, hu, hhost, htp.trans (by rw [htb]), hout⟩

/-- An error taken ends the call (R246), so a `TD_DECODE` that leaves the engine busy has decoded its stream: to the replay of the
tokens it reads as. -/
theorem tokens_of_tdDecode {s t : State} (h : exec .tdDecode s = .next t) (hbusy : t.busy = true) :
    ∃ ts, tokensOf s.stream = some ts ∧ tokensFit 0 ts ∧ t.output = replayed ts [] := by
  obtain ⟨u, hu, hend⟩ := decoderReplaysTheTokenStream s
  obtain rfl : u = t := by rw [h] at hu; cases hu; rfl
  cases hdecode : refDecode s.caps.outCap s.tb.len s.stream [] with
  | error e =>
    rw [hdecode] at hend
    obtain ⟨⟨hstatus, -⟩, -⟩ := hend
    rw [State.busy, hstatus] at hbusy
    exact absurd hbusy (by decide)
  | ok out =>
    rw [hdecode] at hend
    obtain ⟨-, -, -, hout, -⟩ := hend
    rw [← bytesFrom_length s.tbByte 0 s.tb.len] at hdecode
    obtain ⟨ts, hts, hfits, hreplay⟩ := tokens_of_refDecode (Nat.le_refl _) hdecode
    exact ⟨ts, hts, hfits, hout.trans hreplay⟩

/-- Settles O41: what is encoded decodes by `tdDecode_of_streamOf`, what decodes was encoded by `tokens_of_tdDecode` and
`streamOf_tokensFrom`. -/
theorem encodedTokensReplay : Obligations.EncodedTokensReplay := by
  unfold Obligations.EncodedTokensReplay
  refine ⟨fun s ts hfits hlen hroom => ?_, fun s t _ ht hbusy => ?_⟩
  · obtain ⟨t, ht, hframe, hstream, -⟩ := (encoderWritesTheTokenStream s ts (matchOperands_of_tokensFit hfits)).2 hlen
    have hhost : t.host = s.host := by rw [hframe]; rfl
    have hcaps : t.caps = s.caps := by rw [hframe]; rfl
    obtain ⟨htokens, u, hu, huhost, htp, hout⟩ := tdDecode_of_streamOf hstream hfits (by rw [hcaps]; exact hroom)
    exact ⟨t, u, ht, htokens, hu, huhost.trans hhost, htp, hout⟩
  · obtain ⟨ts, hts, hfits, hout⟩ := tokens_of_tdDecode ht hbusy
    refine ⟨ts, hts, hfits, hout, fun hclear => ?_⟩
    have hsame : streamOf ts = s.stream := streamOf_tokensFrom hts hclear
    refine ⟨hsame, fun hcap => ?_⟩
    have hlen : (streamOf ts).length ≤ s.tCap := by
      rw [hsame]
      exact Nat.le_trans (Nat.le_of_eq (bytesFrom_length _ _ _)) hcap
    obtain ⟨u, hu, -, hstream, -⟩ := (encoderWritesTheTokenStream s ts (matchOperands_of_tokensFit hfits)).2 hlen
    exact ⟨u, hu, hstream.trans hsame⟩

end Sys2Proof.Machine

/-! `HF_COUNT` (R161): the entries of `FREQ` after the bytes of a stream are counted. -/

namespace Sys2Proof.Machine

/-- One more of a byte value in `FREQ`. -/
theorem freqAt_tableSet (f : Table Nat) (v n w : Nat) : freqAt (tableSet f v n) w = if w = v then n else freqAt f w := by
  simp only [freqAt, tableGet_tableSet]
  by_cases h : w = v <;> simp [h]

theorem freqAt_countFrom (s : State) (i n : Nat) (f : Table Nat) (v : Byte) :
    freqAt (s.countFrom i n f) v.toNat = freqAt f v.toNat + (bytesFrom s.tbByte i n).count v := by
  induction n generalizing i f with
  | zero => rfl
  | succ n ih =>
    rw [State.countFrom, ih, freqAt_tableSet, bytesFrom, List.count_cons]
    by_cases h : v = s.tbByte i
    · subst h
      simp only [if_true, beq_self_eq_true]
      omega
    · have hne : v.toNat ≠ (s.tbByte i).toNat := fun h' => h (BitVec.eq_of_toNat_eq h')
      rw [if_neg hne, if_neg (by simpa using Ne.symm h)]
      rfl

/-- Settles O42: entry by entry by `freqAt_countFrom`, their sum by `sum_countFrom`. -/
theorem countIsTheFrequencyOfEachByte : Obligations.CountIsTheFrequencyOfEachByte := by
  unfold Obligations.CountIsTheFrequencyOfEachByte
  intro s
  have hcount (v : Byte) : freqAt (s.countFrom 0 s.tb.len []) v.toNat = s.stream.count v := by
    rw [freqAt_countFrom]
    exact Nat.zero_add _
  have hle (v : Byte) : freqAt (s.countFrom 0 s.tb.len []) v.toNat ≤ s.tb.len := by
    rw [hcount]
    exact Nat.le_trans List.count_le_length (Nat.le_of_eq (bytesFrom_length _ _ _))
  refine ⟨s.setFreq (s.countFrom 0 s.tb.len []), rfl, rfl, fun v => ⟨hcount v, hle v, fun hcap => ?_⟩, ?_⟩
  · have hlt := tCap_lt s
    exact Nat.le_trans (hle v) (by omega)
  · show ((List.range 256).map (freqAt (s.countFrom 0 s.tb.len []))).sum = s.tb.len
    rw [sum_countFrom, sum_freqAt_nil, Nat.zero_add]

end Sys2Proof.Machine

/-! `HF_DESER_TREE` against the reference tree reader (R176 to R182, R210): from every state between two nodes it reads
exactly the tree its bits begin with, or raises. -/

namespace Sys2Proof.Machine

-- The reference reader ---------------------------------------------------------------------------------------------------

/-- After a marker 0 a tree is two trees, one after the other (R83). -/
theorem parseTree_node {f : Nat} {bs rest : Bits} {tr : Tree} : parseTree (f + 1) (false :: bs) = some (tr, rest) ↔
    ∃ l r mid, tr = .node l r ∧ parseTree f bs = some (l, mid) ∧ parseTree f mid = some (r, rest) := by
  simp only [parseTree]
  constructor
  · intro h
    split at h
    · cases h
    next l mid hl =>
      split at h
      · cases h
      next r rest' hr =>
        cases h
        exact ⟨l, r, mid, rfl, hl, hr⟩
  · rintro ⟨l, r, mid, rfl, hl, hr⟩
    simp only [hl, hr]

/-- What the reference reader takes for a tree is that tree serialised (R83, R176). -/
theorem ser_of_parseTree {f : Nat} {bs rest : Bits} {tr : Tree} (h : parseTree f bs = some (tr, rest)) :
    bs = Tree.ser tr ++ rest := by
  induction f generalizing bs tr rest with
  | zero => cases h
  | succ f ih =>
    match bs with
    | [] => cases h
    | true :: bs =>
      cases htake : takeBits 8 bs with
      | none => simp [parseTree, htake] at h
      | some x =>
        obtain ⟨v, mid⟩ := x
        obtain ⟨rfl, hlen⟩ := takeBits_eq_some htake
        simp only [parseTree, htake, Option.some.injEq, Prod.mk.injEq] at h
        obtain ⟨rfl, rfl⟩ := h
        have hlt := bitsNat_lt v
        have hbits := natBits_bitsNat v
        rw [hlen] at hlt hbits
        rw [Tree.ser, byteBits, BitVec.toNat_ofNat, Nat.mod_eq_of_lt hlt, hbits, List.cons_append]
    | false :: bs =>
      obtain ⟨l, r, mid, rfl, hl, hr⟩ := parseTree_node.1 h
      rw [ih hl, ih hr, Tree.ser, List.cons_append, List.append_assoc]

theorem refTree_of_parseTree {bs rest : Bits} {tr : Tree} (hne : bs ≠ []) (h : parseTree 512 bs = some (tr, rest)) :
    refTree bs = if rest = [] ∧ treeLeaves tr ≤ 256 then .ok (some tr) else .error .malformedArchive := by
  simp only [refTree, if_neg hne]
  rw [show parseTree (Config.nodeCap + 1) bs = some (tr, rest) from h]

/-- No tree, or none that has room in the store (R180). -/
theorem refTree_of_no_parse {bs : Bits} (hne : bs ≠ [])
    (h : ∀ tr rest, parseTree 512 bs = some (tr, rest) → 256 < treeLeaves tr) : refTree bs = .error .malformedArchive := by
  cases hp : parseTree 512 bs with
  | none =>
    simp only [refTree, if_neg hne]
    rw [show parseTree (Config.nodeCap + 1) bs = none from hp]
  | some x =>
    rw [refTree_of_parseTree hne hp, if_neg fun hc => absurd hc.2 (Nat.not_le.2 (h x.1 x.2 hp))]

/-- Exactly one tree of at most 256 leaves (R178 to R180). -/
theorem refTree_ser {tr : Tree} (h : treeLeaves tr ≤ 256) : refTree (Tree.ser tr) = .ok (some tr) := by
  have hne : Tree.ser tr ≠ [] := by cases tr <;> exact List.cons_ne_nil _ _
  have hparse := parseTree_ser tr [] (fuel := 512) (by omega)
  rw [List.append_nil] at hparse
  rw [refTree_of_parseTree hne hparse, if_pos ⟨rfl, h⟩]

/-- A region of more than 2559 bits is no tree of at most 256 leaves (R180). -/
theorem refTree_of_long {bs : Bits} (h : 2559 < bs.length) : refTree bs = .error .malformedArchive := by
  have hne : bs ≠ [] := by rintro rfl; cases h
  cases hp : parseTree 512 bs with
  | none => exact refTree_of_no_parse hne fun tr rest h' => by rw [hp] at h'; cases h'
  | some x =>
    obtain ⟨tr, rest⟩ := x
    have hlen := ser_length tr
    rw [refTree_of_parseTree hne hp, if_neg]
    rintro ⟨rfl, hleaves⟩
    rw [ser_of_parseTree hp, List.append_nil] at h
    omega

-- The bits left to the reader --------------------------------------------------------------------------------------------

/-- The bits left are bits of `IN` from the reader's position on. -/
theorem inBits_of_bitsLeft {s : State} {xs ys : Bits} (h : s.bitsLeft = xs ++ ys) :
    s.inBits s.br.pos xs.length = xs ∧ s.inBits (s.br.pos + xs.length) ys.length = ys := by
  have hlen := congrArg List.length h
  rw [State.bitsLeft, inBits_length, List.length_append] at hlen
  rw [State.bitsLeft, hlen, inBits_add] at h
  exact List.append_inj h (inBits_length _ _ _)

/-- The reader moves over the first of the bits left: the others are left then. -/
theorem bitsLeft_skip {s t : State} {xs ys : Bits} (h : s.bitsLeft = xs ++ ys) (hp : s.br.pos ≤ s.br.limit)
    (hin : ∀ a, t.inByte a = s.inByte a) (hpos : t.br.pos = s.br.pos + xs.length) (hlim : t.br.limit = s.br.limit) :
    t.br.pos ≤ t.br.limit ∧ t.bitsLeft = ys := by
  obtain ⟨-, hys⟩ := inBits_of_bitsLeft h
  have hlen := congrArg List.length h
  rw [State.bitsLeft, inBits_length, List.length_append] at hlen
  refine ⟨by omega, ?_⟩
  rw [State.bitsLeft, hpos, hlim, show s.br.limit - (s.br.pos + xs.length) = ys.length by omega, inBits_congr hin, hys]

theorem bitsLeft_length (s : State) : s.bitsLeft.length = s.br.limit - s.br.pos := inBits_length _ _ _

-- The loop over the nodes -------------------------------------------------------------------------------------------------

/-- The nodes still to come: each takes an entry, and the 512th would be the last (R176, R180). -/
def readRest : Op Unit := do
  let s ← look id
  readNodes (512 - s.tree.ncnt)

/-- What follows a node: no more of them once the root is there (R176). -/
def afterNode : Op Unit := do
  let s ← look id
  if s.tree.root.isSome then pure () else readRest

theorem readRest_apply (s : State) : readRest s = readNodes (512 - s.tree.ncnt) s := look_bind _ _ s

theorem afterNode_rooted {s : State} (h : s.tree.root.isSome) : afterNode s = .ok () s := by
  simp only [afterNode, look_bind, id_eq, if_pos h, op_pure]

theorem afterNode_rootless {s : State} (h : s.tree.root = none) : afterNode s = readRest s := by
  simp only [afterNode, look_bind, id_eq, h]
  rfl

theorem readRest_next {s t : State} (h : readNode s = .ok () t) (hs : s.tree.ncnt ≤ 511)
    (ht : t.tree.ncnt = s.tree.ncnt + 1) : readRest s = afterNode t := by
  rw [readRest_apply, show 512 - s.tree.ncnt = (512 - t.tree.ncnt) + 1 by omega, readNodes_succ _ h]
  by_cases hroot : t.tree.root.isSome
  · rw [if_pos hroot, afterNode_rooted hroot]
  · rw [if_neg hroot, afterNode_rootless (by simpa using hroot), readRest_apply]

theorem readRest_stop {s t : State} {e : Stop} (h : readNode s = .error e t) (hs : s.tree.ncnt ≤ 511) :
    readRest s = .error e t := by
  rw [readRest_apply, show 512 - s.tree.ncnt = (511 - s.tree.ncnt) + 1 by omega, readNodes_stop _ h]

-- One tree in the store ---------------------------------------------------------------------------------------------------

/-- `t` is `s` after the nodes of `tr` are read: they fill the entries allotted next, the reader has moved over their bits, and
the subtree they make is ended in the nodes that are open. -/
def State.TreeRead (s : State) (tr : Tree) (t : State) : Prop :=
  ∃ u : TreeStore, u.laidOut tr s.tree.ncnt u.ncnt ∧ (∀ j, j < s.tree.ncnt → u.at j = s.tree.at j) ∧ u.root = none ∧
    t = (s.setTree (u.close s.tree.ncnt s.tree.dstk)).setBr { s.br with pos := s.br.pos + (Tree.ser tr).length }

theorem State.TreeRead.ncnt {s t : State} {tr : Tree} (h : s.TreeRead tr t) :
    t.tree.ncnt + 1 = s.tree.ncnt + 2 * treeLeaves tr := by
  obtain ⟨u, hu, -, -, rfl⟩ := h
  exact (congrArg (· + 1) (close_ncnt _ _ _)).trans (laidOut_size hu)

/-- What the reader sees after it. -/
theorem State.TreeRead.bits {s t : State} {tr : Tree} {rest : Bits} (h : s.TreeRead tr t)
    (hbits : s.bitsLeft = Tree.ser tr ++ rest) (hp : s.br.pos ≤ s.br.limit) :
    t.br.pos ≤ t.br.limit ∧ t.bitsLeft = rest ∧ t.br = { s.br with pos := t.br.pos } := by
  obtain ⟨u, -, -, -, rfl⟩ := h
  obtain ⟨hpos, hleft⟩ := bitsLeft_skip
    (t := (s.setTree (u.close s.tree.ncnt s.tree.dstk)).setBr { s.br with pos := s.br.pos + (Tree.ser tr).length })
    hbits hp (fun _ => rfl) rfl rfl
  exact ⟨hpos, hleft, rfl⟩

/-- A leaf fills the next entry. -/
theorem treeRead_leaf (s : State) (v : Byte) (hroot : s.tree.root = none) :
    s.TreeRead (.leaf v) ((s.setTree (s.tree.leafRead v)).setBr { s.br with pos := s.br.pos + 9 }) := by
  refine ⟨TreeStore.put { s.tree with ncnt := s.tree.ncnt + 1 } s.tree.ncnt (.leaf v none),
    ⟨rfl, none, by simp [put_at]⟩, fun j hj => ?_, hroot, ?_⟩
  · rw [put_at, if_neg (by omega)]
    rfl
  · rw [Tree.ser, List.length_cons, byteBits_length]
    rfl

/-- The state after a node marker 0 (R176). -/
def State.opened (s : State) : State :=
  (s.setTree { s.tree with ncnt := s.tree.ncnt + 1, dstk := (s.tree.ncnt, false) :: s.tree.dstk }).setBr
    { s.br with pos := s.br.pos + 1 }

/-- After its left subtree an open node is open on its right side, with no root yet. -/
theorem treeRead_opened {s t : State} {l : Tree} (h : s.opened.TreeRead l t) :
    ∃ u : TreeStore, u.laidOut l (s.tree.ncnt + 1) u.ncnt ∧ (∀ j, j < s.tree.ncnt + 1 → u.at j = s.tree.at j) ∧
      u.root = none ∧ t = (s.setTree { u with dstk := (s.tree.ncnt, true) :: s.tree.dstk }).setBr
        { s.br with pos := s.br.pos + 1 + (Tree.ser l).length } := h

theorem treeRead_opened_root {s t : State} {l : Tree} (h : s.opened.TreeRead l t) : t.tree.root = none := by
  obtain ⟨u, -, -, hroot, rfl⟩ := treeRead_opened h
  exact hroot

/-- An opened node and its two subtrees are a tree. -/
theorem treeRead_node {s t₁ t₂ : State} {l r : Tree} (hl : s.opened.TreeRead l t₁) (hr : t₁.TreeRead r t₂) :
    s.TreeRead (.node l r) t₂ := by
  obtain ⟨u, hu, huat, -, rfl⟩ := treeRead_opened hl
  obtain ⟨w, hw, hwat, hroot, rfl⟩ := hr
  change w.laidOut r u.ncnt w.ncnt at hw
  change ∀ j, j < u.ncnt → w.at j = u.at j at hwat
  have hlt := laidOut_lt hu
  refine ⟨w.put s.tree.ncnt (.internal (s.tree.ncnt + 1) u.ncnt none),
    ⟨u.ncnt, none, by simp [put_at], laidOut_congr (fun j hj hju => ?_) hu, laidOut_congr (fun j hj _ => ?_) hw⟩,
    fun j hj => ?_, hroot, ?_⟩
  · rw [put_at, if_neg (by omega), hwat j hju]
  · rw [put_at, if_neg (by omega)]
  · rw [put_at, if_neg (by omega), hwat j (by omega), huat j (by omega)]
  · have hlen : s.br.pos + (Tree.ser (.node l r)).length = s.br.pos + 1 + (Tree.ser l).length + (Tree.ser r).length := by
      simp only [Tree.ser, List.length_cons, List.length_append]
      omega
    rw [hlen]
    rfl

/-- A tree read with no node open is the tree of the store. -/
theorem isTree_of_treeRead {s t : State} {tr : Tree} (h : s.TreeRead tr t) (hopen : s.tree.dstk = [])
    (hleaves : treeLeaves tr ≤ 256) : t.tree.isTree (some tr) := by
  obtain ⟨u, hu, -, -, rfl⟩ := h
  rw [hopen]
  exact ⟨s.tree.ncnt, rfl, holds_of_laidOut (laidOut_congr (fun j _ _ => at_congr (t := u) rfl j) hu), hleaves⟩

-- The reader against the reference reader ---------------------------------------------------------------------------------

/-- At a node the loop reads the tree that the bits left begin with, if there is one with room in the store; else it raises. -/
def State.ReadsTree (s : State) (f : Nat) : Prop :=
  (∃ tr rest t, parseTree f s.bitsLeft = some (tr, rest) ∧ s.tree.ncnt + 2 * treeLeaves tr ≤ 512 ∧ s.TreeRead tr t ∧
    readRest s = afterNode t) ∨
  ((∀ tr rest, parseTree f s.bitsLeft = some (tr, rest) → 512 < s.tree.ncnt + 2 * treeLeaves tr) ∧
    ∃ t, readRest s = .error (.err .malformedArchive) t)

theorem readsTree_of_no_parse {s : State} {f : Nat} (h : parseTree f s.bitsLeft = none)
    (hstop : ∃ t, readRest s = .error (.err .malformedArchive) t) : s.ReadsTree f :=
  .inr ⟨fun _ _ h' => (nomatch h.symm.trans h'), hstop⟩

/-- No free entry (R180). -/
theorem readsTree_full {s : State} (f : Nat) (h : s.tree.ncnt = 511) : s.ReadsTree f := by
  refine .inr ⟨fun tr _ _ => ?_, s, readRest_stop (readNode_full s (by omega)) (by omega)⟩
  have := treeLeaves_pos tr
  omega

/-- A node that the bits left do not hold. -/
theorem readRest_short {s : State} (hn : s.tree.ncnt < 511) (he : s.br.err = .malformedArchive)
    (hp : s.br.limit < s.br.pos + 9) (hb : s.br.pos < s.br.limit → s.inBit s.br.pos = true) :
    ∃ t, readRest s = .error (.err .malformedArchive) t := by
  obtain ⟨t, ht, -⟩ := readNode_short hn hp hb
  rw [he] at ht
  exact ⟨t, readRest_stop ht (by omega)⟩

/-- A marker 1: a leaf, or too few bits for one. -/
theorem readsTree_leaf {s : State} {bs : Bits} (f : Nat) (hroot : s.tree.root = none) (hn : s.tree.ncnt < 511)
    (he : s.br.err = .malformedArchive) (hbits : s.bitsLeft = true :: bs) :
    s.ReadsTree (f + 1) := by
  have hlen := bitsLeft_length s
  rw [hbits, List.length_cons] at hlen
  have hbit : s.inBit s.br.pos = true := by
    exact List.head_eq_of_cons_eq (inBits_of_bitsLeft (xs := [true]) hbits).1
  cases htake : takeBits 8 bs with
  | none =>
    have hshort : bs.length < 8 := by
      rw [takeBits_eq] at htake
      by_contra hge
      rw [if_pos (by omega)] at htake
      cases htake
    exact readsTree_of_no_parse (by simp only [hbits, parseTree, htake])
      (readRest_short hn he (by omega) fun _ => hbit)
  | some x =>
    obtain ⟨v, rest⟩ := x
    obtain ⟨rfl, hv⟩ := takeBits_eq_some htake
    rw [List.length_append] at hlen
    have hvalue : s.inBits (s.br.pos + 1) 8 = v := by
      obtain ⟨h, -⟩ := inBits_of_bitsLeft (xs := true :: v) hbits
      rw [List.length_cons, hv] at h
      exact List.tail_eq_of_cons_eq h
    have hread := readNode_leaf s hn (by omega) hbit
    rw [hvalue, leafNode_apply] at hread
    refine .inl ⟨.leaf (BitVec.ofNat 8 (bitsNat v)), rest, _, by simp only [hbits, parseTree, htake], ?_,
      treeRead_leaf s _ hroot, readRest_next hread (by omega) (close_ncnt _ _ _)⟩
    show s.tree.ncnt + 2 * 1 ≤ 512
    omega

/-- A marker 0: the left subtree, then the right one. -/
theorem readsTree_node {s : State} {bs : Bits} {f : Nat} (hroot : s.tree.root = none) (hn : s.tree.ncnt < 511)
    (hp : s.br.pos ≤ s.br.limit) (hbits : s.bitsLeft = false :: bs) (hleft : s.opened.ReadsTree f)
    (hright : ∀ l mid t, parseTree f s.opened.bitsLeft = some (l, mid) → s.opened.TreeRead l t → t.tree.ncnt ≤ 511 →
      t.ReadsTree f) : s.ReadsTree (f + 1) := by
  have hlen := bitsLeft_length s
  rw [hbits, List.length_cons] at hlen
  have hbit : s.inBit s.br.pos = false := List.head_eq_of_cons_eq (inBits_of_bitsLeft (xs := [false]) hbits).1
  obtain ⟨-, hmore⟩ := bitsLeft_skip (xs := [false]) (t := s.opened) hbits hp (fun _ => rfl) rfl rfl
  have hopen : readRest s = readRest s.opened :=
    (readRest_next (readNode_internal s hn (by omega) hbit) (by omega) rfl).trans (afterNode_rootless hroot)
  have hncnt : s.opened.tree.ncnt = s.tree.ncnt + 1 := rfl
  have hparse {tr : Tree} {rest : Bits} (h : parseTree (f + 1) s.bitsLeft = some (tr, rest)) :
      ∃ l r mid, tr = .node l r ∧ parseTree f s.opened.bitsLeft = some (l, mid) ∧ parseTree f mid = some (r, rest) := by
    rw [hmore]
    rw [hbits] at h
    exact parseTree_node.1 h
  rcases hleft with ⟨l, mid, t, hl, hlroom, hlread, hlrest⟩ | ⟨hlfull, u, hu⟩
  · have ht := hlread.ncnt
    have hpos : s.opened.br.pos ≤ s.opened.br.limit := by show s.br.pos + 1 ≤ s.br.limit; omega
    obtain ⟨-, hmid, -⟩ := hlread.bits (ser_of_parseTree hl) hpos
    have hgo : readRest s = readRest t := hopen.trans (hlrest.trans (afterNode_rootless (treeRead_opened_root hlread)))
    rcases hright l mid t hl hlread (by omega) with ⟨r, rest, t₂, hr, hrroom, hrread, hrrest⟩ | ⟨hrfull, u, hu⟩
    · rw [hmid] at hr
      rw [hmore] at hl
      refine .inl ⟨.node l r, rest, t₂, by rw [hbits]; exact parseTree_node.2 ⟨l, r, mid, rfl, hl, hr⟩, ?_,
        treeRead_node hlread hrread, hgo.trans hrrest⟩
      simp only [treeLeaves]
      omega
    · refine .inr ⟨fun tr rest h => ?_, u, hgo.trans hu⟩
      obtain ⟨l', r, mid', rfl, hl', hr⟩ := hparse h
      cases hl.symm.trans hl'
      have hroom := hrfull r rest (hmid ▸ hr)
      simp only [treeLeaves]
      omega
  · refine .inr ⟨fun tr rest h => ?_, u, hopen.trans hu⟩
    obtain ⟨l, r, mid, rfl, hl, -⟩ := hparse h
    have hroom := hlfull l mid hl
    have hr := treeLeaves_pos r
    simp only [treeLeaves]
    omega

/-- A node is read as the reference reader reads it, for as much depth as there are entries left in the store. -/
theorem readsTree (f : Nat) {s : State} (hroot : s.tree.root = none) (hn : s.tree.ncnt ≤ 511)
    (hf : 512 ≤ s.tree.ncnt + f) (he : s.br.err = .malformedArchive) (hp : s.br.pos ≤ s.br.limit) : s.ReadsTree f := by
  induction f generalizing s with
  | zero => omega
  | succ f ih =>
    by_cases hfull : s.tree.ncnt = 511
    · exact readsTree_full _ hfull
    have hlt : s.tree.ncnt < 511 := by omega
    have hlen := bitsLeft_length s
    cases hbits : s.bitsLeft with
    | nil =>
      rw [hbits, List.length_nil] at hlen
      exact readsTree_of_no_parse (by rw [hbits]; rfl) (readRest_short hlt he (by omega) fun h => by omega)
    | cons b bs =>
      cases b with
      | true => exact readsTree_leaf f hroot hlt he hbits
      | false =>
        obtain ⟨hpos, -⟩ := bitsLeft_skip (xs := [false]) (t := s.opened) hbits hp (fun _ => rfl) rfl rfl
        refine readsTree_node hroot hlt hp hbits
          (ih hroot hlt (by show 512 ≤ s.tree.ncnt + 1 + f; omega) he hpos) fun l mid t hl hread hroom => ?_
        obtain ⟨hpos', -, hbr⟩ := hread.bits (ser_of_parseTree hl) hpos
        have hncnt := hread.ncnt
        have hleaves := treeLeaves_pos l
        exact ih (treeRead_opened_root hread) hroom (by change t.tree.ncnt + 1 = s.tree.ncnt + 1 + _ at hncnt; omega)
          (by rw [hbr]; exact he) hpos'

-- The whole region --------------------------------------------------------------------------------------------------------

/-- `t` differs from `s` at most in the node store and the bit reader. -/
def State.treeOnly (s t : State) : Prop := t = (s.setTree t.tree).setBr t.br

theorem treeOnly_self (s : State) : s.treeOnly s := rfl

theorem treeOnly_trans {s t u : State} (h : s.treeOnly t) (hu : t.treeOnly u) : s.treeOnly u := by
  unfold State.treeOnly at *
  rw [h] at hu
  exact hu

theorem brGetBit_treeOnly (s : State) : Op.Keeps s.treeOnly brGetBit :=
  .bind (.look _) fun _ => .ite (.raise _) (.bind (.upd fun _ h => treeOnly_trans h rfl) fun _ => .pure _)

theorem brGetBitsFrom_treeOnly (s : State) (n v : Nat) : Op.Keeps s.treeOnly (brGetBitsFrom n v) := by
  induction n generalizing v with
  | zero => exact .pure _
  | succ n ih => exact .bind (brGetBit_treeOnly s) fun _ => ih _

theorem readNode_treeOnly (s : State) : Op.Keeps s.treeOnly readNode := by
  have htree (f : State → TreeStore) : Op.Keeps s.treeOnly (upd fun u => u.setTree (f u)) :=
    .upd fun _ h => treeOnly_trans h rfl
  refine .bind (.bind (.look _) fun _ => .bind (.check _ _) fun _ => .bind (htree _) fun _ => .pure _) fun i => ?_
  refine .bind (brGetBit_treeOnly s) fun mk => .ite ?_ (htree _)
  exact .bind (brGetBitsFrom_treeOnly s 8 0) fun _ => htree _

theorem readNodes_treeOnly (s : State) (n : Nat) : Op.Keeps s.treeOnly (readNodes n) := by
  induction n with
  | zero => exact .pure _
  | succ n ih => exact .bind (readNode_treeOnly s) fun _ => .bind (.look _) fun _ => .ite (.pure _) ih

theorem hfDeserTree_treeOnly (s : State) : Op.Keeps s.treeOnly hfDeserTree := by
  refine .bind (.upd fun _ h => treeOnly_trans h rfl) fun _ => .bind (.look _) fun _ => .ite (.pure _) ?_
  refine .bind (.bind (.look _) fun _ => .bind (.need _ _) fun _ => .upd fun _ h => treeOnly_trans h rfl) fun _ => ?_
  exact .bind (readNodes_treeOnly s _) fun _ => .bind (.look _) fun _ => .check _ _

/-- The state in which `HF_DESER_TREE` reads the first node (R176). -/
def State.atTree (s : State) : State :=
  (s.setTree s.tree.cleared).setBr { pos := 80, limit := 80 + s.tbl, err := .malformedArchive }

theorem atTree_bitsLeft (s : State) : s.atTree.bitsLeft = s.inBits 80 s.tbl := by
  show s.atTree.inBits 80 (80 + s.tbl - 80) = _
  rw [Nat.add_sub_cancel_left]
  exact inBits_congr (s := s.atTree) (t := s) (fun _ => rfl) _ _

theorem hfDeserTree_atTree {s : State} (h : s.tbl ≠ 0) (hr : 80 + s.tbl ≤ 8 * s.host.inLen) :
    hfDeserTree s = (readRest >>= fun _ => closeTree) s.atTree := hfDeserTree_region s h hr

/-- A region that is not empty: the tree it is read as, all bits consumed, or an error, as the reference reader has it. -/
theorem hfDeserTree_refTree {s : State} (h : s.tbl ≠ 0) (hr : 80 + s.tbl ≤ 8 * s.host.inLen) :
    (∃ tr t, refTree (s.inBits 80 s.tbl) = .ok (some tr) ∧ hfDeserTree s = .ok () t ∧ t.tree.isTree (some tr) ∧
      t.br = { pos := 80 + s.tbl, limit := 80 + s.tbl, err := .malformedArchive }) ∨
    (refTree (s.inBits 80 s.tbl) = .error .malformedArchive ∧
      ∃ t, hfDeserTree s = .error (.err .malformedArchive) t) := by
  have hne : s.inBits 80 s.tbl ≠ [] := fun hnil => h (by rw [← inBits_length s 80 s.tbl, hnil]; rfl)
  have hbits := atTree_bitsLeft s
  rw [hfDeserTree_atTree h hr]
  rcases readsTree 512 (s := s.atTree) rfl (Nat.zero_le _) (Nat.le_refl _) rfl (Nat.le_add_right _ _) with
    ⟨tr, rest, t, hparse, hroom, hread, hrest⟩ | ⟨hfull, t, ht⟩
  · have hleaves : treeLeaves tr ≤ 256 := by change 0 + 2 * treeLeaves tr ≤ 512 at hroom; omega
    have htree := isTree_of_treeRead hread rfl hleaves
    obtain ⟨hle, hleft, hbr⟩ := hread.bits (ser_of_parseTree hparse) (Nat.le_add_right _ _)
    have hclose : (readRest >>= fun _ => closeTree) s.atTree =
        if t.br.pos = t.br.limit then .ok () t else .error (.err .malformedArchive) t :=
      (bind_ok (hrest.trans (afterNode_rooted (isTree_root htree)))).trans (closeTree_apply t)
    have hlen := bitsLeft_length t
    rw [hleft] at hlen
    rw [hbits] at hparse
    rw [hclose, refTree_of_parseTree hne hparse]
    by_cases hend : rest = []
    · rw [hend, List.length_nil] at hlen
      have hlim : t.br.limit = 80 + s.tbl := by rw [hbr]; rfl
      have hpos : t.br.pos = t.br.limit := by omega
      refine .inl ⟨tr, t, if_pos ⟨hend, hleaves⟩, if_pos hpos, htree, hbr.trans ?_⟩
      rw [hpos, hlim]
      rfl
    · have hpos : t.br.pos ≠ t.br.limit := by have := List.length_pos_iff.2 hend; omega
      exact .inr ⟨if_neg fun hc => hend hc.1, t, if_neg hpos⟩
  · refine .inr ⟨refTree_of_no_parse hne fun tr rest hparse => ?_, t, bind_error ht⟩
    have hroom := hfull tr rest (hbits ▸ hparse)
    change 512 < 0 + 2 * treeLeaves tr at hroom
    omega

/-- TREE_BITS with the bits of its region is `HF_DESER_TREE` (R89, R210). -/
theorem exec_readsTree {s : State} {i : Instr}
    (h : i = .hfDeserTree ∨ (s.seq.phase.writes = false ∧ i = .treeBits (s.inBits 80 s.tbl))) :
    exec i s = runOp hfDeserTree s := by
  rcases h with rfl | ⟨hread, rfl⟩
  · rfl
  · refine (runOp_writeOrRead_reads hread _ _).trans (runOp_congr ?_)
    simp only [acceptTreeBits, look_bind, id_eq, inBits_length, true_and, if_true]

/-- Settles O46: an empty region by `hfDeserTree_empty`, the others by `hfDeserTree_refTree`; what is left unchanged by
`hfDeserTree_treeOnly`. -/
theorem deserialisationReadsExactlyOneTree : Obligations.DeserialisationReadsExactlyOneTree := by
  unfold Obligations.DeserialisationReadsExactlyOneTree
  intro s i hr hi
  rw [exec_readsTree hi]
  by_cases h0 : s.tbl = 0
  · refine ⟨_, runOp_of_ok (hfDeserTree_empty s h0), fun hlong => by omega, ?_⟩
    rw [h0, if_pos rfl]
    exact ⟨rfl, rfl, rfl⟩
  rcases hfDeserTree_refTree h0 hr with ⟨tr, t, href, ht, htree, hbr⟩ | ⟨href, t, ht⟩
  · refine ⟨t, runOp_of_ok ht, fun hlong => ?_, ?_⟩
    · rw [refTree_of_long (by rw [inBits_length]; exact hlong)] at href
      cases href
    · rw [href, if_neg h0]
      exact ⟨(hfDeserTree_treeOnly s).ok (treeOnly_self s) ht, htree, hbr⟩
  · have htook : s.tookError (t.takeError .malformedArchive) .malformedArchive := by
      rw [(hfDeserTree_treeOnly s).error (treeOnly_self s) ht]
      exact tookError_takeError ((s.setTree t.tree).setBr t.br) _
    refine ⟨_, runOp_of_err ht, fun _ => htook.1, ?_⟩
    rw [href]
    exact ⟨rfl, htook⟩

/-- Settles O47: the region holds the serialisation, which the reference reader takes for its tree (`refTree_ser`). -/
theorem serializedTreesRebuild : Obligations.SerializedTreesRebuild := by
  unfold Obligations.SerializedTreesRebuild
  intro s tr hleaves htbl hroom hregion
  have hlen : 8 * ceil8 s.tbl = s.tbl + padCount s.tbl := by
    unfold padCount ceil8
    omega
  rw [hlen, inBits_add, padded] at hregion
  have hbits : s.inBits 80 s.tbl = Tree.ser tr := (List.append_inj hregion (by rw [inBits_length, htbl])).1
  obtain ⟨t, ht, -, hres⟩ := deserialisationReadsExactlyOneTree s .hfDeserTree (by omega) (.inl rfl)
  rw [hbits, refTree_ser hleaves] at hres
  obtain ⟨hframe, htree, -⟩ := hres
  exact ⟨t, ht, htree, by rw [hframe]; rfl, by rw [hframe]; rfl⟩

end Sys2Proof.Machine

/-! `HF_BUILD` against the reference merge loop (R162 to R168): while they run, the live nodes of the store are the trees of the
reference forest in some order. Distinct keys make the order irrelevant: each round finds the same two first nodes. -/

namespace Sys2Proof.Machine

-- The priority order ------------------------------------------------------------------------------------------------------

theorem Key.not_before_of_before {x y : Key} (h : x.before y = true) : y.before x = false := by
  simp only [Key.before, Bool.or_eq_true, Bool.and_eq_true, Bool.or_eq_false_iff, Bool.and_eq_false_iff, decide_eq_true_eq,
    decide_eq_false_iff_not, beq_iff_eq, beq_eq_false_iff_ne] at *
  omega

theorem Key.not_before_trans {x y z : Key} (hxy : x.before y = false) (hyz : y.before z = false) : x.before z = false := by
  simp only [Key.before, Bool.or_eq_false_iff, Bool.and_eq_false_iff, decide_eq_false_iff_not, beq_eq_false_iff_ne] at *
  omega

/-- The order is total (R165). -/
theorem Key.eq_of_not_before {x y : Key} (hxy : x.before y = false) (hyx : y.before x = false) : x = y := by
  obtain ⟨f, m⟩ := x
  obtain ⟨f', m'⟩ := y
  simp only [Key.before, Bool.or_eq_false_iff, Bool.and_eq_false_iff, decide_eq_false_iff_not, beq_eq_false_iff_ne,
    Key.mk.injEq] at *
  omega

/-- No key of the list is before `k`. -/
def Key.first (k : Key) (ks : List Key) : Prop := ∀ x ∈ ks, x.before k = false

theorem Key.first_cons {k x : Key} {ks : List Key} : k.first (x :: ks) ↔ x.before k = false ∧ k.first ks :=
  List.forall_mem_cons

theorem Key.before_self (k : Key) : k.before k = false := by simp [Key.before]

/-- `x` is a first element of the list in priority order, `y` a first one of those left, and `rest` are the others. -/
structure TwoFirst {α : Type} (key : α → Key) (l : List α) (x y : α) (rest : List α) : Prop where
  perm : l.Perm (x :: y :: rest)
  first : (key x).first (l.map key)
  second : (key y).first ((y :: rest).map key)

/-- Distinct keys leave no choice of the two. -/
theorem TwoFirst.unique {α : Type} {key : α → Key} {l l' rest rest' : List α} {x y x' y' : α} (h : TwoFirst key l x y rest)
    (h' : TwoFirst key l' x' y' rest') (hl : l.Perm l') (hkey : ∀ a ∈ l, ∀ b ∈ l, key a = key b → a = b) :
    x = x' ∧ y = y' ∧ rest.Perm rest' := by
  have hperm := h.perm.symm.trans (hl.trans h'.perm)
  have hsub : ∀ a ∈ x :: y :: rest, a ∈ l := fun a ha => h.perm.symm.subset ha
  have hsub' : ∀ a ∈ x' :: y' :: rest', a ∈ l := fun a ha => hsub a (hperm.symm.subset ha)
  obtain rfl : x = x' := by
    have hx := hsub x (by simp)
    have hx' := hsub' x' (by simp)
    exact hkey x hx x' hx' (Key.eq_of_not_before (h'.first _ (List.mem_map_of_mem (hl.subset hx)))
      (h.first _ (List.mem_map_of_mem hx')))
  have hperm' := hperm.cons_inv
  obtain rfl : y = y' := by
    have hy := hperm'.subset (List.mem_cons_self (a := y))
    have hy' := hperm'.symm.subset (List.mem_cons_self (a := y'))
    exact hkey y (hsub y (by simp)) y' (hsub' y' (by simp)) (Key.eq_of_not_before (h'.second _ (List.mem_map_of_mem hy))
      (h.second _ (List.mem_map_of_mem hy')))
  exact ⟨rfl, rfl, hperm'.cons_inv⟩

theorem TwoFirst.map {α β : Type} {key : α → Key} {l rest : List α} {x y : α} (e : α → β) (key' : β → Key)
    (he : ∀ a, key' (e a) = key a) (h : TwoFirst key l x y rest) : TwoFirst key' (l.map e) (e x) (e y) (rest.map e) where
  perm := h.perm.map e
  first := by simpa only [List.map_map, Function.comp_def, he] using h.first
  second := by simpa only [List.map_cons, List.map_map, Function.comp_def, he] using h.second

-- The two first live nodes ------------------------------------------------------------------------------------------------

theorem firstOf_first (t : TreeStore) (x : Nat) (xs : List Nat) :
    (t.at (t.firstOf x xs)).key.first ((x :: xs).map fun i => (t.at i).key) := by
  induction xs generalizing x with
  | nil => exact Key.first_cons.2 ⟨Key.before_self _, fun _ h => nomatch h⟩
  | cons y ys ih =>
    simp only [List.map_cons, Key.first_cons] at ih ⊢
    rw [TreeStore.firstOf]
    by_cases hb : (t.at y).key.before (t.at x).key = true
    · rw [if_pos hb]
      obtain ⟨hy, hys⟩ := ih y
      exact ⟨Key.not_before_trans (Key.not_before_of_before hb) hy, hy, hys⟩
    · rw [if_neg hb]
      obtain ⟨hx, hys⟩ := ih x
      exact ⟨hx, Key.not_before_trans (by simpa using hb) hx, hys⟩

/-- A round of the merge loop with two live nodes or more (R166). -/
theorem mergeOnce_two {t : TreeStore} (h : 2 ≤ t.live.length) :
    ∃ a b rest, TwoFirst (fun i => (t.at i).key) t.live a b rest ∧
      t.mergeOnce = TreeStore.addLive { t with live := rest } (t.merged a b) := by
  match hl : t.live with
  | [] => rw [hl] at h; exact absurd h (by decide)
  | x :: xs =>
    have hp := List.perm_cons_erase (firstOf_mem t x xs)
    match he : (x :: xs).erase (t.firstOf x xs) with
    | [] =>
      have hlen := hp.length_eq
      rw [he] at hlen
      rw [hl, hlen] at h
      exact absurd h (by simp)
    | y :: ys =>
      rw [he] at hp
      refine ⟨t.firstOf x xs, t.firstOf y ys, (y :: ys).erase (t.firstOf y ys),
        ⟨hp.trans ((List.perm_cons_erase (firstOf_mem t y ys)).cons _), firstOf_first t x xs, fun k hk => ?_⟩, ?_⟩
      · exact firstOf_first t y ys k (((List.perm_cons_erase (firstOf_mem t y ys)).map _).symm.subset hk)
      · simp only [TreeStore.mergeOnce, hl, he]

/-- With fewer there is none. -/
theorem mergeOnce_few {t : TreeStore} (h : t.live.length ≤ 1) : t.mergeOnce = t := by
  match hl : t.live with
  | [] => simp only [TreeStore.mergeOnce, hl]
  | [x] => simp only [TreeStore.mergeOnce, hl, TreeStore.firstOf, List.erase_cons_head]
  | _ :: _ :: _ => rw [hl] at h; simp at h

theorem mergeAll_few {t : TreeStore} (n : Nat) (h : t.live.length ≤ 1) : TreeStore.mergeAll n t = t := by
  induction n with
  | zero => rfl
  | succ n ih => rw [TreeStore.mergeAll, mergeOnce_few h, ih]

-- The two first trees of the reference forest -----------------------------------------------------------------------------

theorem extractFirst_first (x : Key × Tree) (xs : List (Key × Tree)) :
    (x :: xs).Perm ((extractFirst x xs).1 :: (extractFirst x xs).2) ∧
      (extractFirst x xs).1.1.first ((x :: xs).map Prod.fst) := by
  induction xs generalizing x with
  | nil => exact ⟨.refl _, Key.first_cons.2 ⟨Key.before_self _, fun _ h => nomatch h⟩⟩
  | cons y ys ih =>
    simp only [List.map_cons, Key.first_cons] at ih ⊢
    rw [extractFirst]
    by_cases hb : y.1.before x.1 = true
    · rw [if_pos hb]
      obtain ⟨hperm, hy, hys⟩ := ih y
      exact ⟨(hperm.cons x).trans (.swap _ _ _), Key.not_before_trans (Key.not_before_of_before hb) hy, hy, hys⟩
    · rw [if_neg hb]
      obtain ⟨hperm, hx, hys⟩ := ih x
      exact ⟨(List.Perm.swap y x ys).trans ((hperm.cons y).trans (.swap _ _ _)), hx,
        Key.not_before_trans (by simpa using hb) hx, hys⟩

/-- A round of the reference merge loop. -/
theorem refMerge_two {F : List (Key × Tree)} (n : Nat) (h : 2 ≤ F.length) :
    ∃ x y rest, TwoFirst Prod.fst F x y rest ∧ refMerge (n + 1) F = refMerge n (rest ++ [mergeNodes x y]) := by
  match F with
  | [] => exact absurd h (by decide)
  | [_] => exact absurd h (by simp)
  | x :: y :: ys =>
    obtain ⟨hp, hfirst⟩ := extractFirst_first x (y :: ys)
    match he : extractFirst x (y :: ys) with
    | (a, []) =>
      rw [he] at hp
      exact absurd hp.length_eq (by simp)
    | (a, z :: zs) =>
      rw [he] at hp hfirst
      obtain ⟨hp', hfirst'⟩ := extractFirst_first z zs
      refine ⟨a, (extractFirst z zs).1, (extractFirst z zs).2, ⟨hp.trans (hp'.cons a), hfirst, fun k hk => ?_⟩, ?_⟩
      · exact hfirst' k ((hp'.map _).symm.subset hk)
      · simp only [refMerge, he]

theorem refMerge_few {F : List (Key × Tree)} (n : Nat) (h : F.length ≤ 1) : refMerge n F = F.head?.map Prod.snd := by
  match F with
  | [] => simp [refMerge]
  | [_] => simp [refMerge]
  | _ :: _ :: _ => simp at h

-- The store against the reference forest ----------------------------------------------------------------------------------

/-- The live nodes are the roots of the trees of the forest, with their keys, in some order. -/
def TreeStore.forest (t : TreeStore) (F : List (Key × Tree)) : Prop :=
  ∃ g : Nat → Tree, (∀ i ∈ t.live, t.within t.ncnt i (g i)) ∧ (t.live.map fun i => ((t.at i).key, g i)).Perm F

theorem TreeStore.forest.length {t : TreeStore} {F : List (Key × Tree)} (h : t.forest F) : t.live.length = F.length := by
  obtain ⟨g, -, hp⟩ := h
  rw [← hp.length_eq, List.length_map]

/-- The root does not matter to the forest. -/
theorem TreeStore.forest.withRoot {t : TreeStore} {F : List (Key × Tree)} (h : t.forest F) (r : Option Nat) :
    TreeStore.forest { t with root := r } F := by
  obtain ⟨g, hg, hp⟩ := h
  exact ⟨g, fun i hi => within_mono (t := t) (u := { t with root := r }) (fun _ _ => rfl) (Nat.le_refl _) (hg i hi), hp⟩

/-- A live node more is a tree more. -/
theorem addLive_forest {t : TreeStore} {F : List (Key × Tree)} {n : Node} {tr : Tree} (h : t.forest F)
    (hn : (t.addLive n).within (t.ncnt + 1) t.ncnt tr) : (t.addLive n).forest (F ++ [(n.key, tr)]) := by
  obtain ⟨g, hg, hp⟩ := h
  have hne : ∀ i ∈ t.live, i ≠ t.ncnt := fun i hi => Nat.ne_of_lt (within_lt (hg i hi))
  have hold : ∀ i, i < t.ncnt → (t.addLive n).at i = t.at i := fun i hi => by rw [addLive_at, if_neg (by omega)]
  refine ⟨Function.update g t.ncnt tr, fun i hi => ?_, ?_⟩
  · rw [addLive_live, List.mem_append, List.mem_singleton] at hi
    rcases hi with hi | rfl
    · rw [Function.update_of_ne (hne i hi)]
      exact within_mono hold (Nat.le_succ _) (hg i hi)
    · rw [Function.update_self]
      exact hn
  · rw [addLive_live, List.map_append, List.map_singleton, Function.update_self, addLive_at, if_pos rfl]
    refine List.Perm.append_right _ (.trans (.of_eq (List.map_congr_left fun i hi => ?_)) hp)
    rw [Function.update_of_ne (hne i hi), hold i (within_lt (hg i hi))]

/-- What the rounds keep of the forest of a stream: its leaves have the values of the stream, each once, and the symbol in the key
of a tree is among its own values. -/
structure Grown (T : List Byte) (F : List (Key × Tree)) : Prop where
  nodup : (F.flatMap fun x => treeValues x.2).Nodup
  mem : ∀ v, v ∈ (F.flatMap fun x => treeValues x.2) ↔ v ∈ T
  keys : ∀ x ∈ F, ∃ v ∈ treeValues x.2, x.1.minsym = v.toNat

theorem Grown.perm {T : List Byte} {F F' : List (Key × Tree)} (h : Grown T F) (hp : F.Perm F') : Grown T F' where
  nodup := (hp.flatMap_right _).nodup_iff.1 h.nodup
  mem v := ((hp.flatMap_right _).mem_iff.symm).trans (h.mem v)
  keys x hx := h.keys x (hp.symm.subset hx)

/-- Distinct trees have distinct keys. -/
theorem Grown.key_injective {T : List Byte} {F : List (Key × Tree)} (h : Grown T F) :
    ∀ x ∈ F, ∀ y ∈ F, x.1 = y.1 → x = y := by
  intro x hx y hy hxy
  by_contra hne
  have hsymm : Std.Symm (Function.onFun List.Disjoint fun x : Key × Tree => treeValues x.2) := ⟨fun _ _ hd => hd.symm⟩
  have hdisjoint := (List.nodup_flatMap.1 h.nodup).2.forall hx hy hne
  obtain ⟨v, hv, hkx⟩ := h.keys x hx
  obtain ⟨w, hw, hky⟩ := h.keys y hy
  rw [hxy, hky] at hkx
  obtain rfl := BitVec.eq_of_toNat_eq hkx
  exact hdisjoint hv hw

/-- Merging two trees keeps all this (R166). -/
theorem Grown.merge {T : List Byte} {x y : Key × Tree} {rest : List (Key × Tree)} (h : Grown T (x :: y :: rest)) :
    Grown T (rest ++ [mergeNodes x y]) := by
  have hp : ((x :: y :: rest).flatMap fun x => treeValues x.2).Perm
      ((rest ++ [mergeNodes x y]).flatMap fun x => treeValues x.2) := by
    simp only [List.flatMap_cons, List.flatMap_append, List.flatMap_nil, List.append_nil, mergeNodes, treeValues]
    rw [← List.append_assoc]
    exact List.perm_append_comm
  refine ⟨hp.nodup_iff.1 h.nodup, fun v => hp.mem_iff.symm.trans (h.mem v), fun z hz => ?_⟩
  rcases List.mem_append.1 hz with hz | hz
  · exact h.keys z (by simp [hz])
  · obtain rfl := List.mem_singleton.1 hz
    obtain ⟨v, hv, hkx⟩ := h.keys x (by simp)
    obtain ⟨w, hw, hky⟩ := h.keys y (by simp)
    rcases Nat.le_total x.1.minsym y.1.minsym with hle | hle
    · exact ⟨v, List.mem_append_left _ hv, (Nat.min_eq_left hle).trans hkx⟩
    · exact ⟨w, List.mem_append_right _ hw, (Nat.min_eq_right hle).trans hky⟩

/-- A round of `HF_BUILD` is a round of the reference loop: both merge the same two trees. -/
theorem mergeOnce_forest {T : List Byte} {t : TreeStore} {F rest : List (Key × Tree)} {x y : Key × Tree} (hf : t.forest F)
    (hg : Grown T F) (h : TwoFirst Prod.fst F x y rest) : t.mergeOnce.forest (rest ++ [mergeNodes x y]) := by
  have hlen := hf.length
  have hlen' := h.perm.length_eq
  obtain ⟨g, hin, hp⟩ := hf
  obtain ⟨a, b, others, hab, heq⟩ := mergeOnce_two (t := t) (by simp only [List.length_cons] at hlen'; omega)
  obtain ⟨rfl, rfl, hrest⟩ := (hab.map (fun i => ((t.at i).key, g i)) Prod.fst fun _ => rfl).unique h hp
    (hg.perm hp.symm).key_injective
  have hlive : ∀ i ∈ a :: b :: others, t.within t.ncnt i (g i) := fun i hi => hin i (hab.perm.symm.subset hi)
  have hkeep : ∀ i, i < t.ncnt → (TreeStore.addLive { t with live := others } (t.merged a b)).at i = t.at i := fun i hi => by
    rw [addLive_at, if_neg (by show i ≠ t.ncnt; omega)]
    rfl
  rw [heq]
  refine addLive_forest (t := { t with live := others }) (n := t.merged a b) (tr := .node (g a) (g b))
    ⟨g, fun i hi => within_mono (t := t) (u := { t with live := others }) (fun _ _ => rfl) (Nat.le_refl _)
      (hlive i (by simp [hi])), hrest⟩ ?_
  exact ⟨Nat.lt_succ_self _, a, b, _, by rw [addLive_at]; exact if_pos rfl,
    within_mono hkeep (Nat.le_succ _) (hlive a (by simp)), within_mono hkeep (Nat.le_succ _) (hlive b (by simp))⟩

/-- The merge loop is the reference loop. -/
theorem mergeAll_forest {T : List Byte} (n : Nat) {t : TreeStore} {F : List (Key × Tree)} (hf : t.forest F) (hg : Grown T F)
    (hn : F.length ≤ n + 1) : ∃ F', (TreeStore.mergeAll n t).forest F' ∧ Grown T F' ∧ F'.length ≤ 1 ∧
      refMerge n F = F'.head?.map Prod.snd := by
  induction n generalizing t F with
  | zero => exact ⟨F, hf, hg, hn, refMerge_few 0 hn⟩
  | succ n ih =>
    by_cases hfew : F.length ≤ 1
    · exact ⟨F, by rwa [mergeAll_few _ (hf.length ▸ hfew)], hg, hfew, refMerge_few _ hfew⟩
    · obtain ⟨x, y, rest, htwo, hmerge⟩ := refMerge_two n (F := F) (by omega)
      have hlen := htwo.perm.length_eq
      rw [hmerge]
      refine ih (mergeOnce_forest hf hg htwo) (hg.perm htwo.perm).merge ?_
      simp only [List.length_cons, List.length_append, List.length_nil] at hlen ⊢
      omega

-- The leaves ----------------------------------------------------------------------------------------------------------------

/-- The leaves that a frequency table gives a list of byte values (R162). -/
def leavesOf (f : Nat → Nat) (l : List Nat) : List (Key × Tree) :=
  (l.filter fun v => f v > 0).map fun v => ({ freq := f v, minsym := v }, .leaf (BitVec.ofNat 8 v))

theorem refLeaves_eq (T : List Byte) : refLeaves T = leavesOf (occurrences T) (List.range 256) := rfl

theorem leavesOf_congr {f g : Nat → Nat} {l : List Nat} (h : ∀ v ∈ l, f v = g v) : leavesOf f l = leavesOf g l := by
  have hfilter : (l.filter fun v => f v > 0) = l.filter fun v => g v > 0 :=
    List.filter_congr fun v hv => by rw [h v hv]
  rw [leavesOf, leavesOf, hfilter]
  exact List.map_congr_left fun v hv => by rw [h v (List.mem_filter.1 hv).1]

theorem addLeaf_forest (f : Table Nat) {t : TreeStore} {F : List (Key × Tree)} (v : Nat) (h : t.forest F) :
    (TreeStore.addLeaf f t v).forest (F ++ leavesOf (freqAt f) [v]) := by
  by_cases hv : freqAt f v > 0
  · have hone : leavesOf (freqAt f) [v] = [({ freq := freqAt f v, minsym := v }, .leaf (BitVec.ofNat 8 v))] := by
      simp [leavesOf, hv]
    rw [TreeStore.addLeaf, if_pos hv, hone]
    exact addLive_forest h ⟨Nat.lt_succ_self _, _, by rw [addLive_at]; exact if_pos rfl⟩
  · have hnone : leavesOf (freqAt f) [v] = [] := by simp [leavesOf, hv]
    rwa [TreeStore.addLeaf, if_neg hv, hnone, List.append_nil]

theorem addLeaves_forest (f : Table Nat) (l : List Nat) {t : TreeStore} {F : List (Key × Tree)} (h : t.forest F) :
    (l.foldl (TreeStore.addLeaf f) t).forest (F ++ leavesOf (freqAt f) l) := by
  induction l generalizing t F with
  | nil => rwa [show leavesOf (freqAt f) [] = [] from rfl, List.append_nil]
  | cons v l ih =>
    have hcons : leavesOf (freqAt f) (v :: l) = leavesOf (freqAt f) [v] ++ leavesOf (freqAt f) l := by
      simp only [leavesOf, ← List.map_append, ← List.filter_append, List.singleton_append]
    rw [List.foldl_cons, hcons, ← List.append_assoc]
    exact ih (addLeaf_forest f v h)

theorem occurrences_toNat (T : List Byte) (v : Byte) : occurrences T v.toNat = T.count v := by
  rw [occurrences, List.count]
  exact List.countP_congr fun b _ => by simp [BitVec.toNat_inj]

theorem occurrences_of_lt (T : List Byte) {v : Nat} (h : v < 256) : occurrences T v = T.count (BitVec.ofNat 8 v) := by
  rw [← occurrences_toNat, BitVec.toNat_ofNat, Nat.mod_eq_of_lt h]

/-- The leaves the reference loop starts with (R161, R162). -/
theorem refLeaves_grown (T : List Byte) : Grown T (refLeaves T) := by
  have hvalues : ((refLeaves T).flatMap fun x => treeValues x.2) =
      ((List.range 256).filter fun v => occurrences T v > 0).map (BitVec.ofNat 8) := by
    rw [refLeaves_eq, leavesOf, List.flatMap_map]
    exact List.flatMap_pure_eq_map _ _
  have hlt {v : Nat} (h : v ∈ (List.range 256).filter fun v => occurrences T v > 0) : v < 256 :=
    List.mem_range.1 (List.mem_filter.1 h).1
  refine ⟨?_, fun v => ?_, fun x hx => ?_⟩
  · rw [hvalues]
    refine (List.nodup_range.filter _).map_on fun v hv w hw hvw => ?_
    have hnat := congrArg BitVec.toNat hvw
    rwa [BitVec.toNat_ofNat, BitVec.toNat_ofNat, Nat.mod_eq_of_lt (hlt hv), Nat.mod_eq_of_lt (hlt hw)] at hnat
  · rw [hvalues, List.mem_map, ← List.count_pos_iff]
    constructor
    · rintro ⟨w, hw, rfl⟩
      rw [← occurrences_of_lt T (hlt hw)]
      simpa using (List.mem_filter.1 hw).2
    · intro hv
      exact ⟨v.toNat, List.mem_filter.2 ⟨List.mem_range.2 v.isLt, by simpa [occurrences_toNat] using hv⟩, by simp⟩
  · rw [refLeaves_eq, leavesOf, List.mem_map] at hx
    obtain ⟨v, hv, rfl⟩ := hx
    exact ⟨BitVec.ofNat 8 v, List.mem_singleton_self _, by rw [BitVec.toNat_ofNat, Nat.mod_eq_of_lt (hlt hv)]⟩

-- The tree of a stream ------------------------------------------------------------------------------------------------------

/-- `HF_BUILD` ends with the reference forest, of one tree at most. -/
theorem build_reference {f : Table Nat} {T : List Byte} (hf : ∀ v : Byte, freqAt f v.toNat = T.count v) (t : TreeStore) :
    ∃ F, (t.build f).forest F ∧ Grown T F ∧ F.length ≤ 1 ∧ treeOf T = F.head?.map Prod.snd := by
  have hleaves : leavesOf (freqAt f) (List.range 256) = refLeaves T := by
    rw [refLeaves_eq]
    refine leavesOf_congr fun v hv => ?_
    have hv := List.mem_range.1 hv
    rw [occurrences_of_lt T hv, ← hf, BitVec.toNat_ofNat, Nat.mod_eq_of_lt hv]
  have hstart : TreeStore.forest { t with ncnt := 0, live := [], root := none } [] :=
    ⟨fun _ => .leaf 0, fun _ h => (nomatch h), .refl _⟩
  have hforest := addLeaves_forest f (List.range 256) hstart
  rw [hleaves, List.nil_append] at hforest
  obtain ⟨F, hF, hgrown, hlen, hmerge⟩ := mergeAll_forest (refLeaves T).length hforest (refLeaves_grown T) (Nat.le_succ _)
  rw [← hforest.length] at hF
  exact ⟨F, hF.withRoot _, hgrown, hlen, hmerge⟩

/-- An entry is the root of one tree only. -/
theorem holds_unique {t : TreeStore} {i : Nat} {a b : Tree} (ha : t.holds i a) (hb : t.holds i b) : a = b := by
  have hfuel := treeAt_of_holds ha (Nat.le_add_right (treeLeaves a) (treeLeaves b))
  rw [← hfuel, treeAt_of_holds hb (Nat.le_add_left _ _)]

/-- A store whose root is its first live node, with a forest of one tree at most, holds that tree or no tree (R163, R166). -/
theorem isTree_of_forest {t : TreeStore} {F : List (Key × Tree)} {o : Option Tree} (hF : t.forest F) (hlen : F.length ≤ 1)
    (hroot : t.root = t.live.head?) (ho : t.isTree o) : t.isTree (F.head?.map Prod.snd) := by
  have hlive := hF.length
  obtain ⟨g, hg, hp⟩ := hF
  match F with
  | [] =>
    rw [List.length_eq_zero_iff.1 hlive] at hroot
    exact hroot
  | [x] =>
    obtain ⟨r, hr⟩ := List.length_eq_one_iff.1 hlive
    rw [hr] at hroot hp hg
    have hx : (t.at r).key = x.1 ∧ g r = x.2 := Prod.ext_iff.1 (List.singleton_perm_singleton.1 hp)
    have hholds := holds_of_within (hg r (List.mem_singleton_self r))
    match o with
    | none => exact absurd (hroot.symm.trans ho) (by simp)
    | some tr =>
      obtain ⟨r', hr', htr, hleaves⟩ := ho
      obtain rfl : r = r' := Option.some.inj (hroot.symm.trans hr')
      rw [← holds_unique hholds htr, hx.2] at hleaves
      exact ⟨r, hroot, hx.2 ▸ hholds, hleaves⟩
  | _ :: _ :: _ => simp at hlen

/-- The entries and the frequency of a built tree (R167, R168). -/
theorem build_counts (f : Table Nat) {t : TreeStore} {tr : Tree} (htree : (t.build f).isTree (some tr))
    (hlen : (t.build f).live.length ≤ 1) : (t.build f).ncnt = 2 * treeLeaves tr - 1 ∧
      ∀ r, (t.build f).root = some r → ((t.build f).at r).key.freq = ((List.range 256).map (freqAt f)).sum := by
  obtain ⟨u, L, -, hu, heq⟩ := build_forest f t
  obtain ⟨r, hr, hholds, -⟩ := htree
  rw [heq] at hr hlen hholds ⊢
  change u.live.head? = some r at hr
  change u.live.length ≤ 1 at hlen
  obtain ⟨rest, hlive⟩ : ∃ rest, u.live = r :: rest := List.head?_eq_some_iff.1 hr
  obtain rfl : rest = [] := by
    rw [hlive, List.length_cons] at hlen
    exact List.length_eq_zero_iff.1 (by omega)
  obtain ⟨g, hg, hL⟩ := hu.trees
  have hentries := hu.entries
  have hfreqs := hu.freqs
  rw [hlive] at hg hL hentries hfreqs
  have hwithin : TreeStore.within { u with root := u.live.head? } u.ncnt r (g r) :=
    within_mono (t := u) (u := { u with root := u.live.head? }) (fun _ _ => rfl) (Nat.le_refl _)
      (hg r (List.mem_singleton_self r))
  have hgr : g r = tr := holds_unique (holds_of_within hwithin) hholds
  simp only [List.map_singleton, List.sum_singleton, List.length_singleton, hgr] at hL hentries hfreqs
  refine ⟨by show u.ncnt = _; omega, fun r' hr' => ?_⟩
  obtain rfl : r = r' := Option.some.inj (hr.symm.trans hr')
  exact hfreqs

/-- The frequencies of a stream sum to its length (R161). -/
theorem sum_freqAt_length {f : Table Nat} {T : List Byte} (hf : ∀ v : Byte, freqAt f v.toNat = T.count v) :
    ((List.range 256).map (freqAt f)).sum = T.length := by
  have hfreq : ∀ v ∈ List.range 256, freqAt f v = (T.map BitVec.toNat).count v := fun v hv => by
    have hnat : (BitVec.ofNat 8 v).toNat = v := by rw [BitVec.toNat_ofNat, Nat.mod_eq_of_lt (List.mem_range.1 hv)]
    rw [← hnat, hf]
    exact (List.count_map_of_injective T BitVec.toNat (fun _ _ => BitVec.eq_of_toNat_eq) _).symm
  have hsum := Multiset.sum_count_eq_card (s := Finset.range 256) (m := (T.map BitVec.toNat : List Nat)) fun a ha => by
    obtain ⟨b, -, rfl⟩ := List.mem_map.1 (Multiset.mem_coe.1 ha)
    exact Finset.mem_range.2 b.isLt
  rw [Multiset.coe_card, List.length_map] at hsum
  have hrange (n : Nat) (g : Nat → Nat) : ((List.range n).map g).sum = ∑ v ∈ Finset.range n, g v := rfl
  rw [List.map_congr_left hfreq, hrange, ← hsum]
  exact Finset.sum_congr rfl fun v _ => (Multiset.coe_count v _).symm

/-- `ROOT` is set to the live node that is left (R166). -/
theorem build_root (f : Table Nat) (t : TreeStore) : (t.build f).root = (t.build f).live.head? := by
  obtain ⟨u, -, -, -, heq⟩ := build_forest f t
  rw [heq]

/-- The store that `HF_BUILD` makes from the frequencies of a stream: its tree, its entries, the values of its leaves and the
frequency of its root (R163 to R168). -/
theorem build_of_stream {f : Table Nat} {T : List Byte} (hf : ∀ v : Byte, freqAt f v.toNat = T.count v) (t : TreeStore) :
    (t.build f).isTree (treeOf T) ∧ (treeOf T = none ↔ T = []) ∧
      ∀ tr, treeOf T = some tr → (t.build f).ncnt = 2 * treeLeaves tr - 1 ∧
        (∀ v : Byte, (treeValues tr).count v = if v ∈ T then 1 else 0) ∧
        ∀ r, (t.build f).root = some r → ((t.build f).at r).key.freq = T.length := by
  obtain ⟨F, hF, hgrown, hlen, htreeOf⟩ := build_reference hf t
  obtain ⟨-, -, -, o, ho⟩ := build_bounds f t
  have htree := isTree_of_forest hF hlen (build_root f t) ho
  have hlive := hF.length
  rw [htreeOf]
  refine ⟨htree, ?_⟩
  match F with
  | [] =>
    have hT : T = [] := List.eq_nil_iff_forall_not_mem.2 fun v hv => nomatch (hgrown.mem v).2 hv
    exact ⟨⟨fun _ => hT, fun _ => rfl⟩, fun tr htr => (nomatch htr)⟩
  | [x] =>
    have hvalues : ([x].flatMap fun x => treeValues x.2) = treeValues x.2 := List.flatMap_singleton _ _
    have hnodup := hgrown.nodup
    have hmem := hgrown.mem
    rw [hvalues] at hnodup hmem
    refine ⟨⟨fun hnone => (nomatch hnone), ?_⟩, fun tr htr => ?_⟩
    · rintro rfl
      obtain ⟨v, hv, -⟩ := hgrown.keys x (List.mem_singleton_self x)
      exact nomatch (hmem v).1 hv
    · obtain rfl : x.2 = tr := Option.some.inj htr
      obtain ⟨hncnt, hfreq⟩ := build_counts f htree (Nat.le_trans (Nat.le_of_eq hlive) hlen)
      rw [sum_freqAt_length hf] at hfreq
      refine ⟨hncnt, fun v => ?_, hfreq⟩
      rw [hnodup.count]
      simp only [hmem]
  | _ :: _ :: _ => simp at hlen

/-- Settles O43: the next state is the one with the store of `build_of_stream`. -/
theorem buildMakesTheTreeOfTheFrequencies : Obligations.BuildMakesTheTreeOfTheFrequencies := by
  unfold Obligations.BuildMakesTheTreeOfTheFrequencies
  intro s T hf
  exact ⟨s.setTree (s.tree.build s.freq), rfl, rfl, build_of_stream hf s.tree⟩

end Sys2Proof.Machine

/-! `HF_DECODE` against the reference symbol reader (R193 to R196, R213): one symbol is one code word of the bits left, and `N`
of them are the first `N` bytes of `TB`. -/

namespace Sys2Proof.Machine

-- Code words of the bits -------------------------------------------------------------------------------------------------

/-- The path read off some bits leads to the leaf whose value the reference reader gives (R91). -/
theorem leadsTo_of_codePath {tr : Tree} {bs path rest : Bits} (h : codePath tr bs = some (path, rest)) :
    leadsTo tr path (treeValueAt tr path) := by
  induction bs generalizing tr path with
  | nil =>
    cases tr with
    | leaf v => cases h; exact ⟨rfl, rfl⟩
    | node l r => cases h
  | cons b bs ih =>
    cases tr with
    | leaf v => cases h; exact ⟨rfl, rfl⟩
    | node l r =>
      rw [codePath_node, Option.map_eq_some_iff] at h
      obtain ⟨⟨p, q⟩, hp, hpq⟩ := h
      cases hpq
      exact (ih hp :)

theorem isCodeword_of_codewordBits {tr : Tree} {bs path rest : Bits} (h : codewordBits tr bs = some (path, rest)) :
    isCodeword tr path (treeValueAt tr path) := by
  cases tr with
  | leaf v =>
    obtain ⟨-, hlen⟩ := takeBits_eq_some h
    exact ⟨hlen, by rw [treeValueAt]⟩
  | node l r => exact leadsTo_of_codePath h

theorem refSymbols_none {tr : Tree} {bs : Bits} (h : codewordBits tr bs = none) (n : Nat) :
    refSymbols tr (n + 1) bs = .error .unexpectedEndOfStream := by
  simp only [refSymbols, h]

theorem refSymbols_some {tr : Tree} {bs path rest : Bits} (h : codewordBits tr bs = some (path, rest)) (n : Nat) :
    refSymbols tr (n + 1) bs = (refSymbols tr n rest).map (treeValueAt tr path :: ·) := by
  simp only [refSymbols, h]
  cases refSymbols tr n rest <;> rfl

-- Symbols read -----------------------------------------------------------------------------------------------------------

/-- `t` is `s` after the code words `words` of the tree `tr` are read: the values `T` of their leaves are the next bytes of `TB`
and the reader has moved over exactly their bits. -/
structure State.SymbolsRead (s : State) (tr : Tree) (words : List Bits) (T : List Byte) (t : State) : Prop where
  frame : t = ((s.setTb t.tb).setWalker t.walker).setBr { s.br with pos := t.br.pos }
  len : t.tb.len = s.tb.len
  symcnt : t.walker.symcnt = s.walker.symcnt + T.length
  spelled : List.Forall₂ (isCodeword tr) words T
  left : s.bitsLeft = words.flatten ++ t.bitsLeft
  pos : t.br.pos = s.br.pos + words.flatten.length
  written : bytesFrom t.tbByte s.walker.symcnt T.length = T
  kept : ∀ a, a < s.walker.symcnt ∨ t.walker.symcnt ≤ a → t.tbByte a = s.tbByte a

section SymbolsRead

variable {s t u : State} {tr : Tree} {words words' : List Bits} {T T' : List Byte}

theorem State.SymbolsRead.fields (h : s.SymbolsRead tr words T t) :
    t.tree = s.tree ∧ t.tCap = s.tCap ∧ t.br.limit = s.br.limit ∧ t.br.err = s.br.err := by
  rw [h.frame]
  exact ⟨rfl, rfl, rfl, rfl⟩

theorem State.SymbolsRead.pos_le (h : s.SymbolsRead tr words T t) (hp : s.br.pos ≤ s.br.limit) : t.br.pos ≤ s.br.limit := by
  have hpos := h.pos
  have hlen := congrArg List.length h.left
  rw [List.length_append, bitsLeft_length, bitsLeft_length, h.fields.2.2.1] at hlen
  omega

theorem State.SymbolsRead.nil (s : State) (tr : Tree) : s.SymbolsRead tr [] [] s :=
  ⟨rfl, rfl, rfl, .nil, rfl, rfl, rfl, fun _ _ => rfl⟩

theorem State.SymbolsRead.append (h : s.SymbolsRead tr words T t) (h' : t.SymbolsRead tr words' T' u) :
    s.SymbolsRead tr (words ++ words') (T ++ T') u where
  frame := by rw [h'.frame, h.frame]; rfl
  len := h'.len.trans h.len
  symcnt := by rw [h'.symcnt, h.symcnt, List.length_append, Nat.add_assoc]
  spelled := List.rel_append h.spelled h'.spelled
  left := by rw [h.left, h'.left, List.flatten_append, List.append_assoc]
  pos := by rw [h'.pos, h.pos, List.flatten_append, List.length_append, Nat.add_assoc]
  written := by
    have hfirst : bytesFrom u.tbByte s.walker.symcnt T.length = T :=
      (bytesFrom_congr fun a _ ha => h'.kept a (.inl (h.symcnt ▸ ha))).trans h.written
    rw [List.length_append, bytesFrom_add, hfirst, ← h.symcnt, h'.written]
  kept a ha := by
    have hcnt := h.symcnt
    have hcnt' := h'.symcnt
    rw [h'.kept a (by omega), h.kept a (by omega)]

end SymbolsRead

/-- The state after a symbol of value `v` whose code word has `n` bits, with `WALK` at `w` (R193). -/
def State.symbolPut (s : State) (n w : Nat) (v : Byte) : State :=
  ((s.setBr { s.br with pos := s.br.pos + n }).setTb { s.tb with mem := tableSet s.tb.mem s.walker.symcnt v }).setWalker
    { walk := w, symcnt := s.walker.symcnt + 1 }

/-- A symbol whose bits are there (R193, R194). -/
theorem readSymbol_symbolsRead {s : State} {root : Nat} {tr : Tree} {path rest : Bits} (hroot : s.tree.root = some root)
    (hs : s.tree.holds root tr) (hn : s.walker.symcnt < s.tb.len ∧ s.tb.len ≤ s.tCap) (hp : s.br.pos ≤ s.br.limit)
    (hword : codewordBits tr s.bitsLeft = some (path, rest)) :
    ∃ t, readSymbol root s = .ok () t ∧ s.SymbolsRead tr [path] [treeValueAt tr path] t ∧ t.bitsLeft = rest := by
  have hcode := isCodeword_of_codewordBits hword
  obtain ⟨hbits, -⟩ := codewordBits_consumes hword
  have hroom : s.br.pos + path.length ≤ s.br.limit := by
    have hlen := congrArg List.length hbits
    rw [bitsLeft_length, List.length_append] at hlen
    omega
  obtain ⟨leaf, k, hleaf, hat⟩ := codewordLeaf_of_isCodeword hs hcode
  obtain ⟨w, hw⟩ := walkedTo_apply s.tree root leaf (s.setBr { s.br with pos := s.br.pos + path.length })
  have hread := acceptCodeword_apply hroot hn hleaf
  rw [acceptCodeword_eq_readSymbol hroot hs hn hword, bind_ok (brSkip_apply _ s hroom), bind_ok hw, hat] at hread
  obtain ⟨-, hleft⟩ := bitsLeft_skip (t := s.symbolPut path.length w (treeValueAt tr path)) hbits hp (fun _ => rfl) rfl rfl
  refine ⟨s.symbolPut path.length w (treeValueAt tr path), hread,
    ⟨rfl, rfl, rfl, .cons hcode .nil, ?_, ?_, ?_, fun a ha => ?_⟩, hleft⟩
  · rw [hleft, hbits, List.flatten_singleton]
  · rw [List.flatten_singleton]
    rfl
  · exact congrArg (· :: []) (readByte_tableSet_self _ _ _ _ _)
  · exact readByte_tableSet_of_ne _ _ _ _ (ha.elim Nat.ne_of_lt Nat.ne_of_gt)

/-- `n` symbols: those of the reference reader, or an error where the bits run out (R195, R196). -/
theorem readSymbols_refSymbols (tr : Tree) {root n : Nat} {s : State} (hroot : s.tree.root = some root)
    (hs : s.tree.holds root tr) (hn : s.walker.symcnt + n = s.tb.len) (hcap : s.tb.len ≤ s.tCap)
    (hp : s.br.pos ≤ s.br.limit) :
    (∃ words T t, refSymbols tr n s.bitsLeft = .ok T ∧ T.length = n ∧ readSymbols root n s = .ok () t ∧
      s.SymbolsRead tr words T t) ∨
    ∃ e t, refSymbols tr n s.bitsLeft = .error e ∧ readSymbols root n s = .error (.err s.br.err) t := by
  induction n generalizing s with
  | zero => exact .inl ⟨[], [], s, rfl, rfl, rfl, .nil s tr⟩
  | succ n ih =>
    cases hword : codewordBits tr s.bitsLeft with
    | none =>
      obtain ⟨t, ht, -⟩ := readSymbol_short hs hword
      exact .inr ⟨_, t, refSymbols_none hword n, bind_error ht⟩
    | some pr =>
      obtain ⟨t, ht, hread, hrest⟩ := readSymbol_symbolsRead hroot hs ⟨by omega, hcap⟩ hp hword
      obtain ⟨htree, htcap, hlimit, herr⟩ := hread.fields
      have hcnt : t.walker.symcnt = s.walker.symcnt + 1 := hread.symcnt
      rw [refSymbols_some hword, ← hrest, ← herr, show readSymbols root (n + 1) s = readSymbols root n t from bind_ok ht]
      rcases ih (htree ▸ hroot) (htree ▸ hs) (by rw [hread.len]; omega) (by rw [hread.len, htcap]; exact hcap)
          (hlimit ▸ hread.pos_le hp) with ⟨words, T, u, href, hlen, hu, hmore⟩ | ⟨e, u, href, hu⟩
      · exact .inl ⟨_, _, u, by rw [href]; rfl, congrArg (· + 1) hlen, hu, hread.append hmore⟩
      · exact .inr ⟨e, u, by rw [href]; rfl, hu⟩

-- The operation ----------------------------------------------------------------------------------------------------------

/-- An error taken where only the datapath was written is an error of the state before (R246). -/
theorem State.Outside.tookError {s u : State} (h : s.Outside u) (e : ErrKind) : s.tookError (u.takeError e) e := by
  obtain ⟨hhost, -, hinp, hcaps, henv⟩ := h
  obtain ⟨hfailed, hlen, -⟩ := tookError_takeError u e
  exact ⟨hfailed, hlen.trans (congrArg HostRegs.inLen hhost), hinp, hcaps, henv⟩

/-- The state in which `HF_DECODE` reads the first symbol (R193). -/
def State.atSymbols (s : State) : State := s.setWalker { s.walker with symcnt := 0 }

/-- More symbols than `TB` has room for (R193). -/
theorem hfDecode_tooLong {s : State} (h : s.tCap < s.tb.len) :
    hfDecode s = .error (.refuse (.precondition "HF_DECODE")) s := by
  simp only [hfDecode, look_bind, need_bind, id_eq, if_neg (Nat.not_le.2 h)]

theorem hfDecode_treeless {s : State} (hcap : s.tb.len ≤ s.tCap) (hroot : s.tree.root = none) :
    hfDecode s = need (s.tb.len = 0) "HF_DECODE" s.atSymbols := by
  simp only [hfDecode, look_bind, need_bind, upd_bind, id_eq, if_pos hcap, hroot, State.atSymbols]

theorem hfDecode_tree {s : State} {root : Nat} (hcap : s.tb.len ≤ s.tCap) (hroot : s.tree.root = some root) :
    hfDecode s = readSymbols root s.tb.len s.atSymbols := by
  simp only [hfDecode, look_bind, need_bind, upd_bind, id_eq, if_pos hcap, hroot, State.atSymbols]

/-- No symbols: with or without a tree nothing is read (R193). -/
theorem hfDecode_empty {s : State} (h : s.tb.len = 0) : hfDecode s = .ok () s.atSymbols := by
  have hcap : s.tb.len ≤ s.tCap := h ▸ Nat.zero_le _
  cases hroot : s.tree.root with
  | none => exact (hfDecode_treeless hcap hroot).trans (need_pos h _ _)
  | some root =>
    rw [hfDecode_tree hcap hroot, h]
    rfl

/-- PAYLOAD_BITS with the bits left to the reader is `HF_DECODE` (R90, R213). -/
theorem exec_readsPayload {s : State} {i : Instr} (h : i = .hfDecode ∨
    (s.seq.phase.writes = false ∧ i = .payloadBits (s.inBits s.br.pos (s.br.limit - s.br.pos)))) :
    exec i s = runOp hfDecode s := by
  rcases h with rfl | ⟨hread, rfl⟩
  · rfl
  · refine (runOp_writeOrRead_reads hread _ _).trans (runOp_congr ?_)
    simp only [acceptPayload, look_bind, id_eq, if_true]

theorem hfDecode_refused {s : State} (h : s.tCap < s.tb.len ∨ (0 < s.tb.len ∧ s.tree.root = none)) :
    ∃ t, hfDecode s = .error (.refuse (.precondition "HF_DECODE")) t := by
  rcases Nat.lt_or_ge s.tCap s.tb.len with hlong | hcap
  · exact ⟨s, hfDecode_tooLong hlong⟩
  · obtain ⟨hpos, hroot⟩ := h.resolve_left (Nat.not_lt.2 hcap)
    exact ⟨_, (hfDecode_treeless hcap hroot).trans (need_neg (Nat.ne_of_gt hpos) _ _)⟩

/-- With a tree: the symbols of the reference reader, or an error where the bits run out (R193, R195). -/
theorem hfDecode_refSymbols {s : State} {tr : Tree} (hcap : s.tb.len ≤ s.tCap) (htree : s.tree.isTree (some tr))
    (hp : s.br.pos ≤ s.br.limit) :
    (∃ words T t, refSymbols tr s.tb.len s.bitsLeft = .ok T ∧ T.length = s.tb.len ∧ hfDecode s = .ok () t ∧
      s.atSymbols.SymbolsRead tr words T t) ∨
    ∃ e t, refSymbols tr s.tb.len s.bitsLeft = .error e ∧ hfDecode s = .error (.err s.br.err) t := by
  obtain ⟨root, hroot, hs, -⟩ := htree
  rw [hfDecode_tree hcap hroot, ← bitsLeft_setWalker s { s.walker with symcnt := 0 }]
  exact readSymbols_refSymbols tr (s := s.atSymbols) hroot hs (Nat.zero_add _) hcap hp

/-- Settles O49: no symbols by `hfDecode_empty`, the refusals by `hfDecode_refused`, the symbols by `hfDecode_refSymbols`; what
an error leaves unchanged is what every operation does (`outside_closed`). -/
theorem decoderWalksTheTreeForEachSymbol : Obligations.DecoderWalksTheTreeForEachSymbol := by
  unfold Obligations.DecoderWalksTheTreeForEachSymbol
  intro s i hi
  rw [exec_readsPayload hi]
  refine ⟨fun h0 => runOp_of_ok (hfDecode_empty h0), fun hbad => ?_, fun tr hcap htree hp => ?_⟩
  · obtain ⟨t, ht⟩ := hfDecode_refused hbad
    exact ⟨"HF_DECODE", by simp only [runOp, ht]⟩
  rw [← State.bitsLeft]
  rcases hfDecode_refSymbols hcap htree hp with ⟨words, T, t, href, hlen, ht, hread⟩ | ⟨e, t, href, ht⟩
  · refine ⟨t, runOp_of_ok ht, ?_⟩
    have hcnt : t.walker.symcnt = s.tb.len := hread.symcnt.trans ((Nat.zero_add _).trans hlen)
    rw [href]
    refine ⟨hread.frame, hread.len, ?_, hcnt, hread.pos_le hp, ⟨words, ?_, hread.spelled, ?_, hread.pos⟩, fun a ha => ?_⟩
    · rw [State.stream, hread.len]
      exact hlen ▸ hread.written
    · rw [hread.spelled.length_eq, hlen]
    · exact (inBits_of_bitsLeft ((bitsLeft_setWalker s _).symm.trans hread.left)).1
    · exact hread.kept a (.inr (hcnt ▸ ha))
  · refine ⟨_, runOp_of_err ht, ?_⟩
    rw [href]
    exact ((outside_closed s).hfDecode.error ⟨rfl, rfl, rfl, rfl, rfl⟩ ht).tookError _

end Sys2Proof.Machine

/-! `AR_UNPACK` against its checks in their order (R205 to R214): the header and the lengths, the tree by the reference tree
reader, the last checks and the payload region. -/

namespace Sys2Proof.Machine

-- The header -----------------------------------------------------------------------------------------------------------

/-- The header of the archive fails a check of R207, R208 or R209. -/
abbrev State.badHeader (s : State) : Prop :=
  s.host.inLen < 10 ∨ s.inByte 0 ≠ 0x43 ∨ s.inByte 1 ≠ 0x5A ∨ s.host.inLen - 10 < ceil8 (s.be32 6)

theorem not_badHeader_iff {s : State} : ¬ s.badHeader ↔
    10 ≤ s.host.inLen ∧ (s.inByte 0 = 0x43 ∧ s.inByte 1 = 0x5A) ∧ ceil8 (s.be32 6) ≤ s.host.inLen - 10 := by
  simp only [State.badHeader, not_or, not_lt, ne_eq, not_not, and_assoc]

/-- The state after the header is read: `TLEN` and `TBL` hold its two lengths (R205). -/
def State.headed (s : State) : State := (s.setTb { s.tb with len := s.be32 2 }).setTbl (s.be32 6)

/-- The two lengths do not touch the input: the tree field is the one of `s`. -/
theorem headed_treeField (s : State) : s.headed.inBits 80 s.headed.tbl = s.inBits 80 (s.be32 6) :=
  inBits_congr (s := s.headed) (t := s) (fun _ => rfl) (s.be32 6) 80

/-- The tree field of a good header lies inside the input. -/
theorem treeField_inside {s : State} (h : ¬ s.badHeader) :
    80 + s.be32 6 ≤ 8 * s.host.inLen ∧ 8 * (10 + ceil8 (s.be32 6)) ≤ 8 * s.host.inLen := by
  obtain ⟨hlen, -, hfit⟩ := not_badHeader_iff.1 h
  have hceil : s.be32 6 ≤ 8 * ceil8 (s.be32 6) := by unfold ceil8; omega
  omega

/-- What `AR_UNPACK` does after the tree: the last checks, then the reader on the payload region (R211 to R213). -/
def openPayload : Op Unit := do
  checkStream
  let s ← look id
  brInit s.payloadStart (8 * s.host.inLen) .unexpectedEndOfStream

theorem openPayload_apply {s : State} (h : s.payloadStart ≤ 8 * s.host.inLen) : openPayload s =
    if s.tb.len = 0 ∨ s.tree.root.isSome then
      if s.tb.len ≤ s.tCap then
        .ok () (s.setBr { pos := s.payloadStart, limit := 8 * s.host.inLen, err := .unexpectedEndOfStream })
      else .error (.err .capacityExceeded) s
    else .error (.err .malformedArchive) s := by
  have hcheck := checkStream_apply s
  unfold openPayload
  split
  · next htree =>
    rw [if_pos htree] at hcheck
    split
    · next hcap =>
      rw [bind_ok (hcheck.trans (if_pos hcap)), look_bind, id_eq, brInit_apply, if_pos ⟨h, Nat.le_refl _⟩]
    · next hcap => exact bind_error (hcheck.trans (if_neg hcap))
  · next htree => exact bind_error (hcheck.trans (if_neg htree))

/-- `AR_UNPACK` by the checks of its header in their order; behind them the tree and the payload (R205, R214). -/
theorem arUnpack_apply (s : State) : arUnpack s =
    if 10 ≤ s.host.inLen then
      if s.inByte 0 = 0x43 ∧ s.inByte 1 = 0x5A then
        if ceil8 (s.be32 6) ≤ s.host.inLen - 10 then (hfDeserTree >>= fun _ => openPayload) s.headed
        else .error (.err .malformedArchive) s.headed
      else .error (.err .malformedArchive) s
    else .error (.err .malformedArchive) s := by
  have hheader := checkHeader_apply s
  have hmagic := checkMagic_apply s
  have hlengths := acceptTreeBitLen_apply (s.be32 6) (s.setTb { s.tb with len := s.be32 2 })
  unfold arUnpack
  split
  · next hlen =>
    rw [bind_ok (hheader.trans (if_pos hlen))]
    split
    · next htag =>
      rw [bind_ok (hmagic.trans (if_pos htag)), look_bind]
      refine (bind_ok (t := s.setTb { s.tb with len := s.be32 2 }) rfl).trans ?_
      split
      · next hfit => exact bind_ok (hlengths.trans (if_pos hfit))
      · next hfit => exact bind_error (hlengths.trans (if_neg hfit))
    · next htag => exact bind_error (hmagic.trans (if_neg htag))
  · next hlen => exact bind_error (hheader.trans (if_neg hlen))

/-- A header that fails a check (R207 to R209). -/
theorem arUnpack_badHeader {s : State} (h : s.badHeader) : ∃ t, arUnpack s = .error (.err .malformedArchive) t := by
  rw [arUnpack_apply]
  split
  · next hlen =>
    split
    · next htag =>
      have hlong := ((h.resolve_left (Nat.not_lt.2 hlen)).resolve_left (· htag.1)).resolve_left (· htag.2)
      exact ⟨_, if_neg (Nat.not_le.2 hlong)⟩
    · exact ⟨_, rfl⟩
  · exact ⟨_, rfl⟩

/-- With a good header its lengths are taken over, and the tree and the payload follow (R205). -/
theorem arUnpack_goodHeader {s : State} (h : ¬ s.badHeader) :
    arUnpack s = (hfDeserTree >>= fun _ => openPayload) s.headed := by
  obtain ⟨hlen, htag, hfit⟩ := not_badHeader_iff.1 h
  rw [arUnpack_apply, if_pos hlen, if_pos htag, if_pos hfit]

-- The tree ---------------------------------------------------------------------------------------------------------------

/-- A tree region inside the input, empty or not: what the reference reader takes it for, or its error (R178 to R181). -/
theorem hfDeserTree_outcome {s : State} (hr : 80 + s.tbl ≤ 8 * s.host.inLen) :
    (∃ o t, refTree (s.inBits 80 s.tbl) = .ok o ∧ hfDeserTree s = .ok () t ∧ t.tree.isTree o ∧ s.treeOnly t) ∨
    (∃ e t, refTree (s.inBits 80 s.tbl) = .error e ∧ hfDeserTree s = .error (.err .malformedArchive) t) := by
  by_cases h0 : s.tbl = 0
  · exact .inl ⟨none, _, by rw [h0]; rfl, hfDeserTree_empty s h0, rfl, rfl⟩
  · rcases hfDeserTree_refTree h0 hr with ⟨tr, t, href, ht, htree, -⟩ | ⟨href, t, ht⟩
    · exact .inl ⟨some tr, t, href, ht, htree, (hfDeserTree_treeOnly s).ok (treeOnly_self s) ht⟩
    · exact .inr ⟨_, t, href, ht⟩

/-- `ROOT` names a node exactly if there is a tree (R33, R163). -/
theorem isTree_root_isSome {t : TreeStore} {o : Option Tree} (h : t.isTree o) : t.root.isSome = true ↔ o ≠ none := by
  cases o with
  | none => simp [show t.root = none from h]
  | some tr => simp [isTree_root h]

-- The whole operation ----------------------------------------------------------------------------------------------------

/-- An error of `AR_UNPACK` is taken where only the datapath was written (R246). -/
theorem exec_arUnpack_raises {s u : State} {e : ErrKind} (h : arUnpack s = .error (.err e) u) :
    ∃ t, exec .arUnpack s = .next t ∧ s.tookError t e :=
  ⟨_, runOp_of_err h, ((outside_closed s).arUnpack.error ⟨rfl, rfl, rfl, rfl, rfl⟩ h).tookError e⟩

/-- After the tree is read: symbols without a tree, then more of them than `TB` has room for, then the payload (R211 to R213). -/
theorem openPayload_outcome {s t : State} {o : Option Tree} (hframe : s.headed.treeOnly t) (htree : t.tree.isTree o)
    (hroom : 8 * (10 + ceil8 (s.be32 6)) ≤ 8 * s.host.inLen) : openPayload t =
      if 0 < s.be32 2 ∧ o = none then .error (.err .malformedArchive) t
      else if s.tCap < s.be32 2 then .error (.err .capacityExceeded) t
      else .ok () ((s.headed.setTree t.tree).setBr
        { pos := 8 * (10 + ceil8 (s.be32 6)), limit := 8 * s.host.inLen, err := .unexpectedEndOfStream }) := by
  have hroot : t.tb.len = 0 ∨ t.tree.root.isSome ↔ ¬ (0 < s.be32 2 ∧ o = none) := by
    rw [isTree_root_isSome htree, hframe]
    change s.be32 2 = 0 ∨ o ≠ none ↔ _
    rw [not_and_or, Nat.pos_iff_ne_zero, not_not]
  have hcap : t.tb.len ≤ t.tCap ↔ ¬ s.tCap < s.be32 2 := by rw [hframe]; exact Nat.not_lt.symm
  have hstart : t.payloadStart ≤ 8 * t.host.inLen := by rw [hframe]; exact hroom
  rw [openPayload_apply hstart]
  simp only [hroot, hcap, ite_not]
  congr 2
  rw [hframe]
  rfl

/-- Settles O52: a bad header by `arUnpack_badHeader`; behind a good one the tree by `hfDeserTree_outcome`, then the last checks
by `openPayload_outcome`. -/
theorem unpackChecksInOrder : Obligations.UnpackChecksInOrder := by
  unfold Obligations.UnpackChecksInOrder
  intro s
  by_cases hbad : s.badHeader
  · obtain ⟨u, hu⟩ := arUnpack_badHeader hbad
    simpa only [if_pos hbad] using exec_arUnpack_raises hu
  obtain ⟨hfield, hroom⟩ := treeField_inside hbad
  have hrun := arUnpack_goodHeader hbad
  simp only [if_neg hbad]
  rw [← headed_treeField]
  rcases hfDeserTree_outcome (s := s.headed) hfield with ⟨o, u, href, hu, htree, hframe⟩ | ⟨e, u, href, hu⟩
  · rw [bind_ok hu, openPayload_outcome hframe htree hroom] at hrun
    simp only [href]
    by_cases hnone : 0 < s.be32 2 ∧ o = none
    · simpa only [if_pos hnone] using exec_arUnpack_raises (hrun.trans (if_pos hnone))
    · rw [if_neg hnone] at hrun
      by_cases hlong : s.tCap < s.be32 2
      · simpa only [if_neg hnone, if_pos hlong] using exec_arUnpack_raises (hrun.trans (if_pos hlong))
      · simp only [if_neg hnone, if_neg hlong]
        exact ⟨_, runOp_of_ok (hrun.trans (if_neg hlong)), rfl, htree⟩
  · simpa only [href] using exec_arUnpack_raises (hrun.trans (bind_error hu))

end Sys2Proof.Machine

/-! A whole call as a refinement of its reference (R222, R227, R246): it ends with the result the reference computes, or with the
error the reference ends with. -/

namespace Sys2Proof.Machine

/-- The call of a state has ended as the reference has: with its result, or with its error (R227, R246). -/
def State.ended (t : State) : Except ErrKind (List Byte) → Prop
  | .ok out => t.succeeded out
  | .error e => t.failed e

/-- The state in which the work of a call begins (R44, R221). -/
def State.started (s : State) (first : Phase) : State := s.accept.initCall.setSeq ⟨first, .start⟩

/-- What follows an operation depends on where that ended or stopped alone. -/
theorem bind_eq_bind {α β : Type} {x y : Op α} {k : α → Op β} {s t : State} (h : x s = y t) :
    (x >>= k) s = (y >>= k) t := by
  cases hx : x s with
  | ok a u => rw [bind_ok hx, bind_ok (h.symm.trans hx)]
  | error e u => rw [bind_error hx, bind_error (h.symm.trans hx)]

theorem Refines.imp {α : Type} {F G : State → Prop} {Q R : α → State → Prop} {r : Except ErrKind α}
    {res : EStateM.Result Stop State Unit} (h : Refines F Q r res) (hQ : ∀ a t, Q a t → R a t) (hF : ∀ t, F t → G t) :
    Refines G R r res := by
  cases h with
  | ok h => exact .ok (hQ _ _ h)
  | error h => exact .error (hF _ h)

/-- The machine ends in a state that `Q` relates to what the reference computes, or stops for the error the reference ends with:
`Refines` without a word about the state at the stop, of which a call keeps nothing (R247). -/
abbrev Computes {α : Type} (Q : α → State → Prop) (r : Except ErrKind α) (res : EStateM.Result Stop State Unit) : Prop :=
  Refines (fun _ => True) Q r res

/-- What the reference computes stands in `OUT`. -/
abbrev Outputs (r : Except ErrKind (List Byte)) (res : EStateM.Result Stop State Unit) : Prop :=
  Computes (fun out t => t.output = out) r res

/-- The end of a call after its work (R227): what stands in `OUT` is the result. -/
theorem runOp_endCall_ended {work : Op Unit} {u : State} {r : Except ErrKind (List Byte)} (h : Outputs r (work u)) :
    ∃ t, runOp (work >>= fun _ => endCall) u = .next t ∧ t.ended r := by
  generalize hx : work u = res at h
  cases h with
  | ok hout => exact ⟨_, runOp_of_ok (bind_ok hx), rfl, rfl, rfl, hout⟩
  | error _ => exact ⟨_, runOp_of_err (bind_error hx), (tookError_takeError _ _).1⟩

/-- A command whose work computes what a reference does, in a state where it runs whole: the call ends as the reference does, but
for an input longer than `IN_CAP` (R222). -/
theorem runOp_command_ended {first : Phase} {work : Op Unit} {s : State} {r : Except ErrKind (List Byte)}
    (hturns : s.env.turns = []) (h : Outputs r (work (s.started first))) :
    ∃ t, runOp (command first (work >>= fun _ => endCall)) s = .next t ∧
      t.ended (if s.host.inLen ≤ s.caps.inCap then r else .error .capacityExceeded) := by
  by_cases hlen : s.host.inLen ≤ s.caps.inCap
  · obtain ⟨t, ht, hend⟩ := runOp_endCall_ended h
    rw [if_pos hlen]
    exact ⟨t, (runOp_eq_runOp (command_whole first _ hlen hturns)).trans ht, hend⟩
  · rw [if_neg hlen]
    exact ⟨_, runOp_of_err (command_tooLong first _ hlen), (tookError_takeError _ _).1⟩

end Sys2Proof.Machine

/-! `DECOMPRESS` against the reference decompression (R224, R250): the archive in `IN` as the reference reads it, and the three
phases one after the other. -/

namespace Sys2Proof.Machine

-- The archive in IN ------------------------------------------------------------------------------------------------------

theorem bytesFrom_take (f : Nat → Byte) (a : Nat) {k n : Nat} (h : k ≤ n) :
    (bytesFrom f a n).take k = bytesFrom f a k := by
  obtain ⟨m, rfl⟩ := Nat.exists_eq_add_of_le h
  rw [bytesFrom_add, List.take_left' (bytesFrom_length f a k)]

theorem bytesFrom_drop (f : Nat → Byte) (a : Nat) {k n : Nat} (h : k ≤ n) :
    (bytesFrom f a n).drop k = bytesFrom f (a + k) (n - k) := by
  obtain ⟨m, rfl⟩ := Nat.exists_eq_add_of_le h
  rw [bytesFrom_add, List.drop_left' (bytesFrom_length f a k), Nat.add_sub_cancel_left]

theorem inBits_take (s : State) (q : Nat) {m n : Nat} (h : m ≤ n) : (s.inBits q n).take m = s.inBits q m := by
  obtain ⟨k, rfl⟩ := Nat.exists_eq_add_of_le h
  rw [inBits_add, List.take_left' (inBits_length s q m)]

/-- The bits of the input from a byte on are those of `IN` there. -/
theorem bytesBits_input_drop {s : State} {a : Nat} (h : a ≤ s.host.inLen) :
    bytesBits (s.input.drop a) = s.inBits (8 * a) (8 * s.host.inLen - 8 * a) := by
  rw [State.input, bytesFrom_drop s.inByte 0 h, Nat.zero_add, ← inBits_bytes, Nat.mul_sub]

/-- The big-endian field at a byte of the input (R51). -/
theorem field32_input {s : State} {a : Nat} (h : a + 4 ≤ s.host.inLen) : field32 s.input a = s.be32 a := by
  rw [field32, State.input, bytesFrom_drop s.inByte 0 (by omega), Nat.zero_add, bytesFrom_take _ _ (by omega),
    ← inBits_bytes, bitsNat_be32]

/-- The bits of the payload region (R213). -/
def State.payloadField (s : State) : Bits :=
  s.inBits (8 * (10 + ceil8 (s.be32 6))) (8 * s.host.inLen - 8 * (10 + ceil8 (s.be32 6)))

/-- The reference decompression as a sequence: the checks of the header, the tree, the stream (R205, R224). -/
theorem refDecompress_eq (tCap outCap : Nat) (arc : List Byte) : refDecompress tCap outCap arc =
    if arc.length < 10 then .error .malformedArchive
    else if ¬ (byteAt arc 0 = 0x43 ∧ byteAt arc 1 = 0x5A) then .error .malformedArchive
    else if arc.length - 10 < ceil8 (field32 arc 6) then .error .malformedArchive
    else (refTree ((bytesBits (arc.drop 10)).take (field32 arc 6))).bind fun o =>
      refStream tCap outCap o (field32 arc 2) (bytesBits (arc.drop (10 + ceil8 (field32 arc 6)))) := by
  unfold refDecompress
  generalize field32 arc 6 = l
  generalize field32 arc 2 = n
  cases refTree ((bytesBits (arc.drop 10)).take l) <;> rfl

/-- A header that fails a check (R207 to R209). -/
theorem refDecompress_badHeader (tCap outCap : Nat) {s : State} (h : s.badHeader) :
    refDecompress tCap outCap s.input = .error .malformedArchive := by
  rw [refDecompress_eq, input_length]
  split
  · rfl
  · next hshort =>
    rw [byteAt_input (by omega), byteAt_input (by omega), field32_input (by omega)]
    split
    · rfl
    · next htag =>
      obtain ⟨h0, h1⟩ := not_not.1 htag
      exact if_pos (((h.resolve_left hshort).resolve_left (· h0)).resolve_left (· h1))

/-- With a good header the fields of `IN` tell where the tree and the payload are (R205). -/
theorem refDecompress_goodHeader (tCap outCap : Nat) {s : State} (h : ¬ s.badHeader) :
    refDecompress tCap outCap s.input =
      (refTree (s.inBits 80 (s.be32 6))).bind fun o => refStream tCap outCap o (s.be32 2) s.payloadField := by
  obtain ⟨hlen, htag, hfit⟩ := not_badHeader_iff.1 h
  obtain ⟨hfield, hroom⟩ := treeField_inside h
  have htree : (bytesBits (s.input.drop 10)).take (s.be32 6) = s.inBits 80 (s.be32 6) := by
    rw [bytesBits_input_drop hlen, inBits_take _ _ (by omega)]
  have hpayload : bytesBits (s.input.drop (10 + ceil8 (s.be32 6))) = s.payloadField := bytesBits_input_drop (by omega)
  rw [refDecompress_eq, input_length, byteAt_input (by omega), byteAt_input (by omega), field32_input (by omega),
    field32_input (by omega), if_neg (Nat.not_lt.2 hlen), if_neg (not_not.2 htag), if_neg (Nat.not_lt.2 hfit), htree, hpayload]

-- The phases -------------------------------------------------------------------------------------------------------------

/-- The only error of the reference tree reader is that the bits are not one tree that has room in the store (R178 to R180). -/
theorem refTree_error {bs : Bits} {e : ErrKind} (h : refTree bs = .error e) : e = .malformedArchive := by
  unfold refTree at h
  split at h
  · cases h
  · split at h
    · cases h; rfl
    · split at h
      · cases h
      · cases h; rfl

/-- The only error of the reference symbol reader is that the bits run out (R195). -/
theorem refSymbols_error {tr : Tree} {n : Nat} {bs : Bits} {e : ErrKind} (h : refSymbols tr n bs = .error e) :
    e = .unexpectedEndOfStream := by
  induction n generalizing bs with
  | zero => cases h
  | succ n ih =>
    cases hword : codewordBits tr bs with
    | none => rw [refSymbols_none hword] at h; cases h; rfl
    | some pr =>
      rw [refSymbols_some hword] at h
      cases hrest : refSymbols tr n pr.2 with
      | ok vs => rw [hrest] at h; cases h
      | error e' => rw [hrest] at h; cases h; exact ih hrest

/-- The stream of a payload: the symbols of the tree, nothing without a tree (R193). -/
def refPayload (o : Option Tree) (n : Nat) (bs : Bits) : Except ErrKind (List Byte) :=
  match o with
  | none => .ok []
  | some tr => refSymbols tr n bs

/-- The stream is decoded behind the two checks of R211 and R212. -/
theorem refStream_eq (tCap outCap : Nat) (o : Option Tree) (n : Nat) (bs : Bits) : refStream tCap outCap o n bs =
    if 0 < n ∧ o = none then .error .malformedArchive
    else if tCap < n then .error .capacityExceeded
    else (refPayload o n bs).bind fun T => refDecode outCap T.length T [] := by
  unfold refStream
  refine if_congr Iff.rfl rfl (if_congr Iff.rfl rfl ?_)
  cases o with
  | none => rfl
  | some tr => simp only [refPayload]; cases refSymbols tr n bs <;> rfl

/-- `HF_DECODE` leaves the stream of the payload in `TB` (R193 to R196). -/
theorem hfDecode_refines {s : State} {o : Option Tree} (hcap : s.tb.len ≤ s.tCap) (htree : s.tree.isTree o)
    (hnone : ¬ (0 < s.tb.len ∧ o = none)) (hp : s.br.pos ≤ s.br.limit) (herr : s.br.err = .unexpectedEndOfStream) :
    Computes (fun T t => t.stream = T ∧ t.caps = s.caps) (refPayload o s.tb.len s.bitsLeft) (hfDecode s) := by
  cases o with
  | none =>
    have h0 : s.tb.len = 0 := by simpa using hnone
    rw [hfDecode_empty h0]
    refine .ok ⟨?_, rfl⟩
    show bytesFrom s.tbByte 0 s.tb.len = []
    rw [h0]
    rfl
  | some tr =>
    show Computes _ (refSymbols tr s.tb.len s.bitsLeft) _
    rcases hfDecode_refSymbols hcap htree hp with ⟨words, T, t, href, hlen, ht, hread⟩ | ⟨e, t, href, ht⟩
    · rw [href, ht]
      refine .ok ⟨?_, by rw [hread.frame]; rfl⟩
      rw [State.stream, hread.len]
      exact hlen ▸ hread.written
    · rw [href, ht, herr, refSymbols_error href]
      exact .error trivial

/-- `TD_DECODE` leaves in `OUT` what the stream decodes to (R150, R156). -/
theorem tdDecode_output (s : State) : Outputs (refDecode s.caps.outCap s.stream.length s.stream []) (tdDecode s) := by
  have h := tdDecode_refines s
  rw [← bytesFrom_length s.tbByte 0 s.tb.len] at h
  exact h.imp (fun _ _ ⟨_, ht⟩ => ht.output) fun _ _ => trivial

/-- `DECOMPRESS` after `AR_UNPACK` (R224). -/
def decodeWork : Op Unit := do
  setPhase .dHuff
  hfDecode
  setPhase .dTokens
  tdDecode

/-- The two phases after `AR_UNPACK` compute what a stream of this tree and payload decodes to (R193, R150, R224). -/
theorem decodeWork_refines {s : State} {o : Option Tree} (hcap : s.tb.len ≤ s.tCap) (htree : s.tree.isTree o)
    (hnone : ¬ (0 < s.tb.len ∧ o = none)) (hp : s.br.pos ≤ s.br.limit) (herr : s.br.err = .unexpectedEndOfStream) :
    Outputs ((refPayload o s.tb.len s.bitsLeft).bind fun T => refDecode s.caps.outCap T.length T []) (decodeWork s) := by
  have hbits : (s.setSeq ⟨.dHuff, .start⟩).bitsLeft = s.bitsLeft :=
    inBits_congr (s := s.setSeq ⟨.dHuff, .start⟩) (t := s) (fun _ => rfl) _ _
  have hsymbols := hfDecode_refines (s := s.setSeq ⟨.dHuff, .start⟩) hcap htree hnone hp herr
  rw [hbits] at hsymbols
  refine hsymbols.bind (y := setPhase .dTokens >>= fun _ => tdDecode) fun T t _ ht => ?_
  obtain ⟨rfl, hcaps⟩ := ht
  have houtCap : s.caps.outCap = t.caps.outCap := by rw [hcaps]; rfl
  rw [houtCap]
  exact tdDecode_output (t.setSeq ⟨.dTokens, .start⟩)

/-- `HF_DESER_TREE` reads the tree of a region inside the input (R176 to R181). -/
theorem hfDeserTree_refines {s : State} (hr : 80 + s.tbl ≤ 8 * s.host.inLen) :
    Computes (fun o t => t.tree.isTree o ∧ s.treeOnly t) (refTree (s.inBits 80 s.tbl)) (hfDeserTree s) := by
  rcases hfDeserTree_outcome hr with ⟨o, t, href, ht, htree, hframe⟩ | ⟨e, t, href, ht⟩
  · rw [href, ht]
    exact .ok ⟨htree, hframe⟩
  · rw [href, ht, refTree_error href]
    exact .error trivial

/-- The state `AR_UNPACK` ends in, with the tree it has read (R205, R213). -/
def State.unpacked (s : State) (t : TreeStore) : State :=
  (s.headed.setTree t).setBr
    { pos := 8 * (10 + ceil8 (s.be32 6)), limit := 8 * s.host.inLen, err := .unexpectedEndOfStream }

theorem unpacked_bitsLeft (s : State) (t : TreeStore) : (s.unpacked t).bitsLeft = s.payloadField :=
  inBits_congr (s := s.unpacked t) (t := s) (fun _ => rfl) _ _

/-- After the tree: the last checks of the archive, then its payload (R211 to R213, R224). -/
theorem openPayload_refines {s t : State} {o : Option Tree} (hframe : s.headed.treeOnly t) (htree : t.tree.isTree o)
    (hroom : 8 * (10 + ceil8 (s.be32 6)) ≤ 8 * s.host.inLen) :
    Outputs (refStream s.tCap s.caps.outCap o (s.be32 2) s.payloadField) ((openPayload >>= fun _ => decodeWork) t) := by
  have hopen := openPayload_outcome hframe htree hroom
  rw [refStream_eq]
  by_cases hnone : 0 < s.be32 2 ∧ o = none
  · rw [bind_error (hopen.trans (if_pos hnone)), if_pos hnone]
    exact .error trivial
  rw [if_neg hnone] at hopen ⊢
  by_cases hlong : s.tCap < s.be32 2
  · rw [bind_error (hopen.trans (if_pos hlong)), if_pos hlong]
    exact .error trivial
  rw [bind_ok (hopen.trans (if_neg hlong)), if_neg hlong]
  have hdecode := decodeWork_refines (s := s.unpacked t.tree) (Nat.not_lt.1 hlong) htree hnone hroom rfl
  rwa [unpacked_bitsLeft] at hdecode

/-- The work of a decompression computes the reference decompression of the input (R205, R224). -/
theorem decompressWork_refines (s : State) : Outputs (refDecompress s.tCap s.caps.outCap s.input) (decompressWork s) := by
  have hwork : decompressWork s = (arUnpack >>= fun _ => decodeWork) s := rfl
  rw [hwork]
  by_cases hbad : s.badHeader
  · obtain ⟨u, hu⟩ := arUnpack_badHeader hbad
    rw [refDecompress_badHeader _ _ hbad, bind_error hu]
    exact .error trivial
  · obtain ⟨hfield, hroom⟩ := treeField_inside hbad
    have hrun : (arUnpack >>= fun _ => decodeWork) s =
        (hfDeserTree >>= fun _ => openPayload >>= fun _ => decodeWork) s.headed :=
      (bind_eq_bind (arUnpack_goodHeader hbad)).trans (congrFun (bind_assoc _ _ _) _)
    rw [hrun, refDecompress_goodHeader _ _ hbad, ← headed_treeField]
    exact (hfDeserTree_refines hfield).bind fun o t _ ⟨htree, hframe⟩ => openPayload_refines hframe htree hroom

/-- A decompression of a ready engine (R222, R224). -/
theorem exec_decompress_ended {s : State} (h : s.ready) : ∃ t, exec .decompress s = .next t ∧
    t.ended (if s.host.inLen ≤ s.caps.inCap then refDecompress s.tCap s.caps.outCap s.input
      else .error .capacityExceeded) := by
  obtain ⟨hbusy, hturns⟩ := h
  simp only [exec, execDecompress, hbusy, decompressBody_eq]
  exact runOp_command_ended (r := refDecompress s.tCap s.caps.outCap s.input) hturns
    (decompressWork_refines (s.started .dUnpack))

/-- Settles O56, by `exec_decompress_ended`. -/
theorem decompressReadsTheArchiveOrNamesTheFirstError : Obligations.DecompressReadsTheArchiveOrNamesTheFirstError := by
  unfold Obligations.DecompressReadsTheArchiveOrNamesTheFirstError
  intro s hs
  obtain ⟨t, ht, hend⟩ := exec_decompress_ended hs
  refine ⟨t, ht, ?_⟩
  by_cases hlong : s.caps.inCap < s.host.inLen
  · rw [if_neg (Nat.not_le.2 hlong)] at hend
    rwa [if_pos hlong]
  · rw [if_pos (Nat.not_lt.1 hlong)] at hend
    rw [if_neg hlong]
    cases hr : refDecompress s.tCap s.caps.outCap s.input with
    | ok out => rw [hr] at hend; exact hend
    | error e => rw [hr] at hend; exact hend

end Sys2Proof.Machine

/-! `COMPRESS` against the reference compression (R223): the tokens of the input written as their stream, and the stream packed
as its archive. -/

namespace Sys2Proof.Machine

/-- Bytes written to a buffer of this capacity: all of them, or `CapacityExceeded` (R59). -/
def fitted (cap : Nat) (bs : List Byte) : Except ErrKind (List Byte) :=
  if bs.length ≤ cap then .ok bs else .error .capacityExceeded

-- Tokens -----------------------------------------------------------------------------------------------------------------

/-- The stream grows with its tokens. -/
theorem streamOf_length_le (ts us : List Token) : (streamOf ts).length ≤ (streamOf (ts ++ us)).length := by
  simp only [streamOf_length, List.length_append, List.countP_append]
  omega

/-- The token encoder between two tokens: `done` is written, `group` is staged. -/
structure State.Between (u : State) (done group : List Token) : Prop extends u.Encoded u done group where
  started : group.length < 8
  written : (streamOf done).length ≤ u.tCap

/-- A flush without room for the group behind the groups already written (R146). -/
theorem State.Encoded.flush_full {u : State} {done group : List Token} (h : u.Encoded u done group)
    (hgroup : group.length ≤ 8) (hwritten : (streamOf done).length ≤ u.tCap)
    (hfull : u.tCap < (streamOf (done ++ group)).length) : ∃ t, teFlush u = .error (.err .capacityExceeded) t := by
  have hne : group ≠ [] := by
    rintro rfl
    rw [List.append_nil] at hfull
    omega
  have hlen : (streamOf (done ++ group)).length = u.tb.len + (1 + u.enc.gplen) := by
    rw [streamOf_append h.whole, streamOf_single hne hgroup, List.length_append, groupBytes, List.length_cons, h.gplen, h.len]
    omega
  obtain ⟨t, ht, -⟩ := teFlush_full u (h.gc ▸ List.length_pos_iff.2 hne) (by omega)
  exact ⟨t, ht⟩

/-- A whole group is written, and a new one begins (R142, R146). -/
theorem State.Encoded.flush_whole {u : State} {done group : List Token} (h : u.Encoded u done group)
    (hgroup : group.length = 8) (hroom : (streamOf (done ++ group)).length ≤ u.tCap) :
    ∃ v, teFlush u = .ok () v ∧ v = (u.setTb v.tb).setEnc v.enc ∧ v.Between (done ++ group) [] := by
  obtain ⟨v, hv, hframe, hstream, henc⟩ := h.flush (Nat.le_of_eq hgroup) hroom
  have henc' := henc (by rintro rfl; cases hgroup)
  refine ⟨v, hv, hframe, ⟨rfl, ?_, ?_, ?_, ?_, hstream⟩, by decide, by rw [hframe]; exact hroom⟩
  · have := h.whole
    rw [List.length_append]
    omega
  all_goals rw [henc']; rfl

/-- A token is given to the encoder: it joins the group or completes it, or the group it completes does not fit (R142, R143). -/
theorem State.Between.token {u : State} {done group : List Token} (h : u.Between done group) (t : Token) :
    (∃ v done' group', tePutToken t u = .ok () v ∧ v = (u.setTb v.tb).setEnc v.enc ∧ v.Between done' group' ∧
      done' ++ group' = done ++ (group ++ [t])) ∨
    (u.tCap < (streamOf (done ++ (group ++ [t]))).length ∧
      ∃ v, tePutToken t u = .error (.err .capacityExceeded) v) := by
  have hput := tePutToken_apply t u
  have hjoin : (u.setEnc (u.enc.put t)).Encoded (u.setEnc (u.enc.put t)) done (group ++ [t]) :=
    { h.toEncoded.put t with frame := rfl }
  have hlen : (group ++ [t]).length = group.length + 1 := List.length_append
  have hlt := h.started
  rw [h.gc] at hput
  by_cases h7 : group.length = 7
  · rw [hput, if_pos h7]
    rcases Nat.lt_or_ge u.tCap (streamOf (done ++ (group ++ [t]))).length with hfull | hroom
    · exact .inr ⟨hfull, hjoin.flush_full (by omega) h.written hfull⟩
    · obtain ⟨v, hv, hframe, hnext⟩ := hjoin.flush_whole (by omega) hroom
      exact .inl ⟨v, _, [], hv, by rw [hframe]; rfl, hnext, List.append_nil _⟩
  · exact .inl ⟨_, done, group ++ [t], hput.trans (if_neg h7), rfl, ⟨hjoin, by omega, h.written⟩, rfl⟩

/-- Between two rounds of the token loop the window holds the consumed input, and the encoder is between two tokens (R129). -/
structure State.AtToken (u : State) (done group : List Token) : Prop extends u.Between done group where
  cursor : u.finder.cur ≤ u.host.inLen
  window : u.windowHolds u.consumed

/-- A round of the token loop: `MF_STEP` steps over the token, which is then given to the encoder (R129). -/
theorem tokenLoop_next {α : Type} {u : State} (h : u.finder.cur < u.host.inLen) (fuel : Nat) (k : Unit → Op α) :
    (tokenLoop (fuel + 1) >>= k) u = (tePutToken u.stepToken >>= fun _ => tokenLoop fuel >>= k) u.overToken := by
  have hround : tokenLoop (fuel + 1) u = (tePutToken u.stepToken >>= fun _ => tokenLoop fuel) u.overToken := by
    simp only [tokenLoop, look_bind, id_eq, if_pos h]
    exact bind_ok (mfStep_ends h)
  exact (bind_eq_bind hround).trans (congrFun (bind_assoc _ _ _) _)

theorem tokenLoop_end {u : State} (h : ¬ u.finder.cur < u.host.inLen) (fuel : Nat) : tokenLoop fuel u = .ok () u := by
  cases fuel with
  | zero => rfl
  | succ fuel =>
    simp only [tokenLoop, look_bind, id_eq, if_neg h]
    rfl

theorem tokenSpan_stepToken (u : State) : tokenSpan u.stepToken = u.stepLen := by
  unfold State.stepToken State.stepLen
  split <;> rfl

/-- `t` is `s` but for what the token loop writes: stream, encoder, window and match finder. -/
def State.tokensOnly (s t : State) : Prop := t = (((s.setTb t.tb).setEnc t.enc).setWin t.win).setFinder t.finder

/-- Where the input ends the flush writes the last group (R147). -/
theorem State.AtToken.flush {u : State} {done group : List Token} (h : u.AtToken done group) :
    Computes (fun T t => u.tokensOnly t ∧ t.stream = T)
      (fitted u.tCap (streamOf (done ++ (group ++ [])))) (teFlush u) := by
  rw [List.append_nil]
  rcases Nat.lt_or_ge u.tCap (streamOf (done ++ group)).length with hfull | hroom
  · obtain ⟨t, ht⟩ := h.flush_full (Nat.le_of_lt h.started) h.written hfull
    rw [fitted, if_neg (Nat.not_le.2 hfull), ht]
    exact .error trivial
  · obtain ⟨t, ht, hframe, hstream, -⟩ := State.Encoded.flush h.toEncoded (Nat.le_of_lt h.started) hroom
    rw [fitted, if_pos hroom, ht]
    exact .ok ⟨by rw [State.tokensOnly, hframe]; rfl, hstream⟩

/-- After one round the loop is again between two tokens, one token further in the input (R128, R129). -/
theorem State.AtToken.next {u v : State} {done group done' group' : List Token} (h : u.AtToken done group)
    (hlt : u.finder.cur < u.host.inLen) (hframe : v = (u.overToken.setTb v.tb).setEnc v.enc)
    (hnext : v.Between done' group') :
    v.AtToken done' group' ∧ u.tokensOnly v ∧ v.tCap = u.tCap ∧ v.input = u.input ∧
      v.finder.cur = u.finder.cur + tokenSpan u.stepToken := by
  have hcur : v.finder.cur = u.finder.cur + u.stepLen := by rw [hframe]; rfl
  have hlen : v.host.inLen = u.host.inLen := by rw [hframe]; rfl
  refine ⟨⟨hnext, ?_, ?_⟩, ?_, ?_, ?_, ?_⟩
  · rw [hcur, hlen]
    exact stepLen_le hlt
  · rw [hframe]
    exact overToken_windowHolds h.window
  · rw [State.tokensOnly, hframe]; rfl
  · rw [hframe]; rfl
  · rw [hframe]; rfl
  · rw [tokenSpan_stepToken, hcur]

/-- The rest of the token loop and the flush at its end write the stream of all tokens, if it fits (R129, R147). -/
theorem tokenLoop_refines {u : State} {done group : List Token} (h : u.AtToken done group) (fuel : Nat) :
    Computes (fun T t => u.tokensOnly t ∧ t.stream = T)
      (fitted u.tCap (streamOf (done ++ (group ++ refTokens u.input fuel u.finder.cur))))
      ((tokenLoop fuel >>= fun _ => teFlush) u) := by
  induction fuel generalizing u done group with
  | zero => exact h.flush
  | succ fuel ih =>
    by_cases hlt : u.finder.cur < u.host.inLen
    · have hbetween : u.overToken.Between done group := ⟨{ h.toEncoded with frame := rfl }, h.started, h.written⟩
      rw [tokenLoop_next hlt, refTokens, if_pos (by rwa [input_length]), ← stepToken_eq_refToken h.window hlt]
      generalize htail : refTokens u.input fuel (u.finder.cur + tokenSpan u.stepToken) = tail
      have hall : done ++ (group ++ [u.stepToken]) ++ tail = done ++ (group ++ u.stepToken :: tail) := by simp
      rcases hbetween.token u.stepToken with ⟨v, done', group', hv, hframe, hnext, hseq⟩ | ⟨hfull, v, hv⟩
      · obtain ⟨hat, honly, hcap, hinput, hcur⟩ := h.next hlt hframe hnext
        have hrest := ih hat
        rw [hcap, hinput, hcur, htail, ← List.append_assoc, hseq, hall] at hrest
        rw [bind_ok hv]
        exact hrest.imp (fun T t ⟨ht, hstream⟩ => ⟨by rw [State.tokensOnly, ht, honly]; rfl, hstream⟩) fun _ h => h
      · have hlong := streamOf_length_le (done ++ (group ++ [u.stepToken])) tail
        rw [hall] at hlong
        have hover : u.tCap < (streamOf (done ++ (group ++ u.stepToken :: tail))).length := Nat.lt_of_lt_of_le hfull hlong
        rw [bind_error hv, fitted, if_neg (Nat.not_le.2 hover)]
        exact .error trivial
    · rw [refTokens, if_neg (by rwa [input_length]), bind_ok (tokenLoop_end hlt _)]
      exact h.flush

-- The archive ------------------------------------------------------------------------------------------------------------

theorem byteBits_injective {a b : Byte} (h : byteBits a = byteBits b) : a = b := by
  have hnat := congrArg bitsNat h
  rw [bitsNat_byteBits, bitsNat_byteBits] at hnat
  exact BitVec.eq_of_toNat_eq hnat

theorem bytesBits_length (bs : List Byte) : (bytesBits bs).length = 8 * bs.length := by
  induction bs with
  | nil => rfl
  | cons b bs ih => rw [bytesBits, List.length_append, ih, byteBits_length, List.length_cons]; omega

theorem bytesBits_injective {xs ys : List Byte} (h : bytesBits xs = bytesBits ys) : xs = ys := by
  have hlen := congrArg List.length h
  rw [bytesBits_length, bytesBits_length] at hlen
  induction xs generalizing ys with
  | nil => exact (List.length_eq_zero_iff.1 (by simpa using hlen.symm)).symm
  | cons x xs ih =>
    obtain ⟨y, ys, rfl⟩ := List.exists_cons_of_length_pos (l := ys) (by rw [List.length_cons] at hlen; omega)
    obtain ⟨hhead, htail⟩ := List.append_inj (s₁ := byteBits x) (s₂ := byteBits y) h (by simp)
    rw [byteBits_injective hhead, ih htail (by simpa using hlen)]

/-- A string of whole bytes is the one of its bytes. -/
theorem bytesBits_bitsBytes {n : Nat} {bs : Bits} (h : bs.length = 8 * n) : bytesBits (bitsBytes n bs) = bs := by
  induction n generalizing bs with
  | zero => exact (List.length_eq_zero_iff.1 h).symm
  | succ n ih =>
    rw [bitsBytes, bytesBits, byteBits_ofNat_bitsNat (by rw [List.length_take]; omega),
      ih (by rw [List.length_drop]; omega), List.take_append_drop]

theorem padded_length_ceil8 (bs : Bits) : (padded bs).length = 8 * ceil8 bs.length := by
  rw [padded_length]
  unfold padCount ceil8
  omega

/-- How many bytes the archive of a stream has, with the tree `o` (R203). -/
def archiveSize (T : List Byte) (o : Option Tree) : Nat :=
  10 + ceil8 (serTree o).length + ceil8 (payloadOf (codeTable o) T).length

theorem archiveBits_eq (T : List Byte) (o : Option Tree) : archiveBits T o =
    headerBits T.length (serTree o).length ++ padded (serTree o) ++ padded (payloadOf (codeTable o) T) := rfl

theorem archiveBits_length (T : List Byte) (o : Option Tree) : (archiveBits T o).length = 8 * archiveSize T o := by
  rw [archiveBits_eq, List.length_append, List.length_append, headerBits_length, padded_length_ceil8, padded_length_ceil8,
    archiveSize]
  omega

/-- The bits of the archive of a stream are those of its fields (R85). -/
theorem bytesBits_archiveOf (T : List Byte) : bytesBits (archiveOf T) = archiveBits T (treeOf T) :=
  bytesBits_bitsBytes (by rw [archiveBits_length]; omega)

theorem archiveOf_length (T : List Byte) : (archiveOf T).length = archiveSize T (treeOf T) := by
  have h := congrArg List.length (bytesBits_archiveOf T)
  rw [bytesBits_length, archiveBits_length] at h
  omega

/-- `AR_PACK` at the start of `OUT` writes the archive of the stream, if it fits (R201 to R204). -/
theorem arPack_refines {s : State} (htree : s.tree.isTree (treeOf s.stream)) (hcode : s.code = codeTable (treeOf s.stream))
    (hptr : s.out.ptr = 0) :
    Outputs (fitted s.caps.outCap (archiveOf s.stream)) (arPack s) := by
  have hpayload : s.stream.flatMap s.codeOf = payloadOf (codeTable (treeOf s.stream)) s.stream := by rw [← hcode]; rfl
  have hlen : s.tb.len = s.stream.length := (bytesFrom_length _ _ _).symm
  have hsize : (archiveOf s.stream).length = 10 + ceil8 (serTree (treeOf s.stream)).length +
      ceil8 (s.stream.flatMap s.codeOf).length := by rw [archiveOf_length, archiveSize, hpayload]
  by_cases hroom : (archiveOf s.stream).length ≤ s.caps.outCap
  · obtain ⟨t, ht, hx, hbw, -⟩ := arPack_wrote htree rfl rfl (by omega)
    have hbits := hx.appended 0 (Nat.zero_le _)
    have hstart : s.packStart.bitsFrom 0 = [] := by
      rw [bitsFrom_of_aligned rfl]
      show bytesBits (bytesFrom _ 0 (s.out.ptr - 0)) = []
      rw [hptr]
      rfl
    rw [bitsFrom_of_aligned hbw, hstart, List.nil_append, hpayload, hlen, ← archiveBits_eq, ← bytesBits_archiveOf] at hbits
    rw [fitted, if_pos hroom, ht]
    exact .ok (bytesBits_injective hbits)
  · obtain ⟨t, ht, -⟩ := arPack_full htree rfl rfl (s := s) (by omega)
    rw [fitted, if_neg hroom, ht]
    exact .error trivial

-- The call ---------------------------------------------------------------------------------------------------------------

/-- `COMPRESS` after the stream is complete (R223). -/
def packWork : Op Unit := do
  setPhase .cCount
  hfCount
  setPhase .cBuild
  hfBuild
  hfCodegen
  setPhase .cPack
  arPack

/-- The state in which a stream is packed: counted, its tree built and its codes generated (R161 to R172). -/
def State.coded (s : State) : State :=
  (((s.setFreq (s.countFrom 0 s.tb.len [])).setTree (s.tree.build (s.countFrom 0 s.tb.len []))).setCode
    (codeTable (s.tree.build (s.countFrom 0 s.tb.len [])).shape)).setSeq ⟨.cPack, .start⟩

theorem packWork_apply (s : State) : packWork s = arPack (s.setSeq ⟨.cCount, .start⟩).coded := rfl

/-- The stream is packed with its own tree and the codes of it. -/
theorem coded_tree (s : State) : s.coded.stream = s.stream ∧ s.coded.tree.isTree (treeOf s.stream) ∧
    s.coded.code = codeTable (treeOf s.stream) := by
  have hcount (v : Byte) : freqAt (s.countFrom 0 s.tb.len []) v.toNat = s.stream.count v :=
    (freqAt_countFrom s 0 s.tb.len [] v).trans (Nat.zero_add _)
  obtain ⟨htree, -⟩ := build_of_stream hcount s.tree
  exact ⟨rfl, htree, congrArg codeTable (shape_of_isTree htree)⟩

/-- After its stream a compression writes the archive of it, if it fits (R201, R223). -/
theorem packWork_refines {s : State} (hptr : s.out.ptr = 0) :
    Outputs (fitted s.caps.outCap (archiveOf s.stream)) (packWork s) := by
  obtain ⟨hstream, htree, hcode⟩ := coded_tree (s.setSeq ⟨.cCount, .start⟩)
  rw [← hstream] at htree hcode
  have hpack := arPack_refines htree hcode hptr
  rw [hstream] at hpack
  rw [packWork_apply]
  exact hpack

/-- The two buffers of a compression, one after the other (R223). -/
def refCompressIn (tCap outCap : Nat) (inp : List Byte) : Except ErrKind (List Byte) :=
  (fitted tCap (streamOf (findTokens inp))).bind fun T => fitted outCap (archiveOf T)

/-- What a compression begins with: nothing consumed, nothing staged, nothing written (R120, R141, R223). -/
def State.encodeStart (s : State) : State :=
  (((s.setWin { s.win with pos := 0, fill := 0 }).setEnc { s.enc with flg := 0, gc := 0, gplen := 0 }).setTb
    { s.tb with len := 0 }).setFinder { s.finder with cur := 0 }

theorem encodeStart_atToken (s : State) : s.encodeStart.AtToken [] [] where
  frame := rfl
  whole := rfl
  gc := rfl
  flg := rfl
  staged := rfl
  stream := rfl
  started := by decide
  written := Nat.zero_le _
  cursor := Nat.zero_le _
  window := windowHolds_init

/-- The work of a compression computes the reference compression of the input (R223). -/
theorem compressWork_refines {s : State} (hptr : s.out.ptr = 0) :
    Outputs (refCompressIn s.tCap s.caps.outCap s.input) (compressWork s) := by
  have hwork : compressWork s = ((tokenLoop s.host.inLen >>= fun _ => teFlush) >>= fun _ => packWork) s.encodeStart := by
    rw [bind_assoc]
    rfl
  have htokens := tokenLoop_refines (encodeStart_atToken s) s.host.inLen
  rw [hwork]
  rw [← input_length s] at htokens ⊢
  refine Refines.bind htokens fun T t _ ⟨hframe, hstream⟩ => ?_
  have hcap : s.caps.outCap = t.caps.outCap := by rw [hframe]; rfl
  rw [hcap, ← hstream]
  exact packWork_refines (by rw [hframe]; exact hptr)

/-- A compression of a ready engine (R222, R223). -/
theorem exec_compress_ended {s : State} (h : s.ready) : ∃ t, exec .compress s = .next t ∧
    t.ended (if s.host.inLen ≤ s.caps.inCap then refCompressIn s.tCap s.caps.outCap s.input
      else .error .capacityExceeded) := by
  obtain ⟨hbusy, hturns⟩ := h
  simp only [exec, execCompress, hbusy, compressBody_eq]
  exact runOp_command_ended (r := refCompressIn s.tCap s.caps.outCap s.input) hturns
    (compressWork_refines (s := s.started .cTokens) rfl)

/-- The stream and the archive of it both fit, or `CapacityExceeded` (R223, R228). -/
theorem refCompressIn_eq (tCap outCap : Nat) (inp : List Byte) : refCompressIn tCap outCap inp =
    if (streamOf (findTokens inp)).length ≤ tCap ∧ (refCompress inp).length ≤ outCap then .ok (refCompress inp)
    else .error .capacityExceeded := by
  unfold refCompressIn fitted
  by_cases hstream : (streamOf (findTokens inp)).length ≤ tCap
  · rw [if_pos hstream]
    exact if_congr (and_iff_right hstream).symm rfl rfl
  · rw [if_neg hstream, if_neg fun hc => hstream hc.1]
    rfl

/-- Settles O55, by `exec_compress_ended`. -/
theorem compressWritesTheArchiveOfItsInput : Obligations.CompressWritesTheArchiveOfItsInput := by
  unfold Obligations.CompressWritesTheArchiveOfItsInput
  intro s hs
  obtain ⟨t, ht, hend⟩ := exec_compress_ended hs
  refine ⟨t, ht, ?_⟩
  rw [refCompressIn_eq, ← ite_and] at hend
  split
  · next hfits =>
    rwa [if_pos hfits] at hend
  · next hlong =>
    rwa [if_neg hlong] at hend

end Sys2Proof.Machine

/-! The round trip (R225): the reference decompression of an archive gives back the input it was made from. -/

namespace Sys2Proof.Machine

-- The tree of a stream ---------------------------------------------------------------------------------------------------

/-- Every stream has a frequency table (R161). -/
theorem exists_freq (T : List Byte) : ∃ f : Table Nat, ∀ v : Byte, freqAt f v.toNat = T.count v := by
  induction T with
  | nil => exact ⟨[], fun _ => rfl⟩
  | cons b T ih =>
    obtain ⟨f, hf⟩ := ih
    refine ⟨tableSet f b.toNat (freqAt f b.toNat + 1), fun v => ?_⟩
    rw [freqAt_tableSet, hf, hf, List.count_cons]
    simp only [BitVec.toNat_inj, beq_iff_eq, eq_comm (a := b)]
    by_cases h : v = b <;> simp [h]

/-- What the tree of a stream is made of: nothing for the empty stream, else the values of the stream, each once (R163, R168). -/
theorem treeOf_spec (T : List Byte) : (treeOf T = none ↔ T = []) ∧ ∀ tr, treeOf T = some tr →
    treeLeaves tr ≤ 256 ∧ (treeValues tr).Nodup ∧ ∀ v ∈ T, v ∈ treeValues tr := by
  obtain ⟨f, hf⟩ := exists_freq T
  obtain ⟨htree, hnone, hsome⟩ := build_of_stream hf State.reset.tree
  refine ⟨hnone, fun tr htr => ?_⟩
  rw [htr] at htree
  obtain ⟨-, -, -, hleaves⟩ := htree
  obtain ⟨-, hcount, -⟩ := hsome tr htr
  refine ⟨hleaves, List.nodup_iff_count_le_one.2 fun v => ?_, fun v hv => ?_⟩
  · rw [hcount]
    split <;> omega
  · exact List.count_pos_iff.1 (by rw [hcount, if_pos hv]; exact Nat.one_pos)

-- The payload ------------------------------------------------------------------------------------------------------------

/-- Every value of a tree has a path (R91). -/
theorem exists_leadsTo {tr : Tree} {v : Byte} (h : v ∈ treeValues tr) : ∃ path, leadsTo tr path v := by
  induction tr with
  | leaf w => exact ⟨[], leadsTo_leaf.2 ⟨rfl, (List.mem_singleton.1 h).symm⟩⟩
  | node l r ihl ihr =>
    rcases List.mem_append.1 h with hl | hr
    · obtain ⟨path, hpath⟩ := ihl hl
      exact ⟨false :: path, hpath⟩
    · obtain ⟨path, hpath⟩ := ihr hr
      exact ⟨true :: path, hpath⟩

/-- A path of a tree is read back, whatever follows it, and leads to its value (R93). -/
theorem codePath_of_leadsTo {tr : Tree} {path : Bits} {v : Byte} (h : leadsTo tr path v) (rest : Bits) :
    codePath tr (path ++ rest) = some (path, rest) ∧ treeValueAt tr path = v := by
  induction tr generalizing path with
  | leaf w =>
    obtain ⟨rfl, rfl⟩ := leadsTo_leaf.1 h
    exact ⟨codePath_leaf w rest, rfl⟩
  | node l r ihl ihr =>
    cases path with
    | nil => exact h.elim
    | cons bit path =>
      rw [List.cons_append, codePath_node]
      cases bit with
      | false =>
        obtain ⟨hread, hvalue⟩ := ihl h
        exact ⟨by simp [hread], hvalue⟩
      | true =>
        obtain ⟨hread, hvalue⟩ := ihr h
        exact ⟨by simp [hread], hvalue⟩

/-- The code word of a value of the tree is read back as that value (R91, R171). -/
theorem codewordBits_codeBits {tr : Tree} (hnodup : (treeValues tr).Nodup) {v : Byte} (hv : v ∈ treeValues tr)
    (rest : Bits) : ∃ path, codeBits (codeTable (some tr)) v = path ∧
      codewordBits tr (path ++ rest) = some (path, rest) ∧ treeValueAt tr path = v := by
  cases tr with
  | leaf w =>
    obtain rfl : v = w := List.mem_singleton.1 hv
    exact ⟨[false], by simp [codeBits, codeTable, tableGet], rfl, rfl⟩
  | node l r =>
    obtain ⟨path, hpath⟩ := exists_leadsTo hv
    have hget : tableGet (codeTable (some (.node l r))) v.toNat = some path :=
      (tableGet_codesInto hnodup [] [] v path).2 (.inl (leadsOn_nil.2 hpath))
    exact ⟨path, by rw [codeBits, hget], codePath_of_leadsTo hpath rest⟩

/-- The payload of a stream is read back as that stream (R192, R193). -/
theorem refSymbols_payloadOf {tr : Tree} (hnodup : (treeValues tr).Nodup) {T : List Byte}
    (hT : ∀ v ∈ T, v ∈ treeValues tr) (rest : Bits) : refSymbols tr T.length (payloadOf (codeTable (some tr)) T ++ rest) = .ok T := by
  induction T with
  | nil => rfl
  | cons v T ih =>
    obtain ⟨path, hcode, hread, hvalue⟩ := codewordBits_codeBits hnodup (hT v List.mem_cons_self)
      (payloadOf (codeTable (some tr)) T ++ rest)
    have hpayload : payloadOf (codeTable (some tr)) (v :: T) ++ rest = path ++ (payloadOf (codeTable (some tr)) T ++ rest) := by
      rw [payloadOf, List.flatMap_cons, hcode, List.append_assoc]
      rfl
    rw [List.length_cons, hpayload, refSymbols_some hread, ih fun w hw => hT w (List.mem_cons_of_mem v hw), hvalue]
    rfl

/-- With or without a tree, the payload of a stream is read back (R85, R193). -/
theorem refPayload_payloadOf (T : List Byte) (rest : Bits) :
    refPayload (treeOf T) T.length (payloadOf (codeTable (treeOf T)) T ++ rest) = .ok T := by
  obtain ⟨hnone, hsome⟩ := treeOf_spec T
  cases ho : treeOf T with
  | none => rw [hnone.1 ho]; rfl
  | some tr =>
    obtain ⟨-, hnodup, hvalues⟩ := hsome tr ho
    exact refSymbols_payloadOf hnodup hvalues rest

/-- The tree of a stream is read back from its tree field, which has fewer than 2^32 bits (R88, R182). -/
theorem refTree_serTree (T : List Byte) : refTree (serTree (treeOf T)) = .ok (treeOf T) ∧
    (serTree (treeOf T)).length < 2 ^ 32 := by
  obtain ⟨-, hsome⟩ := treeOf_spec T
  cases ho : treeOf T with
  | none => exact ⟨rfl, Nat.two_pow_pos 32⟩
  | some tr =>
    obtain ⟨hleaves, -⟩ := hsome tr ho
    have hlen := ser_length_eq tr
    exact ⟨refTree_ser hleaves, by show (Tree.ser tr).length < _; omega⟩

-- The header -------------------------------------------------------------------------------------------------------------

/-- Bits of `IN` that are known to be two strings, string by string. -/
theorem inBits_split {s : State} {q n : Nat} {xs ys : Bits} (h : s.inBits q n = xs ++ ys) :
    s.inBits q xs.length = xs ∧ s.inBits (q + xs.length) (n - xs.length) = ys := by
  have hlen := congrArg List.length h
  rw [inBits_length, List.length_append] at hlen
  subst hlen
  rw [inBits_add] at h
  rw [Nat.add_sub_cancel_left]
  exact List.append_inj h (inBits_length _ _ _)

/-- A field of 32 bits in `IN` (R51). -/
theorem be32_of_inBits {s : State} {a n : Nat} (h : s.inBits (8 * a) 32 = natBits 32 n) (hn : n < 2 ^ 32) :
    s.be32 a = n := by
  rw [← bitsNat_be32, h, bitsNat_natBits, Nat.mod_eq_of_lt hn]

theorem inByte_of_inBits {s : State} {a : Nat} {b : Byte} (h : s.inBits (8 * a) 8 = byteBits b) : s.inByte a = b :=
  byteBits_injective ((inBits_byte s a).symm.trans h)

/-- The fields of the archive of `T`, where they stand (R85 to R90). -/
theorem archive_regions {s : State} {T : List Byte} (h : s.input = archiveOf T) :
    (s.inBits 0 8 = byteBits 0x43 ∧ s.inBits 8 8 = byteBits 0x5A) ∧ s.inBits 16 32 = natBits 32 T.length ∧
      s.inBits 48 32 = natBits 32 (serTree (treeOf T)).length ∧
      s.inBits 80 (serTree (treeOf T)).length = serTree (treeOf T) ∧
      s.inBits (80 + 8 * ceil8 (serTree (treeOf T)).length)
        (8 * s.host.inLen - (80 + 8 * ceil8 (serTree (treeOf T)).length)) =
          padded (payloadOf (codeTable (treeOf T)) T) := by
  have hbits : s.inBits (8 * 0) (8 * s.host.inLen) = archiveBits T (treeOf T) :=
    (inBits_bytes s 0 s.host.inLen).trans ((congrArg bytesBits h).trans (bytesBits_archiveOf T))
  rw [archiveBits_eq, headerBits] at hbits
  simp only [List.append_assoc] at hbits
  obtain ⟨h0, hbits⟩ := inBits_split hbits
  obtain ⟨h1, hbits⟩ := inBits_split hbits
  obtain ⟨hlen, hbits⟩ := inBits_split hbits
  obtain ⟨htbl, hbits⟩ := inBits_split hbits
  obtain ⟨htree, hpayload⟩ := inBits_split hbits
  obtain ⟨htree, -⟩ := inBits_split (ys := List.replicate _ false) htree
  simp only [byteBits_length, natBits_length, padded_length_ceil8, Nat.reduceMul, Nat.reduceAdd, Nat.sub_sub]
    at h0 h1 hlen htbl htree hpayload
  exact ⟨⟨h0, h1⟩, hlen, htbl, htree, hpayload⟩

/-- The input is the archive of `T`: its header is good and names the length of the stream and the tree field, which is followed
by the payload (R85 to R90). -/
theorem archive_fields {s : State} {T : List Byte} (h : s.input = archiveOf T) (hT : T.length < 2 ^ 32) :
    ¬ s.badHeader ∧ s.be32 2 = T.length ∧ s.inBits 80 (s.be32 6) = serTree (treeOf T) ∧
      s.payloadField = padded (payloadOf (codeTable (treeOf T)) T) := by
  obtain ⟨⟨h0, h1⟩, hlen, htbl, htree, hpayload⟩ := archive_regions h
  have hsize := congrArg List.length h
  rw [archiveOf_length, input_length, archiveSize] at hsize
  have h6 : s.be32 6 = (serTree (treeOf T)).length := be32_of_inBits (a := 6) htbl (refTree_serTree T).2
  refine ⟨not_badHeader_iff.2 ⟨by omega, ⟨inByte_of_inBits (a := 0) h0, inByte_of_inBits (a := 1) h1⟩, by rw [h6]; omega⟩,
    be32_of_inBits (a := 2) hlen hT, by rw [h6]; exact htree, ?_⟩
  rw [State.payloadField, h6, Nat.mul_add]
  exact hpayload

-- The round trip ---------------------------------------------------------------------------------------------------------

/-- The archive of a stream decompresses to what the stream decodes to (R192, R225). -/
theorem refDecompress_archive {s : State} {T : List Byte} {tCap : Nat} (h : s.input = archiveOf T) (hT : T.length < 2 ^ 32)
    (hcap : T.length ≤ tCap) (outCap : Nat) : refDecompress tCap outCap s.input = refDecode outCap T.length T [] := by
  obtain ⟨hgood, hlen, htree, hpayload⟩ := archive_fields h hT
  have hnone : ¬ (0 < T.length ∧ treeOf T = none) := fun hc => by
    rw [(treeOf_spec T).1.1 hc.2] at hc
    exact Nat.lt_irrefl 0 hc.1
  rw [refDecompress_goodHeader _ _ hgood, htree, (refTree_serTree T).1, hlen, hpayload]
  show refStream _ _ _ _ _ = _
  rw [refStream_eq, if_neg hnone, if_neg (Nat.not_lt.2 hcap), padded, refPayload_payloadOf]
  rfl

/-- The stream of the tokens of an input decodes to the input (R129, R130, R155). -/
theorem refDecode_findTokens {inp : List Byte} {outCap : Nat} (h : inp.length ≤ outCap) :
    refDecode outCap (streamOf (findTokens inp)).length (streamOf (findTokens inp)) [] = .ok inp := by
  obtain ⟨hfits, hreplay⟩ := tokensReproduceTheInput inp
  have hdecode := refDecode_of_tokens (cap := outCap) (out := [])
    (tokensFrom_streamOf (matchOperands_of_tokensFit hfits) (Nat.le_refl _)) hfits (by rwa [hreplay])
  rwa [hreplay] at hdecode

/-- A compression that ended with `Ok` wrote the archive of its input, whose stream fits `T_CAP` (R223, R227). -/
theorem exec_compress_ok {s t : State} (hs : s.ready) (ht : exec .compress s = .next t) (hok : t.host.status = 0x02) :
    t.result = refCompress s.input ∧ (streamOf (findTokens s.input)).length ≤ s.tCap := by
  obtain ⟨t', ht', hend⟩ := compressWritesTheArchiveOfItsInput s hs
  obtain rfl : t = t' := by rw [ht] at ht'; cases ht'; rfl
  split at hend
  · next hfits => exact ⟨hend.2.2.2, hfits.2.1⟩
  · have hstatus := hend.1
    rw [hok] at hstatus
    exact absurd hstatus (by decide)

/-- Settles O57: what the compression wrote by `exec_compress_ok`, what it decompresses to by `refDecompress_archive` and
`refDecode_findTokens`. -/
theorem decompressInvertsCompress : Obligations.DecompressInvertsCompress := by
  unfold Obligations.DecompressInvertsCompress
  intro s t u hs ht hok hu hinput hin htCap hout
  obtain ⟨hresult, hstream⟩ := exec_compress_ok hs ht hok
  obtain ⟨w, hw, hend⟩ := exec_decompress_ended hu
  have harchive : u.input = archiveOf (streamOf (findTokens s.input)) := hinput.trans hresult
  rw [if_pos hin, refDecompress_archive harchive (Nat.lt_of_le_of_lt hstream (tCap_lt s)) (Nat.le_trans hstream htCap),
    refDecode_findTokens (by rwa [input_length])] at hend
  exact ⟨w, hw, hend⟩

end Sys2Proof.Machine

/-! The errors that the operations of each phase can raise (R240 to R244, R251), and that an engine step which ends a call with an
error has raised one of its phase. -/

namespace Sys2Proof.Machine

variable {α β : Type} {R E : ErrKind → Prop}

-- Operations and the errors they raise --------------------------------------------------------------------------------------

/-- In a call, with a bit reader whose error (`BR_ERR`) is one of `R`. -/
def State.InCall (R : ErrKind → Prop) (s : State) : Prop := s.host.status = 0x01 ∧ R s.br.err

/-- In a call with a reader's error of `R`, `x` raises errors of `E` alone, and ends with the call still in progress. -/
def Op.Raises (R E : ErrKind → Prop) (x : Op α) : Prop :=
  Op.Triple (State.InCall R) x (fun _ => State.InCall R) fun st _ => ∀ e, st = .err e → E e

namespace Op.Raises

theorem bind {x : Op α} {f : α → Op β} (hx : Op.Raises R E x) (hf : ∀ a, Op.Raises R E (f a)) :
    Op.Raises R E (x >>= f) := Op.Triple.bind hx hf

theorem pure (a : α) : Op.Raises R E (pure a : Op α) := Op.Triple.pure fun _ h => h

theorem upd {f : State → State} (h : ∀ s, s.InCall R → (f s).InCall R) : Op.Raises R E (upd f) := Op.Triple.upd h

theorem look (f : State → α) : Op.Raises R E (look f) := fun _ h => h

theorem check {c : Prop} [Decidable c] {e : ErrKind} (he : E e) : Op.Raises R E (check c e) :=
  Op.Triple.check (fun _ h _ => h) fun _ _ _ _ heq => by cases heq; exact he

theorem need (c : Prop) [Decidable c] (op : String) : Op.Raises R E (need c op) :=
  Op.Triple.need (fun _ h _ => h) fun _ _ _ _ heq => nomatch heq

theorem refuse (r : Refusal) : Op.Raises R E (refuse r : Op α) := Op.Triple.refuse fun _ _ _ heq => nomatch heq

theorem ite {c : Prop} [Decidable c] {x y : Op α} (hx : Op.Raises R E x) (hy : Op.Raises R E y) :
    Op.Raises R E (if c then x else y) := Op.Triple.ite (fun _ => hx) fun _ => hy

end Op.Raises

-- Operations that raise nothing ---------------------------------------------------------------------------------------------

theorem winInit_raises : Op.Raises R E winInit := .upd fun _ h => h

theorem teInit_raises : Op.Raises R E teInit := .upd fun _ h => h

theorem hfCount_raises : Op.Raises R E hfCount := .upd fun _ h => h

theorem hfBuild_raises : Op.Raises R E hfBuild := .upd fun _ h => h

theorem hfCodegen_raises : Op.Raises R E hfCodegen := .upd fun _ h => h

theorem bwInit_raises : Op.Raises R E bwInit := .upd fun _ h => h

theorem winPut_raises (b : Byte) : Op.Raises R E (winPut b) := .upd fun _ h => h

theorem appendInput_raises (k n : Nat) : Op.Raises R E (appendInput k n) := by
  induction n generalizing k with
  | zero => exact .pure _
  | succ n ih => exact .bind (.look _) fun _ => .bind (winPut_raises _) fun _ => ih _

theorem mfStep_raises : Op.Raises R E mfStep := by
  have advanced (n : Nat) (t : Token) : Op.Raises R E (advanceCur n >>= fun _ => pure t) :=
    .bind (.upd fun _ h => h) fun _ => .pure _
  exact .bind (.look _) fun _ => .bind (.need _ _) fun _ => .bind (.upd fun _ h => h) fun _ => .bind (.look _) fun _ =>
    .ite (.bind (appendInput_raises _ _) fun _ => advanced _ _) (.bind (winPut_raises _) fun _ => advanced _ _)

theorem hfSerTree_raises : Op.Raises R E hfSerTree :=
  .bind (.look _) fun _ => .bind (.upd fun _ h => h) fun _ => .pure _

/-- `BR_INIT` refuses a region past the input (R109), and leaves its error to the reads. -/
theorem brInit_raises (start limit : Nat) {err : ErrKind} (he : R err) : Op.Raises R E (brInit start limit err) :=
  .bind (.look _) fun _ => .bind (.need _ _) fun _ => .upd fun _ h => ⟨h.1, he⟩

-- Appends: nothing but `CapacityExceeded` (R244) ----------------------------------------------------------------------------

section Capacity

variable (hcap : E .capacityExceeded)
include hcap

theorem outAppend_raises (v : Byte) : Op.Raises R E (outAppend v) :=
  .bind (.look _) fun _ => .bind (.check hcap) fun _ => .upd fun _ h => h

theorem tbAppend_raises (v : Byte) : Op.Raises R E (tbAppend v) :=
  .bind (.look _) fun _ => .bind (.check hcap) fun _ => .upd fun _ h => h

theorem appendStaged_raises (i n : Nat) : Op.Raises R E (appendStaged i n) := by
  induction n generalizing i with
  | zero => exact .pure _
  | succ n ih => exact .bind (.look _) fun _ => .bind (tbAppend_raises hcap _) fun _ => ih _

theorem teFlush_raises : Op.Raises R E teFlush :=
  .bind (.look _) fun _ => .ite (.bind (tbAppend_raises hcap _) fun _ => .bind (appendStaged_raises hcap _ _) fun _ =>
    .upd fun _ h => h) (.pure _)

theorem teCount_raises : Op.Raises R E teCount :=
  .bind (.upd fun _ h => h) fun _ => .bind (.look _) fun _ => .ite (teFlush_raises hcap) (.pure _)

theorem tePutLiteral_raises (b : Byte) : Op.Raises R E (tePutLiteral b) :=
  .bind (.upd fun _ h => h) fun _ => teCount_raises hcap

theorem tePutMatch_raises (offset length : Nat) : Op.Raises R E (tePutMatch offset length) :=
  .bind (.upd fun _ h => h) fun _ => teCount_raises hcap

theorem bwFlushByte_raises : Op.Raises R E bwFlushByte :=
  .bind (.look _) fun _ => .bind (outAppend_raises hcap _) fun _ => .upd fun _ h => h

theorem bwPutBit_raises (b : Bool) : Op.Raises R E (bwPutBit b) :=
  .bind (.upd fun _ h => h) fun _ => .bind (.look _) fun _ => .ite (bwFlushByte_raises hcap) (.upd fun _ h => h)

theorem bwPutAll_raises (bs : Bits) : Op.Raises R E (bwPutAll bs) := by
  induction bs with
  | nil => exact .pure _
  | cons b bs ih => exact .bind (bwPutBit_raises hcap b) fun _ => ih

theorem bwAlign_raises : Op.Raises R E bwAlign :=
  .bind (.look _) fun _ => .ite (bwFlushByte_raises hcap) (.pure _)

theorem hfEncode_raises : Op.Raises R E hfEncode := by
  intro s h
  rw [hfEncode_apply]
  exact bwPutAll_raises hcap _ s h

theorem replayLoop_raises (offset n : Nat) : Op.Raises R E (replayLoop offset n) := by
  have winGet_raises : Op.Raises R E (winGet offset) := .bind (.look _) fun _ => .bind (.need _ _) fun _ => .pure _
  induction n with
  | zero => exact .pure _
  | succ n ih =>
    exact .bind winGet_raises fun b => .bind (outAppend_raises hcap b) fun _ => .bind (winPut_raises b) fun _ => ih

theorem acceptLiteral_raises (b : Byte) : Op.Raises R E (acceptLiteral b) :=
  .bind (.upd fun _ h => h) fun _ => .bind (outAppend_raises hcap b) fun _ => winPut_raises b

end Capacity

-- Reads: the error of the reader, and the checks of the decoders ------------------------------------------------------------

theorem brGetBit_raises : Op.Raises E E brGetBit := by
  rintro s ⟨hbusy, herr⟩
  rw [brGetBit_apply]
  by_cases hlt : s.br.pos < s.br.limit
  · rw [if_pos hlt]
    exact ⟨hbusy, herr⟩
  · rw [if_neg hlt]
    intro e heq
    cases heq
    exact herr

theorem brSkip_raises (n : Nat) : Op.Raises E E (brSkip n) := by
  induction n with
  | zero => exact .pure _
  | succ n ih => exact .bind brGetBit_raises fun _ => ih

section Tree

variable (hmal : E .malformedArchive)
include hmal

theorem allocNode_raises : Op.Raises E E allocNode :=
  .bind (.look _) fun _ => .bind (.check hmal) fun _ => .bind (.upd fun _ h => h) fun _ => .pure _

theorem acceptInternal_raises : Op.Raises E E acceptInternal :=
  .bind (allocNode_raises hmal) fun _ => .bind (brSkip_raises 1) fun _ => .upd fun _ h => h

theorem acceptLeaf_raises (v : Byte) : Op.Raises E E (acceptLeaf v) :=
  .bind (allocNode_raises hmal) fun _ => .bind (brSkip_raises 9) fun _ => .upd fun _ h => h

theorem checkMagic_raises : Op.Raises R E checkMagic := .bind (.look _) fun _ => .check hmal

theorem acceptTreeBitLen_raises (n : Nat) : Op.Raises R E (acceptTreeBitLen n) :=
  .bind (.upd fun _ h => h) fun _ => .bind (.look _) fun _ => .check hmal

end Tree

theorem acceptTokenLen_raises (n : Nat) : Op.Raises R E (acceptTokenLen n) := .upd fun _ h => h

theorem walkedTo_raises (t : TreeStore) (root leaf : Nat) : Op.Raises R E (walkedTo t root leaf) := by
  unfold walkedTo
  split
  · exact .pure _
  · exact .upd fun _ h => h

theorem acceptCodeword_raises (path : Bits) : Op.Raises E E (acceptCodeword path) := by
  refine .bind (.look _) fun _ => .bind (.need _ _) fun _ => ?_
  split
  · exact .need _ _
  · split
    · exact .refuse _
    · exact .bind (brSkip_raises _) fun _ => .bind (walkedTo_raises _ _ _) fun _ => .upd fun _ h => h

theorem needToken_raises (op : String) : Op.Raises R E (needToken op) := .bind (.look _) fun _ => .need _ _

section Token

variable (hinv : E .invalidToken)
include hinv

theorem acceptFlag_raises (v : Byte) : Op.Raises R E (acceptFlag v) :=
  .bind (.upd fun _ h => h) fun _ => .bind (.look _) fun _ => .check hinv

theorem checkMatchRoom_raises : Op.Raises R E checkMatchRoom := .bind (.look _) fun _ => .check hinv

theorem acceptMatch_raises (hcap : E .capacityExceeded) (o : BitVec 12) (l : BitVec 4) : Op.Raises R E (acceptMatch o l) :=
  .bind (.upd fun _ h => h) fun _ => .bind (.look _) fun _ => .bind (.check hinv) fun _ => .bind (.look _) fun _ =>
    .bind (.need _ _) fun _ => replayLoop_raises hcap _ _

end Token

-- What the sequencer raises -------------------------------------------------------------------------------------------------

/-- What the sequencer does next raises errors of `E` alone: its own, or one that the operation it runs has taken. -/
def Fetched.Raises (E : ErrKind → Prop) (s : State) : Fetched → Prop
  | .raise e => E e
  | .run i _ _ => ∀ t, exec i s = .next t → t.host.status = 0x01 ∨ ∃ u e, E e ∧ t = State.takeError u e
  | _ => True

theorem fetched_raises_run {s : State} {i : Instr} {p : Phase} {l : Line} {x : Op Unit} (hi : exec i s = runOp x s)
    (hx : Op.Raises R E x) (hs : s.InCall R) : (Fetched.run i p l).Raises E s := by
  intro t ht
  rw [hi] at ht
  rcases runOp_eq_next.1 ht with hok | ⟨e, u, herr, rfl⟩
  · exact .inl (hx.ok hs hok).1
  · exact .inr ⟨u, e, hx.error hs herr e rfl, rfl⟩

theorem fetched_raises_runRes {s : State} {i : Instr} {p : Phase} {l : Line} {x : Op α} {f : α → OpResult}
    (hi : exec i s = runRes x f s) (hx : Op.Raises R E x) (hs : s.InCall R) : (Fetched.run i p l).Raises E s := by
  intro t ht
  rw [hi] at ht
  rcases runRes_eq_next.1 ht with ⟨a, u, hok, rfl⟩ | ⟨e, u, herr, rfl⟩
  · exact .inl (hx.ok hs hok).1
  · exact .inr ⟨u, e, hx.error hs herr e rfl, rfl⟩

theorem element_raises {s : State} {sl : Slot} {bs : Bits} {e : ErrKind} {p : Phase} {l : Line} (he : E e)
    (h : ∀ i rest, decode sl bs = .ok (i, rest) → (Fetched.run i p l).Raises E s) :
    (element (decode sl bs) e p l).Raises E s := by
  cases hd : decode sl bs with
  | error x => exact he
  | ok r => exact h r.1 r.2 hd

/-- The phases each error may come from: the capacities bound every phase (R241 to R244). -/
def Phase.Allows (p : Phase) (e : ErrKind) : Prop :=
  (e = .malformedArchive → p = .dUnpack) ∧ (e = .unexpectedEndOfStream → p = .dHuff) ∧ (e = .invalidToken → p = .dTokens)

theorem allows_capacityExceeded (p : Phase) : p.Allows .capacityExceeded := by simp [Phase.Allows]

theorem allows_malformedArchive : Phase.dUnpack.Allows .malformedArchive := by simp [Phase.Allows]

theorem allows_unexpectedEndOfStream : Phase.dHuff.Allows .unexpectedEndOfStream := by simp [Phase.Allows]

theorem allows_invalidToken : Phase.dTokens.Allows .invalidToken := by simp [Phase.Allows]

theorem fetchTokens_raises {s : State} (h : s.InCall AnyError) (l : Line) :
    (fetchTokens s l).Raises Phase.cTokens.Allows s := by
  have hcap := allows_capacityExceeded .cTokens
  unfold fetchTokens
  split
  · exact fetched_raises_run rfl winInit_raises h
  · exact fetched_raises_run rfl teInit_raises h
  · split
    · exact fetched_raises_run rfl (tePutLiteral_raises hcap _) h
    · exact fetched_raises_run rfl (tePutMatch_raises hcap _ _) h
    all_goals exact trivial
  · split
    · exact fetched_raises_runRes rfl mfStep_raises h
    · exact fetched_raises_run rfl (teFlush_raises hcap) h

theorem fetchBuild_raises {s : State} (h : s.InCall AnyError) (l : Line) : (fetchBuild l).Raises E s := by
  unfold fetchBuild
  split
  · exact fetched_raises_run rfl hfCodegen_raises h
  · exact fetched_raises_run rfl hfBuild_raises h

theorem fetchPack_raises {s : State} (h : s.InCall AnyError) (hq : s.seq.phase = .cPack) (l : Line) :
    (fetchPack s l).Raises Phase.cPack.Allows s := by
  have hcap := allows_capacityExceeded .cPack
  have hwrites : s.seq.phase.writes = true := by rw [hq]; rfl
  have hwritten : ∀ {i : Instr} {bs : Bits} {y : Op Unit} (l : Line), exec i s = runOp (writeOrRead (bwPutAll bs) y) s →
      (Fetched.run i .cPack l).Raises Phase.cPack.Allows s := fun l hi =>
    fetched_raises_run (hi.trans (runOp_writeOrRead_writes hwrites _ _)) (bwPutAll_raises hcap _) h
  unfold fetchPack
  split
  · exact fetched_raises_run rfl bwInit_raises h
  · exact hwritten _ rfl
  · exact hwritten _ rfl
  · exact hwritten _ rfl
  · exact fetched_raises_run (runOp_writeOrRead_writes hwrites _ _)
      (.bind (bwPutAll_raises hcap _) fun _ => bwAlign_raises hcap) h
  · exact fetched_raises_run rfl (hfEncode_raises hcap) h
  · exact fetched_raises_run rfl (bwAlign_raises hcap) h
  · exact trivial
  · exact fetched_raises_runRes rfl hfSerTree_raises h

/-- In the tree region the reader raises `MalformedArchive` (R176, R178). -/
theorem fetchNode_raises {s : State} (h : s.InCall Phase.dUnpack.Allows) (hq : s.seq.phase = .dUnpack) :
    (fetchNode s).Raises Phase.dUnpack.Allows s := by
  have hmal := allows_malformedArchive
  have hreads : s.seq.phase.writes = false := by rw [hq]; rfl
  unfold fetchNode
  split
  · split
    · exact trivial
    · exact hmal
  · split
    · refine element_raises h.2 fun i rest hd => ?_
      match s.inBits s.br.pos (min 9 (s.br.limit - s.br.pos)), hd with
      | [], hd => cases hd
      | false :: _, hd =>
        cases hd
        exact fetched_raises_run (runOp_writeOrRead_reads hreads _ _) (acceptInternal_raises hmal) h
      | true :: _, hd =>
        simp only [decode] at hd
        obtain ⟨v, ⟨⟩⟩ := fixedWidth_eq_ok hd
        exact fetched_raises_run (runOp_writeOrRead_reads hreads _ _) (acceptLeaf_raises hmal _) h
    · exact hmal

theorem fetchPayload_raises {s : State} (h : s.InCall AnyError) : (fetchPayload s).Raises Phase.dUnpack.Allows s := by
  unfold fetchPayload
  split
  · exact allows_malformedArchive
  · split
    · exact allows_capacityExceeded _
    · exact fetched_raises_run rfl (brInit_raises _ _ trivial) h

theorem fetchUnpack_raises {s : State} (h : s.InCall AnyError) (hq : s.seq.phase = .dUnpack) {l : Line}
    (hnodes : l = .nodes → s.InCall Phase.dUnpack.Allows) : (fetchUnpack s l).Raises Phase.dUnpack.Allows s := by
  have hmal := allows_malformedArchive
  have hreads : s.seq.phase.writes = false := by rw [hq]; rfl
  unfold fetchUnpack
  split
  · refine element_raises hmal fun i rest hd => ?_
    simp only [decode] at hd
    obtain ⟨v, ⟨⟩⟩ := fixedWidth_eq_ok hd
    exact fetched_raises_run (runOp_writeOrRead_reads hreads _ _) (acceptTokenLen_raises _) h
  · refine element_raises hmal fun i rest hd => ?_
    simp only [decode] at hd
    obtain ⟨v, ⟨⟩⟩ := fixedWidth_eq_ok hd
    exact fetched_raises_run (runOp_writeOrRead_reads hreads _ _) (acceptTreeBitLen_raises hmal _) h
  · split
    · exact trivial
    · exact fetched_raises_run rfl (brInit_raises _ _ trivial) h
  · exact fetchNode_raises (hnodes rfl) hq
  · exact fetchPayload_raises h
  · split
    · exact hmal
    · refine element_raises hmal fun i rest hd => ?_
      simp only [decode] at hd
      obtain ⟨v, hv⟩ := fixedWidth_eq_ok hd
      split at hv <;> cases hv
      exact fetched_raises_run (runOp_writeOrRead_reads hreads _ _) (checkMagic_raises hmal) h

/-- In the payload region the reader raises `UnexpectedEndOfStream` (R195, R213). -/
theorem fetchSymbol_raises {s : State} (h : s.InCall Phase.dHuff.Allows) (hq : s.seq.phase = .dHuff) :
    (fetchSymbol s).Raises Phase.dHuff.Allows s := by
  unfold fetchSymbol
  split
  · split
    · exact trivial
    · refine element_raises h.2 fun i rest hd => ?_
      simp only [decode] at hd
      split at hd <;> cases hd
      exact fetched_raises_run (runOp_writeOrRead_reads (by rw [hq]; rfl) _ _) (acceptCodeword_raises _) h
  · exact trivial

theorem fetchToken_raises {s : State} (h : s.InCall AnyError) (hq : s.seq.phase = .dTokens) (i : Nat) :
    (fetchToken s i).Raises Phase.dTokens.Allows s := by
  have hinv := allows_invalidToken
  have hcap := allows_capacityExceeded .dTokens
  have hreads : s.seq.phase.writes = false := by rw [hq]; rfl
  unfold fetchToken
  split
  · exact trivial
  · split
    · exact trivial
    · refine element_raises hinv fun j rest hd => ?_
      generalize s.dec.dflg.getLsbD i = literal at hd
      cases literal with
      | true =>
        simp only [decode] at hd
        obtain ⟨v, ⟨⟩⟩ := fixedWidth_eq_ok hd
        exact fetched_raises_run (runOp_writeOrRead_reads hreads _ _)
          (.bind (needToken_raises _) fun _ => acceptLiteral_raises hcap _) h
      | false =>
        simp only [decode] at hd
        obtain ⟨v, ⟨⟩⟩ := fixedWidth_eq_ok hd
        exact fetched_raises_run (runOp_writeOrRead_reads hreads _ _) (.bind (needToken_raises _) fun _ =>
          .bind (checkMatchRoom_raises hinv) fun _ => acceptMatch_raises hinv hcap _ _) h

theorem fetchDecode_raises {s : State} (h : s.InCall AnyError) (hq : s.seq.phase = .dTokens) (l : Line) :
    (fetchDecode s l).Raises Phase.dTokens.Allows s := by
  have hinv := allows_invalidToken
  unfold fetchDecode
  split
  · split
    · refine element_raises hinv fun j rest hd => ?_
      simp only [decode] at hd
      obtain ⟨v, ⟨⟩⟩ := fixedWidth_eq_ok hd
      exact fetched_raises_run (runOp_writeOrRead_reads (by rw [hq]; rfl) _ _)
        (.bind (needToken_raises _) fun _ => acceptFlag_raises hinv _) h
    · exact trivial
  · exact fetchToken_raises h hq _
  · exact fetched_raises_run rfl winInit_raises h

/-- In a call of a sound state the sequencer raises the errors of its phase alone: while a tree or a payload is read, `BR_ERR` is
the error of that region. -/
theorem fetch_raises {s : State} (h : s.InRange) (hbusy : s.host.status = 0x01) :
    (fetch s).Raises s.seq.phase.Allows s := by
  have hcall : s.InCall AnyError := ⟨hbusy, trivial⟩
  cases hq : s.seq.phase <;> simp only [fetch, hq]
  case idle => exact trivial
  case cTokens => exact fetchTokens_raises hcall _
  case cCount => exact fetched_raises_run rfl hfCount_raises hcall
  case cBuild => exact fetchBuild_raises hcall _
  case cPack => exact fetchPack_raises hcall hq _
  case dUnpack =>
    refine fetchUnpack_raises hcall hq fun hl => ⟨hbusy, ?_⟩
    have hseq : s.seq = ⟨.dUnpack, .nodes⟩ := by rw [← hq, ← hl]
    rw [(h.treeRegion hseq).2]
    exact allows_malformedArchive
  case dHuff =>
    refine fetchSymbol_raises ⟨hbusy, ?_⟩ hq
    rw [(h.payloadRegion hq).2]
    exact allows_unexpectedEndOfStream
  case dTokens => exact fetchDecode_raises hcall hq _

-- The step ------------------------------------------------------------------------------------------------------------------

/-- An engine's turn in a call that leaves the status of an error has taken one that the sequencer raised. -/
theorem engineTurn_failed {s t : State} (hf : (fetch s).Raises E s) (hbusy : s.host.status = 0x01)
    (h : engineTurn exec s = .next t) (hstatus : t.host.status = 0x06) : ∃ u e, E e ∧ t = State.takeError u e := by
  have not_busy : ∀ {u : State}, u.host.status = 0x01 → u.host ≠ t.host := fun hu heq => by
    rw [heq, hstatus] at hu
    exact absurd hu (by decide)
  unfold engineTurn at h
  cases hfetch : fetch s with
  | wait => rw [hfetch] at h; cases h; exact absurd rfl (not_busy hbusy)
  | move p l => rw [hfetch] at h; cases h; exact absurd (goTo_host s p l).symm (not_busy hbusy)
  | raise e => rw [hfetch] at h hf; cases h; exact ⟨s, e, hf, rfl⟩
  | done => rw [hfetch] at h; cases h; exact absurd hstatus (by simp)
  | refuse r => rw [hfetch] at h; cases h
  | run i p l =>
    rw [hfetch] at h hf
    cases hx : exec i s with
    | fault r => simp only [hx, afterRun] at h; cases h
    | refused r => simp only [hx, afterRun] at h; cases h
    | next u =>
      simp only [hx] at h
      rcases hf u hx with hu | ⟨v, e, he, rfl⟩
      · have hhost : t.host = u.host := by
          rw [afterRun] at h
          split at h <;> cases h
          · rfl
          · exact goTo_host u p l
        exact absurd hhost.symm (not_busy hu)
      · rw [afterRun_takeError] at h
        cases h
        exact ⟨v, e, he, rfl⟩

/-- Settles O19: the step is the engine's turn, which takes an error that the sequencer raised (`engineTurn_failed`), one of its
phase (`fetch_raises`). -/
theorem errorsComeFromTheirPhases : Obligations.ErrorsComeFromTheirPhases := by
  unfold Obligations.ErrorsComeFromTheirPhases
  rintro s t ⟨hagree, hrange⟩ hturns hphase h hstatus
  have hbusy : s.host.status = 0x01 := hagree.busy.2 hphase
  have hturn : engineTurn exec s = .next t := by rwa [step, turnStep, hturns] at h
  obtain ⟨u, e, he, rfl⟩ := engineTurn_failed (fetch_raises hrange hbusy) hbusy hturn hstatus
  exact ⟨e, (tookError_takeError u e).1, he⟩

end Sys2Proof.Machine
